-- ==== Sys2Proof/Word.lean ====
section
/-! DEFINITION. The word types of the part: hub time, fine time and bytes (spec 00, Units and Time
Conventions), and the index types of its fixed tables. -/

namespace Sys2Proof

/-- One byte of a command, response or highway frame. -/
abbrev Byte := BitVec 8

/-- Hub time: a count of 100 ns ticks, 40 bits wide, wrapping (00, R1; 01, R2). -/
abbrev HubTime := BitVec 40

/-- Fine time: hub time in sixteenths of a tick, wrapping modulo 2^44 (00, R1). -/
abbrev FineTime := BitVec 44

/-- A site number 0 .. 47 (02, R21). -/
abbrev SiteNo := Fin 48

/-- A channel number 0 .. 3 (05). -/
abbrev ChannelNo := Fin 4

/-- A zone number 0 .. 191 (04, R68). -/
abbrev ZoneNo := Fin 192

/-- A probe slot number 0 .. 7 (03). -/
abbrev SlotNo := Fin 8

end Sys2Proof
end

