-- ==== Sys2Proof/Syntax.lean ====
section
/-! DEFINITION. The rows of the opcode table: one constructor of `Instr` per row, with the row's
operands. A host command carries its host label and the fields of its command frame as the
envelope of 09 carries them, before any check or clamp; `none` is a field left out of the frame. -/

namespace Sys2Proof

/-- The configuration fields of ENROL and AMEND SITE (02, R22; 09 identifiers 1 and 2). -/
structure SiteFields where
  members : Option (List Nat) := none
  steer : Option Nat := none
  share : Option Nat := none
  e : Option Nat := none
  o : Option Int := none
  m : Option Nat := none
  w : Option Nat := none
  idleHold : Option Nat := none
  ceiling : Option Nat := none
  fast : Option Nat := none
  slow : Option Nat := none
  gateFloor : Option Nat := none
  gain : Option Nat := none
  seed : Option Nat := none
deriving DecidableEq, Repr

/-- The settings of SET MEASUREMENT (03, R64). -/
structure MeasurementFields where
  settleCount : Option Nat := none
  staleLimit : Option Nat := none
  stepConfirm : Option Nat := none
  quietGap : Option Nat := none
deriving DecidableEq, Repr

/-- The fields of DEFINE ZONE, all required (04, R70). -/
structure ZoneDefinition where
  siteA : Nat
  siteB : Nat
  g : Int
  budget : Nat
  policy : Nat
deriving DecidableEq, Repr

/-- The fields of AMEND ZONE; a site given is refused by R72 (04). -/
structure ZoneFields where
  siteA : Option Nat := none
  siteB : Option Nat := none
  g : Option Int := none
  budget : Option Nat := none
  policy : Option Nat := none
deriving DecidableEq, Repr

/-- The settings of SET CHANNEL (05, R84). -/
structure ChannelFields where
  period0 : Option Nat := none
  period1 : Option Nat := none
  guardTime : Option Nat := none
  computeLead : Option Nat := none
  dispatch : Option Nat := none
  slipLimit : Option Nat := none
  gridPeriod : Option Nat := none
  gridOrigin : Option Nat := none
  notice : Option Nat := none
deriving DecidableEq, Repr

/-- The settings of SET TIMEBASE (01, R20). -/
structure TimebaseFields where
  edgeFilter : Option Nat := none
  lockWindow : Option Nat := none
  holdoverLimit : Option Nat := none
deriving DecidableEq, Repr

/-- The level count of a span: 2 or 4 (05, The batch record). -/
inductive Levels where
  | two
  | four
deriving DecidableEq, Repr

/-- The rate class of a span: 0 or 1 (05, The batch record). -/
inductive RateClass where
  | zero
  | one
deriving DecidableEq, Repr

/-- A span of a batch; an absent payload tag means fill (05, The batch record). -/
structure Span where
  symbols : Nat
  rate : RateClass
  levels : Levels
  payload : Option Nat
deriving DecidableEq, Repr

/-- The fields of SUBMIT (05, R88; 09 SUBMIT body). -/
structure Submission where
  channel : Nat
  tag : Nat
  mode : Nat
  air : Option HubTime
  sites : Option (List Nat)
  notice : Bool
  spans : List Span
deriving DecidableEq, Repr

/-- What COLLECT names: a tag or a channel (05, R105). -/
inductive CollectKey where
  | byTag (tag : Nat)
  | byChannel (channel : Nat)
deriving DecidableEq, Repr

/-- The check of R142 (07) that an inbound frame failed first. -/
inductive DiscardReason where
  | badKind
  | badCheck
  | badSite
  | badVerdict
deriving DecidableEq, Repr

/-- The rows of opcode_table.json. The stamp of `flagFound` is the arrival stamp of 07, R141: the hub time of
the period in which the first bit of the flag byte was sampled (notes/assumptions 21). -/
inductive Instr where
  | powerOn
  | reset
  | transactionBegin
  | responseReady
  | malformedFrame (identifier label : Option Byte)
  | enrol (label : Byte) (site : Nat) (fields : SiteFields)
  | amendSite (label : Byte) (site : Nat) (fields : SiteFields)
  | querySite (label : Byte) (site : Nat)
  | retire (label : Byte) (site : Nat)
  | probe (label : Byte) (site count : Nat)
  | setMeasurement (label : Byte) (fields : MeasurementFields)
  | defineZone (label : Byte) (zone : Nat) (fields : ZoneDefinition)
  | amendZone (label : Byte) (zone : Nat) (fields : ZoneFields)
  | dropZone (label : Byte) (zone : Nat)
  | queryZone (label : Byte) (zone : Nat)
  | setChannel (label : Byte) (channel : Nat) (fields : ChannelFields)
  | submit (label : Byte) (batch : Submission)
  | cancel (label : Byte) (tag : Nat)
  | flushChannel (label : Byte) (channel : Nat)
  | queryBatch (label : Byte) (tag : Nat)
  | collect (label : Byte) (key : CollectKey)
  | pin (label : Byte) (channel : Nat)
  | unpin (label : Byte) (channel : Nat)
  | timeMark (label : Byte) (second : Nat)
  | readTime (label : Byte)
  | setTimebase (label : Byte) (fields : TimebaseFields)
  | setHighway (label : Byte) (rate : Nat)
  | readStatus (label : Byte)
  | restart (label : Byte)
  | referenceLost
  | referenceReturned
  | edgeAccepted
  | glitch
  | slewAdjustment
  | missDeadline
  | holdoverElapsed
  | cadenceExpiry (site : SiteNo)
  | lineFree
  | echo (site sequence : Byte) (turnaround : BitVec 16)
  | probeTimeout (slot : SlotNo)
  | deafenEnd (site : SiteNo)
  | receipt (site channel : Byte) (tag : BitVec 16) (verdict : Byte) (turnaround : BitVec 16)
  | inboundFrameDiscarded (reason : DiscardReason)
  | computePoint (channel : ChannelNo)
  | release (tag : Nat) (site : SiteNo)
  | withdrawal (tag : Nat) (site : SiteNo)
  | airTime (tag : Nat)
  | batchEnd (tag : Nat)
  | receiptDeadline (tag : Nat) (site : SiteNo)
  | abortDeadline (tag : Nat) (site : SiteNo)
  | pulseBegins
  | ppsLowSample
  | flagFound (stamp : HubTime)
  | resetReleased
deriving DecidableEq, Repr

end Sys2Proof
end

