-- ==== Sys2Proof/WellFormed.lean ====
section
/-! DEFINITION. Which rows can come from a frame: every operand fits the place 09 gives it in its
frame. A value that fits its place but lies outside the range of its field is well-formed: the
command clamps it (08, R153) or refuses it (08, R152). -/

namespace Sys2Proof

/-- An optional unsigned field fits `bits` bits. -/
def fitsNat (bits : Nat) (x : Option Nat) : Bool := x.all (· < 2 ^ bits)

/-- An optional signed field fits 32 bits in two's complement (09, Value encodings). -/
def fitsInt (x : Option Int) : Bool := x.all fun v => -2147483648 ≤ v && v < 2147483648

/-- A list operand fits its count byte and its one-byte items (09, Value encodings). -/
def fitsList (x : Option (List Nat)) : Bool :=
  x.all fun l => l.length < 256 && l.all (· < 256)

def SiteFields.wf (f : SiteFields) : Bool :=
  fitsList f.members && fitsNat 8 f.steer && fitsNat 16 f.share && fitsNat 32 f.e && fitsInt f.o &&
  fitsNat 40 f.m && fitsNat 40 f.w && fitsNat 32 f.idleHold && fitsNat 40 f.ceiling &&
  fitsNat 32 f.fast && fitsNat 32 f.slow && fitsNat 32 f.gateFloor && fitsNat 8 f.gain &&
  fitsNat 32 f.seed

def MeasurementFields.wf (f : MeasurementFields) : Bool :=
  fitsNat 8 f.settleCount && fitsNat 8 f.staleLimit && fitsNat 8 f.stepConfirm &&
  fitsNat 32 f.quietGap

def ZoneDefinition.wf (f : ZoneDefinition) : Bool :=
  fitsNat 8 (some f.siteA) && fitsNat 8 (some f.siteB) && fitsInt (some f.g) &&
  fitsNat 32 (some f.budget) && fitsNat 8 (some f.policy)

def ZoneFields.wf (f : ZoneFields) : Bool :=
  fitsNat 8 f.siteA && fitsNat 8 f.siteB && fitsInt f.g && fitsNat 32 f.budget && fitsNat 8 f.policy

def ChannelFields.wf (f : ChannelFields) : Bool :=
  fitsNat 40 f.period0 && fitsNat 40 f.period1 && fitsNat 40 f.guardTime &&
  fitsNat 32 f.computeLead && fitsNat 40 f.dispatch && fitsNat 32 f.slipLimit &&
  fitsNat 40 f.gridPeriod && fitsNat 40 f.gridOrigin && fitsNat 8 f.notice

def TimebaseFields.wf (f : TimebaseFields) : Bool :=
  fitsNat 8 f.edgeFilter && fitsNat 40 f.lockWindow && fitsNat 32 f.holdoverLimit

def Span.wf (p : Span) : Bool := fitsNat 16 (some p.symbols) && fitsNat 16 p.payload

/-- ABSOLUTE (mode 0) requires its air time in the frame (09, SUBMIT body). -/
def Submission.wf (q : Submission) : Bool :=
  (q.mode != 0 || q.air.isSome) &&
  fitsNat 8 (some q.channel) && fitsNat 16 (some q.tag) && fitsNat 8 (some q.mode) &&
  fitsList q.sites && q.spans.length < 256 && q.spans.all Span.wf

/-- The operands of the row fit their frames (09, R161). -/
def Instr.wf : Instr → Bool
  | .enrol _ n f => fitsNat 8 (some n) && f.wf
  | .amendSite _ n f => fitsNat 8 (some n) && f.wf
  | .querySite _ n => fitsNat 8 (some n)
  | .retire _ n => fitsNat 8 (some n)
  | .probe _ n k => fitsNat 8 (some n) && fitsNat 8 (some k)
  | .setMeasurement _ f => f.wf
  | .defineZone _ z f => fitsNat 8 (some z) && f.wf
  | .amendZone _ z f => fitsNat 8 (some z) && f.wf
  | .dropZone _ z => fitsNat 8 (some z)
  | .queryZone _ z => fitsNat 8 (some z)
  | .setChannel _ c f => fitsNat 8 (some c) && f.wf
  | .submit _ q => q.wf
  | .cancel _ t => fitsNat 16 (some t)
  | .flushChannel _ c => fitsNat 8 (some c)
  | .queryBatch _ t => fitsNat 16 (some t)
  | .collect _ (.byTag t) => fitsNat 16 (some t)
  | .collect _ (.byChannel c) => fitsNat 8 (some c)
  | .pin _ c => fitsNat 8 (some c)
  | .unpin _ c => fitsNat 8 (some c)
  | .timeMark _ n => fitsNat 32 (some n)
  | .setTimebase _ f => f.wf
  | .setHighway _ r => fitsNat 16 (some r)
  | .release t _ => fitsNat 16 (some t)
  | .withdrawal t _ => fitsNat 16 (some t)
  | .airTime t => fitsNat 16 (some t)
  | .batchEnd t => fitsNat 16 (some t)
  | .receiptDeadline t _ => fitsNat 16 (some t)
  | .abortDeadline t _ => fitsNat 16 (some t)
  | .powerOn | .reset | .transactionBegin | .responseReady | .malformedFrame _ _
  | .readTime _ | .readStatus _ | .restart _ | .referenceLost | .referenceReturned
  | .edgeAccepted | .glitch | .slewAdjustment | .missDeadline | .holdoverElapsed
  | .cadenceExpiry _ | .lineFree | .echo _ _ _ | .probeTimeout _ | .deafenEnd _
  | .receipt _ _ _ _ _ | .inboundFrameDiscarded _ | .computePoint _ | .pulseBegins
  | .ppsLowSample | .flagFound _ | .resetReleased => true

end Sys2Proof
end

