-- ==== Sys2Proof/Decode.lean ====
section
/-! DEFINITION. From bytes to rows, total on any bytes: the command frames of the command port and
the inbound frames of the site highway (09, R161), and after them the encoder of both. The opcode
table gives no row any bits, so `decodeTableWord` spells no row. -/

namespace Sys2Proof

/-- The row that a word spells by the table's bits. No row of spec/opcode_table.json has bits, so
every word is rejected. -/
def decodeTableWord (nbits w : Nat) : Option Instr :=
  match nbits, w with
  | _, _ => none

/-! ### The check field (09, Common conventions) -/

/-- One bit shifted into the CRC register, polynomial x^16 + x^12 + x^5 + 1. -/
def crcBit (crc : BitVec 16) (bit : Bool) : BitVec 16 :=
  let shifted := crc <<< 1
  if crc.msb != bit then shifted ^^^ 0x1021#16 else shifted

/-- One byte shifted in, most significant bit first. -/
def crcByte (crc : BitVec 16) (b : Byte) : BitVec 16 :=
  [7, 6, 5, 4, 3, 2, 1, 0].foldl (fun c i => crcBit c (b.getLsbD i)) crc

/-- The check field over the covered bytes: all ones at the start, no final inversion. -/
def crc16 (bytes : List Byte) : BitVec 16 := bytes.foldl crcByte 0xFFFF#16

/-! ### Values in bytes, most significant first -/

/-- `n` bytes of `v`, most significant first. -/
def natBytes : Nat → Nat → List Byte
  | 0, _ => []
  | n + 1, v => BitVec.ofNat 8 (v / 256 ^ n) :: natBytes n v

/-- The unsigned value of bytes sent most significant first. -/
def bytesNat (bytes : List Byte) : Nat := bytes.foldl (fun acc b => acc * 256 + b.toNat) 0

/-- A signed value in `n` bytes of two's complement. -/
def intBytes (n : Nat) (v : Int) : List Byte := natBytes n (v % 256 ^ n).toNat

/-- The covered bytes followed by their check field. -/
def withCheck (covered : List Byte) : List Byte := covered ++ natBytes 2 (crc16 covered).toNat

/-- The covered bytes of `covered ++ check`, if the check field matches. -/
def checked (bytes : List Byte) : Option (List Byte) :=
  let covered := bytes.dropLast.dropLast
  if 2 ≤ bytes.length && withCheck covered == bytes then some covered else none

/-! ### Readers: a value and the bytes that are left -/

/-- An unsigned value of `n` bytes. -/
def readNat (n : Nat) (bytes : List Byte) : Option (Nat × List Byte) :=
  if bytes.length < n then none else some (bytesNat (bytes.take n), bytes.drop n)

/-- A signed value of 4 bytes, two's complement. -/
def readInt (bytes : List Byte) : Option (Int × List Byte) := do
  let (v, rest) ← readNat 4 bytes
  return (if v < 2147483648 then (v : Int) else (v : Int) - 4294967296, rest)

/-- A hub time or an air time: 5 bytes. -/
def readTime (bytes : List Byte) : Option (HubTime × List Byte) := do
  let (v, rest) ← readNat 5 bytes
  return (BitVec.ofNat 40 v, rest)

/-- `count` one-byte items. -/
def readItems : Nat → List Byte → Option (List Nat × List Byte)
  | 0, bytes => some ([], bytes)
  | n + 1, bytes => do
    let (v, rest) ← readNat 1 bytes
    let (vs, rest) ← readItems n rest
    return (v :: vs, rest)

/-- A list of one-byte items behind its count byte. -/
def readList (bytes : List Byte) : Option (List Nat × List Byte) := do
  let (n, rest) ← readNat 1 bytes
  readItems n rest

/-- A flag byte: 0 or 1, any other does not fit its field (09, Value encodings). -/
def readFlag (bytes : List Byte) : Option (Bool × List Byte) :=
  match readNat 1 bytes with
  | some (0, rest) => some (false, rest)
  | some (1, rest) => some (true, rest)
  | _ => none

/-- A field that is present when its mask bit is set. -/
def readField {α : Type} (present : Bool) (read : List Byte → Option (α × List Byte))
    (bytes : List Byte) : Option (Option α × List Byte) :=
  if present then (read bytes).map fun p => (some p.1, p.2) else some (none, bytes)

/-- A field that the command requires. -/
def readRequired {α : Type} (present : Bool) (read : List Byte → Option (α × List Byte))
    (bytes : List Byte) : Option (α × List Byte) :=
  if present then read bytes else none

/-- The bits of a byte, bit 7 first. -/
def byteBits (b : Byte) : List Bool := [7, 6, 5, 4, 3, 2, 1, 0].map b.getLsbD

/-- The size of a presence mask of `fields` bits: at least one byte (09, Presence mask). -/
def maskSize (fields : Nat) : Nat := max 1 ((fields + 7) / 8)

/-- A presence mask of `fields` bits; a set bit beyond the last field does not fit. -/
def readMask (fields : Nat) (bytes : List Byte) : Option (List Bool × List Byte) :=
  let bits := (bytes.take (maskSize fields)).flatMap byteBits
  if bytes.length < maskSize fields || (bits.drop fields).any id then none
  else some (bits.take fields, bytes.drop (maskSize fields))

/-- A span in its 5-byte form: spare bits are 0, and the payload tag is 0 when bit 5 is clear
(09, Launch order and SUBMIT body). -/
def readSpan (bytes : List Byte) : Option (Span × List Byte) := do
  let (symbols, rest) ← readNat 2 bytes
  let (shape, rest) ← readNat 1 rest
  let (payload, rest) ← readNat 2 rest
  if shape % 32 != 0 || (shape / 32 % 2 == 0 && payload != 0) then none
  else
    return (⟨symbols, if shape / 128 == 1 then .one else .zero,
      if shape / 64 % 2 == 1 then .four else .two,
      if shape / 32 % 2 == 1 then some payload else none⟩, rest)

/-- `count` spans. -/
def readSpans : Nat → List Byte → Option (List Span × List Byte)
  | 0, bytes => some ([], bytes)
  | n + 1, bytes => do
    let (p, rest) ← readSpan bytes
    let (ps, rest) ← readSpans n rest
    return (p :: ps, rest)

/-- The value of a body that has been read to its end (09: the length must equal the size the mask
implies). -/
def readWhole {α : Type} (p : Option (α × List Byte)) : Option α :=
  match p with
  | some (v, []) => some v
  | _ => none

/-- One required field and nothing else. -/
def readSingle (size : Nat) (bytes : List Byte) : Option Nat := do
  let (m, rest) ← readMask 1 bytes
  readWhole (readRequired (m.getD 0 false) (readNat size) rest)

/-- A body with no field. -/
def readEmpty (bytes : List Byte) : Option Unit :=
  readWhole ((readMask 0 bytes).map fun p => ((), p.2))

/-- The body of ENROL and AMEND SITE. -/
def readSiteBody (bytes : List Byte) : Option (Nat × SiteFields) := do
  let (m, r) ← readMask 15 bytes
  let (site, r) ← readRequired (m.getD 0 false) (readNat 1) r
  let (members, r) ← readField (m.getD 1 false) readList r
  let (steer, r) ← readField (m.getD 2 false) (readNat 1) r
  let (share, r) ← readField (m.getD 3 false) (readNat 2) r
  let (e, r) ← readField (m.getD 4 false) (readNat 4) r
  let (o, r) ← readField (m.getD 5 false) readInt r
  let (mm, r) ← readField (m.getD 6 false) (readNat 5) r
  let (w, r) ← readField (m.getD 7 false) (readNat 5) r
  let (idle, r) ← readField (m.getD 8 false) (readNat 4) r
  let (ceiling, r) ← readField (m.getD 9 false) (readNat 5) r
  let (fast, r) ← readField (m.getD 10 false) (readNat 4) r
  let (slow, r) ← readField (m.getD 11 false) (readNat 4) r
  let (gate, r) ← readField (m.getD 12 false) (readNat 4) r
  let (gain, r) ← readField (m.getD 13 false) (readNat 1) r
  let (seed, r) ← readField (m.getD 14 false) (readNat 4) r
  readWhole (some ((site, ⟨members, steer, share, e, o, mm, w, idle, ceiling, fast, slow, gate,
    gain, seed⟩), r))

def readMeasurementBody (bytes : List Byte) : Option MeasurementFields := do
  let (m, r) ← readMask 4 bytes
  let (settle, r) ← readField (m.getD 0 false) (readNat 1) r
  let (stale, r) ← readField (m.getD 1 false) (readNat 1) r
  let (step, r) ← readField (m.getD 2 false) (readNat 1) r
  let (quiet, r) ← readField (m.getD 3 false) (readNat 4) r
  readWhole (some (⟨settle, stale, step, quiet⟩, r))

def readDefineZoneBody (bytes : List Byte) : Option (Nat × ZoneDefinition) := do
  let (m, r) ← readMask 6 bytes
  let (zone, r) ← readRequired (m.getD 0 false) (readNat 1) r
  let (a, r) ← readRequired (m.getD 1 false) (readNat 1) r
  let (b, r) ← readRequired (m.getD 2 false) (readNat 1) r
  let (g, r) ← readRequired (m.getD 3 false) readInt r
  let (budget, r) ← readRequired (m.getD 4 false) (readNat 4) r
  let (policy, r) ← readRequired (m.getD 5 false) (readNat 1) r
  readWhole (some ((zone, ⟨a, b, g, budget, policy⟩), r))

def readAmendZoneBody (bytes : List Byte) : Option (Nat × ZoneFields) := do
  let (m, r) ← readMask 6 bytes
  let (zone, r) ← readRequired (m.getD 0 false) (readNat 1) r
  let (a, r) ← readField (m.getD 1 false) (readNat 1) r
  let (b, r) ← readField (m.getD 2 false) (readNat 1) r
  let (g, r) ← readField (m.getD 3 false) readInt r
  let (budget, r) ← readField (m.getD 4 false) (readNat 4) r
  let (policy, r) ← readField (m.getD 5 false) (readNat 1) r
  readWhole (some ((zone, ⟨a, b, g, budget, policy⟩), r))

def readChannelBody (bytes : List Byte) : Option (Nat × ChannelFields) := do
  let (m, r) ← readMask 10 bytes
  let (channel, r) ← readRequired (m.getD 0 false) (readNat 1) r
  let (p0, r) ← readField (m.getD 1 false) (readNat 5) r
  let (p1, r) ← readField (m.getD 2 false) (readNat 5) r
  let (guardTime, r) ← readField (m.getD 3 false) (readNat 5) r
  let (lead, r) ← readField (m.getD 4 false) (readNat 4) r
  let (dispatch, r) ← readField (m.getD 5 false) (readNat 5) r
  let (slip, r) ← readField (m.getD 6 false) (readNat 4) r
  let (period, r) ← readField (m.getD 7 false) (readNat 5) r
  let (origin, r) ← readField (m.getD 8 false) (readNat 5) r
  let (notice, r) ← readField (m.getD 9 false) (readNat 1) r
  readWhole (some ((channel, ⟨p0, p1, guardTime, lead, dispatch, slip, period, origin, notice⟩), r))

/-- ABSOLUTE (mode 0) requires its air time; an air time with another mode fits and is not used. -/
def readSubmitBody (bytes : List Byte) : Option Submission := do
  let (m, r) ← readMask 7 bytes
  let (channel, r) ← readRequired (m.getD 0 false) (readNat 1) r
  let (tag, r) ← readRequired (m.getD 1 false) (readNat 2) r
  let (mode, r) ← readRequired (m.getD 2 false) (readNat 1) r
  let (air, r) ← readField (m.getD 3 false) readTime r
  let (sites, r) ← readField (m.getD 4 false) readList r
  let (notice, r) ← readRequired (m.getD 5 false) readFlag r
  let (n, r) ← readRequired (m.getD 6 false) (readNat 1) r
  let (spans, r) ← readSpans n r
  if mode == 0 && air.isNone then none
  else readWhole (some (⟨channel, tag, mode, air, sites, notice, spans⟩, r))

/-- COLLECT carries exactly one of its two fields. -/
def readCollectBody (bytes : List Byte) : Option CollectKey := do
  let (m, r) ← readMask 2 bytes
  match m with
  | [true, false] => (readWhole (readNat 2 r)).map .byTag
  | [false, true] => (readWhole (readNat 1 r)).map .byChannel
  | _ => none

def readProbeBody (bytes : List Byte) : Option (Nat × Nat) := do
  let (m, r) ← readMask 2 bytes
  let (site, r) ← readRequired (m.getD 0 false) (readNat 1) r
  let (n, r) ← readRequired (m.getD 1 false) (readNat 1) r
  readWhole (some ((site, n), r))

def readTimebaseBody (bytes : List Byte) : Option TimebaseFields := do
  let (m, r) ← readMask 3 bytes
  let (f, r) ← readField (m.getD 0 false) (readNat 1) r
  let (window, r) ← readField (m.getD 1 false) (readNat 5) r
  let (limit, r) ← readField (m.getD 2 false) (readNat 4) r
  readWhole (some (⟨f, window, limit⟩, r))

/-- The body of the command that `identifier` names (09, Command identifiers and fields); none when
it names no command or the body does not fit. -/
def readBody (identifier : Nat) (label : Byte) (body : List Byte) : Option Instr :=
  match identifier with
  | 1 => (readSiteBody body).map fun p => .enrol label p.1 p.2
  | 2 => (readSiteBody body).map fun p => .amendSite label p.1 p.2
  | 3 => (readSingle 1 body).map (.querySite label)
  | 4 => (readSingle 1 body).map (.retire label)
  | 5 => (readProbeBody body).map fun p => .probe label p.1 p.2
  | 6 => (readMeasurementBody body).map (.setMeasurement label)
  | 7 => (readDefineZoneBody body).map fun p => .defineZone label p.1 p.2
  | 8 => (readAmendZoneBody body).map fun p => .amendZone label p.1 p.2
  | 9 => (readSingle 1 body).map (.dropZone label)
  | 10 => (readSingle 1 body).map (.queryZone label)
  | 11 => (readChannelBody body).map fun p => .setChannel label p.1 p.2
  | 12 => (readSubmitBody body).map (.submit label)
  | 13 => (readSingle 2 body).map (.cancel label)
  | 14 => (readSingle 1 body).map (.flushChannel label)
  | 15 => (readSingle 2 body).map (.queryBatch label)
  | 16 => (readCollectBody body).map (.collect label)
  | 17 => (readSingle 1 body).map (.pin label)
  | 18 => (readSingle 1 body).map (.unpin label)
  | 19 => (readSingle 4 body).map (.timeMark label)
  | 20 => (readEmpty body).map fun _ => .readTime label
  | 21 => (readTimebaseBody body).map (.setTimebase label)
  | 22 => (readSingle 2 body).map (.setHighway label)
  | 23 => (readEmpty body).map fun _ => .readStatus label
  | 24 => (readEmpty body).map fun _ => .restart label
  | _ => none

/-- What a transaction's input bytes are at its end: a poll, which takes nothing, or a row. -/
inductive FrameReading where
  | poll
  | row (i : Instr)
deriving DecidableEq, Repr

/-- The reading of a transaction's whole input bytes as it ends (08, R148, R149): the length byte,
the frame it announces, and bytes behind it that are ignored. A frame that is short, fails its check
field, names no command or does not fit its envelope is the row MALFORMED_FRAME. Its identifier and
label are the bytes 1 and 2 that arrived, also where an announced length of 1 to 3 leaves them no
room before the check field: DESIGN CHOICE (notes/assumptions 6). -/
def readCommandFrame (bytes : List Byte) : FrameReading :=
  match bytes with
  | [] => .poll
  | length :: rest =>
    if length = 0 then .poll
    else
      let frame := rest.take length.toNat
      let malformed := FrameReading.row (.malformedFrame frame[0]? frame[1]?)
      if frame.length < length.toNat then malformed
      else
        match checked frame with
        | some (identifier :: label :: body) =>
          match readBody identifier.toNat label body with
          | some i => .row i
          | none => malformed
        | _ => malformed

/-! ### Inbound highway frames (09, Echo and Receipt; 07, R141, R142) -/

/-- The flag byte of every highway frame (09, Highway frames). -/
def flagByte : Byte := 155#8

/-- The row a complete inbound frame is, its flag byte included: an echo, a receipt, or a discarded
frame with the first check it failed. None while the frame is incomplete, and for bytes that do not
begin with the flag, which the assembler in HUNT passes over. -/
def readInboundFrame (bytes : List Byte) : Option Instr :=
  match bytes with
  | flag :: kind :: _ =>
    if flag ≠ flagByte then none
    else if kind = 129 then
      if bytes.length ≠ 8 then none
      else
        match checked (bytes.drop 1) with
        | some [_, site, sequence, t1, t0] =>
          if 48 ≤ site.toNat then some (.inboundFrameDiscarded .badSite)
          else some (.echo site sequence (t1 ++ t0))
        | _ => some (.inboundFrameDiscarded .badCheck)
    else if kind = 130 then
      if bytes.length ≠ 11 then none
      else
        match checked (bytes.drop 1) with
        | some [_, site, channel, g1, g0, verdict, t1, t0] =>
          if 48 ≤ site.toNat then some (.inboundFrameDiscarded .badSite)
          else if 3 ≤ verdict.toNat then some (.inboundFrameDiscarded .badVerdict)
          else some (.receipt site channel (g1 ++ g0) verdict (t1 ++ t0))
        | _ => some (.inboundFrameDiscarded .badCheck)
    else some (.inboundFrameDiscarded .badKind)
  | _ => none

/-! ### The encoder -/

/-- A presence mask packed from its bits, bit 7 of the first byte first. -/
def maskBytes (bits : List Bool) : List Byte :=
  natBytes (maskSize bits.length)
    ((bits ++ List.replicate (8 * maskSize bits.length - bits.length) false).foldl
      (fun acc b => acc * 2 + b.toNat) 0)

/-- The bytes of a field that is present. -/
def fieldBytes {α : Type} (write : α → List Byte) (x : Option α) : List Byte :=
  match x with
  | some v => write v
  | none => []

/-- A list of one-byte items behind its count byte. -/
def listBytes (items : List Nat) : List Byte := natBytes 1 items.length ++ items.flatMap (natBytes 1)

/-- The third byte of a span (09, Launch order). -/
def spanShape (p : Span) : Nat :=
  (match p.rate with | .zero => 0 | .one => 128) +
  (match p.levels with | .two => 0 | .four => 64) +
  (match p.payload with | none => 0 | some _ => 32)

/-- A span in its 5-byte form. -/
def spanBytes (p : Span) : List Byte :=
  natBytes 2 p.symbols ++ natBytes 1 (spanShape p) ++ natBytes 2 (p.payload.getD 0)

def siteFieldBytes (site : Nat) (f : SiteFields) : List Byte :=
  maskBytes [true, f.members.isSome, f.steer.isSome, f.share.isSome, f.e.isSome, f.o.isSome,
    f.m.isSome, f.w.isSome, f.idleHold.isSome, f.ceiling.isSome, f.fast.isSome, f.slow.isSome,
    f.gateFloor.isSome, f.gain.isSome, f.seed.isSome] ++
  natBytes 1 site ++ fieldBytes listBytes f.members ++ fieldBytes (natBytes 1) f.steer ++
  fieldBytes (natBytes 2) f.share ++ fieldBytes (natBytes 4) f.e ++ fieldBytes (intBytes 4) f.o ++
  fieldBytes (natBytes 5) f.m ++ fieldBytes (natBytes 5) f.w ++ fieldBytes (natBytes 4) f.idleHold ++
  fieldBytes (natBytes 5) f.ceiling ++ fieldBytes (natBytes 4) f.fast ++
  fieldBytes (natBytes 4) f.slow ++ fieldBytes (natBytes 4) f.gateFloor ++
  fieldBytes (natBytes 1) f.gain ++ fieldBytes (natBytes 4) f.seed

def channelFieldBytes (channel : Nat) (f : ChannelFields) : List Byte :=
  maskBytes [true, f.period0.isSome, f.period1.isSome, f.guardTime.isSome, f.computeLead.isSome,
    f.dispatch.isSome, f.slipLimit.isSome, f.gridPeriod.isSome, f.gridOrigin.isSome,
    f.notice.isSome] ++
  natBytes 1 channel ++ fieldBytes (natBytes 5) f.period0 ++ fieldBytes (natBytes 5) f.period1 ++
  fieldBytes (natBytes 5) f.guardTime ++ fieldBytes (natBytes 4) f.computeLead ++
  fieldBytes (natBytes 5) f.dispatch ++ fieldBytes (natBytes 4) f.slipLimit ++
  fieldBytes (natBytes 5) f.gridPeriod ++ fieldBytes (natBytes 5) f.gridOrigin ++
  fieldBytes (natBytes 1) f.notice

def submitBytes (q : Submission) : List Byte :=
  maskBytes [true, true, true, q.air.isSome, q.sites.isSome, true, true] ++
  natBytes 1 q.channel ++ natBytes 2 q.tag ++ natBytes 1 q.mode ++
  fieldBytes (fun a => natBytes 5 a.toNat) q.air ++ fieldBytes listBytes q.sites ++
  natBytes 1 q.notice.toNat ++ natBytes 1 q.spans.length ++ q.spans.flatMap spanBytes

/-- The identifier, label and body of a host command; none for a row that is no host command. -/
def commandBytes : Instr → Option (Nat × Byte × List Byte)
  | .enrol l n f => some (1, l, siteFieldBytes n f)
  | .amendSite l n f => some (2, l, siteFieldBytes n f)
  | .querySite l n => some (3, l, maskBytes [true] ++ natBytes 1 n)
  | .retire l n => some (4, l, maskBytes [true] ++ natBytes 1 n)
  | .probe l n k => some (5, l, maskBytes [true, true] ++ natBytes 1 n ++ natBytes 1 k)
  | .setMeasurement l f => some (6, l,
      maskBytes [f.settleCount.isSome, f.staleLimit.isSome, f.stepConfirm.isSome, f.quietGap.isSome]
      ++ fieldBytes (natBytes 1) f.settleCount ++ fieldBytes (natBytes 1) f.staleLimit ++
      fieldBytes (natBytes 1) f.stepConfirm ++ fieldBytes (natBytes 4) f.quietGap)
  | .defineZone l z f => some (7, l, maskBytes [true, true, true, true, true, true] ++
      natBytes 1 z ++ natBytes 1 f.siteA ++ natBytes 1 f.siteB ++ intBytes 4 f.g ++
      natBytes 4 f.budget ++ natBytes 1 f.policy)
  | .amendZone l z f => some (8, l,
      maskBytes [true, f.siteA.isSome, f.siteB.isSome, f.g.isSome, f.budget.isSome,
        f.policy.isSome] ++
      natBytes 1 z ++ fieldBytes (natBytes 1) f.siteA ++ fieldBytes (natBytes 1) f.siteB ++
      fieldBytes (intBytes 4) f.g ++ fieldBytes (natBytes 4) f.budget ++
      fieldBytes (natBytes 1) f.policy)
  | .dropZone l z => some (9, l, maskBytes [true] ++ natBytes 1 z)
  | .queryZone l z => some (10, l, maskBytes [true] ++ natBytes 1 z)
  | .setChannel l c f => some (11, l, channelFieldBytes c f)
  | .submit l q => some (12, l, submitBytes q)
  | .cancel l t => some (13, l, maskBytes [true] ++ natBytes 2 t)
  | .flushChannel l c => some (14, l, maskBytes [true] ++ natBytes 1 c)
  | .queryBatch l t => some (15, l, maskBytes [true] ++ natBytes 2 t)
  | .collect l (.byTag t) => some (16, l, maskBytes [true, false] ++ natBytes 2 t)
  | .collect l (.byChannel c) => some (16, l, maskBytes [false, true] ++ natBytes 1 c)
  | .pin l c => some (17, l, maskBytes [true] ++ natBytes 1 c)
  | .unpin l c => some (18, l, maskBytes [true] ++ natBytes 1 c)
  | .timeMark l n => some (19, l, maskBytes [true] ++ natBytes 4 n)
  | .readTime l => some (20, l, maskBytes [])
  | .setTimebase l f => some (21, l,
      maskBytes [f.edgeFilter.isSome, f.lockWindow.isSome, f.holdoverLimit.isSome] ++
      fieldBytes (natBytes 1) f.edgeFilter ++ fieldBytes (natBytes 5) f.lockWindow ++
      fieldBytes (natBytes 4) f.holdoverLimit)
  | .setHighway l r => some (22, l, maskBytes [true] ++ natBytes 2 r)
  | .readStatus l => some (23, l, maskBytes [])
  | .restart l => some (24, l, maskBytes [])
  | .powerOn | .reset | .transactionBegin | .responseReady | .malformedFrame _ _
  | .referenceLost | .referenceReturned | .edgeAccepted | .glitch | .slewAdjustment | .missDeadline
  | .holdoverElapsed | .cadenceExpiry _ | .lineFree | .echo _ _ _ | .probeTimeout _ | .deafenEnd _
  | .receipt _ _ _ _ _ | .inboundFrameDiscarded _ | .computePoint _ | .release _ _
  | .withdrawal _ _ | .airTime _ | .batchEnd _ | .receiptDeadline _ _ | .abortDeadline _ _
  | .pulseBegins | .ppsLowSample | .flagFound _ | .resetReleased => none

/-- The command frame of a host command, when its length fits the length byte (09, Command frame). -/
def commandFrame (i : Instr) : Option (List Byte) :=
  match commandBytes i with
  | some (identifier, label, body) =>
    let frame := withCheck (BitVec.ofNat 8 identifier :: label :: body)
    if frame.length < 256 then some (BitVec.ofNat 8 frame.length :: frame) else none
  | none => none

/-- The frame a site sends for an echo or a receipt row (09, Echo and Receipt). -/
def inboundFrame : Instr → Option (List Byte)
  | .echo site sequence t =>
    some (flagByte :: withCheck ([129#8, site, sequence] ++ natBytes 2 t.toNat))
  | .receipt site channel tag verdict t =>
    some (flagByte :: withCheck ([130#8, site, channel] ++ natBytes 2 tag.toNat ++ [verdict] ++
      natBytes 2 t.toNat))
  | _ => none

end Sys2Proof
end

