-- ==== Sys2Proof/Config.lean ====
section
/-! DEFINITION. What the manual leaves open, as constants without a body: nothing in Lean can
evaluate one, so no statement can rest on a value of it. Each is applied to an index drawn from the
`free` counter of the state, or to a numbered code. -/

namespace Sys2Proof

/-- How long after its taking a response becomes ready. R150 (08) bounds it by 2,000 ticks and fixes
it no further; the user reduces it to that bound. Notes/assumptions 5. -/
opaque Config.readyDelay : Nat → Nat

/-- Which of several timed events due in one hub clock period is taken first on an empty queue; the
same-period cases of the manual allow either order. Notes/assumptions 3. -/
opaque Config.dueChoice : Nat → Nat

/-- The identifier or host label recorded for a malformed frame that broke off before that byte
arrived (08, R149 states none). Notes/assumptions 6. -/
opaque Config.missingByte : Nat → Byte

/-- The byte that stands in a response body for a named value to which 09 gives no encoding: an
abandon reason, a COLLECT outcome, a probe holding, a probe phase. Notes/assumptions 18. -/
opaque Config.bodyCode : Nat → Byte

/-- The byte whose last bit arrives on PDI in a hub clock period of a transaction in progress, if one
does: the host clocks PCLK as it likes (08, R148). Notes/assumptions 4. -/
opaque Config.pdiByte : Nat → Option Byte

/-- PSEL rises in a hub clock period of a transaction that ends without a command: a poll, or one that
is ignored (08, R149, R160). Notes/assumptions 4. -/
opaque Config.pselRises : Nat → Bool

/-- The byte whose last bit is sampled on HRXD in a hub clock period of COLLECT, if one is: the framer
bank drives HRXD and HRXC (07, R141). Notes/assumptions 20. -/
opaque Config.hrxdByte : Nat → Option Byte

end Sys2Proof
end

