-- ==== Sys2Proof/Machine/State.lean ====
section
/-! DEFINITION. The state of the part as plain data, block by block, the reasons a step could stop,
and the state right after reset. Each item cites the rule that names it; INVENTORY.md lists
them all with their reset values. -/

namespace Sys2Proof.Machine

/-! ### Outcomes -/

/-- The spec names no fault that stops the part: a refused command is answered (08, R152) and a bad
inbound frame is counted (07, R142). No constructor, so no row can end in a fault. -/
inductive Fault
deriving DecidableEq, Repr

/-- Raised by `exec` for a row that has no meaning yet, and by nothing else. Safe: the model stops
where the part goes on. -/
inductive Refusal where
  /-- The row of that mnemonic has no meaning yet. Safe. -/
  | notModelled (mnemonic : String)
deriving DecidableEq, Repr

/-! ### Time scale (01) -/

/-- The timebase state (01, Timebase states). -/
inductive TimebaseState where
  | acquiring
  | locked
  | holdover
  | free
deriving DecidableEq, Repr

/-- The phase of the 1PPS edge filter (01, R6). `reached` is the model's own mark: the sample of
this period brought the run count to F, so the edge is being accepted (notes/assumptions 22). -/
inductive EdgeFilter where
  | awaitLow
  | low
  | high (run : Nat) (capture : HubTime) (reached : Bool)
deriving DecidableEq, Repr

/-- The pending step: an optional mark second and a signed shift in ticks (01, R14). -/
structure PendingStep where
  mark : Option Nat
  shift : Int
deriving DecidableEq, Repr

/-- The state of the time scale (01, the table before R2). -/
structure TimeScale where
  /-- R2. -/
  hub : HubTime
  /-- R5. -/
  present : Bool
  /-- R8 to R11. -/
  mode : TimebaseState
  /-- R6. -/
  filter : EdgeFilter
  /-- R6, saturating at 65,535. -/
  glitches : Nat
  /-- R7. -/
  lastOffset : Option Int
  /-- R8, R10, R11. -/
  inRun : Nat
  /-- R12. -/
  outRun : Nat
  /-- R9: present in LOCKED. -/
  expected : Option HubTime
  /-- R9: present in LOCKED. -/
  miss : Option HubTime
  /-- R13. -/
  slew : Int
  /-- R13: periods since the last adjustment. -/
  pace : Nat
  /-- R13: an in-window edge is owed its first adjustment. The model's own. -/
  slewFirst : Bool
  /-- R14. -/
  step : Option PendingStep
  /-- R10: seconds. -/
  holdover : Nat
  /-- R10: periods toward the next second. The model's own. -/
  holdoverPeriods : Nat
  /-- R18. -/
  flag : Bool
  /-- R20: F. -/
  edgeFilter : Nat
  /-- R20. -/
  lockWindow : Nat
  /-- R20. -/
  holdoverLimit : Nat
deriving DecidableEq, Repr

/-- Power-on values of the time scale (01, Values after power-on and RESTART). -/
def TimeScale.reset : TimeScale where
  hub := 0
  present := false
  mode := .acquiring
  filter := .awaitLow
  glitches := 0
  lastOffset := none
  inRun := 0
  outRun := 0
  expected := none
  miss := none
  slew := 0
  pace := 0
  slewFirst := false
  step := none
  holdover := 0
  holdoverPeriods := 0
  flag := false
  edgeFilter := 8
  lockWindow := 10
  holdoverLimit := 3600

/-! ### Site table (02) and, in each record, its cadence timer and deafen state (03) -/

/-- How the planner treats a site's eligibility (02, R30). -/
inductive SteerMode where
  | auto
  | forceIn
  | forceOut
deriving DecidableEq, Repr

/-- The state of an enrolled record (02, R21, R28). -/
inductive SitePhase where
  | settling
  | tracking
  | stale
  | retiring
deriving DecidableEq, Repr

/-- The configuration fields but the membership (02, R22): delays in fine units, M, W and C in
ticks, the idle hold in 0.1 s, the intervals in ms. -/
structure SiteConfig where
  steer : SteerMode
  share : Nat
  e : Nat
  o : Int
  m : Nat
  w : Nat
  idleHold : Nat
  ceiling : Nat
  fast : Nat
  slow : Nat
  gateFloor : Nat
  gain : Nat
  seed : Option Nat
deriving DecidableEq, Repr

/-- The five totals of a record, each saturating at 65,535 (02, R24). -/
structure SiteTotals where
  accepted : Nat
  rejected : Nat
  timedOut : Nat
  late : Nat
  stray : Nat
deriving DecidableEq, Repr

/-- The last burst summary (02, R24; 03, R49). -/
structure BurstSummary where
  sent : Nat
  accepted : Nat
  timedOut : Nat
  rejected : Nat
  fault : Bool
deriving DecidableEq, Repr

/-- The estimate fields (02, R24). -/
structure Estimate where
  d : Option Nat
  u : Nat
  acceptedCount : Nat
  failures : Nat
  rejects : Nat
  lastAccepted : Option HubTime
  sequence : Nat
  lastTimedOut : Option Nat
  totals : SiteTotals
  burst : BurstSummary
deriving DecidableEq, Repr

/-- A carrier entry (02, R26). -/
structure Carrier where
  confirmedEnd : Option HubTime
deriving DecidableEq, Repr

/-- What a record holds while it is not VACANT. The member channels are the channels with a carrier
entry (R26: one entry for each member channel, and no others). -/
structure Enrolled where
  phase : SitePhase
  config : SiteConfig
  est : Estimate
  /-- R25. -/
  clampTally : Nat
  /-- R25. -/
  clampFlag : Bool
  carriers : Vector (Option Carrier) 4
  /-- 03, R43: the expiry of the running cadence timer; none when stopped. -/
  cadence : Option HubTime
  /-- 03, R54. -/
  deafenUntil : Option HubTime
deriving DecidableEq, Repr

/-- A site record; VACANT exactly when it has no body (02, R21). -/
structure SiteRecord where
  change : Bool
  zonesRemoved : Nat
  body : Option Enrolled
deriving DecidableEq, Repr

/-- A VACANT record after power-on (02, R21). -/
def SiteRecord.reset : SiteRecord where
  change := false
  zonesRemoved := 0
  body := none

/-! ### Measurement engine (03) -/

/-- A departed probe: the fields present only in phase DEPARTED (03). -/
structure Flight where
  sequence : Nat
  departure : HubTime
  timeout : HubTime
deriving DecidableEq, Repr

/-- A claimed probe slot; QUEUED when no probe is in flight (03). -/
structure Slot where
  site : SiteNo
  queueOrder : HubTime
  burst : Bool
  further : Nat
  flight : Option Flight
deriving DecidableEq, Repr

/-- A wait-list entry (03, R45). -/
structure WaitEntry where
  site : SiteNo
  further : Nat
  burst : Bool
deriving DecidableEq, Repr

/-- The slots, the wait list and the settings of the measurement engine (03). -/
structure Measurement where
  slots : Vector (Option Slot) 8
  wait : List WaitEntry
  settleCount : Nat
  staleLimit : Nat
  stepConfirm : Nat
  /-- In ms. -/
  quietGap : Nat
deriving DecidableEq, Repr

/-- Power-on condition of the measurement engine (03, R67). -/
def Measurement.reset : Measurement where
  slots := Vector.replicate 8 none
  wait := []
  settleCount := 4
  staleLimit := 3
  stepConfirm := 3
  quietGap := 200

/-! ### Zone table (04) -/

/-- The policy of a zone (04). -/
inductive Policy where
  | warn
  | dropWorse
  | hold
deriving DecidableEq, Repr

/-- Which site's copy arrives first (04, R68). -/
inductive LeadSide where
  | aLeads
  | bLeads
deriving DecidableEq, Repr

/-- A zone record (04, R68). -/
structure Zone where
  siteA : SiteNo
  siteB : SiteNo
  g : Int
  budget : Nat
  policy : Policy
  residual : Option Int
  lead : Option LeadSide
  flips : Nat
  fails : Nat
  failFlag : Bool
deriving DecidableEq, Repr

/-! ### Channels, batches and plans (05, 06) -/

/-- The notice mode of a channel (05). -/
inductive NoticeMode where
  | each
  | chainEnd
deriving DecidableEq, Repr

/-- The timing mode of a batch (05). -/
inductive TimingMode where
  | absolute (air : HubTime)
  | follow
  | earliest
deriving DecidableEq, Repr

/-- The settings of a channel (05, R84): periods, guard, dispatch allowance and grid in ticks, the
compute lead and slip limit in ms. -/
structure ChannelSettings where
  period0 : Nat
  period1 : Nat
  guardTime : Nat
  computeLead : Nat
  dispatch : Nat
  slipLimit : Nat
  gridPeriod : Nat
  gridOrigin : Nat
  notice : NoticeMode
deriving DecidableEq, Repr

/-- The default settings (05, table of channel settings). -/
def ChannelSettings.reset : ChannelSettings where
  period0 := 6250
  period1 := 3125
  guardTime := 100000
  computeLead := 2000
  dispatch := 50000
  slipLimit := 0
  gridPeriod := 0
  gridOrigin := 0
  notice := .each

/-- The state of a batch (05, Batch states). -/
inductive BatchState where
  | queued
  | planned
  | armed
  | cancelling
  | onAir
  | done
  | abandoned
  | cancelled
deriving DecidableEq, Repr

/-- Why a batch was abandoned (05, The batch record). -/
inductive AbandonReason where
  | noSites
  | late
  | zoneHold
  | overlap
deriving DecidableEq, Repr

/-- Why a candidate is EXCLUDED (06, R127). -/
inductive ExclusionReason where
  | notMember
  | forcedOut
  | retiring
  | notInContext
  | unsettled
  | stale
  | range
  | late
  | zone
deriving DecidableEq, Repr

/-- The order state of an INCLUDED entry (07; 09, Plan entry). -/
inductive OrderState where
  | waiting
  | sent
  | receipted
  | refused
  | unconfirmed
  | withdrawn
  | aborting
  | aborted
  | abortMissed
deriving DecidableEq, Repr

/-- The verdict of a receipt (07, R145). -/
inductive Verdict where
  | accept
  | cold
  | busy
deriving DecidableEq, Repr

/-- The hold an order carried (07, R134). -/
structure Hold where
  ticks : Nat
  fine : Nat
deriving DecidableEq, Repr

/-- An INCLUDED entry (06, R127). `released` says that its release has been taken (07, R133). -/
structure Included where
  target : FineTime
  release : HubTime
  deadline : HubTime
  preKey : Bool
  order : OrderState
  armMargin : Nat
  released : Bool
  verdict : Option Verdict
  departure : Option HubTime
  hold : Option Hold
  receiptDeadline : Option HubTime
  abortDeadline : Option HubTime
deriving DecidableEq, Repr

/-- The disposition of a plan entry (06, R127). -/
inductive Disposition where
  | included (entry : Included)
  | excluded (reason : ExclusionReason)
deriving DecidableEq, Repr

/-- A plan entry (06, R127). -/
structure PlanEntry where
  site : SiteNo
  disp : Disposition
deriving DecidableEq, Repr

/-- The entry counts of a terminal batch (05, R97). -/
structure EntryCounts where
  included : Nat
  excluded : Nat
  receipted : Nat
  refusedCold : Nat
  refusedBusy : Nat
  unconfirmed : Nat
  withdrawn : Nat
  aborted : Nat
  abortMissed : Nat
deriving DecidableEq, Repr

/-- A chain summary (05, R99). -/
structure ChainSummary where
  done : Nat
  abandoned : Nat
  cancelled : Nat
  receipted : Nat
  refused : Nat
  unconfirmed : Nat
  withdrawn : Nat
  aborted : Nat
  abortMissed : Nat
  excluded : Nat
deriving DecidableEq, Repr

/-- A summary of zeros. -/
def ChainSummary.zero : ChainSummary := ⟨0, 0, 0, 0, 0, 0, 0, 0, 0, 0⟩

/-- A batch record (05, The batch record). The end is the air time plus the duration and is
computed. `serial` is the model's own: the order in which SUBMITs were taken (07, R132). -/
structure Batch where
  tag : Nat
  serial : Nat
  mode : TimingMode
  sites : Option (List SiteNo)
  notice : Bool
  spans : List Span
  duration : Nat
  predEnd : Option HubTime
  state : BatchState
  air : Option HubTime
  slip : Nat
  unverified : Bool
  warnings : Nat
  reason : Option AbandonReason
  partialMark : Bool
  flushed : Bool
  counts : Option EntryCounts
  summary : Option ChainSummary
  plan : List PlanEntry
deriving DecidableEq, Repr

/-- A context entry: the figures copied at capture (06, R107). -/
structure Figures where
  d : Option Nat
  u : Nat
  e : Nat
  o : Int
  m : Nat
  w : Nat
deriving DecidableEq, Repr

/-- A channel context (06, R107): its entries by site number. -/
structure Context where
  time : HubTime
  entries : Vector (Option Figures) 48
deriving DecidableEq, Repr

/-- A channel queue (05) with the planner's state for the channel (06). -/
structure Channel where
  settings : ChannelSettings
  queue : List Batch
  /-- 05, R91. -/
  timer : Option HubTime
  /-- 05, R99. -/
  summary : ChainSummary
  /-- 06, R107. -/
  context : Option Context
  /-- 06, R109. -/
  pinned : Bool
deriving DecidableEq, Repr

/-- A channel after power-on (05, R106; 06, R107). -/
def Channel.reset : Channel where
  settings := .reset
  queue := []
  timer := none
  summary := .zero
  context := none
  pinned := false

/-! ### Site highway port (07) -/

/-- The three line rates (07, R140). -/
inductive LineRate where
  | kbit1024
  | kbit2048
  | kbit4096
deriving DecidableEq, Repr

/-- An outbound frame (09, Highway frames). -/
inductive HighwayFrame where
  | probe (site : SiteNo) (sequence : Nat)
  | abort (site : SiteNo) (channel : ChannelNo) (tag : Nat)
  | order (site : SiteNo) (channel : ChannelNo) (tag : Nat) (hold : Hold) (preKey : Bool)
      (spans : List Span)
deriving DecidableEq, Repr

/-- The outbound line (07, R130). -/
inductive OutboundLine where
  | idle
  | busy (frame : HighwayFrame) (free : HubTime)
deriving DecidableEq, Repr

/-- An abort frame waiting for the line: the entry it serves (07, R137). -/
structure AbortRef where
  channel : ChannelNo
  tag : Nat
  site : SiteNo
deriving DecidableEq, Repr

/-- The inbound assembler (07, R141). -/
inductive Assembler where
  | hunt
  | collect (arrival : HubTime) (kind : Option Byte) (received : List Byte)
deriving DecidableEq, Repr

/-- The state of the site highway port (07). -/
structure Highway where
  rate : LineRate
  line : OutboundLine
  aborts : List AbortRef
  assembler : Assembler
  errors : Nat
deriving DecidableEq, Repr

/-- Power-on condition of the port (07, R147). -/
def Highway.reset : Highway where
  rate := .kbit2048
  line := .idle
  aborts := []
  assembler := .hunt
  errors := 0

/-! ### Command port (08) -/

/-- A result code (08, Results). -/
inductive Result where
  | done
  | doneAdjusted
  | pending
  | working
  | noSuch
  | exists
  | inUse
  | full
  | invalid
  | conflict
  | state
  | tooLate
deriving DecidableEq, Repr

/-- Which probe holding QUERY SITE reports (03, R66). -/
inductive ProbeHolding where
  | none
  | waiting (place : Nat)
  | slot (number : SlotNo) (departed : Bool)
deriving DecidableEq, Repr

/-- The report of QUERY SITE on a record that is not VACANT: the record with its flags as they stood
before clearing, and its probe condition (02, R36; 03, R66). -/
structure SiteReport where
  record : Enrolled
  change : Bool
  zonesRemoved : Nat
  holding : ProbeHolding
  sequence : Option Nat
  departure : Option HubTime
  further : Option Nat
deriving DecidableEq, Repr

/-- The report of READ TIME (01, R19). -/
structure TimeReport where
  hub : HubTime
  mode : TimebaseState
  present : Bool
  step : Option PendingStep
  slew : Int
  holdover : Nat
  lastOffset : Option Int
  glitches : Nat
deriving DecidableEq, Repr

/-- The outcome that COLLECT reports (05, R105). -/
inductive BatchOutcome where
  | done
  | cancelPartial
  | abandoned
  | cancelled
deriving DecidableEq, Repr

/-- What READ STATUS reports of one channel (08, R156). -/
structure ChannelStatus where
  live : Nat
  held : Nat
  pinned : Bool
deriving DecidableEq, Repr

/-- The body of READ STATUS (08, R156). -/
structure StatusReport where
  channels : List ChannelStatus
  sites : List SiteNo
  zones : List ZoneNo
  errors : Nat
deriving DecidableEq, Repr

/-- The body of a response, as the command's rule gives it (08, R151). -/
inductive Body where
  | empty
  /-- QUERY SITE on a VACANT record (02, R36). -/
  | vacantSite (zonesRemoved : Nat) (change : Bool)
  /-- QUERY SITE on any other record (02, R36). -/
  | site (report : SiteReport)
  /-- QUERY ZONE (04, R74). -/
  | zone (record : Zone)
  /-- QUERY BATCH (05, R104). -/
  | batch (channel : ChannelNo) (record : Batch)
  /-- COLLECT (05, R105). -/
  | collected (channel : ChannelNo) (record : Batch) (outcome : BatchOutcome)
  /-- FLUSH CHANNEL: removed, left CANCELLING, left ON_AIR (05, R103). -/
  | flush (removed cancelling onAir : Nat)
  /-- PIN: the pin flag, and the capture time and number of entries of the context (06, R109). -/
  | pin (pinned : Bool) (time : HubTime) (entries : Nat)
  /-- UNPIN: the pin flag before, and the capture time and number of entries of the discarded context
  (06, R110). -/
  | unpin (pinned : Bool) (discarded : Option (HubTime × Nat))
  /-- READ TIME (01, R19). -/
  | time (report : TimeReport)
  /-- READ STATUS (08, R156). -/
  | status (report : StatusReport)
  /-- RESTART: records removed, of these held, sites made VACANT, zones removed (08, R158). -/
  | restart (removed held sites zones : Nat)
deriving DecidableEq, Repr

/-- A stored response (08, R151). -/
structure Response where
  answered : Byte
  label : Byte
  taken : HubTime
  result : Result
  body : Body
deriving DecidableEq, Repr

/-- A response being formed: the working flag is set exactly while there is one (08, R150). `age` is
the periods since the taking and `index` names its free delay; both are the model's own
(notes/assumptions 5). -/
structure Forming where
  response : Response
  age : Nat
  index : Nat
deriving DecidableEq, Repr

/-- The status summary (08, R155). -/
structure StatusSummary where
  held : Nat
  siteChange : Bool
  zoneFail : Bool
  timeFlag : Bool
  mode : TimebaseState
deriving DecidableEq, Repr

/-- What a transaction presents on PDO (08, R148). -/
inductive Presented where
  | working
  | stored (response : Response)
  | initial
deriving DecidableEq, Repr

/-- A transaction in progress (08): its presentation, the status summary formed at its beginning and
the input bytes received so far. -/
structure Transaction where
  presented : Presented
  summary : StatusSummary
  received : List Byte
deriving DecidableEq, Repr

/-- The state of the command port (08), and the RESET input it is held by (R160). -/
structure Port where
  stored : Option Response
  forming : Option Forming
  transaction : Option Transaction
  /-- R160: the RESET input is low. -/
  resetLow : Bool
  /-- R160: PSEL is low in a transaction that is ignored. -/
  ignored : Bool
deriving DecidableEq, Repr

/-- Power-on condition of the port (08, R160). -/
def Port.reset : Port where
  stored := none
  forming := none
  transaction := none
  resetLow := false
  ignored := false

/-! ### The whole part -/

/-- The state of the part, the model's own counters, and the queue of rows that wait. -/
structure State where
  time : TimeScale
  sites : Vector SiteRecord 48
  meas : Measurement
  zones : Vector (Option Zone) 192
  channels : Vector Channel 4
  highway : Highway
  port : Port
  /-- How many SUBMITs have built a record: the next serial number. The model's own. -/
  submits : Nat
  /-- How many free values have been drawn. The model's own. -/
  free : Nat
  /-- Rows that wait, first in first out. -/
  pending : List Instr
deriving DecidableEq, Repr

/-- The part right after power-on or RESET (08, R160, and the reset rule of each chapter). -/
def State.reset : State where
  time := .reset
  sites := Vector.replicate 48 .reset
  meas := .reset
  zones := Vector.replicate 192 none
  channels := Vector.replicate 4 .reset
  highway := .reset
  port := .reset
  submits := 0
  free := 0
  pending := []

end Sys2Proof.Machine
end

