-- ==== Sys2Proof/Machine/Inbound.lean ====
section
/-! DEFINITION. The inbound assembler while it collects a frame (07, R141): its kind, its bytes, and the
completion by size. The rows of the inbound line stand in SiteHighway.lean. -/

namespace Sys2Proof.Machine

/-- Further bytes sampled in COLLECT: the byte after the flag is the frame's kind (07, R141). In HUNT
nothing is collected. -/
def Assembler.take (a : Assembler) (bytes : List Byte) : Assembler :=
  match a with
  | .hunt => .hunt
  | .collect x _ received => .collect x (received ++ bytes)[1]? (received ++ bytes)

/-- The row that the frame in COLLECT completes as: a kind that is none ends it at the kind byte, an echo
at 8 bytes and a receipt at 11, each checked by R142 (07, R141). -/
def Assembler.complete (a : Assembler) : Option Instr :=
  match a with
  | .hunt => none
  | .collect _ _ received => readInboundFrame received

/-- A hub clock period on the inbound line: while a frame in COLLECT is short of its size, the last bit of
a byte of it may be sampled. The framer bank drives HRXD and HRXC, so the byte is a free value
(07, R141; notes/assumptions 20). -/
def State.linePeriod (s : State) : State :=
  match s.highway.assembler with
  | .hunt => s
  | .collect _ _ _ =>
    if s.highway.assembler.complete.isSome then s
    else { s with
      highway := { s.highway with
        assembler := s.highway.assembler.take (Config.hrxdByte s.free).toList }
      free := s.free + 1 }

end Sys2Proof.Machine
end

