-- ==== Sys2Proof/Machine/Arith.lean ====
section
/-! DEFINITION. The units, time relations and arithmetic conventions that hold in every rule
(00, R1). -/

namespace Sys2Proof.Machine

/-- `x` is later than `y`: `(x - y) mod 2^40` lies in 1 .. 2^39 - 1 (R1). -/
def later (x y : HubTime) : Bool := x != y && decide ((x - y).toNat < 2 ^ 39)

/-- The converse of later-than (R1). -/
def earlier (x y : HubTime) : Bool := later y x

/-- Hub time `now` equals `x` or has passed it (01, R3). A backward step that leaves an unmoved time more
than 2^39 ahead makes it one that later-than says has been passed, and it is taken at once, though R3
has an unmoved event wait: DESIGN CHOICE (notes/assumptions 35). -/
def reached (now x : HubTime) : Bool := now == x || later now x

/-- The later of two times; the first when neither is later. -/
def laterOf (x y : HubTime) : HubTime := if later y x then y else x

/-- The latest of a time and further ones, in list order. Later-than is not transitive (R1): among three
or more times each later than the next in a cycle the manual names no latest, and this is what the
fold ends on. DESIGN CHOICE (notes/assumptions 30). -/
def latest (x : HubTime) (ys : List HubTime) : HubTime := ys.foldl laterOf x

/-- A number of ticks as an amount of hub time. -/
def ticks (n : Nat) : HubTime := BitVec.ofNat 40 n

/-- A setting in ms, in ticks (R1). -/
def msTicks (n : Nat) : HubTime := ticks (n * 10000)

/-- A setting in 0.1 s, in ticks (R1). -/
def tenthTicks (n : Nat) : HubTime := ticks (n * 1000000)

/-- The ticks of a second (R1). -/
def secondTicks : Nat := 10000000

/-- Ceiling division of counts (R1). -/
def ceilDiv (n d : Nat) : Nat := (n + d - 1) / d

/-- Ceiling division by 16 of a signed sum of fine units (R1). -/
def ceil16 (x : Int) : Int := -((-x) / 16)

/-- The nearer bound of the signed 32-bit range for a sum that falls outside it (R1). -/
def sat32 (x : Int) : Int := max (-2147483648) (min 2147483647 x)

/-- A sum of delays or offsets (R1). -/
def satAdd (x y : Int) : Int := sat32 (x + y)

/-- A difference of delays or offsets (R1). -/
def satSub (x y : Int) : Int := sat32 (x - y)

/-- A saturating count with its largest value, raised by `n` (R1). -/
def satCount (largest count n : Nat) : Nat := min largest (count + n)

/-- A signed amount of fine units from the fine time of a hub time, wrapping modulo 2^44 (R1). -/
def fineAt (a : HubTime) (offset : Int) : FineTime :=
  BitVec.ofNat 44 (a.toNat * 16) + BitVec.ofInt 44 offset

/-- A signed number of ticks from a hub time, wrapping modulo 2^40 (R1). -/
def tickAt (a : HubTime) (offset : Int) : HubTime := a + BitVec.ofInt 40 offset

/-- The hub time of a fine time, rounded down. -/
def fineDiv16 (z : FineTime) : HubTime := BitVec.ofNat 40 (z.toNat / 16)

end Sys2Proof.Machine
end

