-- ==== Sys2Proof/Machine/Operands.lean ====
section
/-! DEFINITION. What the fields of a command become: named sets read from their codes (09), numeric
fields clamped to their ranges (08, R153), fields left out kept. -/

namespace Sys2Proof.Machine

/-! ### Numbers of records -/

/-- The site that a number names; none for 48 or more (02, R21). -/
def siteOf (n : Nat) : Option SiteNo := if h : n < 48 then some ⟨n, h⟩ else none

/-- The channel that a number names; none for 4 or more (08, R152). -/
def channelOf (n : Nat) : Option ChannelNo := if h : n < 4 then some ⟨n, h⟩ else none

/-- The zone number that a number names; none for 192 or more (04, R70). -/
def zoneOf (n : Nat) : Option ZoneNo := if h : n < 192 then some ⟨n, h⟩ else none

/-! ### Named sets (09, Value encodings) -/

def steerOf : Nat → Option SteerMode
  | 0 => some .auto
  | 1 => some .forceIn
  | 2 => some .forceOut
  | _ => none

def policyOf : Nat → Option Policy
  | 0 => some .warn
  | 1 => some .dropWorse
  | 2 => some .hold
  | _ => none

def noticeOf : Nat → Option NoticeMode
  | 0 => some .each
  | 1 => some .chainEnd
  | _ => none

def verdictOf : Nat → Option Verdict
  | 0 => some .accept
  | 1 => some .cold
  | 2 => some .busy
  | _ => none

/-- The timing mode of a code, with the air time given; none outside the set, and for ABSOLUTE
without an air time (05, R88). An air time given with another mode is not used (09). -/
def timingOf : Nat → Option HubTime → Option TimingMode
  | 0, some a => some (.absolute a)
  | 1, _ => some .follow
  | 2, _ => some .earliest
  | _, _ => none

/-! ### Ranges and clamping (08, R153) -/

/-- A range of an unsigned field. -/
structure Range where
  lo : Nat
  hi : Nat
deriving DecidableEq, Repr

/-- The value, or the nearer bound. -/
def Range.clamp (r : Range) (v : Nat) : Nat := max r.lo (min r.hi v)

/-- A field given takes its value clamped; a field left out keeps the value it had. -/
def Range.field (r : Range) (given : Option Nat) (kept : Nat) : Nat :=
  match given with
  | some v => r.clamp v
  | none => kept

/-- A field was given and its value was moved to fit. -/
def Range.moved (r : Range) (given : Option Nat) : Bool := given.any fun v => r.clamp v != v

/-- A signed value, or the nearer bound of `-bound .. bound - 1`. -/
def clampOffset (bound : Int) (v : Int) : Int := max (-bound) (min (bound - 1) v)

def fieldOffset (bound : Int) (given : Option Int) (kept : Int) : Int :=
  match given with
  | some v => clampOffset bound v
  | none => kept

def movedOffset (bound : Int) (given : Option Int) : Bool := given.any fun v => clampOffset bound v != v

/-- O and G: -2^20 .. 2^20 - 1 (02, R22; 04, R68). -/
def offsetBound : Int := 1048576

/-! ### The configuration fields of a site (02, R22) -/

def shareRange : Range := ⟨1, 255⟩
def latencyRange : Range := ⟨0, 2 ^ 24 - 1⟩
def marginRange : Range := ⟨1000, 1000000⟩
def warmUpRange : Range := ⟨0, 20000000⟩
def idleRange : Range := ⟨1, 6000⟩
def ceilingRange : Range := ⟨1000, 16777216⟩
def intervalRange : Range := ⟨10, 60000⟩
def gateRange : Range := ⟨16, 65535⟩
def gainRange : Range := ⟨1, 7⟩
def seedRange : Range := ⟨0, 2 ^ 28⟩

/-- The defaults of the table of configuration fields (02). -/
def SiteConfig.default : SiteConfig where
  steer := .auto
  share := 128
  e := 0
  o := 0
  m := 20000
  w := 5000000
  idleHold := 40
  ceiling := 8388608
  fast := 250
  slow := 5000
  gateFloor := 160
  gain := 3
  seed := none

/-- A member channel of 4 or more, or a steer mode outside its set (02, R22). -/
def siteFieldsInvalid (f : SiteFields) : Bool :=
  (f.members.any fun l => l.any (4 ≤ ·)) || f.steer.any fun v => (steerOf v).isNone

/-- The configuration with the given fields clamped and the others kept (02, R22). -/
def applySiteFields (f : SiteFields) (c : SiteConfig) : SiteConfig where
  steer := (f.steer.bind steerOf).getD c.steer
  share := shareRange.field f.share c.share
  e := latencyRange.field f.e c.e
  o := fieldOffset offsetBound f.o c.o
  m := marginRange.field f.m c.m
  w := warmUpRange.field f.w c.w
  idleHold := idleRange.field f.idleHold c.idleHold
  ceiling := ceilingRange.field f.ceiling c.ceiling
  fast := intervalRange.field f.fast c.fast
  slow := intervalRange.field f.slow c.slow
  gateFloor := gateRange.field f.gateFloor c.gateFloor
  gain := gainRange.field f.gain c.gain
  seed := match f.seed with
    | some v => some (seedRange.clamp v)
    | none => c.seed

/-- Whether any of the given fields was clamped (02, R22). -/
def siteFieldsMoved (f : SiteFields) : Bool :=
  shareRange.moved f.share || latencyRange.moved f.e || movedOffset offsetBound f.o ||
  marginRange.moved f.m || warmUpRange.moved f.w || idleRange.moved f.idleHold ||
  ceilingRange.moved f.ceiling || intervalRange.moved f.fast || intervalRange.moved f.slow ||
  gateRange.moved f.gateFloor || gainRange.moved f.gain || seedRange.moved f.seed

/-- The carrier entries after a membership is given: an entry for each listed channel, kept where
there was one (02, R32, R34). A channel listed twice enters once (R22). -/
def applyMembers (members : Option (List Nat)) (carriers : Vector (Option Carrier) 4) :
    Vector (Option Carrier) 4 :=
  match members with
  | none => carriers
  | some l => Vector.ofFn fun c : Fin 4 =>
    if l.contains c.val then some (carriers[c].getD ⟨none⟩) else none

/-! ### The settings of the measurement engine (03, R64) -/

def settleRange : Range := ⟨2, 8⟩
def staleRange : Range := ⟨1, 15⟩
def stepRange : Range := ⟨2, 7⟩
def quietRange : Range := ⟨10, 1000⟩

/-- PROBE's count n (03, R48). -/
def probeRange : Range := ⟨0, 15⟩

/-! ### The settings of the time scale (01, R20) -/

def edgeFilterRange : Range := ⟨1, 64⟩
def lockWindowRange : Range := ⟨1, 1000⟩
def holdoverRange : Range := ⟨1, 65535⟩

/-! ### Zones (04, R68) -/

def budgetRange : Range := ⟨1, 2 ^ 20⟩

/-! ### The settings of a channel (05, R84) -/

def periodRange : Range := ⟨1000, 100000⟩
def guardRange : Range := ⟨0, 10000000⟩
def leadRange : Range := ⟨100, 10000⟩
def dispatchRange : Range := ⟨0, 1000000⟩
def slipRange : Range := ⟨0, 5000⟩

/-- The grid period: 0 is off, any other value lies in 100,000 .. 2^32 (05, R84). -/
def clampGrid (v : Nat) : Nat := if v = 0 then 0 else max 100000 (min (2 ^ 32) v)

/-- The grid origin under the period in force after the command: below the period, and 0 while the
grid is off (05, R84). -/
def clampOrigin (period v : Nat) : Nat := if v < period then v else period - 1

/-- The settings with the given ones written (05, R84). -/
def applyChannelFields (f : ChannelFields) (c : ChannelSettings) : ChannelSettings :=
  let period := match f.gridPeriod with
    | some v => clampGrid v
    | none => c.gridPeriod
  { period0 := periodRange.field f.period0 c.period0
    period1 := periodRange.field f.period1 c.period1
    guardTime := guardRange.field f.guardTime c.guardTime
    computeLead := leadRange.field f.computeLead c.computeLead
    dispatch := dispatchRange.field f.dispatch c.dispatch
    slipLimit := slipRange.field f.slipLimit c.slipLimit
    gridPeriod := period
    gridOrigin := clampOrigin period (f.gridOrigin.getD c.gridOrigin)
    notice := (f.notice.bind noticeOf).getD c.notice }

/-- Whether any value was changed to fit, a kept grid origin that no longer fits included
(05, R84; notes/assumptions 15). -/
def channelFieldsMoved (f : ChannelFields) (c : ChannelSettings) : Bool :=
  periodRange.moved f.period0 || periodRange.moved f.period1 || guardRange.moved f.guardTime ||
  leadRange.moved f.computeLead || dispatchRange.moved f.dispatch || slipRange.moved f.slipLimit ||
  (f.gridPeriod.any fun v => clampGrid v != v) ||
  (applyChannelFields f c).gridOrigin != f.gridOrigin.getD c.gridOrigin

/-! ### Line rates (07, R140) -/

/-- The rate in kbit/s. -/
def rateKbit : LineRate → Nat
  | .kbit1024 => 1024
  | .kbit2048 => 2048
  | .kbit4096 => 4096

/-- The nearest of the three rates, the lower on a tie. -/
def nearestRate (kbit : Nat) : LineRate :=
  if kbit ≤ 1536 then .kbit1024 else if kbit ≤ 3072 then .kbit2048 else .kbit4096

end Sys2Proof.Machine
end

