-- ==== Sys2Proof/Machine/Ops.lean ====
section
/-! DEFINITION. The named operations over the records of the part that several rows share: reading
and writing one record, references and vacating, probe slots and the wait list. -/

namespace Sys2Proof.Machine

/-! ### One record of a table -/

def State.site (s : State) (n : SiteNo) : SiteRecord := s.sites[n]

def State.setSite (s : State) (n : SiteNo) (r : SiteRecord) : State :=
  { s with sites := s.sites.set n r }

def State.zone (s : State) (z : ZoneNo) : Option Zone := s.zones[z]

def State.setZone (s : State) (z : ZoneNo) (r : Option Zone) : State :=
  { s with zones := s.zones.set z r }

def State.channel (s : State) (c : ChannelNo) : Channel := s.channels[c]

def State.setChannel (s : State) (c : ChannelNo) (r : Channel) : State :=
  { s with channels := s.channels.set c r }

def State.modifyChannel (s : State) (c : ChannelNo) (f : Channel → Channel) : State :=
  s.setChannel c (f (s.channel c))

def State.slot (s : State) (i : SlotNo) : Option Slot := s.meas.slots[i]

def State.setSlot (s : State) (i : SlotNo) (r : Option Slot) : State :=
  { s with meas := { s.meas with slots := s.meas.slots.set i r } }

/-- The hub time that every block reads (01, R2). -/
def State.now (s : State) : HubTime := s.time.hub

/-- The timebase flag set (01, R18). -/
def TimeScale.flagged (t : TimeScale) : TimeScale := { t with flag := true }

/-! ### Site records -/

/-- The enrolled record of a site; none when VACANT. -/
def State.enrolled (s : State) (n : SiteNo) : Option Enrolled := (s.site n).body

/-- The record with a new body; a change of the state sets the change flag, and a transition to the
same state leaves it (02, R27). -/
def SiteRecord.put (r : SiteRecord) (e : Enrolled) : SiteRecord :=
  { r with
    body := some e
    change := r.change || (r.body.map Enrolled.phase != some e.phase) }

/-- An enrolled record changed; a VACANT one stays. -/
def State.modifySite (s : State) (n : SiteNo) (f : Enrolled → Enrolled) : State :=
  match s.enrolled n with
  | some e => s.setSite n ((s.site n).put (f e))
  | none => s

/-- The site is a member of the channel: it has the carrier entry (02, R26). -/
def State.isMember (s : State) (n : SiteNo) (c : ChannelNo) : Bool :=
  (s.enrolled n).any fun e => e.carriers[c].isSome

/-- The site is RETIRING. -/
def State.isRetiring (s : State) (n : SiteNo) : Bool :=
  (s.enrolled n).any fun e => e.phase == .retiring

/-! ### Batch records -/

/-- PLANNED, ARMED, CANCELLING or ON_AIR (05). -/
def Batch.active (b : Batch) : Bool :=
  match b.state with
  | .planned | .armed | .cancelling | .onAir => true
  | .queued | .done | .abandoned | .cancelled => false

/-- DONE, ABANDONED or CANCELLED (05). A terminal record in a queue is held (R98). -/
def Batch.terminal (b : Batch) : Bool :=
  match b.state with
  | .done | .abandoned | .cancelled => true
  | .queued | .planned | .armed | .cancelling | .onAir => false

/-- The end: the air time plus the duration, present while the air time is (05). -/
def Batch.endTime (b : Batch) : Option HubTime := b.air.map (· + ticks b.duration)

/-- A record has a plan from the moment it becomes PLANNED, when it takes its air time (05, R90). -/
def Batch.hasPlan (b : Batch) : Bool := b.air.isSome

/-- The INCLUDED entry of a plan entry. -/
def PlanEntry.included? (p : PlanEntry) : Option Included :=
  match p.disp with
  | .included e => some e
  | .excluded _ => none

/-- The INCLUDED entries of the plan. -/
def Batch.included (b : Batch) : List Included := b.plan.filterMap PlanEntry.included?

/-- The sites with an INCLUDED entry, ascending. -/
def Batch.includedSites (b : Batch) : List SiteNo :=
  (b.plan.filter fun p => p.included?.isSome).map PlanEntry.site

/-- The INCLUDED entry of a site. -/
def Batch.entryOf (b : Batch) (n : SiteNo) : Option Included :=
  (b.plan.find? fun p => p.site == n).bind PlanEntry.included?

/-- Some INCLUDED entry is in the order state. -/
def Batch.anyIn (b : Batch) (o : OrderState) : Bool := b.included.any fun e => e.order == o

/-- An INCLUDED plan entry changed, an EXCLUDED one kept. -/
def PlanEntry.modify (f : Included → Included) (p : PlanEntry) : PlanEntry :=
  match p.disp with
  | .included e => { p with disp := .included (f e) }
  | .excluded _ => p

/-- The INCLUDED entry of one site changed. -/
def Batch.modifyEntry (b : Batch) (n : SiteNo) (f : Included → Included) : Batch :=
  { b with plan := b.plan.map fun p => if p.site == n then p.modify f else p }

/-- Every INCLUDED entry changed. -/
def Batch.modifyEntries (b : Batch) (f : Included → Included) : Batch :=
  { b with plan := b.plan.map (PlanEntry.modify f) }

/-- The record of a tag in a queue; a tag is carried by one record (05, R87). -/
def Channel.find (c : Channel) (tag : Nat) : Option Batch := c.queue.find? fun b => b.tag == tag

/-- The record of a tag changed in its queue. -/
def Channel.modifyBatch (c : Channel) (tag : Nat) (f : Batch → Batch) : Channel :=
  { c with queue := c.queue.map fun b => if b.tag == tag then f b else b }

/-- The record of a tag removed from its queue; the others keep their order (05, R87). -/
def Channel.removeBatch (c : Channel) (tag : Nat) : Channel :=
  { c with queue := c.queue.filter fun b => b.tag != tag }

/-- The record of a tag on the part, with its channel. -/
def State.findBatch (s : State) (tag : Nat) : Option (ChannelNo × Batch) :=
  (List.finRange 4).findSome? fun c => ((s.channel c).find tag).map fun b => (c, b)

def State.modifyBatch (s : State) (c : ChannelNo) (tag : Nat) (f : Batch → Batch) : State :=
  s.modifyChannel c fun ch => ch.modifyBatch tag f

/-- Some batch of the channel is active (05, R84). -/
def Channel.anyActive (c : Channel) : Bool := c.queue.any Batch.active

/-- Some batch on some channel is active (01, R15). -/
def State.anyActive (s : State) : Bool := s.channels.toList.any Channel.anyActive

/-! ### References and vacating (02, R37, R40, R41) -/

/-- A reference of the site: an INCLUDED entry in an active batch, or a departed probe (R37). -/
def State.referenced (s : State) (n : SiteNo) : Bool :=
  (s.channels.toList.any fun c =>
    c.queue.any fun b => b.active && b.includedSites.contains n) ||
  s.meas.slots.toList.any fun o => o.any fun p => p.site == n && p.flight.isSome

/-- The zone names the site (04, R69). -/
def Zone.names (z : Zone) (n : SiteNo) : Bool := z.siteA == n || z.siteB == n

/-- How many zones name the site. -/
def State.zonesNaming (s : State) (n : SiteNo) : Nat :=
  (s.zones.toList.filter fun o => o.any fun z => z.names n).length

/-- The context without the entry of a site (06, R107). -/
def Context.without (c : Context) (n : SiteNo) : Context :=
  { c with entries := c.entries.set n none }

/-- The record becomes VACANT: it is cleared with its deafen state, the zones naming it are removed
and counted, its context entries are removed, and its change flag is set (R41). -/
def State.vacate (s : State) (n : SiteNo) : State :=
  { s with
    sites := s.sites.set n { change := true, zonesRemoved := s.zonesNaming n, body := none }
    zones := s.zones.map fun o => o.filter fun z => !z.names n
    channels := s.channels.map fun c => { c with context := c.context.map (Context.without · n) } }

/-- A RETIRING record whose last reference has ended becomes VACANT (R40). -/
def State.checkVacate (s : State) (n : SiteNo) : State :=
  if s.isRetiring n && !s.referenced n then s.vacate n else s

/-- The check of R40 for several sites, in their order. Where a batch that ends is the last reference of
several, R97 gives no order; plan order, which is ascending, is the model's DESIGN CHOICE: it decides
which of two sites counts a zone they share (notes/assumptions 32). -/
def State.checkVacateAll (s : State) (ns : List SiteNo) : State := ns.foldl State.checkVacate s

/-! ### Probe slots and the wait list (03, R45, R46) -/

/-- The lowest-numbered free slot. -/
def State.freeSlot (s : State) : Option SlotNo :=
  (List.finRange 8).find? fun i => (s.slot i).isNone

/-- The slot that serves a site. -/
def State.slotOf (s : State) (n : SiteNo) : Option SlotNo :=
  (List.finRange 8).find? fun i => (s.slot i).any fun p => p.site == n

/-- The site holds a slot or a wait-list entry (R45). -/
def State.holdsProbe (s : State) (n : SiteNo) : Bool :=
  (s.slotOf n).isSome || s.meas.wait.any fun w => w.site == n

/-- A slot newly claimed by a request: QUEUED, its queue order the hub time of the claim (R45). -/
def WaitEntry.claim (w : WaitEntry) (now : HubTime) : Slot where
  site := w.site
  queueOrder := now
  burst := w.burst
  further := w.further
  flight := none

/-- A request claims the lowest-numbered free slot, or joins the tail of the wait list (R45). -/
def State.requestProbe (s : State) (w : WaitEntry) : State :=
  match s.freeSlot with
  | some i => s.setSlot i (some (w.claim s.now))
  | none => { s with meas := { s.meas with wait := s.meas.wait ++ [w] } }

/-- A slot is freed, and the head of the wait list claims it at once (R46). -/
def State.freeProbe (s : State) (i : SlotNo) : State :=
  match s.meas.wait with
  | [] => s.setSlot i none
  | w :: rest =>
    { s with meas := { s.meas with
        slots := s.meas.slots.set i (some (w.claim s.now))
        wait := rest } }

/-! ### Cadence timers (03, R43, R44) -/

/-- The reload interval of the site's state, in ticks (R43); none while the timer is stopped. -/
def Enrolled.interval (e : Enrolled) : HubTime :=
  match e.phase with
  | .tracking => msTicks e.config.slow
  | .settling | .stale | .retiring => msTicks e.config.fast

/-- The timer restarted from now with the interval of the site's state (R44). -/
def Enrolled.restartCadence (e : Enrolled) (now : HubTime) : Enrolled :=
  { e with cadence := some (now + e.interval) }

/-- The expiry of a site's timer is taken: it reloads from the expiry by the state the site holds,
and asks for one probe unless the site holds a slot or a wait-list entry (R43). -/
def State.takeCadence (s : State) (n : SiteNo) (e : Enrolled) (expiry : HubTime) : State :=
  let s := s.setSite n ((s.site n).put { e with cadence := some (expiry + e.interval) })
  if s.holdsProbe n then s else s.requestProbe ⟨n, 0, false⟩

/-! ### The highway error count (07, R143) -/

/-- The count raised by 1, saturating at 65,535. -/
def Highway.countError (h : Highway) : Highway := { h with errors := satCount 65535 h.errors 1 }

end Sys2Proof.Machine
end

