-- ==== Sys2Proof/Machine/Flags.lean ====
section
/-! DEFINITION. What the part reports of itself: the status summary (08, R155), the attention line
(08, R157), and the time-unverified flags that a timebase leaving LOCKED sets (05, R96). -/

namespace Sys2Proof.Machine

/-- The held records of a channel (05, R98). -/
def Channel.held (c : Channel) : Nat := (c.queue.filter Batch.terminal).length

/-- The held records on the part, all channels together (08, R155). -/
def State.heldCount (s : State) : Nat := (s.channels.toList.map Channel.held).sum

/-- Some site record has its change flag set (08, R155). -/
def State.siteChange (s : State) : Bool := s.sites.toList.any SiteRecord.change

/-- Some zone record has its fail flag set (08, R155). -/
def State.zoneFail (s : State) : Bool := s.zones.toList.any fun o => o.any Zone.failFlag

/-- The status summary of this moment (08, R155). -/
def State.statusSummary (s : State) : StatusSummary where
  held := s.heldCount
  siteChange := s.siteChange
  zoneFail := s.zoneFail
  timeFlag := s.time.flag
  mode := s.time.mode

/-- ATTN is asserted exactly when one of its four causes exists; it is released while RESET is held
low (08, R157). -/
def State.attn (s : State) : Bool :=
  !s.port.resetLow &&
  (decide (0 < s.heldCount) || s.siteChange || s.zoneFail || s.time.flag)

/-- The time-unverified flag of every active batch set, as the timebase leaves LOCKED (05, R96). -/
def State.markUnverified (s : State) : State :=
  { s with channels := s.channels.map fun c =>
      { c with queue := c.queue.map fun b => if b.active then { b with unverified := true } else b } }

/-- A new time scale written; leaving LOCKED marks the active batches (05, R96). -/
def State.putTime (s : State) (t : TimeScale) : State :=
  let s' := { s with time := t }
  if s.time.mode == .locked && t.mode != .locked then s'.markUnverified else s'

end Sys2Proof.Machine
end

