-- ==== Sys2Proof/Machine/Port.lean ====
section
/-! DEFINITION. The command port (08): how a transaction ends with a command, and the two events of
the port itself, TRANSACTION_BEGIN and RESPONSE_READY. -/

namespace Sys2Proof.Machine

/-- What the owning block answers to a command it is handed (08, R149). -/
structure Answer where
  result : Result
  body : Body
  state : State
deriving DecidableEq, Repr

/-- A refusal leaves the part as it was and carries no body (08, R151, R152). -/
def refuse (r : Result) (s : State) : Answer := ⟨r, .empty, s⟩

/-- DONE_ADJUSTED when a value was moved to fit, DONE otherwise (08, R153). -/
def doneIf (moved : Bool) : Result := if moved then .doneAdjusted else .done

/-- Nothing is taken while RESET is low; otherwise the event acts (08, R160). -/
def whileRunning (s : State) (act : State → State) : Host.Outcome State Fault Refusal :=
  .next (if s.port.resetLow then s else act s)

/-- What a transaction that begins now presents (08, R148). -/
def Port.presents (p : Port) : Presented :=
  if p.forming.isSome then .working
  else match p.stored with
    | some r => .stored r
    | none => .initial

/-- What the transaction that ends now presented. A command row with no transaction begun before it
stands for the whole transaction (notes/assumptions 4). -/
def Port.presented (p : Port) : Presented :=
  match p.transaction with
  | some t => t.presented
  | none => p.presents

/-- A command is taken at the end of this transaction: the port is not held by RESET, the
transaction is not an ignored one, and it presented something other than WORKING
(08, R149, R160). -/
def State.takes (s : State) : Bool :=
  !s.port.resetLow && !s.port.ignored && s.port.presented != .working

/-- PSEL rises: no transaction is in progress. -/
def State.endTransaction (s : State) : State :=
  { s with port := { s.port with transaction := none, ignored := false } }

/-- A transaction in progress through one hub clock period: a byte may be completed on PDI, and PSEL may
rise on a transaction that takes nothing, which is a poll when its length byte has not arrived or is 0
(08, R148, R149), or an ignored one (R160). Both are the host's doing, so they are free values; a
transaction that ends with a command ends by that command's row (notes/assumptions 4). -/
def State.hostPeriod (s : State) : State :=
  let drawn : State := { s with free := s.free + 1 }
  match s.port.transaction with
  | some t =>
    if readCommandFrame t.received == .poll && Config.pselRises s.free then drawn.endTransaction
    else { drawn with port := { s.port with
      transaction := some { t with received := t.received ++ (Config.pdiByte s.free).toList } } }
  | none =>
    if s.port.ignored then
      if Config.pselRises s.free then drawn.endTransaction else drawn
    else s

/-- The port records the answer and sets the working flag (08, R149). -/
def Answer.record (a : Answer) (identifier label : Byte) (taken : HubTime) : State :=
  let forming : Forming := ⟨⟨identifier, label, taken, a.result, a.body⟩, 0, a.state.free⟩
  { a.state with
    port := { a.state.port with forming := some forming }
    free := a.state.free + 1 }

/-- A transaction ends with a command frame: the command is handed to its owning block when it is
taken, and discarded otherwise (08, R149). -/
def takeCommand (identifier label : Byte) (s : State) (act : State → Answer) :
    Host.Outcome State Fault Refusal :=
  .next (if s.takes then (act s.endTransaction).record identifier label s.now else s.endTransaction)

/-- PSEL falls (08, R148): the presentation and the status summary are fixed. A transaction still in
progress has ended as a poll (notes/assumptions 4). While RESET is low it is ignored (R160). -/
def execTransactionBegin (s : State) : Host.Outcome State Fault Refusal :=
  let began : Transaction := ⟨s.port.presents, s.statusSummary, []⟩
  .next { s with
    port := if s.port.resetLow then { s.port with ignored := true }
      else { s.port with ignored := false, transaction := some began } }

/-- The response body has been formed: it becomes the stored response and the working flag clears
(08, R150). -/
def execResponseReady (s : State) : Host.Outcome State Fault Refusal :=
  whileRunning s fun s =>
    match s.port.forming with
    | some f => { s with port := { s.port with stored := some f.response, forming := none } }
    | none => s

/-- A malformed frame is refused with INVALID and not handed on (08, R149). A byte that never arrived
is a free value (notes/assumptions 6). -/
def execMalformedFrame (identifier label : Option Byte) (s : State) :
    Host.Outcome State Fault Refusal :=
  takeCommand (identifier.getD (Config.missingByte (2 * s.free)))
    (label.getD (Config.missingByte (2 * s.free + 1))) s (refuse .invalid)

end Sys2Proof.Machine
end

