-- ==== Sys2Proof/Machine/TimeScale.lean ====
section
/-! DEFINITION. The time scale (01): the rows of the reference, of the edge filter, of the timebase
states and of slewing, and the commands TIME MARK, READ TIME and SET TIMEBASE. -/

namespace Sys2Proof.Machine

/-! ### The pending step (R14 to R16) -/

/-- The boundary that second N names (R17). -/
def markTime (n : Nat) : HubTime := ticks (n * secondTicks)

/-- The offset of an edge from its capture, -5,000,000 .. 4,999,999 (R7). -/
def edgeOffset (capture : HubTime) : Int :=
  let m := capture.toNat % secondTicks
  if m < 5000000 then (m : Int) else (m : Int) - secondTicks

/-- The nearest boundary of an edge: its capture less its offset (R7). -/
def nearestBoundary (capture : HubTime) : HubTime := tickAt capture (-edgeOffset capture)

/-- The step raised by the first edge of ACQUIRING or by a phase jump (R14). -/
def plainStep : PendingStep := ⟨none, 0⟩

/-- A mark second resolved at an edge whose step cannot be applied (R14). -/
def PendingStep.resolve (p : PendingStep) (boundary : HubTime) : PendingStep :=
  match p.mark with
  | some n => ⟨none, (markTime n - boundary).toInt⟩
  | none => p

/-- The target of a step applied at an edge (R15). -/
def PendingStep.target (p : PendingStep) (boundary : HubTime) : HubTime :=
  match p.mark with
  | some n => markTime n
  | none => tickAt boundary p.shift

/-- A probe slot's times moved (R16). -/
def Slot.move (p : Slot) (d : HubTime) : Slot :=
  { p with
    queueOrder := p.queueOrder + d
    flight := p.flight.map fun f => { f with departure := f.departure + d, timeout := f.timeout + d } }

/-- A record's times moved: last accepted time, cadence expiry, deafen-until and confirmed ends
(R16). -/
def Enrolled.move (e : Enrolled) (d : HubTime) : Enrolled :=
  { e with
    est := { e.est with lastAccepted := e.est.lastAccepted.map (· + d) }
    cadence := e.cadence.map (· + d)
    deafenUntil := e.deafenUntil.map (· + d)
    carriers := e.carriers.map fun o => o.map fun x => ⟨x.confirmedEnd.map (· + d)⟩ }

/-- The line's free time moved while it is BUSY (R16; 07, R130). -/
def OutboundLine.move (l : OutboundLine) (d : HubTime) : OutboundLine :=
  match l with
  | .idle => .idle
  | .busy f x => .busy f (x + d)

/-- Every stored hub time of the other blocks that a step moves, moved by its amount (R16). -/
def State.moveStored (s : State) (d : HubTime) : State :=
  { s with
    sites := s.sites.map fun r => { r with body := r.body.map (Enrolled.move · d) }
    meas := { s.meas with slots := s.meas.slots.map fun o => o.map (Slot.move · d) }
    highway := { s.highway with line := s.highway.line.move d } }

/-- The watch for the next edge in LOCKED (R9): the expected boundary a second after a boundary, and
the miss deadline. -/
def TimeScale.expectAfter (t : TimeScale) (boundary : HubTime) : TimeScale :=
  let expected := boundary + ticks secondTicks
  { t with expected := some expected, miss := some (expected + ticks t.lockWindow) }

/-- The time scale after a step is applied at an edge whose pulse held for `run` samples (R15): hub time
becomes the target plus the periods since the capture, `run` less 1, also where a slew adjustment fell
within the pulse. Hub time then moves by one more or one less than the amount that R16 moves the stored
times by, and the manual does not say which of the two gives way: DESIGN CHOICE
(notes/assumptions 38). -/
def TimeScale.applyStep (t : TimeScale) (target : HubTime) (run : Nat) : TimeScale :=
  let t := { t with
    hub := target + ticks (run - 1)
    step := none
    slew := 0
    inRun := 0
    outRun := 0
    flag := true }
  if t.mode = .locked then t.expectAfter target else t

/-! ### Edges and the timebase states (R7 to R12) -/

/-- An out-of-window edge counted; the third raises a pending step unless one is pending (R12). -/
def TimeScale.countOut (t : TimeScale) : TimeScale :=
  if t.outRun + 1 < 3 then { t with outRun := t.outRun + 1 }
  else { t with outRun := 0, step := t.step <|> some plainStep }

/-- An accepted edge in LOCKED (R9); an in-window one steers the slew and is owed its first
adjustment (R13). The remainder is an exact number of ticks without bound, since R9 gives it none:
DESIGN CHOICE (notes/assumptions 31). -/
def TimeScale.lockedEdge (t : TimeScale) (capture : HubTime) (inWindow : Bool) : TimeScale :=
  let t := t.expectAfter (nearestBoundary capture)
  if inWindow then
    { t with outRun := 0, slew := t.slew + edgeOffset capture, pace := 0, slewFirst := true }
  else t.countOut

/-- The run that completes makes the state LOCKED, and the edge is its first (R8, R10, R11). The
in-window run becomes 0 (notes/assumptions 10). -/
def TimeScale.lock (t : TimeScale) (capture : HubTime) : TimeScale :=
  { t with mode := .locked, inRun := 0, holdover := 0, holdoverPeriods := 0, flag := true
    }.lockedEdge capture true

/-- An in-window edge outside LOCKED: with the reference present the run rises, and at `need` the
state becomes LOCKED (R5, R8, R10, R11). -/
def TimeScale.countIn (t : TimeScale) (need : Nat) (capture : HubTime) : TimeScale :=
  if !t.present then { t with inRun := 0 }
  else if t.inRun + 1 < need then { t with inRun := t.inRun + 1 }
  else t.lock capture

/-- The rule of the current state acts on an edge at which no step is applied (R8 to R12). In ACQUIRING an
edge that finds a step pending is not counted and leaves the in-window run as it is. R8 says so of the
initial step; of a later one that active batches defer, a TIME MARK or a step that an out-of-window edge
raised, it does not say whether edges count, and the model treats it alike: DESIGN CHOICE
(notes/assumptions 39). -/
def TimeScale.edgeRule (t : TimeScale) (capture : HubTime) : TimeScale :=
  let inWindow := decide (|edgeOffset capture| ≤ t.lockWindow)
  match t.mode with
  | .acquiring =>
    if t.step.isSome then t
    else if inWindow then t.countIn 3 capture
    else { t with inRun := 0, step := some plainStep }
  | .locked => t.lockedEdge capture inWindow
  | .holdover | .free =>
    if inWindow then { t with outRun := 0 }.countIn 2 capture
    else { t with inRun := 0 }.countOut

/-- An accepted edge (R7): its offset is recorded, the first edge of ACQUIRING raises a step (R8),
and the edge goes to the pending-step check and then, if no step is applied, to the rule of the
current state. -/
def State.takeEdge (s : State) (run : Nat) (capture : HubTime) : State :=
  let first := s.time.mode = .acquiring ∧ s.time.lastOffset = none
  let t := { s.time with
    filter := .awaitLow
    lastOffset := some (edgeOffset capture)
    step := if first then s.time.step <|> some plainStep else s.time.step }
  let boundary := nearestBoundary capture
  match t.step with
  | none => s.putTime (t.edgeRule capture)
  | some p =>
    if s.anyActive then s.putTime ({ t with step := some (p.resolve boundary) }.edgeRule capture)
    else
      let target := p.target boundary
      (s.moveStored (target - capture)).putTime (t.applyStep target run)

/-- The sample of this period has brought the run count to F: the edge is accepted (R6, R7). If F has
been raised since, the sample only raised the run count. -/
def execEdgeAccepted (s : State) : Host.Outcome State Fault Refusal :=
  whileRunning s fun s =>
    match s.time.filter with
    | .high run capture true =>
      if s.time.edgeFilter ≤ run then s.takeEdge run capture
      else { s with time := { s.time with filter := .high run capture false } }
    | .high _ _ false | .awaitLow | .low => s

/-- A high sample in LOW begins a pulse (R6). -/
def execPulseBegins (s : State) : Host.Outcome State Fault Refusal :=
  whileRunning s fun s =>
    match s.time.filter with
    | .low => { s with time := { s.time with
        filter := .high 1 s.now (decide (s.time.edgeFilter ≤ 1)) } }
    | .awaitLow | .high _ _ _ => s

/-- A low sample in HIGH ends a pulse that was not accepted (R6). -/
def execGlitch (s : State) : Host.Outcome State Fault Refusal :=
  whileRunning s fun s =>
    match s.time.filter with
    | .high _ _ _ => { s with time := { s.time with
        filter := .low, glitches := satCount 65535 s.time.glitches 1 } }
    | .awaitLow | .low => s

/-- A low sample in AWAIT_LOW moves the filter to LOW (R6). -/
def execPpsLowSample (s : State) : Host.Outcome State Fault Refusal :=
  whileRunning s fun s =>
    match s.time.filter with
    | .awaitLow => { s with time := { s.time with filter := .low } }
    | .low | .high _ _ _ => s

/-! ### The reference (R5) -/

/-- The reference is judged lost: the state becomes FREE from any state. -/
def execReferenceLost (s : State) : Host.Outcome State Fault Refusal :=
  whileRunning s fun s =>
    if s.time.present then
      s.putTime { s.time with
        present := false, mode := .free, inRun := 0, expected := none, miss := none, flag := true }
    else s

/-- The reference is judged returned: the state stays, and the flag is set. -/
def execReferenceReturned (s : State) : Host.Outcome State Fault Refusal :=
  whileRunning s fun s =>
    if s.time.present then s
    else { s with time := { s.time with present := true, inRun := 0, flag := true } }

/-! ### The passing of a hub clock period (R2, R6, R10, R13) -/

/-- The high sample that the PPS input gives in a period in which no row of the edge filter is taken:
in HIGH the run count rises, and `reached` says whether it has come to F (R6). -/
def TimeScale.sample (t : TimeScale) : EdgeFilter :=
  match t.filter with
  | .high run capture _ => .high (run + 1) capture (decide (t.edgeFilter ≤ run + 1))
  | .awaitLow => .awaitLow
  | .low => .low

/-- What every period does to the time scale, with hub time advanced by `advance`. -/
def TimeScale.pass (t : TimeScale) (advance : HubTime) : TimeScale :=
  { t with
    hub := t.hub + advance
    filter := t.sample
    slewFirst := false
    holdoverPeriods := if t.mode = .holdover then t.holdoverPeriods + 1 else t.holdoverPeriods }

/-- The coming period is one in which a slew adjustment is made (R13): the first after an in-window
edge, or the 10,000th after the previous adjustment. -/
def TimeScale.slewDue (t : TimeScale) : Bool :=
  t.mode == .locked && t.slew != 0 && (t.slewFirst || decide (10000 ≤ t.pace + 1))

/-- A period in which no adjustment is made (R2). The pace count stands while the remainder is 0 in
LOCKED and becomes 0 at every in-window edge, where R13 only says that it restarts at the edge that
follows a remainder of 0; no adjustment falls otherwise for it: DESIGN CHOICE (notes/assumptions 36). -/
def TimeScale.plainPeriod (t : TimeScale) : TimeScale :=
  { t.pass 1 with pace := if t.mode = .locked ∧ t.slew ≠ 0 then t.pace + 1 else t.pace }

/-- A period in which an adjustment is made: hub time is held or advances by 2, and the remainder
moves toward 0 by 1 (R13). -/
def TimeScale.slewPeriod (t : TimeScale) : TimeScale :=
  if 0 < t.slew then { t.pass 0 with slew := t.slew - 1, pace := 0 }
  else { t.pass 2 with slew := t.slew + 1, pace := 0 }

/-- The response in formation grows older by a period (08, R150). -/
def Port.pass (p : Port) : Port :=
  { p with forming := p.forming.map fun f => { f with age := f.age + 1 } }

/-- One hub clock period with the time scale as it makes it: the response in formation grows older, and
the host and the framer bank drive their lines (08, R148, R150; 07, R141). -/
def State.period (s : State) (time : TimeScale) : State :=
  ({ s with time := time, port := s.port.pass } : State).hostPeriod.linePeriod

/-- One hub clock period without a slew adjustment. -/
def State.plainPeriod (s : State) : State := s.period s.time.plainPeriod

/-- The pace period in which the time scale makes a slew adjustment (R13). -/
def execSlewAdjustment (s : State) : Host.Outcome State Fault Refusal :=
  whileRunning s fun s =>
    if s.time.slewDue then s.period s.time.slewPeriod else s

/-! ### Timed events of the timebase states (R9, R10) -/

/-- The miss deadline is reached in LOCKED: the state becomes HOLDOVER (R9). -/
def execMissDeadline (s : State) : Host.Outcome State Fault Refusal :=
  whileRunning s fun s =>
    if s.time.mode = .locked ∧ (s.time.miss.any fun x => reached s.now x) then
      s.putTime { s.time with
        mode := .holdover, holdover := 0, holdoverPeriods := 0, inRun := 0
        expected := none, miss := none, flag := true }
    else s

/-- HOLDOVER becomes FREE when the elapsed count has reached the holdover limit (R10). -/
def TimeScale.checkLimit (t : TimeScale) : TimeScale :=
  if t.mode = .holdover ∧ t.holdoverLimit ≤ t.holdover then { t with mode := .free, flag := true }
  else t

/-- Another 10,000,000 periods have passed in HOLDOVER (R10). -/
def execHoldoverElapsed (s : State) : Host.Outcome State Fault Refusal :=
  whileRunning s fun s =>
    if s.time.mode = .holdover ∧ secondTicks ≤ s.time.holdoverPeriods then
      { s with time := { s.time with
          holdover := satCount 65535 s.time.holdover 1
          holdoverPeriods := s.time.holdoverPeriods - secondTicks }.checkLimit }
    else s

/-! ### Commands (R17, R19, R20) -/

/-- TIME MARK N sets the pending step to mark second N with shift 0 and answers PENDING (R17). -/
def execTimeMark (label : Byte) (second : Nat) (s : State) : Host.Outcome State Fault Refusal :=
  takeCommand 19 label s fun s =>
    ⟨.pending, .empty, { s with time := { s.time with step := some ⟨some second, 0⟩ } }⟩

/-- The snapshot of READ TIME (R19). -/
def TimeScale.report (t : TimeScale) : TimeReport where
  hub := t.hub
  mode := t.mode
  present := t.present
  step := t.step
  slew := t.slew
  holdover := t.holdover
  lastOffset := t.lastOffset
  glitches := t.glitches

/-- READ TIME returns the snapshot, then clears the timebase flag and the glitch count (R19). -/
def execReadTime (label : Byte) (s : State) : Host.Outcome State Fault Refusal :=
  takeCommand 20 label s fun s =>
    ⟨.done, .time s.time.report, { s with time := { s.time with flag := false, glitches := 0 } }⟩

/-- The settings written (R20). -/
def TimeScale.applyFields (t : TimeScale) (f : TimebaseFields) : TimeScale :=
  { t with
    edgeFilter := edgeFilterRange.field f.edgeFilter t.edgeFilter
    lockWindow := lockWindowRange.field f.lockWindow t.lockWindow
    holdoverLimit := holdoverRange.field f.holdoverLimit t.holdoverLimit }

/-- SET TIMEBASE (R20); a limit no greater than the elapsed count in HOLDOVER moves the state to FREE
as the command is taken (R10). -/
def execSetTimebase (label : Byte) (fields : TimebaseFields) (s : State) :
    Host.Outcome State Fault Refusal :=
  takeCommand 21 label s fun s =>
    ⟨doneIf (edgeFilterRange.moved fields.edgeFilter || lockWindowRange.moved fields.lockWindow ||
      holdoverRange.moved fields.holdoverLimit), .empty,
     { s with time := (s.time.applyFields fields).checkLimit }⟩

end Sys2Proof.Machine
end

