-- ==== Sys2Proof/Machine/Clock.lean ====
section
/-! DEFINITION. The part's own timers on an empty queue (01, R3): which timed rows are due in this hub
clock period, and which is taken (notes/assumptions 1 and 3). -/

namespace Sys2Proof.Machine

/-- A row when its condition holds. -/
def rowIf (due : Bool) (i : Instr) : List Instr := if due then [i] else []

/-- The timed rows of the time scale that are due: an edge whose run count has come to F, the miss
deadline, a second of holdover (01, R6, R9, R10). -/
def TimeScale.dueRows (t : TimeScale) : List Instr :=
  rowIf (match t.filter with
    | .high _ _ r => r
    | .awaitLow | .low => false) .edgeAccepted ++
  rowIf (t.mode == .locked && t.miss.any fun x => reached t.hub x) .missDeadline ++
  rowIf (t.mode == .holdover && decide (secondTicks ≤ t.holdoverPeriods)) .holdoverElapsed

/-- The timed rows of a site record that are due: its cadence expiry and the end of its deafen gap
(03, R43, R54). -/
def Enrolled.dueRows (e : Enrolled) (now : HubTime) (n : SiteNo) : List Instr :=
  rowIf (e.cadence.any fun x => reached now x) (.cadenceExpiry n) ++
  rowIf (e.deafenUntil.any fun x => reached now x) (.deafenEnd n)

/-- The timeout of a departed probe, when due (03, R51). -/
def Slot.dueRows (p : Slot) (now : HubTime) (i : SlotNo) : List Instr :=
  rowIf (p.flight.any fun f => reached now f.timeout) (.probeTimeout i)

/-- The timed rows of an INCLUDED entry of an active batch that are due (07, R133, R135, R138, R146). -/
def Included.dueRows (e : Included) (now : HubTime) (tag : Nat) (n : SiteNo) : List Instr :=
  rowIf (e.order == .waiting && !e.released && reached now e.release) (.release tag n) ++
  rowIf (e.order == .waiting && reached now e.deadline) (.withdrawal tag n) ++
  rowIf (e.order == .sent && e.receiptDeadline.any fun x => reached now x) (.receiptDeadline tag n) ++
  rowIf (e.order == .aborting && e.abortDeadline.any fun x => reached now x) (.abortDeadline tag n)

/-- The timed rows of an active batch that are due: its air time, its end, and those of its entries
(05, R94, R95). -/
def Batch.dueRows (b : Batch) (now : HubTime) : List Instr :=
  if b.active then
    rowIf (b.state != .onAir && b.air.any fun a => reached now a) (.airTime b.tag) ++
    rowIf (b.state == .onAir && b.endTime.any fun x => reached now x) (.batchEnd b.tag) ++
    b.plan.flatMap fun p =>
      match p.included? with
      | some e => e.dueRows now b.tag p.site
      | none => []
  else []

/-- The timed rows of a channel that are due: its compute point (05, R91) and those of its batches. -/
def Channel.dueRows (c : Channel) (now : HubTime) (n : ChannelNo) : List Instr :=
  rowIf (c.timer.any fun x => reached now x) (.computePoint n) ++
  c.queue.flatMap fun b => b.dueRows now

/-- The outbound line's free time, when due (07, R130). -/
def OutboundLine.dueRows (l : OutboundLine) (now : HubTime) : List Instr :=
  match l with
  | .idle => []
  | .busy _ x => rowIf (reached now x) .lineFree

/-- The response in formation is ready: after its free delay, and after 2,000 ticks at the latest
(08, R150). -/
def Forming.ready (f : Forming) : Bool :=
  decide (2000 ≤ f.age) || decide (Config.readyDelay f.index % 2001 ≤ f.age)

/-- The rows that are due in this period on the whole part: the timed ones, and the completion of the frame
in COLLECT (07, R141). -/
def State.dueRows (s : State) : List Instr :=
  s.time.dueRows ++
  ((List.finRange 48).flatMap fun n =>
    match s.enrolled n with
    | some e => e.dueRows s.now n
    | none => []) ++
  ((List.finRange 8).flatMap fun i =>
    match s.slot i with
    | some p => p.dueRows s.now i
    | none => []) ++
  ((List.finRange 4).flatMap fun c => (s.channel c).dueRows s.now c) ++
  s.highway.line.dueRows s.now ++ s.highway.assembler.complete.toList ++
  rowIf (s.port.forming.any Forming.ready) .responseReady

/-- The row that an empty queue takes: none when no timed row is due or RESET is low, the one that is
due, or one of several by a free choice, for which the manual allows either order. -/
def State.dueRow (s : State) : Option (Instr × State) :=
  if s.port.resetLow then none
  else match s.dueRows with
    | [] => none
    | [i] => some (i, s)
    | i :: rest =>
      some ((i :: rest).getD (Config.dueChoice s.free % (rest.length + 1)) i,
        { s with free := s.free + 1 })

/-- A hub clock period passes with no timed row due: an adjustment period of the slew, or a plain one
(01, R2, R13). While RESET is low hub time stays 0. -/
def State.clockRow (s : State) : Option Instr :=
  if !s.port.resetLow && s.time.slewDue then some .slewAdjustment else none

/-- A period without a slew adjustment; nothing passes while RESET is low. -/
def State.idlePeriod (s : State) : State := if s.port.resetLow then s else s.plainPeriod

end Sys2Proof.Machine
end

