-- ==== Sys2Proof/Machine/Batches.lean ====
section
/-! DEFINITION. The life of a batch record after its planning (05): entry counts, chain summary,
holding and reaping, withdrawal, cancelling and its completion. -/

namespace Sys2Proof.Machine

/-! ### Counts and the chain summary (05, R97, R99) -/

/-- How many INCLUDED entries are in an order state. -/
def Batch.countIn (b : Batch) (o : OrderState) : Nat :=
  (b.included.filter fun e => e.order == o).length

/-- How many INCLUDED entries are REFUSED with a verdict. -/
def Batch.countRefused (b : Batch) (v : Verdict) : Nat :=
  (b.included.filter fun e => e.order == .refused && e.verdict == some v).length

/-- The entry counts of a batch that becomes terminal (R97). -/
def Batch.entryCounts (b : Batch) : EntryCounts where
  included := b.included.length
  excluded := (b.plan.filter fun p => p.included?.isNone).length
  receipted := b.countIn .receipted
  refusedCold := b.countRefused .cold
  refusedBusy := b.countRefused .busy
  unconfirmed := b.countIn .unconfirmed
  withdrawn := b.countIn .withdrawn
  aborted := b.countIn .aborted
  abortMissed := b.countIn .abortMissed

/-- 1 for the terminal state counted, 0 for another. -/
def Batch.ended (b : Batch) (st : BatchState) : Nat := if b.state == st then 1 else 0

/-- A terminal batch added to the summary: 1 to the count of its state, its entry counts to the
totals, each saturating at 65,535 (R99). -/
def ChainSummary.add (c : ChainSummary) (b : Batch) (n : EntryCounts) : ChainSummary where
  done := satCount 65535 c.done (b.ended .done)
  abandoned := satCount 65535 c.abandoned (b.ended .abandoned)
  cancelled := satCount 65535 c.cancelled (b.ended .cancelled)
  receipted := satCount 65535 c.receipted n.receipted
  refused := satCount 65535 c.refused (n.refusedCold + n.refusedBusy)
  unconfirmed := satCount 65535 c.unconfirmed n.unconfirmed
  withdrawn := satCount 65535 c.withdrawn n.withdrawn
  aborted := satCount 65535 c.aborted n.aborted
  abortMissed := satCount 65535 c.abortMissed n.abortMissed
  excluded := satCount 65535 c.excluded n.excluded

/-! ### Becoming terminal (05, R97, R98) -/

/-- The record immediately behind the record of a tag. -/
def successorOf (tag : Nat) : List Batch → Option Batch
  | [] => none
  | b :: rest => if b.tag == tag then rest.head? else successorOf tag rest

/-- The batch is the last of its chain: its successor is absent or not in FOLLOW mode (R98). -/
def Channel.lastOfChain (c : Channel) (tag : Nat) : Bool :=
  (successorOf tag c.queue).all fun b => b.mode != .follow

/-- A terminal batch is held, not reaped (R98); one made CANCELLED by FLUSH CHANNEL is reaped
whatever the conditions say (R103). -/
def Channel.holds (c : Channel) (b : Batch) : Bool :=
  !(b.flushed && b.state == .cancelled) &&
  (b.notice || c.settings.notice == .each || b.state == .abandoned ||
    (b.state == .done && b.partialMark) || c.lastOfChain b.tag)

/-- A batch becomes terminal in its queue, steps 1 to 3 of R97: its counts are written, it is added
to the chain summary, and it is held with the summary or reaped. -/
def Channel.terminate (c : Channel) (b : Batch) : Channel :=
  let counts := b.entryCounts
  let b := { b with counts := some counts }
  let total := c.summary.add b counts
  if c.holds b then
    { c.modifyBatch b.tag fun _ => { b with summary := some total } with summary := .zero }
  else { c.removeBatch b.tag with summary := total }

/-- A batch becomes terminal in the state it carries: R97, with the check of R40 for its INCLUDED
sites as step 4. -/
def State.terminate (s : State) (c : ChannelNo) (b : Batch) : State :=
  (s.modifyChannel c fun ch => ch.terminate b).checkVacateAll b.includedSites

/-! ### Arming, withdrawal and abandonment (05, R93; 07, R135, R136) -/

/-- A PLANNED batch with no entry WAITING becomes ARMED (05, R93). -/
def Batch.armIfReady (b : Batch) : Batch :=
  if b.state == .planned && !b.anyIn .waiting then { b with state := .armed } else b

/-- A WAITING entry becomes WITHDRAWN. -/
def Included.withdraw (e : Included) : Included :=
  if e.order == .waiting then { e with order := .withdrawn } else e

/-- Every INCLUDED entry is WITHDRAWN or ABORTED (07, R136). -/
def Batch.noneLive (b : Batch) : Bool :=
  b.included.all fun e => e.order == .withdrawn || e.order == .aborted

/-- The WAITING entry of a site in a batch is withdrawn: a PLANNED or ARMED batch with no live entry
left is ABANDONED with reason NO_SITES, and another PLANNED one may become ARMED
(07, R135, R136). -/
def State.withdrawEntry (s : State) (c : ChannelNo) (b : Batch) (n : SiteNo) : State :=
  let b := b.modifyEntry n Included.withdraw
  if (b.state == .planned || b.state == .armed) && b.noneLive then
    s.terminate c { b with state := .abandoned, reason := some .noSites }
  else s.modifyBatch c b.tag fun _ => b.armIfReady

/-! ### Cancelling (05, R100 to R102) -/

/-- The abort deadline: departure stamp plus hold ticks less the arm margin (R101). -/
def Included.abortTime (e : Included) : HubTime :=
  e.departure.getD 0 + ticks ((e.hold.map Hold.ticks).getD 0) - ticks e.armMargin

/-- An entry as CANCEL leaves it (R100). -/
def Included.cancel (now : HubTime) (e : Included) : Included :=
  match e.order with
  | .waiting => { e with order := .aborted }
  | .sent | .receipted | .unconfirmed =>
    { e with
      abortDeadline := some e.abortTime
      order := if later e.abortTime now then .aborting else .abortMissed }
  | .refused | .withdrawn | .aborting | .aborted | .abortMissed => e

/-- The abort frames of the entries that are ABORTING, in ascending site number (R101). -/
def Batch.abortRefs (b : Batch) (c : ChannelNo) : List AbortRef :=
  (b.plan.filter fun p => p.included?.any fun e => e.order == .aborting).map fun p =>
    ⟨c, b.tag, p.site⟩

/-- The frame of an entry leaves the abort list. -/
def Highway.dropAborts (h : Highway) (p : AbortRef → Bool) : Highway :=
  { h with aborts := h.aborts.filter fun r => !p r }

/-- The completion test of a CANCELLING batch: with no entry ABORTING it becomes CANCELLED, or takes
the cancel-partial mark when an abort was missed (R102). -/
def State.completeCancel (s : State) (c : ChannelNo) (b : Batch) : State :=
  if b.state == .cancelling && !b.anyIn .aborting then
    if b.anyIn .abortMissed then s.modifyBatch c b.tag fun _ => { b with partialMark := true }
    else s.terminate c { b with state := .cancelled }
  else s.modifyBatch c b.tag fun _ => b

/-- What a cancel did to a record. -/
inductive Cancelled where
  /-- The record was removed. -/
  | removed
  /-- The record is CANCELLING with aborts outstanding. -/
  | aborting
  /-- The record completed its cancel with an abort missed. -/
  | missed
deriving DecidableEq, Repr

/-- A PLANNED or ARMED batch is cancelled through its entries (R100); `flush` marks it as flushed
when it becomes CANCELLING (R103). One that becomes CANCELLED is removed with the check of R40 and
no hold decision (R97). -/
def State.cancelPlanned (s : State) (c : ChannelNo) (b : Batch) (flush : Bool) : State × Cancelled :=
  let b := b.modifyEntries (Included.cancel s.now)
  if b.anyIn .aborting then
    let b := { b with state := .cancelling, flushed := flush }
    let s := s.modifyBatch c b.tag fun _ => b
    ({ s with highway := { s.highway with aborts := s.highway.aborts ++ b.abortRefs c } }, .aborting)
  else if b.anyIn .abortMissed then
    (s.modifyBatch c b.tag fun _ =>
      { b with state := .cancelling, flushed := flush, partialMark := true }, .missed)
  else
    ((s.modifyChannel c fun ch => ch.removeBatch b.tag).checkVacateAll b.includedSites, .removed)

/-- The queue without a QUEUED record; its successor takes its predecessor end (05, R90). -/
def removeQueued (tag : Nat) : List Batch → List Batch
  | [] => []
  | b :: rest =>
    if b.tag == tag then
      match rest with
      | [] => []
      | n :: more => { n with predEnd := b.predEnd } :: more
    else b :: removeQueued tag rest

/-- A QUEUED record removed from its channel (05, R100). -/
def Channel.dropQueued (c : Channel) (tag : Nat) : Channel :=
  { c with queue := removeQueued tag c.queue }

end Sys2Proof.Machine
end

