-- ==== Sys2Proof/Machine/Estimator.lean ====
section
/-! DEFINITION. The estimator (03, R56 to R62): one sample folded into one record. -/

namespace Sys2Proof.Machine

/-- The round trip of a sample, in ticks; the subtraction of the turnaround is exact (R56). -/
def roundTrip (arr dep : HubTime) (turnaround : Nat) : Int := ((arr - dep).toNat : Int) - turnaround

/-- The outbound sample S of a valid round trip (R57). -/
def outboundSample (share : Nat) (r : Int) : Nat := ((r * 16 * share + 128) / 256).toNat

/-- D moved toward a sample by 1 / 2^k (R61). -/
def foldDelay (k d sample : Nat) : Nat :=
  ((d : Int) + (((sample : Int) - d + 2 ^ (k - 1)) / 2 ^ k)).toNat

/-- U moved toward the size of the innovation by 1 / 2^k, limited to 0 .. 2^24 - 1 (R61). -/
def foldUncertainty (k d u sample : Nat) : Nat :=
  (max 0 (min (2 ^ 24 - 1)
    ((u : Int) + ((|(sample : Int) - d| - u + 2 ^ (k - 1)) / 2 ^ k)))).toNat

/-- The gate of a TRACKING record (R59). -/
def gateOf (u gateFloor : Nat) : Nat := min (4 * u + gateFloor) (2 ^ 24 - 1)

/-- The state after an accepted sample (R62). -/
def phaseAfter (phase : SitePhase) (step : Bool) (count settleCount : Nat) : SitePhase :=
  match phase with
  | .stale => .settling
  | .settling => if settleCount ≤ count then .tracking else .settling
  | .tracking => if step then .settling else .tracking
  | .retiring => .retiring

/-- An accepted sample with the D and U it gives (R62); a step sets the accepted count to 1 (R60),
and so does the sample that brings a STALE record back. -/
def Enrolled.accept (e : Enrolled) (settleCount : Nat) (arr : HubTime) (d u : Nat) (step : Bool) :
    Enrolled :=
  let count := if step || e.phase == .stale then 1 else satCount 255 e.est.acceptedCount 1
  { e with
    phase := phaseAfter e.phase step count settleCount
    est := { e.est with
      d := some d
      u := u
      acceptedCount := count
      failures := 0
      rejects := 0
      lastAccepted := some arr
      totals := { e.est.totals with accepted := satCount 65535 e.est.totals.accepted 1 } } }

/-- A rejected sample: the rejected total rises, the consecutive rejects become the count given, and
the rest of the estimate stays (R56, R59). -/
def Enrolled.reject (e : Enrolled) (rejects : Nat) : Enrolled :=
  { e with est := { e.est with
      rejects := rejects
      totals := { e.est.totals with rejected := satCount 65535 e.est.totals.rejected 1 } } }

/-- One sample passed through the estimator: the record after it, and whether it was accepted
(R56 to R62). -/
def Enrolled.foldSample (e : Enrolled) (meas : Measurement) (arr dep : HubTime) (turnaround : Nat) :
    Enrolled × Bool :=
  let r := roundTrip arr dep turnaround
  if r < 1 || (e.config.ceiling : Int) < r then (e.reject e.est.rejects, false)
  else
    let sample := outboundSample e.config.share r
    match e.est.d with
    | none => (e.accept meas.settleCount arr sample e.config.gateFloor false, true)
    | some d =>
      if e.phase == .tracking then
        if |(sample : Int) - d| ≤ gateOf e.est.u e.config.gateFloor then
          (e.accept meas.settleCount arr (foldDelay e.config.gain d sample)
            (foldUncertainty e.config.gain d e.est.u sample) false, true)
        else
          let rejects := satCount 255 e.est.rejects 1
          if rejects < meas.stepConfirm then (e.reject rejects, false)
          else (e.accept meas.settleCount arr sample e.config.gateFloor true, true)
      else
        (e.accept meas.settleCount arr (foldDelay 1 d sample)
          (foldUncertainty 1 d e.est.u sample) false, true)

/-! ### The last burst summary (R49) -/

/-- The outcome of a burst probe. -/
inductive ProbeOutcome where
  | accepted
  | rejected
  | timedOut
deriving DecidableEq, Repr

/-- One more probe sent (R47). -/
def BurstSummary.countSent (b : BurstSummary) : BurstSummary := { b with sent := satCount 16 b.sent 1 }

/-- A decided outcome entered in the summary (R49). -/
def BurstSummary.enter (b : BurstSummary) : ProbeOutcome → BurstSummary
  | .accepted => { b with accepted := satCount 16 b.accepted 1 }
  | .rejected => { b with rejected := satCount 16 b.rejected 1, fault := true }
  | .timedOut => { b with timedOut := satCount 16 b.timedOut 1, fault := true }

/-- The outcome of a probe, entered when the probe belongs to a burst (R49). -/
def Enrolled.enterOutcome (e : Enrolled) (burst : Bool) (o : ProbeOutcome) : Enrolled :=
  if burst then { e with est := { e.est with burst := e.est.burst.enter o } } else e

/-- A timed-out probe of a record in SETTLING, TRACKING or STALE (R51). -/
def Enrolled.timeOut (e : Enrolled) (staleLimit sequence : Nat) (burst : Bool) : Enrolled :=
  let failures := satCount 255 e.est.failures 1
  let turns := (e.phase == .settling || e.phase == .tracking) && decide (staleLimit ≤ failures)
  let e := e.enterOutcome burst .timedOut
  { e with
    phase := if turns then .stale else e.phase
    est := { e.est with
      failures := failures
      lastTimedOut := some sequence
      acceptedCount := if turns then 0 else e.est.acceptedCount
      totals := { e.est.totals with timedOut := satCount 65535 e.est.totals.timedOut 1 } } }

/-- A LATE echo (R52). -/
def Enrolled.countLate (e : Enrolled) : Enrolled :=
  { e with est := { e.est with totals :=
      { e.est.totals with late := satCount 65535 e.est.totals.late 1 } } }

/-- A STRAY echo, or one discarded during deafen: it is counted, and the site is deafened until `gap`
if that is later than any value held (R53). -/
def Enrolled.deafen (e : Enrolled) (gap : HubTime) : Enrolled :=
  { e with
    deafenUntil := match e.deafenUntil with
      | some x => if later gap x then some gap else some x
      | none => some gap
    est := { e.est with totals := { e.est.totals with stray := satCount 65535 e.est.totals.stray 1 } } }

end Sys2Proof.Machine
end

