-- ==== Sys2Proof/Machine/Arbiter.lean ====
section
/-! DEFINITION. The outbound line and its arbiter (07): which frame takes the IDLE line, and what its
departure does. -/

namespace Sys2Proof.Machine

/-! ### Frames and transmission times (07, R130) -/

/-- The spans a launch order carries: those with a nonzero symbol count (R134). -/
def sentSpans (spans : List Span) : List Span := spans.filter fun p => p.symbols != 0

/-- The size of a frame in bytes (09, Highway frames). -/
def HighwayFrame.size : HighwayFrame → Nat
  | .probe _ _ => 6
  | .abort _ _ _ => 8
  | .order _ _ _ _ _ spans => 12 + 5 * spans.length

/-- The ticks a frame of that size holds the line: bytes × 80,000,000 over the rate in bit/s,
rounded up (R130). -/
def transmissionTicks (bytes : Nat) (rate : LineRate) : Nat :=
  ceilDiv (bytes * 80000000) (rateKbit rate * 1000)

/-- The frame begins to leave in this period: the line is BUSY until its free time (R130). -/
def State.transmit (s : State) (f : HighwayFrame) : State :=
  { s with highway := { s.highway with
      line := .busy f (s.now + ticks (transmissionTicks f.size s.highway.rate)) } }

/-! ### The choice (07, R131, R132) -/

/-- A released launch order that waits for the line. -/
structure OrderRef where
  channel : ChannelNo
  tag : Nat
  serial : Nat
  site : SiteNo
  deadline : HubTime
deriving DecidableEq, Repr

/-- The frame chosen. -/
inductive Choice where
  | abort (ref : AbortRef)
  | order (ref : OrderRef)
  | probe (slot : SlotNo)
deriving DecidableEq, Repr

/-- An INCLUDED entry is a candidate while it is WAITING and released and its batch is PLANNED or
ON_AIR (R131), until hub time has passed its deadline: at the deadline itself it may still be chosen
first, but an order departs at it at the latest (R134, R135). Where a slew adjustment skips the tick of
the deadline, the withdrawal comes first in the period that passes it: DEDUCED
(notes/assumptions 34). -/
def Batch.orders (b : Batch) (c : ChannelNo) (now : HubTime) : List OrderRef :=
  if b.state == .planned || b.state == .onAir then
    b.plan.filterMap fun p => p.included?.bind fun e =>
      if e.order == .waiting && e.released && !later now e.deadline then
        some ⟨c, b.tag, b.serial, p.site, e.deadline⟩
      else none
  else []

/-- Every released launch order on the part. -/
def State.orders (s : State) : List OrderRef :=
  (List.finRange 4).flatMap fun c => (s.channel c).queue.flatMap fun b => b.orders c s.now

/-- An abort frame is offered to the arbiter until hub time has passed the abort deadline of the entry it
serves: a departure at the deadline itself is in time, and a later one is not (R138; 05, R101). Where a
slew adjustment skips the tick of the abort deadline, the miss comes first: DEDUCED
(notes/assumptions 34). -/
def State.offers (s : State) (r : AbortRef) : Bool :=
  match ((s.channel r.channel).find r.tag).bind fun b => b.entryOf r.site with
  | some e => !(e.abortDeadline.any fun x => later s.now x)
  | none => true

/-- The earlier deadline comes first; among equal deadlines the older batch, and within one batch the
lower site number (R132). Deadlines exactly 2^39 apart are neither earlier nor equal, and then neither
order comes first by this rule (notes/assumptions 30). -/
def OrderRef.before (x y : OrderRef) : Bool :=
  earlier x.deadline y.deadline ||
  (x.deadline == y.deadline &&
    (decide (x.serial < y.serial) || (x.serial == y.serial && decide (x.site < y.site))))

/-- The QUEUED slots with their queue orders, lowest number first. -/
def State.queuedSlots (s : State) : List (SlotNo × HubTime) :=
  (List.finRange 8).filterMap fun i => (s.slot i).bind fun p =>
    if p.flight.isNone then some (i, p.queueOrder) else none

/-- The first of a list under an order, earlier members winning ties. Later-than is not transitive (R1):
where the members' times lie so far apart that each is earlier than the next in a cycle, or two of them
exactly 2^39 apart, the manual names no earliest, and this is what the fold in list order ends on.
DESIGN CHOICE (notes/assumptions 30). -/
def firstBy {α : Type} (before : α → α → Bool) : List α → Option α
  | [] => none
  | x :: xs => some (xs.foldl (fun best y => if before y best then y else best) x)

/-- What the arbiter takes: the oldest abort frame, else the released order that comes first, else
the oldest QUEUED probe (R132). Among deadlines or queue orders that later-than orders in no way the
first is the model's choice, as `firstBy` says (notes/assumptions 30). -/
def State.choose (s : State) : Option Choice :=
  match s.highway.aborts.find? s.offers with
  | some r => some (.abort r)
  | none =>
    match firstBy OrderRef.before s.orders with
    | some r => some (.order r)
    | none =>
      (firstBy (fun x y => earlier x.2 y.2) s.queuedSlots).map fun p => .probe p.1

/-! ### Departures -/

/-- An abort frame departs: its entry becomes ABORTED, and the completion test of its batch follows
(07, R137). -/
def State.departAbort (s : State) (r : AbortRef) : State :=
  let s := s.transmit (.abort r.site r.channel r.tag)
  let s := { s with highway := { s.highway with aborts := s.highway.aborts.erase r } }
  match (s.channel r.channel).find r.tag with
  | some b => s.completeCancel r.channel (b.modifyEntry r.site fun e => { e with order := .aborted })
  | none => s

/-- The hold of an order that departs at `dep` (07, R134). -/
def holdAt (target : FineTime) (dep : HubTime) : Hold :=
  let f := (target - fineAt dep 0).toNat
  ⟨f / 16, f % 16⟩

/-- The entry of an order that departs: SENT, with its stamp, hold and receipt deadline
(07, R134). -/
def Included.depart (e : Included) (dep : HubTime) (ceiling : Nat) : Included :=
  { e with
    order := .sent
    departure := some dep
    hold := some (holdAt e.target dep)
    receiptDeadline := some (dep + ticks (ceiling + 65536)) }

/-- A launch order departs; its batch may become ARMED (07, R134). C is the site's as it stands. -/
def State.departOrder (s : State) (r : OrderRef) : State :=
  let ceiling := ((s.enrolled r.site).map fun e => e.config.ceiling).getD 0
  match (s.channel r.channel).find r.tag with
  | some b =>
    match b.entryOf r.site with
    | some e =>
      let s := s.transmit
        (.order r.site r.channel r.tag (holdAt e.target s.now) e.preKey (sentSpans b.spans))
      s.modifyBatch r.channel r.tag fun b =>
        (b.modifyEntry r.site fun e => e.depart s.now ceiling).armIfReady
    | none => s
  | none => s

/-- The record of a site whose probe departs: the sequence number advances, and a burst counts one
more probe sent (03, R47). -/
def Enrolled.probeSent (e : Enrolled) (burst : Bool) : Enrolled :=
  { e with est := { e.est with
      sequence := (e.est.sequence + 1) % 256
      burst := if burst then e.est.burst.countSent else e.est.burst } }

/-- A probe departs: its slot enters DEPARTED with the site's sequence number, its stamp and its
timeout expiry (03, R47; 07, R139). -/
def State.departProbe (s : State) (i : SlotNo) : State :=
  match s.slot i with
  | some p =>
    let sequence := ((s.enrolled p.site).map fun e => e.est.sequence).getD 0
    let ceiling := ((s.enrolled p.site).map fun e => e.config.ceiling).getD 0
    let flight : Flight := ⟨sequence, s.now, s.now + ticks (ceiling + 65536)⟩
    ((s.transmit (.probe p.site sequence)).setSlot i (some { p with flight := some flight })).modifySite
      p.site (Enrolled.probeSent · p.burst)
  | none => s

/-- The departure of the frame chosen. -/
def State.depart (s : State) : Choice → State
  | .abort r => s.departAbort r
  | .order r => s.departOrder r
  | .probe i => s.departProbe i

/-- The arbiter is offered the line: an IDLE line takes the frame chosen, and a line that is BUSY or
without a candidate stays as it is (07, R132). It is offered at the end of every event, since a
candidate that appears while the line is IDLE is chosen at once. -/
def State.arbitrate (s : State) : State :=
  match s.highway.line with
  | .busy _ _ => s
  | .idle =>
    match s.choose with
    | some c => s.depart c
    | none => s

end Sys2Proof.Machine
end

