-- ==== Sys2Proof/Machine/Planner.lean ====
section
/-! DEFINITION. The planning of one batch (06, with the zone evaluation of 04): context, candidates,
eligibility, air time, lateness and slip, zones, result. Every stage reads the state as it stands
when the planning is taken (R111). -/

namespace Sys2Proof.Machine

/-! ### Channel contexts (06, R107, R108) -/

/-- The figures a capture copies from a record (R107). -/
def Enrolled.figures (e : Enrolled) : Figures where
  d := e.est.d
  u := e.est.u
  e := e.config.e
  o := e.config.o
  m := e.config.m
  w := e.config.w

/-- A context captured now: an entry for each member site, RETIRING ones included (R107). -/
def State.capture (s : State) (c : ChannelNo) : Context where
  time := s.now
  entries := Vector.ofFn fun n : SiteNo =>
    (s.enrolled n).bind fun e => if e.carriers[c].isSome then some e.figures else none

/-- The context a planning uses: the held one for a pinned channel or a chain follower, else a fresh
capture (R108). -/
def State.contextFor (s : State) (c : ChannelNo) (follower : Bool) : Context :=
  match (s.channel c).context with
  | some x => if (s.channel c).pinned || follower then x else s.capture c
  | none => s.capture c

/-! ### Candidates and eligibility (06, R113, R114) -/

/-- An eligible site: its context figures, with D present, and whether it is in the standby set. -/
structure Candidate where
  site : SiteNo
  d : Nat
  figures : Figures
  standby : Bool
deriving DecidableEq, Repr

/-- A planning's own values: the eligible sites in ascending number, and the sites removed with their
reasons (R111). -/
structure Working where
  eligible : List Candidate
  removed : List (SiteNo × ExclusionReason)
deriving DecidableEq, Repr

/-- The candidates of a batch, ascending: the listed sites, or every member (R113). -/
def State.candidates (s : State) (c : ChannelNo) (sites : Option (List SiteNo)) : List SiteNo :=
  match sites with
  | some l => l
  | none => (List.finRange 48).filter fun n => s.isMember n c

/-- The first test a candidate fails (R113, R114), or the eligible site. -/
def State.testSite (s : State) (c : ChannelNo) (ctx : Context) (n : SiteNo) :
    ExclusionReason ⊕ Candidate :=
  match s.enrolled n with
  | none => .inl .notMember
  | some e =>
    if e.carriers[c].isNone then .inl .notMember
    else if e.phase = .retiring then .inl .retiring
    else if e.config.steer = .forceOut then .inl .forcedOut
    else match ctx.entries[n] with
      | none => .inl .notInContext
      | some f =>
        match f.d with
        | none => .inl .unsettled
        | some d =>
          if e.phase = .settling ∧ e.config.steer ≠ .forceIn then .inl .unsettled
          else if e.phase = .stale ∧ e.config.steer ≠ .forceIn then .inl .stale
          else .inr ⟨n, d, f, false⟩

/-- The candidate and eligibility stages (R113, R114). -/
def State.eligibility (s : State) (c : ChannelNo) (ctx : Context) (ns : List SiteNo) : Working where
  eligible := ns.filterMap fun n => (s.testSite c ctx n).getRight?
  removed := ns.filterMap fun n => (s.testSite c ctx n).getLeft?.map fun r => (n, r)

/-! ### Standby (06, R115) -/

/-- An entry in one of these order states counts for the standby of later plannings (R115). -/
def OrderState.live : OrderState → Bool
  | .waiting | .sent | .receipted | .unconfirmed | .abortMissed => true
  | .refused | .withdrawn | .aborting | .aborted => false

/-- The ends that may be a site's latest keying at a proposed air time: its confirmed end, and the
end of each other active batch on the channel with an earlier air time and a live entry (R115). -/
def State.keyings (s : State) (c : ChannelNo) (tag : Nat) (air : HubTime) (n : SiteNo) :
    List HubTime :=
  (((s.enrolled n).bind fun e => e.carriers[c]).bind Carrier.confirmedEnd).toList ++
  (s.channel c).queue.filterMap fun b =>
    if b.tag != tag && b.active && (b.air.any fun a => earlier a air) &&
      (b.entryOf n).any fun e => e.order.live
    then b.endTime else none

/-- The site is in standby at the proposed air time (R115). -/
def State.inStandby (s : State) (c : ChannelNo) (tag : Nat) (air : HubTime) (n : SiteNo) : Bool :=
  match s.keyings c tag air n with
  | [] => true
  | k :: ks =>
    later air (latest k ks + tenthTicks (((s.enrolled n).map fun e => e.config.idleHold).getD 0))

/-! ### The planning sums (06, R116, R117) -/

/-- The largest hold, in fine units (R116). -/
def largestHold : Nat := 2 ^ 28 - 1

/-- The hold floor H before its bound (R116). -/
def Candidate.holdFloor (x : Candidate) : Nat :=
  x.figures.m * 16 + if x.standby then x.figures.w * 16 else 0

/-- The hold floor saturates: the site cannot be served (R116). -/
def Candidate.saturates (x : Candidate) : Bool := decide (largestHold < x.holdFloor)

/-- The lead K = E + D - O + H, each addition saturating (R116). -/
def Candidate.lead (x : Candidate) : Int :=
  satAdd (satSub (satAdd x.figures.e x.d) x.figures.o) x.holdFloor

/-- The target Z (R117). -/
def Candidate.target (x : Candidate) (air : HubTime) : FineTime :=
  fineAt air (x.figures.o - x.figures.e - x.d)

/-- The latest departure that leaves a hold of at least H (R117). -/
def Candidate.deadline (x : Candidate) (air : HubTime) : HubTime :=
  fineDiv16 (x.target air - BitVec.ofNat 44 x.holdFloor)

/-- The earliest departure that leaves a hold of at most the largest one (R117). -/
def releaseOf (target : FineTime) : HubTime :=
  fineDiv16 (target - BitVec.ofNat 44 (2 ^ 28) + 16#44)

/-- The earliest feasible air time, from `ready` = now + dispatch allowance (R117). -/
def Candidate.feasible (x : Candidate) (ready : HubTime) : HubTime := tickAt ready (ceil16 x.lead)

/-- The site is late at an air time (R117). -/
def Candidate.late (x : Candidate) (ready air : HubTime) : Bool := earlier (x.deadline air) ready

/-! ### Proposing air times (06, R118 to R125) -/

/-- Standby evaluated at a proposed air time: the sites that join the standby set, and the working
values with their sums formed again, which may remove some for RANGE (R116, R118). -/
def State.settle (s : State) (c : ChannelNo) (tag : Nat) (air : HubTime) (w : Working) :
    List SiteNo × Working :=
  let joined := (w.eligible.filter fun x => !x.standby && s.inStandby c tag air x.site).map
    Candidate.site
  let formed := w.eligible.map fun x => { x with standby := x.standby || joined.contains x.site }
  (joined,
    { eligible := formed.filter fun x => !x.saturates
      removed := w.removed ++ (formed.filter Candidate.saturates).map fun x => (x.site, .range) })

/-- The grid ceiling of a hub time (R121). -/
def gridCeiling (period origin : Nat) (x : HubTime) : HubTime :=
  if period = 0 then x
  else ticks origin + ticks (ceilDiv (x - ticks origin).toNat period * period)

/-- The grid ceiling under a channel's settings. -/
def ChannelSettings.grid (g : ChannelSettings) (x : HubTime) : HubTime :=
  gridCeiling g.gridPeriod g.gridOrigin x

/-- The further passes of an EARLIEST batch (R122). Each pass but the last adds a site to the standby
set, so 49 suffice (R118). -/
def State.earliestPasses (s : State) (c : ChannelNo) (tag : Nat) (ready : HubTime) :
    Nat → HubTime → Working → HubTime × Working
  | 0, air, w => (air, w)
  | fuel + 1, air, w =>
    let (joined, w') := s.settle c tag air w
    if joined.isEmpty then (air, w')
    else
      let bounds := (w'.eligible.filter fun x => joined.contains x.site).map (Candidate.feasible · ready)
      s.earliestPasses c tag ready fuel ((s.channel c).settings.grid (latest air bounds)) w'

/-- A slip attempt from the given air time (R124): each pass checks the slip limit, settles standby
and looks for late sites. None when the attempt fails. -/
def State.slipPasses (s : State) (c : ChannelNo) (tag : Nat) (ready air : HubTime) :
    Nat → HubTime → Working → Option (HubTime × Working)
  | 0, _, _ => none
  | fuel + 1, proposed, w =>
    if (s.channel c).settings.slipLimit * 10000 < (proposed - air).toNat then none
    else
      let (joined, w') := s.settle c tag proposed w
      let late := w'.eligible.filter fun x => x.late ready proposed
      if joined.isEmpty && late.isEmpty then some (proposed, w')
      else
        s.slipPasses c tag ready air fuel
          ((s.channel c).settings.grid (latest proposed (late.map (Candidate.feasible · ready)))) w'

/-- The most passes of a planning (R118, R124), and one to spare. -/
def passes : Nat := 50

/-- What the air-time and lateness stages give. -/
inductive AirStage where
  | overlap
  | noSite (w : Working)
  | chosen (air : HubTime) (slip : Nat) (w : Working)
deriving DecidableEq, Repr

/-- Lateness and slip for a given air time (R123 to R125). -/
def State.lateness (s : State) (c : ChannelNo) (tag : Nat) (ready air : HubTime) (w : Working) :
    AirStage :=
  let late := w.eligible.filter fun x => x.late ready air
  let dropLate : Working :=
    { eligible := w.eligible.filter fun x => !x.late ready air
      removed := w.removed ++ late.map fun x => (x.site, .late) }
  match late with
  | [] => .chosen air 0 w
  | x :: xs =>
    if (s.channel c).settings.slipLimit = 0 then .chosen air 0 dropLate
    else
      let first := latest (x.feasible ready) (xs.map (Candidate.feasible · ready))
      match s.slipPasses c tag ready air passes ((s.channel c).settings.grid first) w with
      | some (slipped, w') => .chosen slipped (slipped - air).toNat w'
      | none => .chosen air 0 dropLate

/-- The air time of an EARLIEST batch (R122). -/
def State.earliest (s : State) (c : ChannelNo) (b : Batch) (ready : HubTime) (w : Working) :
    AirStage :=
  let w := (s.settle c b.tag ready w).2
  let after := (b.predEnd.map (· + ticks (s.channel c).settings.guardTime)).toList
  let first := latest ready (after ++ w.eligible.map (Candidate.feasible · ready))
  let (air, w) := s.earliestPasses c b.tag ready passes ((s.channel c).settings.grid first) w
  if w.eligible.isEmpty then .noSite w else .chosen air 0 w

/-- The air-time stage and the stages that depend on it, by timing mode (R119, R120, R122). `mode` is
the mode the batch is planned by: a FOLLOW batch that acts as EARLIEST comes as EARLIEST. -/
def State.airStage (s : State) (c : ChannelNo) (b : Batch) (mode : TimingMode) (w : Working) :
    AirStage :=
  let guardTime := ticks (s.channel c).settings.guardTime
  let ready := s.now + ticks (s.channel c).settings.dispatch
  match mode with
  | .absolute air =>
    if b.predEnd.any fun p => earlier air (p + guardTime) then .overlap
    else s.lateness c b.tag ready air (s.settle c b.tag air w).2
  | .follow =>
    let air := b.predEnd.getD 0 + guardTime
    s.lateness c b.tag ready air (s.settle c b.tag air w).2
  | .earliest => s.earliest c b ready w

/-! ### Zone evaluation (04, R75 to R82; 06, R126) -/

/-- The residual r of a zone (04, R76). -/
def Zone.residualOf (z : Zone) (a b : Figures) : Int := satSub (satSub a.o b.o) z.g

/-- The largest differential the copies can show (04, R76). -/
def zoneBound (r : Int) (a b : Figures) : Int := satAdd (satAdd (satAdd |r| a.u) b.u) 2

/-- The side that leads by a residual; none for 0 (04, R77). -/
def leadOf (r : Int) : Option LeadSide :=
  if r < 0 then some .aLeads else if 0 < r then some .bLeads else none

/-- The evaluation fields after an evaluation (04, R77, R78). -/
def Zone.record (z : Zone) (r : Int) (failed : Bool) : Zone :=
  let side := leadOf r
  { z with
    residual := some r
    lead := side <|> z.lead
    flips := if side.isSome && z.lead.isSome && side != z.lead then satCount 255 z.flips 1 else z.flips
    fails := if failed then satCount 65535 z.fails 1 else z.fails
    failFlag := z.failFlag || failed }

/-- A zone pass: the included set, what it has removed and counted, the records it has written, and
whether a HOLD zone has stopped it. -/
structure ZonePass where
  included : List Candidate
  removed : List SiteNo
  warnings : Nat
  zones : Vector (Option Zone) 192
  stopped : Bool
deriving DecidableEq, Repr

/-- The site a failed DROP_WORSE zone excludes; none when both are FORCE_IN (04, R80). -/
def dropped (a b : Candidate) (forceA forceB : Bool) : Option SiteNo :=
  match forceA, forceB with
  | false, false => some (if b.figures.u < a.figures.u then a.site else b.site)
  | true, false => some b.site
  | false, true => some a.site
  | true, true => none

/-- The steer mode is FORCE_IN, read live (04, R80). -/
def State.forcedIn (s : State) (n : SiteNo) : Bool :=
  (s.enrolled n).any fun e => e.config.steer == .forceIn

/-- The policy of a failed zone acts (04, R79 to R81). -/
def ZonePass.fail (p : ZonePass) (s : State) (policy : Policy) (a b : Candidate) : ZonePass :=
  match policy with
  | .warn => { p with warnings := p.warnings + 1 }
  | .hold => { p with stopped := true }
  | .dropWorse =>
    match dropped a b (s.forcedIn a.site) (s.forcedIn b.site) with
    | none => { p with warnings := p.warnings + 1 }
    | some n =>
      { p with
        included := p.included.filter fun x => x.site != n
        removed := p.removed ++ [n] }

/-- One zone visited (04, R75): evaluated when both its sites are included, skipped otherwise. -/
def ZonePass.visit (s : State) (p : ZonePass) (n : ZoneNo) : ZonePass :=
  if p.stopped then p
  else match p.zones[n] with
    | none => p
    | some z =>
      match p.included.find? fun x => x.site == z.siteA, p.included.find? fun x => x.site == z.siteB with
      | some a, some b =>
        let r := z.residualOf a.figures b.figures
        let failed := decide ((z.budget : Int) < zoneBound r a.figures b.figures)
        let p := { p with zones := p.zones.set n (some (z.record r failed)) }
        if failed then p.fail s z.policy a b else p
      | _, _ => p

/-- The evaluation pass over the included set, zones in ascending number (04, R75). -/
def State.zonePass (s : State) (included : List Candidate) : ZonePass :=
  (List.finRange 192).foldl (ZonePass.visit s) ⟨included, [], 0, s.zones, false⟩

/-! ### Result (06, R127 to R129) -/

/-- What a planning hands back. -/
structure PlanResult where
  /-- The air time and slip of a plan; none when the batch is abandoned. -/
  air : Option (HubTime × Nat)
  reason : Option AbandonReason
  plan : List PlanEntry
  warnings : Nat
  zones : Vector (Option Zone) 192
deriving DecidableEq, Repr

/-- The INCLUDED entry of a site at the final air time (R127), released at once when its release is
not later than now (07, R133). -/
def Candidate.entry (x : Candidate) (now air : HubTime) : Included where
  target := x.target air
  release := releaseOf (x.target air)
  deadline := x.deadline air
  preKey := x.standby
  order := .waiting
  armMargin := x.figures.m
  released := !later (releaseOf (x.target air)) now
  verdict := none
  departure := none
  hold := none
  receiptDeadline := none
  abortDeadline := none

/-- The plan list: one entry for each candidate that is included or has been removed, in ascending
site number (R127, R128). -/
def planList (ns : List SiteNo) (entries : List (SiteNo × Included))
    (removed : List (SiteNo × ExclusionReason)) : List PlanEntry :=
  ns.filterMap fun n =>
    match entries.find? fun p => p.1 == n with
    | some p => some ⟨n, .included p.2⟩
    | none => (removed.find? fun p => p.1 == n).map fun p => ⟨n, .excluded p.2⟩

/-- A planning that abandons the batch before its zone stage (R128). -/
def State.abandonEarly (s : State) (ns : List SiteNo) (w : Working) (r : AbandonReason) :
    PlanResult where
  air := none
  reason := some r
  plan := planList ns [] w.removed
  warnings := 0
  zones := s.zones

/-- LATE when a site is excluded LATE, NO_SITES otherwise (R128). -/
def emptyReason (removed : List (SiteNo × ExclusionReason)) : AbandonReason :=
  if removed.any fun p => p.2 == .late then .late else .noSites

/-- The zone and result stages at a chosen air time (R126 to R128). -/
def State.planResult (s : State) (ns : List SiteNo) (air : HubTime) (slip : Nat) (w : Working) :
    PlanResult :=
  let p := s.zonePass w.eligible
  let removed := w.removed ++ p.removed.map fun n => (n, ExclusionReason.zone)
  if p.stopped then ⟨none, some .zoneHold, planList ns [] removed, p.warnings, p.zones⟩
  else if p.included.isEmpty then ⟨none, some (emptyReason removed), planList ns [] removed, 0, p.zones⟩
  else
    ⟨some (air, slip), none,
      planList ns (p.included.map fun x => (x.site, x.entry s.now air)) removed, p.warnings, p.zones⟩

/-- The stages of a planning from the candidates on, with the context chosen (R111). -/
def State.runPlanning (s : State) (c : ChannelNo) (b : Batch) (mode : TimingMode) (ctx : Context) :
    PlanResult :=
  let ns := s.candidates c b.sites
  let w := s.eligibility c ctx ns
  match s.airStage c b mode w with
  | .overlap => s.abandonEarly ns w .overlap
  | .noSite w => s.abandonEarly ns w .noSites
  | .chosen air slip w => s.planResult ns air slip w

/-- The clamp tally raised by 1, stopping at 127, and the sticky flag set (02, R25). -/
def Enrolled.tallyClamp (e : Enrolled) : Enrolled :=
  { e with clampTally := satCount 127 e.clampTally 1, clampFlag := true }

/-- The clamp tallies of the sites written EXCLUDED RANGE move (R116). -/
def State.tallyRanges (s : State) (plan : List PlanEntry) : State :=
  plan.foldl (fun s p => if p.disp = .excluded .range then s.modifySite p.site Enrolled.tallyClamp else s) s

/-- The successor of a record takes an end as its predecessor end (05, R90). -/
def passEnd (tag : Nat) (predEnd : Option HubTime) : List Batch → List Batch
  | [] => []
  | [b] => [b]
  | b :: n :: rest =>
    if b.tag == tag then b :: { n with predEnd := predEnd } :: rest
    else b :: passEnd tag predEnd (n :: rest)

/-- The record as a planning that wrote a plan leaves it: PLANNED, or ON_AIR at once when its air
time is not later than now (05, R93, R94; 06, R127). -/
def Batch.withPlan (b : Batch) (r : PlanResult) (now air : HubTime) (slip : Nat) (unverified : Bool) :
    Batch :=
  { b with
    state := if later air now then .planned else .onAir
    air := some air
    slip := slip
    unverified := unverified
    warnings := r.warnings
    plan := r.plan }

/-- The record as a planning that abandons it leaves it (06, R128). -/
def Batch.withoutPlan (b : Batch) (r : PlanResult) (unverified : Bool) : Batch :=
  { b with
    state := .abandoned
    unverified := unverified
    warnings := r.warnings
    reason := r.reason
    plan := r.plan }

/-- The planning of a QUEUED record as one event: its context stands, its zone records and clamp
tallies are written, and the record becomes PLANNED or ABANDONED with its successor's predecessor
end following (R111, R127 to R129; 05, R90, R93). `acts` says that a FOLLOW record acts as EARLIEST
(05, R92); one without a predecessor end always does. -/
def State.planBatch (s : State) (c : ChannelNo) (b : Batch) (acts : Bool) : State :=
  let early := b.mode = .follow ∧ (acts ∨ b.predEnd = none)
  let mode := if early then .earliest else b.mode
  let ctx := s.contextFor c (mode == .follow)
  let r := s.runPlanning c b mode ctx
  let unverified := s.time.mode != .locked
  let s := { s with zones := r.zones }
  let s := (s.modifyChannel c fun ch => { ch with context := some ctx, timer := none }).tallyRanges
    r.plan
  match r.air with
  | some (air, slip) =>
    let b := b.withPlan r s.now air slip unverified
    s.modifyChannel c fun ch =>
      { ch with queue := passEnd b.tag b.endTime ((ch.modifyBatch b.tag fun _ => b).queue) }
  | none =>
    let s := s.modifyChannel c fun ch => { ch with queue := passEnd b.tag b.predEnd ch.queue }
    s.terminate c (b.withoutPlan r unverified)

end Sys2Proof.Machine
end

