-- ==== Sys2Proof/Machine/Queue.lean ====
section
/-! DEFINITION. The planning candidate of a channel and its compute point (05, R91, R92). -/

namespace Sys2Proof.Machine

/-- The oldest QUEUED record, with the record immediately ahead of it (05, R91). -/
def oldestQueued : Option Batch → List Batch → Option (Option Batch × Batch)
  | _, [] => none
  | ahead, b :: rest => if b.state == .queued then some (ahead, b) else oldestQueued (some b) rest

/-- The planning candidate of a channel with its predecessor (05, R91). -/
def Channel.candidate (c : Channel) : Option (Option Batch × Batch) := oldestQueued none c.queue

/-- A FOLLOW record acts as EARLIEST when its predecessor end is absent or its predecessor is
ABANDONED without a plan, judged as it becomes the candidate (05, R92). -/
def actsEarliest (ahead : Option Batch) (b : Batch) : Bool :=
  b.mode == .follow &&
  (b.predEnd.isNone || ahead.any fun p => p.state == .abandoned && !p.hasPlan)

/-- The compute point of a record that becomes the candidate now (05, R91). -/
def computePointOf (g : ChannelSettings) (now : HubTime) (acts : Bool) (b : Batch) : HubTime :=
  match b.mode with
  | .absolute air => air - msTicks g.computeLead
  | .follow =>
    if acts then now
    else b.predEnd.getD 0 + ticks g.guardTime - msTicks g.computeLead
  | .earliest => now

/-- The compute timer of a channel set or stopped. -/
def State.setTimer (s : State) (c : ChannelNo) (t : Option HubTime) : State :=
  s.modifyChannel c fun ch => { ch with timer := t }

/-- The oldest QUEUED record becomes the candidate: its compute point is set, or, when that is not
later than hub time, it is planned at once, the line is offered, and the next record becomes the
candidate (05, R91; 07, R132). With no QUEUED record the timer stops. The queue holds at most 8
records, so `fuel` of its length suffices. -/
def State.advance (c : ChannelNo) : Nat → State → State
  | 0, s => s
  | fuel + 1, s =>
    match (s.channel c).candidate with
    | none => s.setTimer c none
    | some (ahead, b) =>
      let acts := actsEarliest ahead b
      let point := computePointOf (s.channel c).settings s.now acts b
      if later point s.now then s.setTimer c (some point)
      else State.advance c fuel (s.planBatch c b acts).arbitrate

/-- A new record has become the candidate of the channel. -/
def State.newCandidate (s : State) (c : ChannelNo) : State :=
  State.advance c ((s.channel c).queue.length + 1) s

/-- The candidate that waited for its compute point is planned, and the next becomes the candidate
(05, R91). -/
def State.planCandidate (s : State) (c : ChannelNo) : State :=
  match (s.channel c).candidate with
  | some (_, b) => (s.planBatch c b false).arbitrate.newCandidate c
  | none => s.setTimer c none

/-- SET CHANNEL sets the compute point of the waiting candidate afresh (05, R85). -/
def State.resetComputePoint (s : State) (c : ChannelNo) : State :=
  match (s.channel c).candidate with
  | some (_, b) =>
    let point := computePointOf (s.channel c).settings s.now false b
    if later point s.now then s.setTimer c (some point) else s.planCandidate c
  | none => s

end Sys2Proof.Machine
end

