-- ==== Sys2Proof/Machine/BatchEvents.lean ====
section
/-! DEFINITION. The timed events of batches and of their plan entries (05, 07): COMPUTE_POINT, RELEASE,
WITHDRAWAL, AIR_TIME, BATCH_END, RECEIPT_DEADLINE, ABORT_DEADLINE. Each is taken when its time has
been reached and it still applies, and otherwise does nothing (01, R3). -/

namespace Sys2Proof.Machine

/-- An entry of an active batch acts on an event. -/
def State.onEntry (s : State) (tag : Nat) (n : SiteNo)
    (act : ChannelNo → Batch → Included → State) : State :=
  match s.findBatch tag with
  | none => s
  | some (c, b) =>
    match b.entryOf n with
    | some e => if b.active then act c b e else s
    | none => s

/-- Hub time reaches the compute point of a channel's candidate, which is planned (05, R91). -/
def execComputePoint (c : ChannelNo) (s : State) : Host.Outcome State Fault Refusal :=
  whileRunning s fun s =>
    match (s.channel c).timer with
    | some x => if reached s.now x then s.planCandidate c else s
    | none => s

/-- Hub time reaches the release of a WAITING entry, which becomes a candidate (07, R133). -/
def execRelease (tag : Nat) (n : SiteNo) (s : State) : Host.Outcome State Fault Refusal :=
  whileRunning s fun s =>
    s.onEntry tag n fun c b e =>
      if e.order = .waiting ∧ reached s.now e.release then
        (s.modifyBatch c tag fun _ => b.modifyEntry n fun e => { e with released := true }).arbitrate
      else s

/-- Hub time reaches the deadline of a WAITING entry, which is withdrawn (07, R135). -/
def execWithdrawal (tag : Nat) (n : SiteNo) (s : State) : Host.Outcome State Fault Refusal :=
  whileRunning s fun s =>
    s.onEntry tag n fun c b e =>
      if e.order = .waiting ∧ reached s.now e.deadline then (s.withdrawEntry c b n).arbitrate else s

/-- An ABORTING entry becomes ABORT_MISSED (05, R94; 07, R138). -/
def Included.missAbort (e : Included) : Included :=
  if e.order == .aborting then { e with order := .abortMissed } else e

/-- The air time of an active batch not yet ON_AIR (05, R94): from CANCELLING its remaining aborts are
missed, and the cancel completes with the cancel-partial mark. -/
def State.goOnAir (s : State) (c : ChannelNo) (b : Batch) : State :=
  if b.state = .cancelling then
    let b := b.modifyEntries Included.missAbort
    let s := s.modifyBatch c b.tag fun _ => { b with state := .onAir, partialMark := true }
    { s with highway := s.highway.dropAborts fun r => r.channel == c && r.tag == b.tag }
  else s.modifyBatch c b.tag fun _ => { b with state := .onAir }

/-- Hub time reaches a batch's air time. -/
def execAirTime (tag : Nat) (s : State) : Host.Outcome State Fault Refusal :=
  whileRunning s fun s =>
    match s.findBatch tag with
    | none => s
    | some (c, b) =>
      if b.active ∧ b.state ≠ .onAir ∧ (b.air.any fun a => reached s.now a) then
        (s.goOnAir c b).arbitrate
      else s

/-- An entry as the end of its batch settles it (05, R95, step 1). -/
def Included.settleAtEnd (e : Included) : Included :=
  match e.order with
  | .waiting => { e with order := .withdrawn }
  | .sent => { e with order := .unconfirmed }
  | .receipted | .refused | .unconfirmed | .withdrawn | .aborting | .aborted | .abortMissed => e

/-- The site is deemed to have keyed (05, R95, step 2). -/
def OrderState.keyed : OrderState → Bool
  | .receipted | .unconfirmed | .abortMissed => true
  | .waiting | .sent | .refused | .withdrawn | .aborting | .aborted => false

/-- The carrier entry of a channel takes an end unless it holds a later one (02, R26; 05, R95). -/
def Enrolled.confirmEnd (e : Enrolled) (c : ChannelNo) (endTime : HubTime) : Enrolled :=
  match e.carriers[c] with
  | none => e
  | some x =>
    if x.confirmedEnd.all fun old => later endTime old then
      { e with carriers := e.carriers.set c (some ⟨some endTime⟩) }
    else e

/-- The confirmed ends written at a batch's end (05, R95, step 2). -/
def State.confirmEnds (s : State) (c : ChannelNo) (b : Batch) (endTime : HubTime) : State :=
  b.plan.foldl (fun s p =>
    if p.included?.any fun e => e.order.keyed then
      s.modifySite p.site (Enrolled.confirmEnd · c endTime)
    else s) s

/-- The end of an ON_AIR batch, its steps in order (05, R95). -/
def State.endBatch (s : State) (c : ChannelNo) (b : Batch) (endTime : HubTime) : State :=
  let b := b.modifyEntries Included.settleAtEnd
  (s.confirmEnds c b endTime).terminate c { b with state := .done }

/-- Hub time reaches the end of an ON_AIR batch. -/
def execBatchEnd (tag : Nat) (s : State) : Host.Outcome State Fault Refusal :=
  whileRunning s fun s =>
    match s.findBatch tag with
    | none => s
    | some (c, b) =>
      match b.endTime with
      | some x => if b.state = .onAir ∧ reached s.now x then (s.endBatch c b x).arbitrate else s
      | none => s

/-- Hub time reaches the receipt deadline of a SENT entry, which becomes UNCONFIRMED (07, R146). -/
def execReceiptDeadline (tag : Nat) (n : SiteNo) (s : State) : Host.Outcome State Fault Refusal :=
  whileRunning s fun s =>
    s.onEntry tag n fun c b e =>
      if e.order = .sent ∧ (e.receiptDeadline.any fun x => reached s.now x) then
        s.modifyBatch c tag fun _ => b.modifyEntry n fun e => { e with order := .unconfirmed }
      else s

/-- Hub time reaches the abort deadline of an ABORTING entry: ABORT_MISSED, its frame leaves the abort
list, and the completion test is made (07, R138). -/
def execAbortDeadline (tag : Nat) (n : SiteNo) (s : State) : Host.Outcome State Fault Refusal :=
  whileRunning s fun s =>
    s.onEntry tag n fun c b e =>
      if e.order = .aborting ∧ (e.abortDeadline.any fun x => reached s.now x) then
        let s := { s with highway := s.highway.dropAborts fun r =>
          r.channel == c && r.tag == tag && r.site == n }
        (s.completeCancel c (b.modifyEntry n Included.missAbort)).arbitrate
      else s

end Sys2Proof.Machine
end

