-- ==== Sys2Proof/Machine/Channels.lean ====
section
/-! DEFINITION. The commands of the channel queues (05) and of the channel contexts (06): SET CHANNEL,
SUBMIT, CANCEL, FLUSH CHANNEL, QUERY BATCH, COLLECT, PIN, UNPIN. -/

namespace Sys2Proof.Machine

/-! ### SET CHANNEL (R84, R85) -/

/-- The settings written; a change of the guard or compute lead sets the compute point of the waiting
candidate afresh (R85). -/
def State.setChannelSettings (s : State) (c : ChannelNo) (g : ChannelSettings) : State :=
  let old := (s.channel c).settings
  let s := s.modifyChannel c fun ch => { ch with settings := g }
  if g.guardTime = old.guardTime ∧ g.computeLead = old.computeLead then s else s.resetComputePoint c

/-- SET CHANNEL: the checks of R84 in their order, then the settings. -/
def answerSetChannel (channel : Nat) (f : ChannelFields) (s : State) : Answer :=
  match channelOf channel with
  | none => refuse .invalid s
  | some c =>
    if f.notice.any fun v => (noticeOf v).isNone then refuse .invalid s
    else if (s.channel c).anyActive then refuse .conflict s
    else
      let old := (s.channel c).settings
      ⟨doneIf (channelFieldsMoved f old), .empty, s.setChannelSettings c (applyChannelFields f old)⟩

def execSetChannel (label : Byte) (channel : Nat) (fields : ChannelFields) (s : State) :
    Host.Outcome State Fault Refusal :=
  takeCommand 11 label s (answerSetChannel channel fields)

/-! ### SUBMIT (R86, R88 to R90) -/

/-- The symbol period of a rate class. -/
def ChannelSettings.period (g : ChannelSettings) : RateClass → Nat
  | .zero => g.period0
  | .one => g.period1

/-- The duration of a batch, in ticks (R86). -/
def batchDuration (g : ChannelSettings) (spans : List Span) : Nat :=
  (spans.map fun p => p.symbols * g.period p.rate).sum

/-- The sites of a list in ascending number, each once (R88). -/
def ascending (sites : List Nat) : List SiteNo :=
  (List.finRange 48).filter fun n => sites.contains n.val

/-- A listed number names a member of the channel (R88). -/
def State.listable (s : State) (c : ChannelNo) (site : Nat) : Bool :=
  (siteOf site).any fun n => s.isMember n c

/-- The fields of a submission that give INVALID, the channel and the timing mode apart (R88). -/
def State.submitInvalid (s : State) (c : ChannelNo) (q : Submission) : Bool :=
  q.spans.isEmpty || decide (7 < q.spans.length) || q.spans.all (fun p => p.symbols == 0) ||
  decide (2 ^ 32 < batchDuration (s.channel c).settings q.spans) ||
  q.sites.any fun l => l.isEmpty || l.any fun n => !s.listable c n

/-- The predecessor end of a record added at the tail (R90). -/
def Channel.tailEnd (c : Channel) : Option HubTime :=
  c.queue.getLast?.bind fun b => if b.hasPlan then b.endTime else b.predEnd

/-- The record SUBMIT builds (R89). -/
def Batch.fresh (q : Submission) (mode : TimingMode) (serial duration : Nat)
    (predEnd : Option HubTime) : Batch where
  tag := q.tag
  serial := serial
  mode := mode
  sites := q.sites.map ascending
  notice := q.notice
  spans := q.spans
  duration := duration
  predEnd := predEnd
  state := .queued
  air := none
  slip := 0
  unverified := false
  warnings := 0
  reason := none
  partialMark := false
  flushed := false
  counts := none
  summary := none
  plan := []

/-- A checked SUBMIT: the record joins the tail, and becomes the candidate when no older record is
QUEUED (R89, R91). -/
def State.submit (s : State) (c : ChannelNo) (q : Submission) (mode : TimingMode) : State :=
  let ch := s.channel c
  let b := Batch.fresh q mode s.submits (batchDuration ch.settings q.spans) ch.tailEnd
  let s := { s with submits := s.submits + 1 }.setChannel c { ch with queue := ch.queue ++ [b] }
  if ch.candidate.isNone then s.newCandidate c else s

/-- SUBMIT: the checks of R88 in their order, then the record. -/
def answerSubmit (q : Submission) (s : State) : Answer :=
  match channelOf q.channel, timingOf q.mode q.air with
  | some c, some mode =>
    if s.submitInvalid c q then refuse .invalid s
    else if 8 ≤ (s.channel c).queue.length then refuse .full s
    else if (s.findBatch q.tag).isSome then refuse .inUse s
    else ⟨.done, .empty, s.submit c q mode⟩
  | _, _ => refuse .invalid s

def execSubmit (label : Byte) (batch : Submission) (s : State) : Host.Outcome State Fault Refusal :=
  takeCommand 12 label s (answerSubmit batch)

/-! ### CANCEL (R100) -/

/-- The candidate of the channel is the record of this tag. -/
def Channel.isCandidate (c : Channel) (tag : Nat) : Bool :=
  c.candidate.any fun p => p.2.tag == tag

/-- A QUEUED record is removed, and when it was the candidate a new one may be chosen (R100). -/
def State.cancelQueued (s : State) (c : ChannelNo) (tag : Nat) : State :=
  let was := (s.channel c).isCandidate tag
  let s := s.modifyChannel c fun ch => ch.dropQueued tag
  if was then s.newCandidate c else s

/-- CANCEL acts by the state of the record (R100). -/
def answerCancel (tag : Nat) (s : State) : Answer :=
  match s.findBatch tag with
  | none => refuse .noSuch s
  | some (c, b) =>
    match b.state with
    | .queued => ⟨.done, .empty, s.cancelQueued c tag⟩
    | .planned | .armed =>
      match s.cancelPlanned c b false with
      | (s', .aborting) => ⟨.pending, .empty, s'.arbitrate⟩
      | (s', .removed) | (s', .missed) => ⟨.done, .empty, s'.arbitrate⟩
    | .cancelling => ⟨.pending, .empty, s⟩
    | .onAir => refuse .tooLate s
    | .done | .abandoned | .cancelled => refuse .state s

def execCancel (label : Byte) (tag : Nat) (s : State) : Host.Outcome State Fault Refusal :=
  takeCommand 13 label s (answerCancel tag)

/-! ### FLUSH CHANNEL (R103) -/

/-- One record flushed, with the counts of records removed and left CANCELLING. -/
def State.flushBatch (c : ChannelNo) (acc : State × Nat × Nat) (tag : Nat) : State × Nat × Nat :=
  let (s, removed, left) := acc
  match (s.channel c).find tag with
  | none => acc
  | some b =>
    match b.state with
    | .queued => (s.modifyChannel c fun ch => ch.dropQueued tag, removed + 1, left)
    | .planned | .armed =>
      match s.cancelPlanned c b true with
      | (s', .removed) => (s', removed + 1, left)
      | (s', .aborting) | (s', .missed) => (s', removed, left + 1)
    | .cancelling | .onAir | .done | .abandoned | .cancelled => acc

/-- FLUSH CHANNEL as one event: the records in queue order, then the context and the pin flag; the
compute timer stops, and the line is offered (R103). -/
def State.flush (s : State) (c : ChannelNo) : State × Nat × Nat :=
  let (s, removed, left) :=
    ((s.channel c).queue.map Batch.tag).foldl (State.flushBatch c) (s, 0, 0)
  let s := s.modifyChannel c fun ch => { ch with timer := none, context := none, pinned := false }
  (s.arbitrate, removed, left)

/-- FLUSH CHANNEL answers with its three counts, PENDING when records are left CANCELLING (R103). -/
def answerFlush (channel : Nat) (s : State) : Answer :=
  match channelOf channel with
  | none => refuse .invalid s
  | some c =>
    let onAir := ((s.channel c).queue.filter fun b => b.state == .onAir).length
    let (s', removed, left) := s.flush c
    ⟨if left = 0 then .done else .pending, .flush removed left onAir, s'⟩

def execFlushChannel (label : Byte) (channel : Nat) (s : State) : Host.Outcome State Fault Refusal :=
  takeCommand 14 label s (answerFlush channel)

/-! ### QUERY BATCH and COLLECT (R104, R105) -/

/-- QUERY BATCH returns a record in any state and changes nothing (R104). -/
def answerQueryBatch (tag : Nat) (s : State) : Answer :=
  match s.findBatch tag with
  | none => refuse .noSuch s
  | some (c, b) => ⟨.done, .batch c b, s⟩

def execQueryBatch (label : Byte) (tag : Nat) (s : State) : Host.Outcome State Fault Refusal :=
  takeCommand 15 label s (answerQueryBatch tag)

/-- The outcome of a held record (R105). -/
def Batch.outcome (b : Batch) : BatchOutcome :=
  match b.state with
  | .abandoned => .abandoned
  | .cancelled => .cancelled
  | .done | .queued | .planned | .armed | .cancelling | .onAir =>
    if b.partialMark then .cancelPartial else .done

/-- A held record returned with its outcome and removed (R105). -/
def State.collect (s : State) (c : ChannelNo) (b : Batch) : Answer :=
  ⟨.done, .collected c b b.outcome, s.modifyChannel c fun ch => ch.removeBatch b.tag⟩

/-- COLLECT by tag or by channel (R105). -/
def answerCollect (key : CollectKey) (s : State) : Answer :=
  match key with
  | .byTag tag =>
    match s.findBatch tag with
    | none => refuse .noSuch s
    | some (c, b) => if b.terminal then s.collect c b else refuse .state s
  | .byChannel channel =>
    match channelOf channel with
    | none => refuse .invalid s
    | some c =>
      match (s.channel c).queue.find? Batch.terminal with
      | none => refuse .noSuch s
      | some b => s.collect c b

def execCollect (label : Byte) (key : CollectKey) (s : State) : Host.Outcome State Fault Refusal :=
  takeCommand 16 label s (answerCollect key)

/-! ### PIN and UNPIN (06, R109, R110) -/

/-- The number of entries of a context, which PIN and UNPIN report. -/
def Context.size (x : Context) : Nat := (x.entries.toList.filter Option.isSome).length

/-- PIN sets the pin flag, capturing a context first on a channel without one (06, R109). -/
def answerPin (channel : Nat) (s : State) : Answer :=
  match channelOf channel with
  | none => refuse .invalid s
  | some c =>
    let x := (s.channel c).context.getD (s.capture c)
    ⟨.done, .pin true x.time x.size,
     s.modifyChannel c fun ch => { ch with context := some x, pinned := true }⟩

def execPin (label : Byte) (channel : Nat) (s : State) : Host.Outcome State Fault Refusal :=
  takeCommand 17 label s (answerPin channel)

/-- UNPIN clears the pin flag and discards the context (06, R110). -/
def answerUnpin (channel : Nat) (s : State) : Answer :=
  match channelOf channel with
  | none => refuse .invalid s
  | some c =>
    ⟨.done, .unpin (s.channel c).pinned ((s.channel c).context.map fun x => (x.time, x.size)),
     s.modifyChannel c fun ch => { ch with context := none, pinned := false }⟩

def execUnpin (label : Byte) (channel : Nat) (s : State) : Host.Outcome State Fault Refusal :=
  takeCommand 18 label s (answerUnpin channel)

end Sys2Proof.Machine
end

