-- ==== Sys2Proof/Machine/Probing.lean ====
section
/-! DEFINITION. The measurement engine (03): PROBE, SET MEASUREMENT, and its events: cadence expiry,
echo, probe timeout, end of a deafen gap. -/

namespace Sys2Proof.Machine

/-! ### Commands (R48, R64) -/

/-- A checked PROBE: the burst summary is zeroed, the cadence timer restarted, and a burst of
`n + 1` probes requested (R48). -/
def State.startBurst (s : State) (n : SiteNo) (count : Nat) : State :=
  let s := s.modifySite n fun e =>
    { e with est := { e.est with burst := ⟨0, 0, 0, 0, false⟩ } }.restartCadence s.now
  (s.requestProbe ⟨n, count, true⟩).arbitrate

/-- PROBE: the checks of R48 in their order, then the burst. -/
def answerProbe (site count : Nat) (s : State) : Answer :=
  match siteOf site with
  | none => refuse .invalid s
  | some n =>
    match s.enrolled n with
    | none => refuse .noSuch s
    | some e =>
      if e.phase = .retiring ∨ s.holdsProbe n then refuse .state s
      else ⟨doneIf (probeRange.moved (some count)), .empty, s.startBurst n (probeRange.clamp count)⟩

def execProbe (label : Byte) (site count : Nat) (s : State) : Host.Outcome State Fault Refusal :=
  takeCommand 5 label s (answerProbe site count)

/-- The settings written (R64). -/
def Measurement.applyFields (m : Measurement) (f : MeasurementFields) : Measurement :=
  { m with
    settleCount := settleRange.field f.settleCount m.settleCount
    staleLimit := staleRange.field f.staleLimit m.staleLimit
    stepConfirm := stepRange.field f.stepConfirm m.stepConfirm
    quietGap := quietRange.field f.quietGap m.quietGap }

def execSetMeasurement (label : Byte) (fields : MeasurementFields) (s : State) :
    Host.Outcome State Fault Refusal :=
  takeCommand 6 label s fun s =>
    ⟨doneIf (settleRange.moved fields.settleCount || staleRange.moved fields.staleLimit ||
      stepRange.moved fields.stepConfirm || quietRange.moved fields.quietGap), .empty,
     { s with meas := s.meas.applyFields fields }⟩

/-! ### Cadence expiry (R43) -/

/-- Hub time reaches the expiry of a site's cadence timer. -/
def execCadenceExpiry (n : SiteNo) (s : State) : Host.Outcome State Fault Refusal :=
  whileRunning s fun s =>
    match s.enrolled n with
    | none => s
    | some e =>
      match e.cadence with
      | some x => if reached s.now x then (s.takeCadence n e x).arbitrate else s
      | none => s

/-! ### The end of a probe (R39, R49) -/

/-- The current probe of a slot is decided: a burst with further probes goes back to QUEUED for the
next one, and any other slot is freed (R46, R49). -/
def State.nextProbe (s : State) (i : SlotNo) (p : Slot) : State :=
  if p.burst && decide (0 < p.further) then
    s.setSlot i (some { p with queueOrder := s.now, further := p.further - 1, flight := none })
  else s.freeProbe i

/-- The departed probe of a RETIRING site frees its slot, which may be the site's last reference
(02, R39, R40). -/
def State.endRetiringProbe (s : State) (i : SlotNo) (n : SiteNo) : State :=
  (s.freeProbe i).checkVacate n

/-! ### Echoes (R50 to R53) -/

/-- The slot whose departed probe for the site carries the sequence (R50, test 4). -/
def State.matchingSlot (s : State) (n : SiteNo) (sequence : Nat) : Option (SlotNo × Slot × Flight) :=
  (s.slotOf n).bind fun i => (s.slot i).bind fun p => p.flight.bind fun f =>
    if f.sequence = sequence then some (i, p, f) else none

/-- A MATCHED echo: its sample passes through the estimator, the outcome is entered for a burst, and
the slot is freed or goes on (R50). -/
def State.matchEcho (s : State) (n : SiteNo) (e : Enrolled) (m : SlotNo × Slot × Flight)
    (arr : HubTime) (turnaround : Nat) : State :=
  let (folded, accepted) := e.foldSample s.meas arr m.2.2.departure turnaround
  let folded := folded.enterOutcome m.2.1.burst (if accepted then .accepted else .rejected)
  (s.setSite n ((s.site n).put folded)).nextProbe m.1 m.2.1

/-- An echo handed to the engine, classified by the first test it meets (R50). -/
def State.takeEcho (s : State) (n : SiteNo) (sequence : Nat) (arr : HubTime) (turnaround : Nat) :
    State :=
  let gap := arr + msTicks s.meas.quietGap
  match s.enrolled n with
  | none => s
  | some e =>
    if e.phase = .retiring then
      match s.matchingSlot n sequence with
      | some m => s.endRetiringProbe m.1 n
      | none => s
    else if e.deafenUntil.isSome then s.modifySite n (Enrolled.deafen · gap)
    else match s.matchingSlot n sequence with
      | some m => s.matchEcho n e m arr turnaround
      | none =>
        if e.est.lastTimedOut = some sequence then s.modifySite n Enrolled.countLate
        else s.modifySite n (Enrolled.deafen · gap)

/-! ### Timeouts and the end of a deafen gap (R51, R54) -/

/-- A departed probe has timed out (R51); for a RETIRING site only its slot is freed (02, R39). -/
def State.takeTimeout (s : State) (i : SlotNo) (p : Slot) (f : Flight) : State :=
  match s.enrolled p.site with
  | none => s.freeProbe i
  | some e =>
    if e.phase = .retiring then s.endRetiringProbe i p.site
    else
      (s.setSite p.site ((s.site p.site).put
        (e.timeOut s.meas.staleLimit f.sequence p.burst))).nextProbe i p

/-- Hub time reaches the timeout expiry of a slot in DEPARTED. -/
def execProbeTimeout (i : SlotNo) (s : State) : Host.Outcome State Fault Refusal :=
  whileRunning s fun s =>
    match s.slot i with
    | none => s
    | some p =>
      match p.flight with
      | some f => if reached s.now f.timeout then (s.takeTimeout i p f).arbitrate else s
      | none => s

/-- Hub time reaches a site's deafen-until, which becomes absent (R54). -/
def execDeafenEnd (n : SiteNo) (s : State) : Host.Outcome State Fault Refusal :=
  whileRunning s fun s =>
    if (s.enrolled n).any fun e => e.deafenUntil.any fun x => reached s.now x then
      s.modifySite n fun e => { e with deafenUntil := none }
    else s

end Sys2Proof.Machine
end

