-- ==== Sys2Proof/Machine/SiteHighway.lean ====
section
/-! DEFINITION. The rows of the site highway port (07): SET HIGHWAY, LINE_FREE, FLAG_FOUND, ECHO,
RECEIPT, INBOUND_FRAME_DISCARDED. -/

namespace Sys2Proof.Machine

/-! ### SET HIGHWAY (R140) -/

/-- Some batch on some channel is PLANNED, ARMED or CANCELLING (R140). -/
def State.ordersOutstanding (s : State) : Bool :=
  s.channels.toList.any fun c => c.queue.any fun b =>
    b.state == .planned || b.state == .armed || b.state == .cancelling

/-- SET HIGHWAY: CONFLICT while the line is BUSY or orders are outstanding, else the nearest rate
(R140). -/
def answerSetHighway (rate : Nat) (s : State) : Answer :=
  if s.highway.line ≠ .idle ∨ s.ordersOutstanding then refuse .conflict s
  else
    let r := nearestRate rate
    ⟨doneIf (rateKbit r != rate), .empty, { s with highway := { s.highway with rate := r } }⟩

def execSetHighway (label : Byte) (rate : Nat) (s : State) : Host.Outcome State Fault Refusal :=
  takeCommand 22 label s (answerSetHighway rate)

/-! ### The outbound line (R130) -/

/-- The line reaches its free time, becomes IDLE and is offered to the arbiter (R130, R132). -/
def execLineFree (s : State) : Host.Outcome State Fault Refusal :=
  whileRunning s fun s =>
    match s.highway.line with
    | .idle => s
    | .busy _ x =>
      if reached s.now x then { s with highway := { s.highway with line := .idle } }.arbitrate else s

/-! ### The inbound line (R141 to R144) -/

/-- In HUNT a flag byte is found: COLLECT with the arrival stamp, the hub time of the period in which
the flag's first bit was sampled (R141). In COLLECT a byte equal to the flag has no meaning (09). -/
def execFlagFound (stamp : HubTime) (s : State) : Host.Outcome State Fault Refusal :=
  whileRunning s fun s =>
    match s.highway.assembler with
    | .hunt => { s with highway := { s.highway with assembler := .collect stamp none [155#8] } }
    | .collect _ _ _ => s

/-- The arrival stamp of the frame that completes now. A frame that completes in HUNT has none held, and
hub time now stands for it: no FLAG_FOUND reported its flag, or RESTART has discarded its beginning in
the same period and its row is taken after that (R147, R159): DESIGN CHOICE (notes/assumptions 7). -/
def State.arrival (s : State) : HubTime :=
  match s.highway.assembler with
  | .collect x _ _ => x
  | .hunt => s.now

/-- The assembler returns to HUNT (R141). -/
def State.huntAgain (s : State) : State := { s with highway := { s.highway with assembler := .hunt } }

/-- The frame is discarded and counted (R142). -/
def State.discardFrame (s : State) : State := { s with highway := s.highway.countError }

/-- An inbound frame is discarded at the first check it fails and counted once (R142). -/
def execInboundFrameDiscarded (reason : DiscardReason) (s : State) :
    Host.Outcome State Fault Refusal :=
  whileRunning s fun s =>
    match reason with
    | .badKind | .badCheck | .badSite | .badVerdict => s.huntAgain.discardFrame

/-- A complete echo is checked for its site number and handed to the measurement engine
(R142, R144). -/
def execEcho (site sequence : Byte) (turnaround : BitVec 16) (s : State) :
    Host.Outcome State Fault Refusal :=
  whileRunning s fun s =>
    match siteOf site.toNat with
    | none => s.huntAgain.discardFrame
    | some n =>
      (s.huntAgain.takeEcho n sequence.toNat s.arrival turnaround.toNat).arbitrate

/-! ### Receipts (R145; 03, R55) -/

/-- The SENT entry a receipt matches: the tag is carried by a record of the receipt's channel whose
plan holds an INCLUDED entry for the site in SENT (R145). -/
def State.matchReceipt (s : State) (n : SiteNo) (channel tag : Nat) :
    Option (ChannelNo × Batch × Included) :=
  (s.findBatch tag).bind fun p => (p.2.entryOf n).bind fun e =>
    if p.1.val = channel ∧ e.order = .sent then some (p.1, p.2, e) else none

/-- A matched receipt acts on its entry by its verdict (R145). -/
def Included.receive (e : Included) (v : Verdict) : Included :=
  { e with
    order := match v with
      | .accept => .receipted
      | .cold | .busy => .refused
    verdict := some v }

/-- The round-trip sample of a matched receipt folded for a site in SETTLING, TRACKING or STALE; an
accepted one restarts the cadence timer (03, R55, R44). A RETIRING site takes none (02, R39). -/
def State.foldReceipt (s : State) (n : SiteNo) (arr dep : HubTime) (turnaround : Nat) : State :=
  match s.enrolled n with
  | none => s
  | some e =>
    if e.phase = .retiring then s
    else
      let (folded, accepted) := e.foldSample s.meas arr dep turnaround
      s.setSite n ((s.site n).put (if accepted then folded.restartCadence s.now else folded))

/-- A receipt that has passed its checks: matched and folded, or unmatched and counted (R145). -/
def State.takeReceipt (s : State) (n : SiteNo) (channel tag : Nat) (v : Verdict) (arr : HubTime)
    (turnaround : Nat) : State :=
  match s.matchReceipt n channel tag with
  | none => s.discardFrame
  | some (c, b, e) =>
    (s.modifyBatch c b.tag fun _ => b.modifyEntry n (Included.receive · v)).foldReceipt n arr
      (e.departure.getD 0) turnaround

/-- A complete receipt, checked for its site number and then its verdict (R142), and taken. -/
def execReceipt (site channel : Byte) (tag : BitVec 16) (verdict : Byte) (turnaround : BitVec 16)
    (s : State) : Host.Outcome State Fault Refusal :=
  whileRunning s fun s =>
    match siteOf site.toNat, verdictOf verdict.toNat with
    | some n, some v =>
      s.huntAgain.takeReceipt n channel.toNat tag.toNat v s.arrival turnaround.toNat
    | _, _ => s.huntAgain.discardFrame

end Sys2Proof.Machine
end

