-- ==== Sys2Proof/Machine/SiteTable.lean ====
section
/-! DEFINITION. The commands of the site table (02): ENROL, AMEND SITE, QUERY SITE, RETIRE. -/

namespace Sys2Proof.Machine

/-! ### ENROL (R31, R32) -/

/-- The estimate fields of a fresh record: D is the seed, U the gate floor with a seed and 0 without,
and every count 0 (R32). -/
def Estimate.fresh (seed : Option Nat) (gateFloor : Nat) : Estimate where
  d := seed
  u := if seed.isSome then gateFloor else 0
  acceptedCount := 0
  failures := 0
  rejects := 0
  lastAccepted := none
  sequence := 0
  lastTimedOut := none
  totals := ⟨0, 0, 0, 0, 0⟩
  burst := ⟨0, 0, 0, 0, false⟩

/-- The record ENROL builds, before its cadence timer is taken (R32). -/
def Enrolled.fresh (f : SiteFields) : Enrolled :=
  let config := applySiteFields f .default
  { phase := .settling
    config := config
    est := .fresh config.seed config.gateFloor
    clampTally := 0
    clampFlag := false
    carriers := applyMembers f.members (Vector.replicate 4 none)
    cadence := none
    deafenUntil := none }

/-- A checked ENROL: the fresh record, with the change flag clear and the zones-removed count 0, and
its cadence timer expiring at once (R32; 03, R43). -/
def State.enrol (s : State) (n : SiteNo) (f : SiteFields) : State :=
  let e := Enrolled.fresh f
  ((s.setSite n ⟨false, 0, some e⟩).takeCadence n e s.now).arbitrate

/-- ENROL: the checks of R31 in their order, then R32. -/
def answerEnrol (site : Nat) (f : SiteFields) (s : State) : Answer :=
  match siteOf site with
  | none => refuse .invalid s
  | some n =>
    if siteFieldsInvalid f then refuse .invalid s
    else if (s.enrolled n).isSome then refuse .exists s
    else ⟨doneIf (siteFieldsMoved f), .empty, s.enrol n f⟩

def execEnrol (label : Byte) (site : Nat) (fields : SiteFields) (s : State) :
    Host.Outcome State Fault Refusal :=
  takeCommand 1 label s (answerEnrol site fields)

/-! ### AMEND SITE (R33 to R35) -/

/-- The record after a share change: D is kept, U is the gate floor with a D, the counts start again
and the site is SETTLING (R35). -/
def Enrolled.resettle (e : Enrolled) : Enrolled :=
  { e with
    phase := .settling
    est := { e.est with
      u := if e.est.d.isSome then e.config.gateFloor else 0
      acceptedCount := 0
      failures := 0
      rejects := 0 } }

/-- The record with the named fields changed in place (R33), its carrier entries following the
membership (R34), and resettled when the clamped share differs (R35). -/
def Enrolled.amend (e : Enrolled) (f : SiteFields) : Enrolled :=
  let amended := { e with
    config := applySiteFields f e.config
    carriers := applyMembers f.members e.carriers }
  if amended.config.share = e.config.share then amended else amended.resettle

/-- AMEND SITE: the checks of R33 in their order, then the amendment. -/
def answerAmendSite (site : Nat) (f : SiteFields) (s : State) : Answer :=
  match siteOf site with
  | none => refuse .invalid s
  | some n =>
    if siteFieldsInvalid f || f.seed.isSome then refuse .invalid s
    else match s.enrolled n with
      | none => refuse .noSuch s
      | some e =>
        if e.phase = .retiring then refuse .state s
        else ⟨doneIf (siteFieldsMoved f), .empty, s.setSite n ((s.site n).put (e.amend f))⟩

def execAmendSite (label : Byte) (site : Nat) (fields : SiteFields) (s : State) :
    Host.Outcome State Fault Refusal :=
  takeCommand 2 label s (answerAmendSite site fields)

/-! ### QUERY SITE (R36; 03, R66) -/

/-- The place of a site on the wait list, counting the head as 1. -/
def waitPlace (n : SiteNo) : List WaitEntry → Option Nat
  | [] => none
  | w :: rest => if w.site == n then some 1 else (waitPlace n rest).map (· + 1)

/-- The wait-list entry of a site. -/
def State.waitOf (s : State) (n : SiteNo) : Option WaitEntry := s.meas.wait.find? fun w => w.site == n

/-- The site's probe holding (03, R66). -/
def State.holding (s : State) (n : SiteNo) : ProbeHolding :=
  match s.slotOf n with
  | some i => .slot i ((s.slot i).any fun p => p.flight.isSome)
  | none =>
    match waitPlace n s.meas.wait with
    | some k => .waiting k
    | none => .none

/-- The report of a record that is not VACANT (R36; 03, R66). -/
def State.siteReport (s : State) (n : SiteNo) (e : Enrolled) : SiteReport :=
  let slot := (s.slotOf n).bind s.slot
  let flight := if e.phase = .retiring then none else slot.bind Slot.flight
  let further := (slot.map Slot.further) <|> ((s.waitOf n).map WaitEntry.further)
  { record := e
    change := (s.site n).change
    zonesRemoved := (s.site n).zonesRemoved
    holding := s.holding n
    sequence := flight.map Flight.sequence
    departure := flight.map Flight.departure
    further := if e.phase = .retiring then none else further }

/-- The record with its change flag and sticky clamp flag cleared (R36). -/
def SiteRecord.cleared (r : SiteRecord) : SiteRecord :=
  { r with change := false, body := r.body.map fun e => { e with clampFlag := false } }

/-- QUERY SITE returns the record as it stands and clears its two flags (R36). -/
def answerQuerySite (site : Nat) (s : State) : Answer :=
  match siteOf site with
  | none => refuse .invalid s
  | some n =>
    let body := match s.enrolled n with
      | none => Body.vacantSite (s.site n).zonesRemoved (s.site n).change
      | some e => .site (s.siteReport n e)
    ⟨.done, body, s.setSite n (s.site n).cleared⟩

def execQuerySite (label : Byte) (site : Nat) (s : State) : Host.Outcome State Fault Refusal :=
  takeCommand 3 label s (answerQuerySite site)

/-! ### RETIRE (R37, R38) -/

/-- The site's cadence timer is stopped, its wait-list entry removed, and a slot whose probe has not
departed freed and handed on (R37). -/
def State.stopMeasuring (s : State) (n : SiteNo) : State :=
  let s := s.modifySite n fun e => { e with cadence := none }
  let s := { s with meas := { s.meas with wait := s.meas.wait.filter fun w => w.site != n } }
  match s.slotOf n with
  | some i => if (s.slot i).any fun p => p.flight.isNone then s.freeProbe i else s
  | none => s

/-- The batches with a WAITING entry for the site. R38 gives no order among them; channel by channel in
queue order is the model's DESIGN CHOICE, and decides which of several that are ABANDONED takes the
chain summary (notes/assumptions 33). -/
def State.waitingBatches (s : State) (n : SiteNo) : List (ChannelNo × Nat) :=
  (List.finRange 4).flatMap fun c =>
    ((s.channel c).queue.filter fun b => b.active && (b.entryOf n).any fun e => e.order == .waiting).map
      fun b => (c, b.tag)

/-- Every WAITING entry of the site withdrawn (R38). -/
def State.withdrawSite (s : State) (n : SiteNo) : State :=
  (s.waitingBatches n).foldl (fun s p =>
    match (s.channel p.1).find p.2 with
    | some b => s.withdrawEntry p.1 b n
    | none => s) s

/-- A checked RETIRE: VACANT at once without references, else RETIRING with its WAITING orders
withdrawn (R37, R38). -/
def State.retire (s : State) (n : SiteNo) : Result × State :=
  let s := s.stopMeasuring n
  if s.referenced n then
    (.pending, ((s.modifySite n fun e => { e with phase := .retiring }).withdrawSite n).arbitrate)
  else (.done, (s.vacate n).arbitrate)

/-- RETIRE: the checks of R37 in their order, then the retirement. -/
def answerRetire (site : Nat) (s : State) : Answer :=
  match siteOf site with
  | none => refuse .invalid s
  | some n =>
    match s.enrolled n with
    | none => refuse .noSuch s
    | some e =>
      if e.phase = .retiring then refuse .state s
      else ⟨(s.retire n).1, .empty, (s.retire n).2⟩

def execRetire (label : Byte) (site : Nat) (s : State) : Host.Outcome State Fault Refusal :=
  takeCommand 4 label s (answerRetire site)

end Sys2Proof.Machine
end

