-- ==== Sys2Proof/Machine/System.lean ====
section
/-! DEFINITION. The rows that act on the whole part (08): POWER_ON, RESET, RESET_RELEASED, READ
STATUS, RESTART. -/

namespace Sys2Proof.Machine

/-! ### Power-on and RESET (R160) -/

/-- Every block in its power-on condition; the queue of rows that wait and the count of free values
drawn are the model's own and stay. -/
def State.powerOn (s : State) : State :=
  { State.reset with free := s.free, pending := s.pending }

/-- Power is applied (R160). -/
def execPowerOn (s : State) : Host.Outcome State Fault Refusal := .next s.powerOn

/-- The RESET input is low: every block is held in its power-on condition, and a transaction in
progress is abandoned and ignored to its end (R160). -/
def execReset (s : State) : Host.Outcome State Fault Refusal :=
  .next { s.powerOn with
    port := { Port.reset with
      resetLow := true
      ignored := s.port.ignored || s.port.transaction.isSome } }

/-- The RESET input rises (R160). -/
def execResetReleased (s : State) : Host.Outcome State Fault Refusal :=
  .next { s with port := { s.port with resetLow := false } }

/-! ### READ STATUS (R156) -/

/-- The counts and the pin flag of a channel (R156). -/
def Channel.status (c : Channel) : ChannelStatus where
  live := (c.queue.filter fun b => !b.terminal).length
  held := c.held
  pinned := c.pinned

/-- The snapshot of READ STATUS (R156). -/
def State.statusReport (s : State) : StatusReport where
  channels := s.channels.toList.map Channel.status
  sites := (List.finRange 48).filter fun n => (s.site n).change
  zones := (List.finRange 192).filter fun z => (s.zone z).any Zone.failFlag
  errors := s.highway.errors

/-- READ STATUS returns the snapshot and sets the highway error count to 0 (R156; 07, R143). -/
def execReadStatus (label : Byte) (s : State) : Host.Outcome State Fault Refusal :=
  takeCommand 23 label s fun s =>
    ⟨.done, .status s.statusReport, { s with highway := { s.highway with errors := 0 } }⟩

/-! ### RESTART (R158) -/

/-- A partly received frame is discarded without counting (07, R147). A frame whose last bit has been
sampled in this period is no partial one: it completes after RESTART in the same period, with its arrival
stamp, and the assembler is in HUNT then (R159): DEDUCED (notes/assumptions 37). -/
def Assembler.restart (a : Assembler) : Assembler := if a.complete.isSome then a else .hunt

/-- Step 1: the frame in transmission is cut off, the abort list emptied, a partial inbound frame
discarded; the rate and the error count are kept (07, R147). -/
def Highway.restart (h : Highway) : Highway :=
  { h with line := .idle, aborts := [], assembler := h.assembler.restart }

/-- Steps 2 and 3: every record, the compute timer, the chain summary, the context and the pin flag
(05, R106; 06, R107); the settings are kept. -/
def Channel.restart (c : Channel) : Channel := { Channel.reset with settings := c.settings }

/-- Step 4 on an enrolled record: failures, rejects and last timed-out sequence cleared, deafen
absent (02, R42; 03, R67). -/
def Enrolled.restart (e : Enrolled) : Enrolled :=
  { e with
    deafenUntil := none
    est := { e.est with failures := 0, rejects := 0, lastTimedOut := none } }

/-- Step 4: every slot is freed and the wait list emptied; the settings are kept (03, R67). -/
def Measurement.restart (m : Measurement) : Measurement :=
  { m with slots := Vector.replicate 8 none, wait := [] }

/-- Steps 1 to 4. -/
def State.clearWork (s : State) : State :=
  { s with
    highway := s.highway.restart
    channels := s.channels.map Channel.restart
    meas := s.meas.restart
    sites := s.sites.map fun r => { r with body := r.body.map Enrolled.restart } }

/-- The sites that step 5 makes VACANT. R42 and R158 give no order; ascending site number is the model's
DESIGN CHOICE (notes/assumptions 32). -/
def State.retiringSites (s : State) : List SiteNo := (List.finRange 48).filter s.isRetiring

/-- Step 5: every RETIRING record becomes VACANT with its cascade (02, R42), one after the other, so that a
zone that names two of them is counted by the first (notes/assumptions 32). -/
def State.vacateRetiring (s : State) : State := s.retiringSites.foldl State.vacate s

/-- Step 6: the cadence timer of an enrolled site expires at once (03, R44). -/
def State.restartCadences (s : State) : State :=
  (List.finRange 48).foldl (fun s n =>
    match s.enrolled n with
    | some e => s.takeCadence n e s.now
    | none => s) s

/-- How many zone records there are. -/
def State.zoneCount (s : State) : Nat := (s.zones.toList.filter Option.isSome).length

/-- RESTART as one event, its steps in order (R158). -/
def answerRestart (s : State) : Answer :=
  let cleared := s.clearWork
  let vacated := cleared.vacateRetiring
  ⟨.done,
   .restart (s.channels.toList.map fun c => c.queue.length).sum s.heldCount
     cleared.retiringSites.length (cleared.zoneCount - vacated.zoneCount),
   vacated.restartCadences.arbitrate⟩

def execRestart (label : Byte) (s : State) : Host.Outcome State Fault Refusal :=
  takeCommand 24 label s answerRestart

end Sys2Proof.Machine
end

