-- ==== Sys2Proof/Machine/ZoneTable.lean ====
section
/-! DEFINITION. The commands of the zone table (04): DEFINE, AMEND, DROP and QUERY ZONE. -/

namespace Sys2Proof.Machine

/-- The site can be named by a new zone: SETTLING, TRACKING or STALE (R70). -/
def State.zonable (s : State) (n : SiteNo) : Bool :=
  (s.enrolled n).any fun e => e.phase != .retiring

/-- The zone names the two sites, in either order (R69). -/
def Zone.pairs (z : Zone) (a b : SiteNo) : Bool :=
  (z.siteA == a && z.siteB == b) || (z.siteA == b && z.siteB == a)

/-- Some zone names the two sites, in either order (R69). -/
def State.pairTaken (s : State) (a b : SiteNo) : Bool :=
  s.zones.toList.any fun o => o.any fun z => z.pairs a b

/-- The record DEFINE ZONE writes (R71). -/
def Zone.fresh (a b : SiteNo) (g : Int) (budget : Nat) (p : Policy) : Zone where
  siteA := a
  siteB := b
  g := clampOffset offsetBound g
  budget := budgetRange.clamp budget
  policy := p
  residual := none
  lead := none
  flips := 0
  fails := 0
  failFlag := false

/-- DEFINE ZONE: the checks of R70 in their order, then the record of R71. -/
def answerDefineZone (zone : Nat) (f : ZoneDefinition) (s : State) : Answer :=
  match zoneOf zone, siteOf f.siteA, siteOf f.siteB, policyOf f.policy with
  | some z, some a, some b, some p =>
    if a = b then refuse .invalid s
    else if (s.zone z).isSome then refuse .exists s
    else if !(s.zonable a && s.zonable b) then refuse .noSuch s
    else if s.pairTaken a b then refuse .conflict s
    else
      ⟨doneIf (movedOffset offsetBound (some f.g) || budgetRange.moved (some f.budget)), .empty,
       s.setZone z (some (.fresh a b f.g f.budget p))⟩
  | _, _, _, _ => refuse .invalid s

def execDefineZone (label : Byte) (zone : Nat) (fields : ZoneDefinition) (s : State) :
    Host.Outcome State Fault Refusal :=
  takeCommand 7 label s (answerDefineZone zone fields)

/-- The configuration fields named are changed, the evaluation fields kept (R72). -/
def Zone.amend (z : Zone) (f : ZoneFields) : Zone :=
  { z with
    g := fieldOffset offsetBound f.g z.g
    budget := budgetRange.field f.budget z.budget
    policy := (f.policy.bind policyOf).getD z.policy }

/-- AMEND ZONE: the checks of R72 in their order, then the amendment. -/
def answerAmendZone (zone : Nat) (f : ZoneFields) (s : State) : Answer :=
  match zoneOf zone with
  | none => refuse .invalid s
  | some n =>
    if f.siteA.isSome || f.siteB.isSome || f.policy.any fun v => (policyOf v).isNone then
      refuse .invalid s
    else match s.zone n with
      | none => refuse .noSuch s
      | some z =>
        ⟨doneIf (movedOffset offsetBound f.g || budgetRange.moved f.budget), .empty,
         s.setZone n (some (z.amend f))⟩

def execAmendZone (label : Byte) (zone : Nat) (fields : ZoneFields) (s : State) :
    Host.Outcome State Fault Refusal :=
  takeCommand 8 label s (answerAmendZone zone fields)

/-- DROP ZONE removes a record with its fail flag (R73). -/
def answerDropZone (zone : Nat) (s : State) : Answer :=
  match zoneOf zone with
  | none => refuse .invalid s
  | some n => if (s.zone n).isNone then refuse .noSuch s else ⟨.done, .empty, s.setZone n none⟩

def execDropZone (label : Byte) (zone : Nat) (s : State) : Host.Outcome State Fault Refusal :=
  takeCommand 9 label s (answerDropZone zone)

/-- QUERY ZONE returns a record as it stands and clears its fail flag (R74). -/
def answerQueryZone (zone : Nat) (s : State) : Answer :=
  match zoneOf zone with
  | none => refuse .invalid s
  | some n =>
    match s.zone n with
    | none => refuse .noSuch s
    | some z => ⟨.done, .zone z, s.setZone n (some { z with failFlag := false })⟩

def execQueryZone (label : Byte) (zone : Nat) (s : State) : Host.Outcome State Fault Refusal :=
  takeCommand 10 label s (answerQueryZone zone)

end Sys2Proof.Machine
end

