-- ==== Sys2Proof/Machine/Dispatch.lean ====
section
/-! DEFINITION. One arm per row of the opcode table. -/

namespace Sys2Proof.Machine

def exec (i : Instr) (s : State) : Host.Outcome State Fault Refusal :=
  match i with
  | .powerOn => Sys2Proof.Machine.execPowerOn s
  | .reset => Sys2Proof.Machine.execReset s
  | .transactionBegin => Sys2Proof.Machine.execTransactionBegin s
  | .responseReady => Sys2Proof.Machine.execResponseReady s
  | .malformedFrame identifier label => Sys2Proof.Machine.execMalformedFrame identifier label s
  | .enrol label site fields => Sys2Proof.Machine.execEnrol label site fields s
  | .amendSite label site fields => Sys2Proof.Machine.execAmendSite label site fields s
  | .querySite label site => Sys2Proof.Machine.execQuerySite label site s
  | .retire label site => Sys2Proof.Machine.execRetire label site s
  | .probe label site count => Sys2Proof.Machine.execProbe label site count s
  | .setMeasurement label fields => Sys2Proof.Machine.execSetMeasurement label fields s
  | .defineZone label zone fields => Sys2Proof.Machine.execDefineZone label zone fields s
  | .amendZone label zone fields => Sys2Proof.Machine.execAmendZone label zone fields s
  | .dropZone label zone => Sys2Proof.Machine.execDropZone label zone s
  | .queryZone label zone => Sys2Proof.Machine.execQueryZone label zone s
  | .setChannel label channel fields => Sys2Proof.Machine.execSetChannel label channel fields s
  | .submit label batch => Sys2Proof.Machine.execSubmit label batch s
  | .cancel label tag => Sys2Proof.Machine.execCancel label tag s
  | .flushChannel label channel => Sys2Proof.Machine.execFlushChannel label channel s
  | .queryBatch label tag => Sys2Proof.Machine.execQueryBatch label tag s
  | .collect label key => Sys2Proof.Machine.execCollect label key s
  | .pin label channel => Sys2Proof.Machine.execPin label channel s
  | .unpin label channel => Sys2Proof.Machine.execUnpin label channel s
  | .timeMark label second => Sys2Proof.Machine.execTimeMark label second s
  | .readTime label => Sys2Proof.Machine.execReadTime label s
  | .setTimebase label fields => Sys2Proof.Machine.execSetTimebase label fields s
  | .setHighway label rate => Sys2Proof.Machine.execSetHighway label rate s
  | .readStatus label => Sys2Proof.Machine.execReadStatus label s
  | .restart label => Sys2Proof.Machine.execRestart label s
  | .referenceLost => Sys2Proof.Machine.execReferenceLost s
  | .referenceReturned => Sys2Proof.Machine.execReferenceReturned s
  | .edgeAccepted => Sys2Proof.Machine.execEdgeAccepted s
  | .glitch => Sys2Proof.Machine.execGlitch s
  | .slewAdjustment => Sys2Proof.Machine.execSlewAdjustment s
  | .missDeadline => Sys2Proof.Machine.execMissDeadline s
  | .holdoverElapsed => Sys2Proof.Machine.execHoldoverElapsed s
  | .cadenceExpiry site => Sys2Proof.Machine.execCadenceExpiry site s
  | .lineFree => Sys2Proof.Machine.execLineFree s
  | .echo site sequence turnaround => Sys2Proof.Machine.execEcho site sequence turnaround s
  | .probeTimeout slot => Sys2Proof.Machine.execProbeTimeout slot s
  | .deafenEnd site => Sys2Proof.Machine.execDeafenEnd site s
  | .receipt site channel tag verdict turnaround => Sys2Proof.Machine.execReceipt site channel tag verdict turnaround s
  | .inboundFrameDiscarded reason => Sys2Proof.Machine.execInboundFrameDiscarded reason s
  | .computePoint channel => Sys2Proof.Machine.execComputePoint channel s
  | .release tag site => Sys2Proof.Machine.execRelease tag site s
  | .withdrawal tag site => Sys2Proof.Machine.execWithdrawal tag site s
  | .airTime tag => Sys2Proof.Machine.execAirTime tag s
  | .batchEnd tag => Sys2Proof.Machine.execBatchEnd tag s
  | .receiptDeadline tag site => Sys2Proof.Machine.execReceiptDeadline tag site s
  | .abortDeadline tag site => Sys2Proof.Machine.execAbortDeadline tag site s
  | .pulseBegins => Sys2Proof.Machine.execPulseBegins s
  | .ppsLowSample => Sys2Proof.Machine.execPpsLowSample s
  | .flagFound stamp => Sys2Proof.Machine.execFlagFound stamp s
  | .resetReleased => Sys2Proof.Machine.execResetReleased s

end Sys2Proof.Machine
end

