-- ==== Sys2Proof/Machine/Step.lean ====
section
/-! DEFINITION. One step of the part: the row at the front of the queue, or, on an empty queue, a timed
row that is due, or a hub clock period (notes/assumptions 1). -/

namespace Sys2Proof.Machine

/-- On an empty queue: a timed row that is due is taken; with none due, a hub clock period passes. -/
def idle (s : State) : Host.Outcome State Fault Refusal :=
  match s.dueRow with
  | some (i, s') => exec i s'
  | none =>
    match s.clockRow with
    | some i => exec i s
    | none => .next s.idlePeriod

/-- The row at the front of the queue acts on the state with the queue's rest. -/
def step (s : State) : Host.Outcome State Fault Refusal :=
  match s.pending with
  | i :: rest => exec i { s with pending := rest }
  | [] => idle s

/-- The state with the row that a word spells put at the front of its queue. -/
def State.withFetchWord (s : State) (nbits w : Nat) : State :=
  match decodeTableWord nbits w with
  | some i => { s with pending := i :: s.pending }
  | none => s

end Sys2Proof.Machine
end

