-- ==== Sys2Proof/Machine/Frames.lean ====
section
/-! DEFINITION. The bytes of the frames the part sends (09, R161): the response frame with the status
summary, and the outbound highway frames. The points of a body's layout that 09 leaves open are
gathered in notes/assumptions 18. -/

namespace Sys2Proof.Machine

/-! ### Values -/

def boolByte (b : Bool) : List Byte := natBytes 1 b.toNat

/-- A hub time: 5 bytes. -/
def timeBytes (x : HubTime) : List Byte := natBytes 5 x.toNat

/-- An optional item that is present; an absent one has no bytes (09, Response bodies). -/
def optBytes {α : Type} (write : α → List Byte) (x : Option α) : List Byte := fieldBytes write x

/-- A list behind its count byte. -/
def countedBytes {α : Type} (write : α → List Byte) (l : List α) : List Byte :=
  natBytes 1 l.length ++ l.flatMap write

/-- The presence mask of optional items and the items that follow it. -/
def maskedBody (present : List Bool) (items : List Byte) : List Byte := maskBytes present ++ items

/-! ### Named sets (09, Value encodings and Response frame) -/

def Result.code : Result → Nat
  | .done => 0
  | .doneAdjusted => 1
  | .pending => 2
  | .working => 3
  | .noSuch => 4
  | .exists => 5
  | .inUse => 6
  | .full => 7
  | .invalid => 8
  | .conflict => 9
  | .state => 10
  | .tooLate => 11

def TimebaseState.code : TimebaseState → Nat
  | .acquiring => 0
  | .locked => 1
  | .holdover => 2
  | .free => 3

/-- The site state of an enrolled record; VACANT is 0. -/
def SitePhase.code : SitePhase → Nat
  | .settling => 1
  | .tracking => 2
  | .stale => 3
  | .retiring => 4

def SteerMode.code : SteerMode → Nat
  | .auto => 0
  | .forceIn => 1
  | .forceOut => 2

def Policy.code : Policy → Nat
  | .warn => 0
  | .dropWorse => 1
  | .hold => 2

def LeadSide.code : LeadSide → Nat
  | .aLeads => 0
  | .bLeads => 1

def BatchState.code : BatchState → Nat
  | .queued => 0
  | .planned => 1
  | .armed => 2
  | .cancelling => 3
  | .onAir => 4
  | .done => 5
  | .abandoned => 6
  | .cancelled => 7

def TimingMode.code : TimingMode → Nat
  | .absolute _ => 0
  | .follow => 1
  | .earliest => 2

def Verdict.code : Verdict → Nat
  | .accept => 0
  | .cold => 1
  | .busy => 2

def OrderState.code : OrderState → Nat
  | .waiting => 0
  | .sent => 1
  | .receipted => 2
  | .refused => 3
  | .unconfirmed => 4
  | .withdrawn => 5
  | .aborting => 6
  | .aborted => 7
  | .abortMissed => 8

/-- The disposition of an EXCLUDED entry; INCLUDED is 0 (09, Plan entry). -/
def ExclusionReason.code : ExclusionReason → Nat
  | .notMember => 1
  | .forcedOut => 2
  | .retiring => 3
  | .notInContext => 4
  | .unsettled => 5
  | .stale => 6
  | .range => 7
  | .late => 8
  | .zone => 9

/-- 09 gives an abandon reason no code (notes/assumptions 18). -/
def AbandonReason.byte : AbandonReason → Byte
  | .noSites => Config.bodyCode 0
  | .late => Config.bodyCode 1
  | .zoneHold => Config.bodyCode 2
  | .overlap => Config.bodyCode 3

/-- 09 gives a COLLECT outcome no code (notes/assumptions 18). -/
def BatchOutcome.byte : BatchOutcome → Byte
  | .done => Config.bodyCode 4
  | .cancelPartial => Config.bodyCode 5
  | .abandoned => Config.bodyCode 6
  | .cancelled => Config.bodyCode 7

/-- 09 gives a probe holding and a probe phase no code (notes/assumptions 18). -/
def ProbeHolding.bytes : ProbeHolding → List Byte
  | .none => [Config.bodyCode 8]
  | .waiting k => Config.bodyCode 9 :: natBytes 1 k
  | .slot i departed =>
    Config.bodyCode 10 :: natBytes 1 i.val ++ [Config.bodyCode (if departed then 12 else 11)]

/-! ### The status summary (09) -/

def StatusSummary.bytes (x : StatusSummary) : List Byte :=
  natBytes 1 x.held ++
  natBytes 1 (x.siteChange.toNat * 128 + x.zoneFail.toNat * 64 + x.timeFlag.toNat * 32 + x.mode.code)

/-! ### Plan entries (09, Plan entry in a response) -/

def Hold.bytes (h : Hold) : List Byte := natBytes 3 h.ticks ++ natBytes 1 h.fine

/-- The item mask of an INCLUDED entry. -/
def Included.itemMask (e : Included) : Nat :=
  e.verdict.isSome.toNat * 128 + e.departure.isSome.toNat * 64 + e.hold.isSome.toNat * 32 +
  e.receiptDeadline.isSome.toNat * 16 + e.abortDeadline.isSome.toNat * 8 + e.preKey.toNat

/-- The tail of an INCLUDED entry. -/
def Included.bytes (e : Included) : List Byte :=
  natBytes 1 e.order.code ++ natBytes 1 e.itemMask ++ natBytes 6 e.target.toNat ++
  timeBytes e.release ++ timeBytes e.deadline ++
  optBytes (fun v => natBytes 1 v.code) e.verdict ++ optBytes timeBytes e.departure ++
  optBytes Hold.bytes e.hold ++ optBytes timeBytes e.receiptDeadline ++
  optBytes timeBytes e.abortDeadline

def PlanEntry.bytes (p : PlanEntry) : List Byte :=
  natBytes 1 p.site.val ++
  match p.disp with
  | .included e => natBytes 1 0 ++ e.bytes
  | .excluded r => natBytes 1 r.code

/-! ### Response bodies: the items of each command's rule, in its order -/

def SiteConfig.bytes (c : SiteConfig) : List Byte :=
  natBytes 1 c.steer.code ++ natBytes 2 c.share ++ natBytes 4 c.e ++ intBytes 4 c.o ++
  natBytes 5 c.m ++ natBytes 5 c.w ++ natBytes 4 c.idleHold ++ natBytes 5 c.ceiling ++
  natBytes 4 c.fast ++ natBytes 4 c.slow ++ natBytes 4 c.gateFloor ++ natBytes 1 c.gain ++
  optBytes (natBytes 4) c.seed

def SiteTotals.bytes (t : SiteTotals) : List Byte :=
  natBytes 2 t.accepted ++ natBytes 2 t.rejected ++ natBytes 2 t.timedOut ++ natBytes 2 t.late ++
  natBytes 2 t.stray

def BurstSummary.bytes (b : BurstSummary) : List Byte :=
  natBytes 1 b.sent ++ natBytes 1 b.accepted ++ natBytes 1 b.timedOut ++ natBytes 1 b.rejected ++
  boolByte b.fault

def Estimate.bytes (x : Estimate) : List Byte :=
  optBytes (natBytes 4) x.d ++ natBytes 4 x.u ++ natBytes 1 x.acceptedCount ++
  natBytes 1 x.failures ++ natBytes 1 x.rejects ++ optBytes timeBytes x.lastAccepted ++
  natBytes 1 x.sequence ++ optBytes (natBytes 1) x.lastTimedOut ++ x.totals.bytes ++ x.burst.bytes

/-- The member channels, ascending. -/
def Enrolled.members (e : Enrolled) : List Nat :=
  ((List.finRange 4).filter fun c => e.carriers[c].isSome).map Fin.val

/-- A carrier entry with its channel and its confirmed end or absence. -/
def carrierBytes (p : Nat × Carrier) : List Byte :=
  natBytes 1 p.1 ++ boolByte p.2.confirmedEnd.isSome ++ optBytes timeBytes p.2.confirmedEnd

/-- The carrier entries in ascending channel number (02, R36). -/
def Enrolled.carrierList (e : Enrolled) : List (Nat × Carrier) :=
  (List.finRange 4).filterMap fun c => e.carriers[c].map fun x => (c.val, x)

/-- The body of QUERY SITE (02, R36; 03, R66). The sequence and the departure stamp, one line of R66, have a
presence bit each: DESIGN CHOICE (notes/assumptions 18). -/
def SiteReport.bytes (r : SiteReport) : List Byte :=
  let e := r.record
  maskedBody [e.config.seed.isSome, e.est.d.isSome, e.est.lastAccepted.isSome,
    e.est.lastTimedOut.isSome, r.sequence.isSome, r.departure.isSome, r.further.isSome,
    e.deafenUntil.isSome, e.cadence.isSome]
  (natBytes 1 e.phase.code ++ listBytes e.members ++ e.config.bytes ++ e.est.bytes ++
    natBytes 1 e.clampTally ++ boolByte e.clampFlag ++ boolByte r.change ++
    natBytes 1 r.zonesRemoved ++ countedBytes carrierBytes e.carrierList ++ r.holding.bytes ++
    optBytes (natBytes 1) r.sequence ++ optBytes timeBytes r.departure ++
    optBytes (natBytes 1) r.further ++ optBytes timeBytes e.deafenUntil ++
    optBytes timeBytes e.cadence)

/-- The body of QUERY ZONE (04, R74). -/
def Zone.bytes (z : Zone) : List Byte :=
  maskedBody [z.residual.isSome, z.lead.isSome]
  (natBytes 1 z.siteA.val ++ natBytes 1 z.siteB.val ++ intBytes 4 z.g ++ natBytes 4 z.budget ++
    natBytes 1 z.policy.code ++ optBytes (intBytes 4) z.residual ++
    optBytes (fun l => natBytes 1 l.code) z.lead ++ natBytes 1 z.flips ++ natBytes 2 z.fails ++
    boolByte z.failFlag)

def EntryCounts.bytes (n : EntryCounts) : List Byte :=
  [n.included, n.excluded, n.receipted, n.refusedCold, n.refusedBusy, n.unconfirmed, n.withdrawn,
    n.aborted, n.abortMissed].flatMap (natBytes 1)

def ChainSummary.bytes (n : ChainSummary) : List Byte :=
  [n.done, n.abandoned, n.cancelled, n.receipted, n.refused, n.unconfirmed, n.withdrawn, n.aborted,
    n.abortMissed, n.excluded].flatMap (natBytes 2)

/-- The air time given at SUBMIT. -/
def TimingMode.given : TimingMode → Option HubTime
  | .absolute a => some a
  | .follow | .earliest => none

/-- The body of QUERY BATCH (05, R104), and of COLLECT with its outcome before the plan (R105). The fields
given at SUBMIT stand in the order of R88, the channel before the tag: DESIGN CHOICE
(notes/assumptions 18). -/
def Batch.bytes (c : ChannelNo) (b : Batch) (outcome : List Byte) : List Byte :=
  maskedBody [b.mode.given.isSome, b.sites.isSome, b.predEnd.isSome, b.air.isSome, b.air.isSome,
    b.reason.isSome, b.counts.isSome, b.summary.isSome]
  (natBytes 1 c.val ++ natBytes 2 b.tag ++ natBytes 1 b.mode.code ++
    optBytes timeBytes b.mode.given ++ optBytes (fun l => listBytes (l.map Fin.val)) b.sites ++
    boolByte b.notice ++ countedBytes spanBytes b.spans ++ natBytes 5 b.duration ++
    optBytes timeBytes b.predEnd ++ natBytes 1 b.state.code ++ optBytes timeBytes b.air ++
    optBytes timeBytes (b.air.map (· + ticks b.duration)) ++ natBytes 5 b.slip ++
    boolByte b.unverified ++ natBytes 1 b.warnings ++ optBytes (fun r => [r.byte]) b.reason ++
    boolByte b.partialMark ++ optBytes EntryCounts.bytes b.counts ++
    optBytes ChainSummary.bytes b.summary ++ outcome ++ countedBytes PlanEntry.bytes b.plan)

/-- The body of READ TIME (01, R19). The mark second of a pending step has a presence bit of its own behind
that of the step: DESIGN CHOICE (notes/assumptions 18). -/
def TimeReport.bytes (t : TimeReport) : List Byte :=
  maskedBody [t.step.isSome, (t.step.bind PendingStep.mark).isSome, t.lastOffset.isSome]
  (timeBytes t.hub ++ natBytes 1 t.mode.code ++ boolByte t.present ++
    optBytes (fun p => optBytes (natBytes 4) p.mark ++ intBytes 5 p.shift) t.step ++
    intBytes 5 t.slew ++ natBytes 2 t.holdover ++ optBytes (intBytes 5) t.lastOffset ++
    natBytes 2 t.glitches)

/-- The body of READ STATUS (08, R156). -/
def StatusReport.bytes (r : StatusReport) : List Byte :=
  (r.channels.flatMap fun c => natBytes 1 c.live ++ natBytes 1 c.held ++ boolByte c.pinned) ++
  listBytes (r.sites.map Fin.val) ++ listBytes (r.zones.map Fin.val) ++ natBytes 2 r.errors

/-- The bytes of a body. The capture time and the entry count of UNPIN, present together, share one
presence bit: DESIGN CHOICE (notes/assumptions 18). -/
def Body.bytes : Body → List Byte
  | .empty => []
  | .vacantSite k change => natBytes 1 0 ++ natBytes 1 k ++ boolByte change
  | .site r => r.bytes
  | .zone z => z.bytes
  | .batch c b => b.bytes c []
  | .collected c b o => b.bytes c [o.byte]
  | .flush removed cancelling onAir => [removed, cancelling, onAir].flatMap (natBytes 1)
  | .pin p x n => boolByte p ++ timeBytes x ++ natBytes 1 n
  | .unpin p d =>
    maskedBody [d.isSome] (boolByte p ++ optBytes (fun x => timeBytes x.1 ++ natBytes 1 x.2) d)
  | .time t => t.bytes
  | .status r => r.bytes
  | .restart removed held sites zones => [removed, held, sites, zones].flatMap (natBytes 1)

/-! ### The response frame (09) -/

/-- A response frame around its covered bytes: the length field counts the bytes that follow it. -/
def responseFrame (covered : List Byte) : List Byte :=
  natBytes 2 (covered.length + 2) ++ withCheck covered

/-- The frame a transaction presents on PDO, with the status summary formed at its beginning
(08, R148; 09, Response frame). -/
def Transaction.frame (t : Transaction) : List Byte :=
  let none12 (code : Nat) := natBytes 7 0 ++ natBytes 1 code ++ t.summary.bytes
  match t.presented with
  | .working => responseFrame (none12 Result.working.code)
  | .initial => responseFrame (none12 Result.noSuch.code)
  | .stored r =>
    responseFrame ([r.answered, r.label] ++ timeBytes r.taken ++ natBytes 1 r.result.code ++
      t.summary.bytes ++ r.body.bytes)

/-- The byte on PDO while byte `k` of the transaction is clocked: the frame's, most significant bit
first, and fill bytes of all ones behind its last one (08, R148; 09, Response frame). -/
def Transaction.pdo (t : Transaction) (k : Nat) : Byte := t.frame.getD k 255#8

/-- What PDO carries now: PDI and PDO run on one clock, so it is at the byte that has not yet arrived
whole on PDI. None is high impedance: PSEL is high, or the transaction is ignored (08, R148, R160). -/
def Port.pdo (p : Port) : Option Byte := p.transaction.map fun t => t.pdo t.received.length

/-! ### Outbound highway frames (09) -/

/-- The bytes of an outbound frame behind its flag: kind, fields, check field. -/
def HighwayFrame.bytes : HighwayFrame → List Byte
  | .probe site sequence => flagByte :: withCheck (natBytes 1 1 ++ natBytes 1 site.val ++ natBytes 1 sequence)
  | .abort site channel tag =>
    flagByte :: withCheck (natBytes 1 2 ++ natBytes 1 site.val ++ natBytes 1 channel.val ++ natBytes 2 tag)
  | .order site channel tag hold preKey spans =>
    flagByte :: withCheck (natBytes 1 3 ++ natBytes 1 site.val ++ natBytes 1 channel.val ++
      natBytes 2 tag ++ natBytes 3 hold.ticks ++
      natBytes 1 (hold.fine * 16 + preKey.toNat * 8 + spans.length) ++ spans.flatMap spanBytes)

end Sys2Proof.Machine
end

