-- ==== Sys2Proof/Safety.lean ====
section
/-! DEFINITION. What statements about the part are made of: which rows are host commands, the answered
state, one batch record replaced, and the laws that every step keeps (ranges, unique tags, zones that
name enrolled sites, a time scale that agrees with its state). -/

namespace Sys2Proof

/-- The rows that a transaction carries: the 24 host commands and the malformed frame (08, R149). -/
def Instr.fromHost : Instr → Bool
  | .malformedFrame _ _ | .enrol _ _ _ | .amendSite _ _ _ | .querySite _ _ | .retire _ _
  | .probe _ _ _ | .setMeasurement _ _ | .defineZone _ _ _ | .amendZone _ _ _ | .dropZone _ _
  | .queryZone _ _ | .setChannel _ _ _ | .submit _ _ | .cancel _ _ | .flushChannel _ _
  | .queryBatch _ _ | .collect _ _ | .pin _ _ | .unpin _ _ | .timeMark _ _ | .readTime _
  | .setTimebase _ _ | .setHighway _ _ | .readStatus _ | .restart _ => true
  | .powerOn | .reset | .transactionBegin | .responseReady | .referenceLost | .referenceReturned
  | .edgeAccepted | .glitch | .slewAdjustment | .missDeadline | .holdoverElapsed | .cadenceExpiry _
  | .lineFree | .echo _ _ _ | .probeTimeout _ | .deafenEnd _ | .receipt _ _ _ _ _
  | .inboundFrameDiscarded _ | .computePoint _ | .release _ _ | .withdrawal _ _ | .airTime _
  | .batchEnd _ | .receiptDeadline _ _ | .abortDeadline _ _ | .pulseBegins | .ppsLowSample
  | .flagFound _ | .resetReleased => false

/-- The rows of power, of the RESET input and of PSEL falling (08, R148, R160). -/
def Instr.ofPower : Instr → Bool
  | .powerOn | .reset | .resetReleased | .transactionBegin => true
  | .responseReady | .malformedFrame _ _ | .enrol _ _ _ | .amendSite _ _ _ | .querySite _ _
  | .retire _ _ | .probe _ _ _ | .setMeasurement _ _ | .defineZone _ _ _ | .amendZone _ _ _
  | .dropZone _ _ | .queryZone _ _ | .setChannel _ _ _ | .submit _ _ | .cancel _ _
  | .flushChannel _ _ | .queryBatch _ _ | .collect _ _ | .pin _ _ | .unpin _ _ | .timeMark _ _
  | .readTime _ | .setTimebase _ _ | .setHighway _ _ | .readStatus _ | .restart _ | .referenceLost
  | .referenceReturned | .edgeAccepted | .glitch | .slewAdjustment | .missDeadline
  | .holdoverElapsed | .cadenceExpiry _ | .lineFree | .echo _ _ _ | .probeTimeout _ | .deafenEnd _
  | .receipt _ _ _ _ _ | .inboundFrameDiscarded _ | .computePoint _ | .release _ _
  | .withdrawal _ _ | .airTime _ | .batchEnd _ | .receiptDeadline _ _ | .abortDeadline _ _
  | .pulseBegins | .ppsLowSample | .flagFound _ => false

/-- The rows that act on the time scale (01). -/
def Instr.ofTime : Instr → Bool
  | .powerOn | .reset | .timeMark _ _ | .readTime _ | .setTimebase _ _ | .referenceLost
  | .referenceReturned | .edgeAccepted | .glitch | .slewAdjustment | .missDeadline
  | .holdoverElapsed | .pulseBegins | .ppsLowSample => true
  | .transactionBegin | .responseReady | .malformedFrame _ _ | .enrol _ _ _ | .amendSite _ _ _
  | .querySite _ _ | .retire _ _ | .probe _ _ _ | .setMeasurement _ _ | .defineZone _ _ _
  | .amendZone _ _ _ | .dropZone _ _ | .queryZone _ _ | .setChannel _ _ _ | .submit _ _
  | .cancel _ _ | .flushChannel _ _ | .queryBatch _ _ | .collect _ _ | .pin _ _ | .unpin _ _
  | .setHighway _ _ | .readStatus _ | .restart _ | .cadenceExpiry _ | .lineFree | .echo _ _ _
  | .probeTimeout _ | .deafenEnd _ | .receipt _ _ _ _ _ | .inboundFrameDiscarded _
  | .computePoint _ | .release _ _ | .withdrawal _ _ | .airTime _ | .batchEnd _
  | .receiptDeadline _ _ | .abortDeadline _ _ | .flagFound _ | .resetReleased => false

namespace Machine

/-! ### The answered state (08, R149 to R152) -/

/-- The codes of a refused command (08, Results). -/
def Result.refuses : Result → Bool
  | .noSuch | .exists | .inUse | .full | .invalid | .conflict | .state | .tooLate => true
  | .done | .doneAdjusted | .pending | .working => false

/-- The part `s` once the port has recorded the answer of a command taken at `taken` and set the
working flag (08, R149). -/
def State.answered (s : State) (identifier label : Byte) (taken : HubTime) (r : Result)
    (body : Body) : State :=
  { s with
    port := { s.port with
      transaction := none
      ignored := false
      forming := some ⟨⟨identifier, label, taken, r, body⟩, 0, s.free⟩ }
    free := s.free + 1 }

/-! ### Frames -/

/-- Every record of a tag on a channel replaced by `b`, and nothing else. -/
def State.replaceBatch (s : State) (c : ChannelNo) (tag : Nat) (b : Batch) : State :=
  { s with channels := s.channels.set c { s.channels[c] with
      queue := s.channels[c].queue.map fun x => if x.tag == tag then b else x } }

/-- The record a submission builds on a channel, value by value: the fields given, the duration under the
channel's symbol periods, and the predecessor end from the record at the tail (05, R86, R89, R90). -/
def State.submitted (s : State) (c : ChannelNo) (q : Submission) (mode : TimingMode) : Batch where
  tag := q.tag
  serial := s.submits
  mode := mode
  sites := q.sites.map fun l => (List.finRange 48).filter fun n => l.contains n.val
  notice := q.notice
  spans := q.spans
  duration := (q.spans.map fun p => p.symbols * (match p.rate with
    | .zero => (s.channel c).settings.period0
    | .one => (s.channel c).settings.period1)).sum
  predEnd := (s.channel c).queue.getLast?.bind fun x =>
    match x.air with
    | some a => some (a + BitVec.ofNat 40 x.duration)
    | none => x.predEnd
  state := .queued
  air := none
  slip := 0
  unverified := false
  warnings := 0
  reason := none
  partialMark := false
  flushed := false
  counts := none
  summary := none
  plan := []

/-- The record at the tail of a channel's queue, its compute timer as given, and the next serial
number. -/
def State.joined (s : State) (c : ChannelNo) (b : Batch) (timer : Option HubTime) : State :=
  { s with
    submits := s.submits + 1
    channels := s.channels.set c
      { s.channel c with queue := (s.channel c).queue ++ [b], timer := timer } }

/-- The outbound line is BUSY, so the arbiter is not offered it (07, R132). -/
abbrev State.lineBusy (s : State) : Prop := s.highway.line ≠ .idle

/-- The slots and the wait list once slot `i` is freed, and claimed at once by the head of the wait
list (03, R46). -/
def State.handedOn (s : State) (i : SlotNo) : Measurement :=
  { s.meas with
    slots := s.meas.slots.set i
      (s.meas.wait.head?.map fun w => ⟨w.site, s.now, w.burst, w.further, none⟩)
    wait := s.meas.wait.tail }

/-- The slots and the wait list once the current probe of slot `i` is decided: a burst with further
probes returns to QUEUED, and any other slot is freed and handed to the head of the wait list
(03, R46, R49). -/
def State.decided (s : State) (i : SlotNo) (p : Slot) : Measurement :=
  if p.burst = true ∧ 0 < p.further then
    { s.meas with
      slots := s.meas.slots.set i
        (some { p with queueOrder := s.now, further := p.further - 1, flight := none }) }
  else s.handedOn i

/-! ### Outcomes (05, R97, R99) -/

/-- The entry counts of a record, by its plan as it stands (05, R97). -/
def Batch.tally (b : Batch) : EntryCounts :=
  let entries : List Included := b.plan.filterMap fun p => match p.disp with
    | .included e => some e
    | .excluded _ => none
  let number (f : Included → Bool) : Nat := (entries.filter f).length
  { included := entries.length
    excluded := b.plan.length - entries.length
    receipted := number fun e => e.order == .receipted
    refusedCold := number fun e => e.order == .refused && e.verdict == some .cold
    refusedBusy := number fun e => e.order == .refused && e.verdict == some .busy
    unconfirmed := number fun e => e.order == .unconfirmed
    withdrawn := number fun e => e.order == .withdrawn
    aborted := number fun e => e.order == .aborted
    abortMissed := number fun e => e.order == .abortMissed }

/-- A chain summary with a record added that became terminal in state `st` with counts `n`
(05, R99). -/
def ChainSummary.withRecord (g : ChainSummary) (st : BatchState) (n : EntryCounts) :
    ChainSummary where
  done := min 65535 (g.done + if st = .done then 1 else 0)
  abandoned := min 65535 (g.abandoned + if st = .abandoned then 1 else 0)
  cancelled := min 65535 (g.cancelled + if st = .cancelled then 1 else 0)
  receipted := min 65535 (g.receipted + n.receipted)
  refused := min 65535 (g.refused + (n.refusedCold + n.refusedBusy))
  unconfirmed := min 65535 (g.unconfirmed + n.unconfirmed)
  withdrawn := min 65535 (g.withdrawn + n.withdrawn)
  aborted := min 65535 (g.aborted + n.aborted)
  abortMissed := min 65535 (g.abortMissed + n.abortMissed)
  excluded := min 65535 (g.excluded + n.excluded)

/-! ### The air times a planning proposes (06, R118, R119, R120, R122, R124) -/

/-- The air times an EARLIEST planning proposes from one on: a pass that adds sites to the standby set
proposes the grid ceiling of the latest of its air time and their earliest feasible ones, and a pass that
adds none is the last (R122). -/
def State.earliestTimes (s : State) (c : ChannelNo) (tag : Nat) (ready : HubTime) :
    Nat → HubTime → Working → List HubTime
  | 0, _, _ => []
  | fuel + 1, air, w =>
    let (joined, w') := s.settle c tag air w
    let next := (w'.eligible.filter fun x => joined.contains x.site).map (Candidate.feasible · ready)
    air :: if joined.isEmpty then []
      else s.earliestTimes c tag ready fuel ((s.channel c).settings.grid (latest air next)) w'

/-- The air times a slip attempt proposes from one on: a pass in which a site joins or is late proposes the
grid ceiling of the latest of its air time and the earliest feasible ones of the late sites (R124). -/
def State.slipTimes (s : State) (c : ChannelNo) (tag : Nat) (ready : HubTime) :
    Nat → HubTime → Working → List HubTime
  | 0, _, _ => []
  | fuel + 1, air, w =>
    let (joined, w') := s.settle c tag air w
    let late := w'.eligible.filter fun x => x.late ready air
    air :: if joined.isEmpty && late.isEmpty then []
      else s.slipTimes c tag ready fuel
        ((s.channel c).settings.grid (latest air (late.map (Candidate.feasible · ready)))) w'

/-- The air times that settle the standby set of a planning, in the order proposed (R118). EARLIEST: now
plus the dispatch allowance and the proposals of its passes (R122). ABSOLUTE and FOLLOW: the given air time,
and behind it the proposals of a slip attempt that succeeds; a failed attempt is discarded whole (R125). -/
def State.proposals (s : State) (c : ChannelNo) (b : Batch) (mode : TimingMode) (w : Working) :
    List HubTime :=
  let g := (s.channel c).settings
  let ready := s.now + ticks g.dispatch
  let given (air : HubTime) : List HubTime :=
    let w := (s.settle c b.tag air w).2
    match w.eligible.filter fun x => x.late ready air with
    | [] => [air]
    | x :: xs =>
      let first := g.grid (latest (x.feasible ready) (xs.map (Candidate.feasible · ready)))
      if g.slipLimit ≠ 0 ∧ (s.slipPasses c b.tag ready air passes first w).isSome
      then air :: s.slipTimes c b.tag ready passes first w
      else [air]
  match mode with
  | .absolute air => given air
  | .follow => given (b.predEnd.getD 0 + ticks g.guardTime)
  | .earliest =>
    let w := (s.settle c b.tag ready w).2
    let after := (b.predEnd.map (· + ticks g.guardTime)).toList
    ready :: s.earliestTimes c b.tag ready passes
      (g.grid (latest ready (after ++ w.eligible.map (Candidate.feasible · ready)))) w

/-! ### A hub clock period on the inbound line (07, R141) -/

/-- What a period makes of the assembler: nothing in HUNT; in COLLECT a frame short of its size takes one
byte at most, the one after the flag being its kind. -/
def Assembler.Passes (before after : Assembler) : Prop :=
  match before with
  | .hunt => after = .hunt
  | .collect x _ bytes => after = before ∨
    readInboundFrame bytes = none ∧ ∃ more : List Byte, more.length ≤ 1 ∧
      after = .collect x (bytes ++ more)[1]? (bytes ++ more)

/-! ### Ranges -/

/-- The value lies in the range. -/
abbrev Range.Has (r : Range) (v : Nat) : Prop := r.lo ≤ v ∧ v ≤ r.hi

/-- The settings of the time scale in range, its counts within theirs, and its parts in agreement with
its state (01, R5, R7 to R12, R14, R20). -/
structure TimeScale.Lawful (t : TimeScale) : Prop where
  edgeFilter : edgeFilterRange.Has t.edgeFilter
  lockWindow : lockWindowRange.Has t.lockWindow
  holdoverLimit : holdoverRange.Has t.holdoverLimit
  glitches : t.glitches ≤ 65535
  offset : ∀ x, t.lastOffset = some x → -5000000 ≤ x ∧ x ≤ 4999999
  inRun : t.inRun ≤ 2
  outRun : t.outRun ≤ 2
  watch : t.expected.isSome = (t.mode == .locked) ∧ t.miss.isSome = (t.mode == .locked)
  shift : ∀ p, t.step = some p → -(2 ^ 39) ≤ p.shift ∧ p.shift < 2 ^ 39
  lost : t.present = false → t.inRun = 0 ∧ (t.mode = .acquiring ∨ t.mode = .free)
  holdover : t.holdover ≤ 65535 ∧ (t.mode = .holdover → t.holdover < t.holdoverLimit)

/-- The configuration fields in their ranges (02, R22). -/
structure SiteConfig.InRange (c : SiteConfig) : Prop where
  share : shareRange.Has c.share
  e : latencyRange.Has c.e
  o : -offsetBound ≤ c.o ∧ c.o < offsetBound
  m : marginRange.Has c.m
  w : warmUpRange.Has c.w
  idleHold : idleRange.Has c.idleHold
  ceiling : ceilingRange.Has c.ceiling
  fast : intervalRange.Has c.fast
  slow : intervalRange.Has c.slow
  gateFloor : gateRange.Has c.gateFloor
  gain : gainRange.Has c.gain
  seed : ∀ x, c.seed = some x → seedRange.Has x

/-- The estimate fields in their ranges, with U 0 while D is absent (02, R24). -/
structure Estimate.InRange (x : Estimate) : Prop where
  d : ∀ v, x.d = some v → v ≤ 2 ^ 28
  u : x.u < 2 ^ 24 ∧ (x.d = none → x.u = 0)
  counts : x.acceptedCount ≤ 255 ∧ x.failures ≤ 255 ∧ x.rejects ≤ 255
  sequence : x.sequence < 256
  totals : x.totals.accepted ≤ 65535 ∧ x.totals.rejected ≤ 65535 ∧ x.totals.timedOut ≤ 65535 ∧
    x.totals.late ≤ 65535 ∧ x.totals.stray ≤ 65535
  burst : x.burst.sent ≤ 16 ∧ x.burst.accepted ≤ 16 ∧ x.burst.timedOut ≤ 16 ∧ x.burst.rejected ≤ 16

/-- Every enrolled record holds values in their ranges (02, R22, R24, R25). -/
def State.SitesInRange (s : State) : Prop :=
  ∀ n e, s.enrolled n = some e →
    e.config.InRange ∧ e.est.InRange ∧ e.clampTally ≤ 127

/-- The settings of the measurement engine in their ranges (03, R64). -/
structure Measurement.InRange (m : Measurement) : Prop where
  settleCount : settleRange.Has m.settleCount
  staleLimit : staleRange.Has m.staleLimit
  stepConfirm : stepRange.Has m.stepConfirm
  quietGap : quietRange.Has m.quietGap

/-- The settings of a channel in their ranges (05, R84). -/
structure ChannelSettings.InRange (g : ChannelSettings) : Prop where
  period0 : periodRange.Has g.period0
  period1 : periodRange.Has g.period1
  guardTime : guardRange.Has g.guardTime
  computeLead : leadRange.Has g.computeLead
  dispatch : dispatchRange.Has g.dispatch
  slipLimit : slipRange.Has g.slipLimit
  gridPeriod : g.gridPeriod = 0 ∨ (100000 ≤ g.gridPeriod ∧ g.gridPeriod ≤ 2 ^ 32)
  gridOrigin : g.gridOrigin = 0 ∨ g.gridOrigin < g.gridPeriod

/-- Every setting of every block in its range, and the time scale lawful (01, R20; 03, R64; 05, R84;
07, R143). -/
structure State.SettingsInRange (s : State) : Prop where
  time : s.time.Lawful
  meas : s.meas.InRange
  channels : ∀ c, (s.channel c).settings.InRange
  errors : s.highway.errors ≤ 65535

/-- A zone record's fields in their ranges (04, R68). -/
structure Zone.InRange (z : Zone) : Prop where
  distinct : z.siteA ≠ z.siteB
  g : -offsetBound ≤ z.g ∧ z.g < offsetBound
  budget : budgetRange.Has z.budget
  counts : z.flips ≤ 255 ∧ z.fails ≤ 65535

/-- The zone table is lawful: records in range, no pair named twice, and every site that a zone names
enrolled (04, R69; 02, R29). -/
structure State.ZonesLawful (s : State) : Prop where
  inRange : ∀ z r, s.zone z = some r → r.InRange
  pairs : ∀ z y r q, s.zone z = some r → s.zone y = some q → r.pairs q.siteA q.siteB → z = y
  enrolled : ∀ z r, s.zone z = some r →
    (s.enrolled r.siteA).isSome ∧ (s.enrolled r.siteB).isSome

/-- Every batch tag on the part, channel by channel in queue order. -/
def State.tags (s : State) : List Nat :=
  (List.finRange 4).flatMap fun c => (s.channel c).queue.map Batch.tag

/-- The queues are lawful: 8 records at most in each, and no tag carried twice on the part
(05, R87, R88). -/
structure State.QueuesLawful (s : State) : Prop where
  length : ∀ c, (s.channel c).queue.length ≤ 8
  tags : s.tags.Nodup

/-! ### Power-on (08, R160) -/

/-- Every block but the port is in its power-on condition, value by value. -/
structure State.AtPowerOn (s : State) : Prop where
  hub : s.time.hub = 0
  lost : s.time.present = false
  mode : s.time.mode = .acquiring
  filter : s.time.filter = .awaitLow ∧ s.time.glitches = 0
  edges : s.time.lastOffset = none ∧ s.time.inRun = 0 ∧ s.time.outRun = 0
  watch : s.time.expected = none ∧ s.time.miss = none
  slew : s.time.slew = 0 ∧ s.time.pace = 0
  step : s.time.step = none
  holdover : s.time.holdover = 0
  flag : s.time.flag = false
  timebase : s.time.edgeFilter = 8 ∧ s.time.lockWindow = 10 ∧ s.time.holdoverLimit = 3600
  sites : ∀ n, s.site n = ⟨false, 0, none⟩
  slots : (∀ i, s.slot i = none) ∧ s.meas.wait = []
  measurement : s.meas.settleCount = 4 ∧ s.meas.staleLimit = 3 ∧ s.meas.stepConfirm = 3 ∧
    s.meas.quietGap = 200
  zones : ∀ z, s.zone z = none
  channels : ∀ c, (s.channel c).settings = ⟨6250, 3125, 100000, 2000, 50000, 0, 0, 0, .each⟩ ∧
    (s.channel c).queue = [] ∧ (s.channel c).timer = none ∧
    (s.channel c).summary = ⟨0, 0, 0, 0, 0, 0, 0, 0, 0, 0⟩ ∧ (s.channel c).context = none ∧
    (s.channel c).pinned = false
  highway : s.highway = ⟨.kbit2048, .idle, [], .hunt, 0⟩

end Machine

end Sys2Proof
end

