-- ==== Sys2Proof/Certificates/Slice0/Obligations.lean ====
section
/-! DEFINITION. The statements for the provers, block by block. Each docstring names the rules of spec/
that the statement formalises; a clause that rests on a choice of the model names its log entry. -/

open Sys2Proof Sys2Proof.Machine

/-! ### Steps and the command port (08) -/

/-- A step with rows in the queue takes the row at its front and runs its meaning on the state with the
queue's rest. The queue is the model's own (notes/assumptions 2). -/
def Obligations.StepRunsTheFrontRow : Prop :=
  ∀ (i : Instr) (rest : List Instr) (s : State), s.pending = i :: rest →
    step s = exec i { s with pending := rest }

/-- A step on an empty queue (R2, R3, R13; notes/assumptions 1 and 3): nothing passes while RESET is low;
a row that is due is taken; with none due a period passes, in which hub time advances by one, a response
in formation ages, a frame in COLLECT takes a byte at most (notes/assumptions 20), and a run of high PPS
samples grows, PPS staying as its phase has it (notes/assumptions 22), or a slew adjustment is made. -/
def Obligations.IdleStepTakesADueRowOrAPeriod : Prop :=
  ∀ s : State, s.pending = [] →
    (s.port.resetLow = true → step s = .next s) ∧
    (s.port.resetLow = false → s.dueRows ≠ [] →
      ∃ i ∈ s.dueRows, ∃ n, step s = exec i { s with free := n }) ∧
    (s.port.resetLow = false → s.dueRows = [] → s.time.slewDue = true →
      step s = exec .slewAdjustment s) ∧
    (s.port.resetLow = false → s.dueRows = [] → s.time.slewDue = false →
      ∃ t : State, step s = .next t ∧ t.time.hub = s.time.hub + 1 ∧ t.time.mode = s.time.mode ∧
        t.time.slew = s.time.slew ∧ t.time.step = s.time.step ∧ t.time.flag = s.time.flag ∧
        (∀ run c r, s.time.filter = .high run c r →
          t.time.filter = .high (run + 1) c (decide (s.time.edgeFilter ≤ run + 1))) ∧
        (s.time.mode = .holdover → t.time.holdoverPeriods = s.time.holdoverPeriods + 1) ∧
        t.port.stored = s.port.stored ∧
        t.port.forming = s.port.forming.map (fun f => { f with age := f.age + 1 }) ∧
        t.sites = s.sites ∧ t.meas = s.meas ∧ t.zones = s.zones ∧ t.channels = s.channels ∧
        t.highway = { s.highway with assembler := t.highway.assembler } ∧
        s.highway.assembler.Passes t.highway.assembler)

/-- The rows of the port itself: TRANSACTION_BEGIN fixes what is presented and the status summary
(R148, R155); RESPONSE_READY stores the response, and is due 2,000 periods after the taking at the
latest (R150); MALFORMED_FRAME is refused with INVALID and changes nothing (R149, R152). What a
transaction presents is sent as the response frame of 09: the length of what follows, the answered command,
the label, the taken time, the result code, the status summary, the body and the check field, 14 bytes
without a command or a stored response; behind it PDO carries bytes of all ones, and with no transaction it
is at high impedance (R148, R161). That PDO is at the byte whose number is that of the bytes received is the
model's choice (notes/assumptions 4). -/
def Obligations.PortRowsActAsStated : Prop :=
  (∀ x : Transaction,
    let bytes (n v : Nat) : List Byte :=
      (List.range n).map fun i => BitVec.ofNat 8 (v / 256 ^ (n - 1 - i))
    let code (r : Result) : Byte := match r with
      | .done => 0 | .doneAdjusted => 1 | .pending => 2 | .working => 3 | .noSuch => 4
      | .exists => 5 | .inUse => 6 | .full => 7 | .invalid => 8 | .conflict => 9
      | .state => 10 | .tooLate => 11
    let mode : Nat := match x.summary.mode with
      | .acquiring => 0 | .locked => 1 | .holdover => 2 | .free => 3
    let summary : List Byte := [BitVec.ofNat 8 x.summary.held,
      BitVec.ofNat 8 ((if x.summary.siteChange then 128 else 0) +
        (if x.summary.zoneFail then 64 else 0) + (if x.summary.timeFlag then 32 else 0) + mode)]
    let covered : List Byte := match x.presented with
      | .working => [0, 0] ++ bytes 5 0 ++ [3] ++ summary
      | .initial => [0, 0] ++ bytes 5 0 ++ [4] ++ summary
      | .stored r => [r.answered, r.label] ++ bytes 5 r.taken.toNat ++ [code r.result] ++ summary ++
          r.body.bytes
    x.frame = bytes 2 (covered.length + 2) ++ covered ++ bytes 2 (crc16 covered).toNat ∧
    (x.presented = .working ∨ x.presented = .initial → x.frame.length = 14) ∧
    (∀ k < x.frame.length, x.frame[k]? = some (x.pdo k)) ∧
    (∀ k, x.frame.length ≤ k → x.pdo k = 255)) ∧
  (∀ s : State, (s.port.transaction = none → s.port.pdo = none) ∧
    ∀ x, s.port.transaction = some x → s.port.pdo = some (x.pdo x.received.length)) ∧
  ∀ s : State, s.port.resetLow = false →
    (∃ x : Transaction,
      exec .transactionBegin s =
        .next { s with port := { s.port with ignored := false, transaction := some x } } ∧
      x.received = [] ∧
      (s.port.forming ≠ none → x.presented = .working) ∧
      (∀ r, s.port.forming = none → s.port.stored = some r → x.presented = .stored r) ∧
      (s.port.forming = none → s.port.stored = none → x.presented = .initial) ∧
      x.summary.held = (s.channels.toList.map fun c =>
        (c.queue.filter fun b =>
          b.state == .done || b.state == .abandoned || b.state == .cancelled).length).sum ∧
      (x.summary.siteChange = true ↔ ∃ n : SiteNo, (s.site n).change = true) ∧
      (x.summary.zoneFail = true ↔ ∃ z r, s.zone z = some r ∧ r.failFlag = true) ∧
      x.summary.timeFlag = s.time.flag ∧ x.summary.mode = s.time.mode) ∧
    (∀ f, s.port.forming = some f →
      exec .responseReady s =
        .next { s with port := { s.port with stored := some f.response, forming := none } } ∧
      (2000 ≤ f.age → Instr.responseReady ∈ s.dueRows)) ∧
    (∀ identifier label, s.takes = true →
      ∃ a l, (∀ x, identifier = some x → a = x) ∧ (∀ x, label = some x → l = x) ∧
        exec (.malformedFrame identifier label) s = .next (s.answered a l s.now .invalid .empty))

/-- Nothing is taken that must not be. A command whose transaction presented WORKING, or was ignored,
or that ends while RESET is low leaves the part as it was but for the transaction that ended; any
event while RESET is low leaves it as it was, and ATTN is released (R149, R160). That every row but
those of power and PSEL is held off by RESET low, a command row ending its transaction, is DEDUCED
(notes/assumptions 8). -/
def Obligations.NothingIsTakenWhileHeldOrWorking : Prop :=
  (∀ (i : Instr) (s : State), i.fromHost = true →
    s.port.presented = .working ∨ s.port.ignored = true ∨ s.port.resetLow = true →
    exec i s = .next { s with port := { s.port with transaction := none, ignored := false } }) ∧
  (∀ (i : Instr) (s : State), i.fromHost = false → i.ofPower = false → s.port.resetLow = true →
    exec i s = .next s) ∧
  (∀ s : State, s.port.resetLow = true → s.attn = false)

/-- A refusal is the command's whole effect: whatever the command and whatever the code, the next state
is the part as it was with the refusal recorded, without a body (R152, R151). -/
def Obligations.ARefusalIsTheWholeEffect : Prop :=
  ∀ (i : Instr) (s t : State) (f : Forming), i.fromHost = true → s.takes = true →
    exec i s = .next t → t.port.forming = some f → f.response.result.refuses = true →
    t = s.answered f.response.answered f.response.label s.now f.response.result .empty

/-- ATTN is asserted exactly when one of its four causes exists and RESET is high (R157). -/
def Obligations.AttentionFollowsItsCauses : Prop :=
  ∀ s : State, s.attn = true ↔ s.port.resetLow = false ∧
    ((∃ c b, b ∈ (s.channel c).queue ∧
        (b.state = .done ∨ b.state = .abandoned ∨ b.state = .cancelled)) ∨
      (∃ n, (s.site n).change = true) ∨
      (∃ z r, s.zone z = some r ∧ r.failFlag = true) ∨
      s.time.flag = true)

/-- POWER_ON and RESET put every block in its power-on condition with no stored response, no
transaction and ATTN released; RESET low abandons and ignores a transaction in progress;
RESET_RELEASED lets the part run (R160, and the reset rule of each chapter). That RESET is high after
POWER_ON, and that RESET is the falling of its input, is DEDUCED (notes/assumptions 8). The last clause
is State.reset. -/
def Obligations.PowerOnAndResetGivePowerOnValues : Prop :=
  (∀ s : State, ∃ t : State, exec .powerOn s = .next t ∧ t.AtPowerOn ∧
    t.port = ⟨none, none, none, false, false⟩ ∧ t.attn = false ∧ t.pending = s.pending) ∧
  (∀ s : State, ∃ t : State, exec .reset s = .next t ∧ t.AtPowerOn ∧
    t.port.stored = none ∧ t.port.forming = none ∧ t.port.transaction = none ∧
    t.port.resetLow = true ∧ (s.port.transaction ≠ none → t.port.ignored = true) ∧
    t.attn = false ∧ t.pending = s.pending) ∧
  (∀ s : State, exec .resetReleased s =
    .next { s with port := { s.port with resetLow := false } }) ∧
  State.reset.AtPowerOn

/-- READ STATUS reports the counts and pin flag of each channel, the flagged sites and zones in
ascending order and the highway error count, then sets that count to 0 and changes nothing else
(R156, R143). -/
def Obligations.ReadStatusReportsAndClearsTheErrorCount : Prop :=
  ∀ (s : State) (label : Byte), s.takes = true →
    ∃ r : StatusReport,
      exec (.readStatus label) s =
        .next (({ s with highway := { s.highway with errors := 0 } } : State).answered
          23 label s.now .done (.status r)) ∧
      r.errors = s.highway.errors ∧
      r.channels = (List.finRange 4).map (fun c =>
        ⟨((s.channel c).queue.filter fun b => b.state == .queued || b.state == .planned ||
            b.state == .armed || b.state == .cancelling || b.state == .onAir).length,
          ((s.channel c).queue.filter fun b =>
            b.state == .done || b.state == .abandoned || b.state == .cancelled).length,
          (s.channel c).pinned⟩) ∧
      (∀ n, n ∈ r.sites ↔ (s.site n).change = true) ∧ r.sites.Pairwise (· < ·) ∧
      (∀ z, z ∈ r.zones ↔ ∃ q, s.zone z = some q ∧ q.failFlag = true) ∧ r.zones.Pairwise (· < ·) ∧
      (r.channels.map ChannelStatus.held).sum = s.statusSummary.held

/-- RESTART as one event (R158, with R42, R44, R67, R106, R107, R147): the time scale is untouched; every
queue, timer, summary, context and pin flag goes and the settings stay; the abort list, a partial
frame and every probe go, and the frame in transmission is cut off; every RETIRING site becomes VACANT
with the zones that name it; every other enrolled site keeps its record but for the failures, rejects,
last timed-out sequence, deafen state and cadence. Those sites then ask for a probe each in ascending
number: the first 8 hold the slots from 0 on, the rest the wait list, and the probe of the lowest takes
the line at once, which advances its sequence number. With no such site the line is IDLE. That the
cadence reloads by the site's state, and that the line is offered at the end of the event, is DEDUCED
(notes/assumptions 14 and 17), and so is that a frame all of whose bits have been sampled is no partial
frame and completes after RESTART (R159; notes/assumptions 37). -/
def Obligations.RestartClearsTheWorkAndKeepsTheRecords : Prop :=
  ∀ (s : State) (label : Byte), s.takes = true →
    let stays : List SiteNo := (List.finRange 48).filter fun n =>
      (s.enrolled n).any fun e => e.phase != .retiring
    let kbit := match s.highway.rate with
      | .kbit1024 => 1024
      | .kbit2048 => 2048
      | .kbit4096 => 4096
    ∃ t : State, exec (.restart label) s = .next t ∧
      t.time = s.time ∧ t.submits = s.submits ∧ t.pending = s.pending ∧
      (∀ c, t.channel c =
        ⟨(s.channel c).settings, [], none, ⟨0, 0, 0, 0, 0, 0, 0, 0, 0, 0⟩, none, false⟩) ∧
      t.highway.aborts = [] ∧ t.highway.rate = s.highway.rate ∧
      (s.highway.assembler = .hunt → t.highway.assembler = .hunt) ∧
      (∀ x k bytes, s.highway.assembler = .collect x k bytes → t.highway.assembler =
        if (readInboundFrame bytes).isSome then .collect x k bytes else .hunt) ∧
      t.highway.errors = s.highway.errors ∧
      (t.meas.settleCount, t.meas.staleLimit, t.meas.stepConfirm, t.meas.quietGap) =
        (s.meas.settleCount, s.meas.staleLimit, s.meas.stepConfirm, s.meas.quietGap) ∧
      (∀ n, s.enrolled n = none → t.site n = s.site n) ∧
      (∀ n e, s.enrolled n = some e → e.phase = .retiring →
        t.enrolled n = none ∧ (t.site n).change = true) ∧
      (∀ n e, s.enrolled n = some e → e.phase ≠ .retiring →
        (t.site n).change = (s.site n).change ∧ (t.site n).zonesRemoved = (s.site n).zonesRemoved ∧
        t.enrolled n = some { e with
          deafenUntil := none
          cadence := some (s.now + e.interval)
          est := { e.est with
            failures := 0, rejects := 0, lastTimedOut := none
            sequence := if stays.head? = some n then (e.est.sequence + 1) % 256
              else e.est.sequence } }) ∧
      (stays = [] → t.highway.line = .idle) ∧
      (∀ n e, stays.head? = some n → s.enrolled n = some e →
        t.highway.line = .busy (.probe n e.est.sequence) (s.now +
          BitVec.ofNat 40 ((6 * 80000000 + (kbit * 1000 - 1)) / (kbit * 1000)))) ∧
      (∀ i : SlotNo, stays[i.val]? = none → t.slot i = none) ∧
      (∀ (i : SlotNo) n e, stays[i.val]? = some n → s.enrolled n = some e →
        t.slot i = some ⟨n, s.now, false, 0,
          if i.val = 0 then some ⟨e.est.sequence, s.now,
            s.now + BitVec.ofNat 40 (e.config.ceiling + 65536)⟩
          else none⟩) ∧
      t.meas.wait = (stays.drop 8).map (fun n => ⟨n, 0, false⟩) ∧
      (∀ z, s.zone z = none → t.zone z = none) ∧
      (∀ z r, s.zone z = some r →
        t.zone z = if s.isRetiring r.siteA || s.isRetiring r.siteB then none else some r) ∧
      t.port.forming = some ⟨⟨24, label, s.now, .done,
        .restart (s.channels.toList.map fun c => c.queue.length).sum s.heldCount
          ((List.finRange 48).filter s.isRetiring).length
          (s.zones.toList.filter fun o =>
            o.any fun r => s.isRetiring r.siteA || s.isRetiring r.siteB).length⟩, 0, s.free⟩ ∧
      t.port.stored = s.port.stored ∧ t.port.transaction = none

/-! ### The time scale (01) -/

/-- The rows of the 1PPS edge filter (R6): a pulse begins in LOW with run count 1 and the capture of its
first sample; a low sample in HIGH is a glitch, counted up to 65,535; a low sample in AWAIT_LOW
moves the filter to LOW. -/
def Obligations.EdgeFilterRowsMoveTheFilter : Prop :=
  ∀ s : State, s.port.resetLow = false →
    (s.time.filter = .low → exec .pulseBegins s = .next { s with time := { s.time with
      filter := .high 1 s.time.hub (decide (s.time.edgeFilter ≤ 1)) } }) ∧
    (∀ run c r, s.time.filter = .high run c r → exec .glitch s = .next { s with time := { s.time with
      filter := .low, glitches := min 65535 (s.time.glitches + 1) } }) ∧
    (s.time.filter = .awaitLow → exec .ppsLowSample s = .next { s with time := { s.time with
      filter := .low } })

/-- An accepted edge in LOCKED with no step pending (R7, R9, R12, R13): its signed offset is recorded,
the watch moves to a second after its nearest boundary, an in-window edge adds its offset to the
slew remainder and clears the out-of-window run, and an out-of-window edge counts, the third one
raising a step. That every in-window edge sets the pace count to 0 is DESIGN CHOICE
(notes/assumptions 36). -/
def Obligations.LockedEdgeSteersTheSlew : Prop :=
  ∀ (s : State) (run : Nat) (c : HubTime), s.port.resetLow = false →
    s.time.filter = .high run c true → s.time.edgeFilter ≤ run → s.time.mode = .locked →
    s.time.step = none →
    ∀ off : Int, off = (if c.toNat % 10000000 < 5000000 then ((c.toNat % 10000000 : Nat) : Int)
      else ((c.toNat % 10000000 : Nat) : Int) - 10000000) →
    let watch := c - BitVec.ofInt 40 off + 10000000#40
    let t := { s.time with
      filter := .awaitLow, lastOffset := some off
      expected := some watch, miss := some (watch + BitVec.ofNat 40 s.time.lockWindow) }
    (|off| ≤ s.time.lockWindow → exec .edgeAccepted s = .next { s with time := { t with
      outRun := 0, slew := s.time.slew + off, pace := 0, slewFirst := true } }) ∧
    (s.time.lockWindow < |off| → s.time.outRun < 2 →
      exec .edgeAccepted s = .next { s with time := { t with outRun := s.time.outRun + 1 } }) ∧
    (s.time.lockWindow < |off| → 2 ≤ s.time.outRun → exec .edgeAccepted s =
      .next { s with time := { t with outRun := 0, step := some ⟨none, 0⟩ } })

/-- An accepted edge outside LOCKED with no step to apply (R8, R10, R11, R12): an in-window edge with the
reference present raises the in-window run, and the third in ACQUIRING or the second in HOLDOVER
and FREE makes the state LOCKED with the flag set; with the reference lost the run stays 0. An
out-of-window edge sets the in-window run to 0; in ACQUIRING it raises a step at once, in HOLDOVER and
FREE it counts, and the third in a row raises one. That the run stands at 0 in LOCKED, and that the first
edge of ACQUIRING is known by the absent offset, is DEDUCED (notes/assumptions 10 and 11). -/
def Obligations.InWindowEdgesLeadToLocked : Prop :=
  (∀ (s : State) (run : Nat) (c : HubTime), s.port.resetLow = false →
    s.time.filter = .high run c true → s.time.edgeFilter ≤ run → s.time.step = none →
    s.time.mode ≠ .locked → (s.time.mode = .acquiring → s.time.lastOffset ≠ none) →
    |edgeOffset c| ≤ s.time.lockWindow →
    ∀ need : Nat, need = (if s.time.mode = .acquiring then 3 else 2) →
    ∃ t : State, exec .edgeAccepted s = .next t ∧ t.time.lastOffset = some (edgeOffset c) ∧
      t.time.filter = .awaitLow ∧ t.time.hub = s.time.hub ∧
      t.channels = s.channels ∧ t.sites = s.sites ∧ t.meas = s.meas ∧ t.zones = s.zones ∧
      t.highway = s.highway ∧ t.port = s.port ∧
      (s.time.present = false → t.time.mode = s.time.mode ∧ t.time.inRun = 0 ∧
        t.time.flag = s.time.flag) ∧
      (s.time.present = true → s.time.inRun + 1 < need →
        t.time.mode = s.time.mode ∧ t.time.inRun = s.time.inRun + 1 ∧ t.time.flag = s.time.flag ∧
        t.time.slew = s.time.slew) ∧
      (s.time.present = true → need ≤ s.time.inRun + 1 →
        t.time.mode = .locked ∧ t.time.inRun = 0 ∧ t.time.outRun = 0 ∧ t.time.holdover = 0 ∧
        t.time.flag = true ∧ t.time.slew = s.time.slew + edgeOffset c ∧
        t.time.expected = some (c - BitVec.ofInt 40 (edgeOffset c) + 10000000#40) ∧
        t.time.miss = some (c - BitVec.ofInt 40 (edgeOffset c) + 10000000#40 +
          BitVec.ofNat 40 s.time.lockWindow))) ∧
  (∀ (s : State) (run : Nat) (c : HubTime), s.port.resetLow = false →
    s.time.filter = .high run c true → s.time.edgeFilter ≤ run → s.time.step = none →
    (s.time.mode = .acquiring → s.time.lastOffset ≠ none) →
    s.time.lockWindow < |edgeOffset c| →
    let t := { s.time with filter := .awaitLow, lastOffset := some (edgeOffset c), inRun := 0 }
    (s.time.mode = .acquiring → exec .edgeAccepted s =
      .next { s with time := { t with step := some ⟨none, 0⟩ } }) ∧
    (s.time.mode = .holdover ∨ s.time.mode = .free →
      (s.time.outRun < 2 → exec .edgeAccepted s =
        .next { s with time := { t with outRun := s.time.outRun + 1 } }) ∧
      (2 ≤ s.time.outRun → exec .edgeAccepted s =
        .next { s with time := { t with outRun := 0, step := some ⟨none, 0⟩ } })))

/-- A pending step, or the one that the first edge of ACQUIRING raises, meets an accepted edge (R8, R14,
R15, R16; notes/assumptions 11). With no batch active it is applied: hub time
becomes the target plus the periods since the capture, and every stored time of the other blocks
moves by the amount. With a batch active it stays, its mark resolved to a shift, hub time stands, and the
rule of the state acts on the edge: in LOCKED the watch moves, an in-window edge steers the slew, and an
out-of-window one counts, the third in a row setting its run back and keeping the step; in HOLDOVER and
FREE the runs move the same way and the second in-window edge with the reference present makes the state
LOCKED; in ACQUIRING nothing is counted (R8, R9, R10, R11, R12, R13). That the periods since the capture
are the run count less 1 is DEDUCED (notes/assumptions 27), and DESIGN CHOICE where a slew adjustment fell
in the pulse (notes/assumptions 38); that the in-window run stands at 0 in LOCKED is DEDUCED
(notes/assumptions 10); that every in-window edge sets the pace count to 0 is DESIGN CHOICE
(notes/assumptions 36), and so is that in ACQUIRING nothing is counted while a step later than the
initial one is pending (notes/assumptions 39). -/
def Obligations.PendingStepIsAppliedOrDeferredAtAnEdge : Prop :=
  ∀ (s : State) (run : Nat) (c : HubTime) (p : PendingStep), s.port.resetLow = false →
    s.time.filter = .high run c true → s.time.edgeFilter ≤ run →
    (s.time.step = some p ∨
      s.time.step = none ∧ s.time.mode = .acquiring ∧ s.time.lastOffset = none ∧ p = ⟨none, 0⟩) →
    let boundary := c - BitVec.ofInt 40 (edgeOffset c)
    let target : HubTime := match p.mark with
      | some n => BitVec.ofNat 40 (n * 10000000)
      | none => boundary + BitVec.ofInt 40 p.shift
    let d := target - c
    (s.anyActive = false → ∃ t : State, exec .edgeAccepted s = .next t ∧
      t.time.hub = target + BitVec.ofNat 40 (run - 1) ∧ t.time.step = none ∧ t.time.slew = 0 ∧
      t.time.inRun = 0 ∧ t.time.outRun = 0 ∧ t.time.flag = true ∧ t.time.mode = s.time.mode ∧
      t.time.lastOffset = some (edgeOffset c) ∧
      (s.time.mode = .locked → t.time.expected = some (target + 10000000#40) ∧
        t.time.miss = some (target + 10000000#40 + BitVec.ofNat 40 s.time.lockWindow)) ∧
      t.channels = s.channels ∧ t.zones = s.zones ∧ t.port = s.port ∧
      t.highway.rate = s.highway.rate ∧ t.highway.aborts = s.highway.aborts ∧
      t.highway.assembler = s.highway.assembler ∧ t.highway.errors = s.highway.errors ∧
      (∀ f x, s.highway.line = .busy f x → t.highway.line = .busy f (x + d)) ∧
      (∀ i q, s.slot i = some q → t.slot i = some { q with
        queueOrder := q.queueOrder + d
        flight := q.flight.map fun f =>
          ⟨f.sequence, f.departure + d, f.timeout + d⟩ }) ∧
      t.meas.wait = s.meas.wait ∧
      (∀ n, (t.site n).change = (s.site n).change ∧
        (t.site n).zonesRemoved = (s.site n).zonesRemoved) ∧
      (∀ n e, s.enrolled n = some e → ∃ e', t.enrolled n = some e' ∧
        e'.phase = e.phase ∧ e'.config = e.config ∧
        e'.est = { e.est with lastAccepted := e.est.lastAccepted.map (· + d) } ∧
        e'.cadence = e.cadence.map (· + d) ∧ e'.deafenUntil = e.deafenUntil.map (· + d) ∧
        ∀ k : ChannelNo, e'.carriers[k] =
          e.carriers[k].map fun x => ⟨x.confirmedEnd.map (· + d)⟩)) ∧
    (s.anyActive = true → ∃ t : State, exec .edgeAccepted s = .next t ∧
      t.time.hub = s.time.hub ∧ t.time.lastOffset = some (edgeOffset c) ∧
      t.time.step = some (match p.mark with
        | some n => ⟨none, (BitVec.ofNat 40 (n * 10000000) - boundary).toInt⟩
        | none => p) ∧
      t.time.mode = (if s.time.mode = .acquiring then .acquiring else t.time.mode) ∧
      t.sites = s.sites ∧ t.meas = s.meas ∧ t.zones = s.zones ∧ t.channels = s.channels ∧
      t.highway = s.highway ∧ t.port = s.port) ∧
    (s.anyActive = true →
      let off := edgeOffset c
      let inWindow : Prop := |off| ≤ s.time.lockWindow
      let t := { s.time with
        filter := .awaitLow, lastOffset := some off
        step := some (match p.mark with
          | some n => ⟨none, (BitVec.ofNat 40 (n * 10000000) - boundary).toInt⟩
          | none => p) }
      let watched := { t with
        expected := some (boundary + 10000000#40)
        miss := some (boundary + 10000000#40 + BitVec.ofNat 40 s.time.lockWindow) }
      let gives (x : TimeScale) : Prop := exec .edgeAccepted s = .next { s with time := x }
      (s.time.mode = .acquiring → gives t) ∧
      (s.time.mode = .locked →
        (inWindow → gives { watched with
          outRun := 0, slew := s.time.slew + off, pace := 0, slewFirst := true }) ∧
        (¬ inWindow → s.time.outRun < 2 → gives { watched with outRun := s.time.outRun + 1 }) ∧
        (¬ inWindow → 2 ≤ s.time.outRun → gives { watched with outRun := 0 })) ∧
      (s.time.mode = .holdover ∨ s.time.mode = .free →
        (inWindow → s.time.present = false → gives { t with outRun := 0, inRun := 0 }) ∧
        (inWindow → s.time.present = true → s.time.inRun = 0 →
          gives { t with outRun := 0, inRun := 1 }) ∧
        (inWindow → s.time.present = true → 1 ≤ s.time.inRun → gives { watched with
          mode := .locked, inRun := 0, outRun := 0, holdover := 0, holdoverPeriods := 0, flag := true
          slew := s.time.slew + off, pace := 0, slewFirst := true }) ∧
        (¬ inWindow → s.time.outRun < 2 →
          gives { t with inRun := 0, outRun := s.time.outRun + 1 }) ∧
        (¬ inWindow → 2 ≤ s.time.outRun → gives { t with inRun := 0, outRun := 0 })))

/-- A slew adjustment is made only in LOCKED with a remainder, in the first period after an in-window
edge or the 10,000th after the previous one; it holds hub time or advances it by 2 and moves the
remainder toward 0 by 1 (R13). A frame in COLLECT takes a byte at most in that period
(R141; notes/assumptions 20). -/
def Obligations.SlewAdjustmentHoldsOrSkipsATick : Prop :=
  ∀ s : State, s.port.resetLow = false →
    (s.time.slewDue = true ↔ s.time.mode = .locked ∧ s.time.slew ≠ 0 ∧
      (s.time.slewFirst = true ∨ 10000 ≤ s.time.pace + 1)) ∧
    (s.time.slewDue = true → ∃ t : State, exec .slewAdjustment s = .next t ∧
      (0 < s.time.slew → t.time.hub = s.time.hub ∧ t.time.slew = s.time.slew - 1) ∧
      (s.time.slew < 0 → t.time.hub = s.time.hub + 2 ∧ t.time.slew = s.time.slew + 1) ∧
      t.time.pace = 0 ∧ t.time.slewFirst = false ∧ t.time.mode = .locked ∧
      t.time.step = s.time.step ∧ t.time.flag = s.time.flag ∧
      t.time.expected = s.time.expected ∧ t.time.miss = s.time.miss ∧
      t.sites = s.sites ∧ t.meas = s.meas ∧ t.zones = s.zones ∧ t.channels = s.channels ∧
      t.highway = { s.highway with assembler := t.highway.assembler } ∧
      s.highway.assembler.Passes t.highway.assembler)

/-- The rows that move the timebase state by themselves: the miss deadline (R9), a second of HOLDOVER
and its limit (R10), the loss and the return of the reference (R5), each with the flag (R18) and,
on leaving LOCKED, the mark on every active batch (R96). -/
def Obligations.TimebaseEventsMoveTheState : Prop :=
  ∀ s : State, s.port.resetLow = false →
    let unverified : State := { s with channels := s.channels.map fun c => { c with
      queue := c.queue.map fun b =>
        if b.state = .planned ∨ b.state = .armed ∨ b.state = .cancelling ∨ b.state = .onAir
        then { b with unverified := true } else b } }
    (∀ x, s.time.mode = .locked → s.time.miss = some x → reached s.time.hub x = true →
      exec .missDeadline s = .next { unverified with time := { s.time with
        mode := .holdover, holdover := 0, holdoverPeriods := 0, inRun := 0
        expected := none, miss := none, flag := true } }) ∧
    (s.time.mode = .holdover → 10000000 ≤ s.time.holdoverPeriods →
      ∃ t : State, exec .holdoverElapsed s = .next t ∧
        t.time.holdover = min 65535 (s.time.holdover + 1) ∧
        t.time.holdoverPeriods = s.time.holdoverPeriods - 10000000 ∧
        (t.time.holdover < s.time.holdoverLimit →
          t.time.mode = .holdover ∧ t.time.flag = s.time.flag) ∧
        (s.time.holdoverLimit ≤ t.time.holdover → t.time.mode = .free ∧ t.time.flag = true) ∧
        t.time.hub = s.time.hub ∧ t.time.slew = s.time.slew ∧ t.sites = s.sites ∧
        t.meas = s.meas ∧ t.zones = s.zones ∧ t.channels = s.channels ∧ t.highway = s.highway ∧
        t.port = s.port) ∧
    (s.time.present = true →
      exec .referenceLost s = .next
        { (if s.time.mode = .locked then unverified else s) with time := { s.time with
          present := false, mode := .free, inRun := 0, expected := none, miss := none
          flag := true } }) ∧
    (s.time.present = false →
      exec .referenceReturned s = .next { s with time := { s.time with
        present := true, inRun := 0, flag := true } })

/-- TIME MARK sets the pending step to its second, whatever was pending, and answers PENDING (R17, R14);
READ TIME returns the snapshot and clears the flag and the glitch count (R19). -/
def Obligations.TimeMarkAndReadTimeAnswer : Prop :=
  ∀ (s : State) (label : Byte), s.takes = true →
    (∀ n, exec (.timeMark label n) s =
      .next (({ s with time := { s.time with step := some ⟨some n, 0⟩ } } : State).answered
        19 label s.now .pending .empty)) ∧
    exec (.readTime label) s =
      .next (({ s with time := { s.time with flag := false, glitches := 0 } } : State).answered
        20 label s.now .done (.time ⟨s.time.hub, s.time.mode, s.time.present, s.time.step,
          s.time.slew, s.time.holdover, s.time.lastOffset, s.time.glitches⟩))

/-- The settings commands write each field given, clamped to its range, keep each field left out, and
answer DONE_ADJUSTED exactly when a value moved: SET MEASUREMENT (R64), SET TIMEBASE (R20, with the
limit of R10), SET HIGHWAY (R140, refused while the line is BUSY or orders are outstanding). -/
def Obligations.SettingsCommandsClampAndWrite : Prop :=
  ∀ (s : State) (label : Byte), s.takes = true →
    let put (lo hi : Nat) (given : Option Nat) (kept : Nat) : Nat :=
      match given with
      | some v => max lo (min hi v)
      | none => kept
    let fits (lo hi : Nat) (given : Option Nat) : Prop := ∀ v, given = some v → lo ≤ v ∧ v ≤ hi
    (∀ f : MeasurementFields, ∃ r, exec (.setMeasurement label f) s =
      .next (({ s with meas := { s.meas with
        settleCount := put 2 8 f.settleCount s.meas.settleCount
        staleLimit := put 1 15 f.staleLimit s.meas.staleLimit
        stepConfirm := put 2 7 f.stepConfirm s.meas.stepConfirm
        quietGap := put 10 1000 f.quietGap s.meas.quietGap } } : State).answered
          6 label s.now r .empty) ∧
      (r = .done ∧ fits 2 8 f.settleCount ∧ fits 1 15 f.staleLimit ∧ fits 2 7 f.stepConfirm ∧
          fits 10 1000 f.quietGap ∨
        r = .doneAdjusted ∧ ¬ (fits 2 8 f.settleCount ∧ fits 1 15 f.staleLimit ∧
          fits 2 7 f.stepConfirm ∧ fits 10 1000 f.quietGap))) ∧
    (∀ f : TimebaseFields, ∃ r,
      let limit := put 1 65535 f.holdoverLimit s.time.holdoverLimit
      let expired := s.time.mode == .holdover && decide (limit ≤ s.time.holdover)
      exec (.setTimebase label f) s = .next (({ s with time := { s.time with
        edgeFilter := put 1 64 f.edgeFilter s.time.edgeFilter
        lockWindow := put 1 1000 f.lockWindow s.time.lockWindow
        holdoverLimit := limit
        mode := if expired then .free else s.time.mode
        flag := expired || s.time.flag } } : State).answered 21 label s.now r .empty) ∧
      (r = .done ∧ fits 1 64 f.edgeFilter ∧ fits 1 1000 f.lockWindow ∧
          fits 1 65535 f.holdoverLimit ∨
        r = .doneAdjusted ∧ ¬ (fits 1 64 f.edgeFilter ∧ fits 1 1000 f.lockWindow ∧
          fits 1 65535 f.holdoverLimit))) ∧
    (∀ rate : Nat,
      (s.highway.line ≠ .idle ∨ (∃ c b, b ∈ (s.channel c).queue ∧
          (b.state = .planned ∨ b.state = .armed ∨ b.state = .cancelling)) →
        exec (.setHighway label rate) s = .next (s.answered 22 label s.now .conflict .empty)) ∧
      (s.highway.line = .idle → (∀ c b, b ∈ (s.channel c).queue →
          b.state ≠ .planned ∧ b.state ≠ .armed ∧ b.state ≠ .cancelling) →
        ∃ r x, exec (.setHighway label rate) s =
          .next (({ s with highway := { s.highway with rate := x } } : State).answered
            22 label s.now r .empty) ∧
          (rate = 1024 → x = .kbit1024 ∧ r = .done) ∧ (rate = 2048 → x = .kbit2048 ∧ r = .done) ∧
          (rate = 4096 → x = .kbit4096 ∧ r = .done) ∧
          (rate ≠ 1024 → rate ≠ 2048 → rate ≠ 4096 → r = .doneAdjusted ∧
            (rate ≤ 1536 → x = .kbit1024) ∧ (1536 < rate → rate ≤ 3072 → x = .kbit2048) ∧
            (3072 < rate → x = .kbit4096))))

/-- No row but those of the time scale changes any item of it: hub time is stepped at no other moment,
and RESTART and every other command leave it as it stands (R2, R15); and no row changes the queue of
rows, which is the model's own (notes/assumptions 2). -/
def Obligations.OnlyTimeRowsChangeTheTimeScale : Prop :=
  ∀ (i : Instr) (s t : State), exec i s = .next t →
    (i.ofTime = false → t.time = s.time) ∧ t.pending = s.pending

/-- Whatever row takes the timebase out of LOCKED, short of power-on and RESET, every batch that is
active then carries the time-unverified flag after it (R96). -/
def Obligations.LeavingLockedMarksEveryActiveBatch : Prop :=
  ∀ (i : Instr) (s t : State), exec i s = .next t → i ≠ .powerOn → i ≠ .reset →
    s.time.mode = .locked → t.time.mode ≠ .locked →
    ∀ c b, b ∈ (t.channel c).queue →
      (b.state = .planned ∨ b.state = .armed ∨ b.state = .cancelling ∨ b.state = .onAir) →
      b.unverified = true

/-! ### The site table (02) -/

/-- The configuration fields take the values given, each clamped to its range, and keep the values left
out; the command is adjusted exactly when a value moved (R22). -/
def Obligations.SiteFieldsTakeTheirRanges : Prop :=
  ∀ (f : SiteFields) (c : SiteConfig),
    let put (lo hi : Nat) (given : Option Nat) (kept : Nat) : Nat :=
      match given with
      | some v => if v < lo then lo else if hi < v then hi else v
      | none => kept
    let fits (lo hi : Nat) (given : Option Nat) : Prop := ∀ v, given = some v → lo ≤ v ∧ v ≤ hi
    applySiteFields f c =
      { steer := match f.steer with
          | some 0 => .auto
          | some 1 => .forceIn
          | some 2 => .forceOut
          | _ => c.steer
        share := put 1 255 f.share c.share
        e := put 0 16777215 f.e c.e
        o := match f.o with
          | some v => if v < -1048576 then -1048576 else if 1048575 < v then 1048575 else v
          | none => c.o
        m := put 1000 1000000 f.m c.m
        w := put 0 20000000 f.w c.w
        idleHold := put 1 6000 f.idleHold c.idleHold
        ceiling := put 1000 16777216 f.ceiling c.ceiling
        fast := put 10 60000 f.fast c.fast
        slow := put 10 60000 f.slow c.slow
        gateFloor := put 16 65535 f.gateFloor c.gateFloor
        gain := put 1 7 f.gain c.gain
        seed := match f.seed with
          | some v => some (if 268435456 < v then 268435456 else v)
          | none => c.seed } ∧
    (siteFieldsMoved f = false ↔
      fits 1 255 f.share ∧ fits 0 16777215 f.e ∧
      (∀ v, f.o = some v → -1048576 ≤ v ∧ v ≤ 1048575) ∧ fits 1000 1000000 f.m ∧
      fits 0 20000000 f.w ∧ fits 1 6000 f.idleHold ∧ fits 1000 16777216 f.ceiling ∧
      fits 10 60000 f.fast ∧ fits 10 60000 f.slow ∧ fits 16 65535 f.gateFloor ∧ fits 1 7 f.gain ∧
      fits 0 268435456 f.seed)

/-- ENROL checks in its order and builds a fresh SETTLING record whose timer expires at once, so that the
first probe claims the lowest free slot as the command is taken (R31, R32, R43, R45). The line is
taken to be BUSY in the clause of the whole next state, so that no frame departs in the same event;
the record itself is stated for an IDLE line as well, up to the sequence number that a departing
probe advances. -/
def Obligations.EnrolBuildsAFreshRecord : Prop :=
  ∀ (s : State) (label : Byte) (f : SiteFields), s.takes = true →
    (∀ n, 48 ≤ n → exec (.enrol label n f) s = .next (s.answered 1 label s.now .invalid .empty)) ∧
    (∀ n : SiteNo, ((∃ l c, f.members = some l ∧ c ∈ l ∧ 4 ≤ c) ∨ ∃ v, f.steer = some v ∧ 3 ≤ v) →
      exec (.enrol label n.val f) s = .next (s.answered 1 label s.now .invalid .empty)) ∧
    (∀ n : SiteNo, (∀ l c, f.members = some l → c ∈ l → c < 4) → (∀ v, f.steer = some v → v < 3) →
      (s.enrolled n ≠ none →
        exec (.enrol label n.val f) s = .next (s.answered 1 label s.now .exists .empty)) ∧
      (s.enrolled n = none →
        let config := applySiteFields f
          ⟨.auto, 128, 0, 0, 20000, 5000000, 40, 8388608, 250, 5000, 160, 3, none⟩
        let r : Result := if siteFieldsMoved f then .doneAdjusted else .done
        let e : Enrolled :=
          { phase := .settling, config := config
            est := ⟨config.seed, if config.seed.isSome then config.gateFloor else 0, 0, 0, 0, none,
              0, none, ⟨0, 0, 0, 0, 0⟩, ⟨0, 0, 0, 0, false⟩⟩
            clampTally := 0, clampFlag := false
            carriers := Vector.ofFn fun c : Fin 4 =>
              if (f.members.getD []).contains c.val then some ⟨none⟩ else none
            cadence := some (s.now + BitVec.ofNat 40 (config.fast * 10000))
            deafenUntil := none }
        (s.holdsProbe n = false → ∃ t k, exec (.enrol label n.val f) s = .next t ∧
          t.site n = ⟨false, 0, some { e with est := { e.est with sequence := k } }⟩ ∧
          t.port.forming = some ⟨⟨1, label, s.now, r, .empty⟩, 0, s.free⟩) ∧
        (∀ i, s.lineBusy → s.holdsProbe n = false → s.slot i = none →
          (∀ j < i, s.slot j ≠ none) →
          exec (.enrol label n.val f) s = .next (({ s with
            sites := s.sites.set n ⟨false, 0, some e⟩
            meas := { s.meas with
              slots := s.meas.slots.set i (some ⟨n, s.now, false, 0, none⟩) } } : State).answered
            1 label s.now r .empty)) ∧
        (s.lineBusy → s.holdsProbe n = false → (∀ i, s.slot i ≠ none) →
          exec (.enrol label n.val f) s = .next (({ s with
            sites := s.sites.set n ⟨false, 0, some e⟩
            meas := { s.meas with wait := s.meas.wait ++ [⟨n, 0, false⟩] } } : State).answered
            1 label s.now r .empty))))

/-- AMEND SITE checks in its order and changes the named fields in place: the carrier entries follow
the membership, a changed share restarts the settling with D kept, and nothing else of the record or
the part changes (R33, R34, R35). -/
def Obligations.AmendSiteChangesFieldsInPlace : Prop :=
  ∀ (s : State) (label : Byte) (f : SiteFields), s.takes = true →
    (∀ n, 48 ≤ n →
      exec (.amendSite label n f) s = .next (s.answered 2 label s.now .invalid .empty)) ∧
    (∀ n : SiteNo, ((∃ l c, f.members = some l ∧ c ∈ l ∧ 4 ≤ c) ∨ (∃ v, f.steer = some v ∧ 3 ≤ v) ∨
        f.seed ≠ none) →
      exec (.amendSite label n.val f) s = .next (s.answered 2 label s.now .invalid .empty)) ∧
    (∀ n : SiteNo, (∀ l c, f.members = some l → c ∈ l → c < 4) → (∀ v, f.steer = some v → v < 3) →
      f.seed = none →
      (s.enrolled n = none →
        exec (.amendSite label n.val f) s = .next (s.answered 2 label s.now .noSuch .empty)) ∧
      (∀ e, s.enrolled n = some e → e.phase = .retiring →
        exec (.amendSite label n.val f) s = .next (s.answered 2 label s.now .state .empty)) ∧
      (∀ e, s.enrolled n = some e → e.phase ≠ .retiring →
        let config := applySiteFields f e.config
        let carriers : Vector (Option Carrier) 4 := match f.members with
          | none => e.carriers
          | some l => Vector.ofFn fun c : Fin 4 =>
            if l.contains c.val then some (e.carriers[c].getD ⟨none⟩) else none
        let e' : Enrolled :=
          if config.share = e.config.share then { e with config := config, carriers := carriers }
          else { e with
            config := config, carriers := carriers, phase := .settling
            est := { e.est with
              u := if e.est.d.isSome then config.gateFloor else 0
              acceptedCount := 0, failures := 0, rejects := 0 } }
        exec (.amendSite label n.val f) s = .next (({ s with
          sites := s.sites.set n
            ⟨(s.site n).change || (e'.phase != e.phase), (s.site n).zonesRemoved, some e'⟩ } :
              State).answered 2 label s.now
            (if siteFieldsMoved f then .doneAdjusted else .done) .empty)))

/-- QUERY SITE reports the record as it stands, with its probe condition, then clears the change flag
and the sticky clamp flag and nothing else (R36, R66). -/
def Obligations.QuerySiteReportsAndClearsTwoFlags : Prop :=
  ∀ (s : State) (label : Byte), s.takes = true →
    (∀ n, 48 ≤ n → exec (.querySite label n) s = .next (s.answered 3 label s.now .invalid .empty)) ∧
    (∀ n : SiteNo, s.enrolled n = none →
      exec (.querySite label n.val) s = .next (({ s with
        sites := s.sites.set n ⟨false, (s.site n).zonesRemoved, none⟩ } : State).answered
        3 label s.now .done (.vacantSite (s.site n).zonesRemoved (s.site n).change))) ∧
    (∀ (n : SiteNo) e, s.enrolled n = some e →
      ∃ r : SiteReport, exec (.querySite label n.val) s = .next (({ s with
          sites := s.sites.set n
            ⟨false, (s.site n).zonesRemoved, some { e with clampFlag := false }⟩ } : State).answered
          3 label s.now .done (.site r)) ∧
        r.record = e ∧ r.change = (s.site n).change ∧ r.zonesRemoved = (s.site n).zonesRemoved ∧
        (s.holdsProbe n = false →
          r.holding = .none ∧ r.sequence = none ∧ r.departure = none ∧ r.further = none) ∧
        (∀ i p, s.slotOf n = some i → s.slot i = some p →
          r.holding = .slot i p.flight.isSome ∧
          (e.phase ≠ .retiring → r.further = some p.further ∧
            r.sequence = p.flight.map Flight.sequence ∧
            r.departure = p.flight.map Flight.departure)) ∧
        (∀ w front back, s.slotOf n = none → s.meas.wait = front ++ w :: back → w.site = n →
          (∀ x ∈ front, x.site ≠ n) →
          r.holding = .waiting (front.length + 1) ∧
          (e.phase ≠ .retiring → r.further = some w.further)))

/-- RETIRE checks in its order (R37). Its wait-list entry goes, and a slot whose probe has not departed is
freed and handed to the head of the wait list that is left. Without a reference the record becomes
VACANT at once, with the zones that name the site removed and counted and its context entries removed
(R41); with references it becomes RETIRING with its timer stopped and answers PENDING, and each WAITING
order of it is withdrawn: a batch before its air time with no live entry left is ABANDONED, one with no
other WAITING entry becomes ARMED, and the site is VACANT already when no reference is left after that
(R38, R40; stated where the queues are lawful, as every step keeps them: R87, R88). The line is taken to be
BUSY, so that no frame departs in the same event. -/
def Obligations.RetireVacatesOrRetires : Prop :=
  ∀ (s : State) (label : Byte), s.takes = true →
    (∀ n, 48 ≤ n → exec (.retire label n) s = .next (s.answered 4 label s.now .invalid .empty)) ∧
    (∀ n : SiteNo, s.enrolled n = none →
      exec (.retire label n.val) s = .next (s.answered 4 label s.now .noSuch .empty)) ∧
    (∀ (n : SiteNo) e, s.enrolled n = some e → e.phase = .retiring →
      exec (.retire label n.val) s = .next (s.answered 4 label s.now .state .empty)) ∧
    (∀ (n : SiteNo) e (m : Measurement), s.enrolled n = some e → e.phase ≠ .retiring → s.lineBusy →
      let wait := s.meas.wait.filter fun w => w.site != n
      ((∀ i p, s.slotOf n = some i → s.slot i = some p → p.flight ≠ none) ∧
          m = { s.meas with wait := wait } ∨
        (∃ i p, s.slotOf n = some i ∧ s.slot i = some p ∧ p.flight = none ∧
          m = { s.meas with
            slots := s.meas.slots.set i
              (wait.head?.map fun w => ⟨w.site, s.now, w.burst, w.further, none⟩)
            wait := wait.tail })) →
      (s.referenced n = false → exec (.retire label n.val) s = .next (({ s with
        sites := s.sites.set n ⟨true, s.zonesNaming n, none⟩
        meas := m
        zones := s.zones.map fun o => o.filter fun z => !(z.siteA == n || z.siteB == n)
        channels := s.channels.map fun c => { c with
          context := c.context.map fun x => { x with entries := x.entries.set n none } } } :
            State).answered 4 label s.now .done .empty)) ∧
      (s.referenced n = true → s.waitingBatches n = [] →
        exec (.retire label n.val) s = .next (({ s with
          sites := s.sites.set n ⟨true, (s.site n).zonesRemoved,
            some { e with phase := .retiring, cadence := none }⟩
          meas := m } : State).answered 4 label s.now .pending .empty)) ∧
      (∃ t, exec (.retire label n.val) s = .next t ∧ t.meas = m ∧ t.time = s.time ∧
        t.highway = s.highway ∧ (t.site n).change = true ∧
        (s.referenced n = true →
          t.port.forming = some ⟨⟨4, label, s.now, .pending, .empty⟩, 0, s.free⟩ ∧
          (s.QueuesLawful → t.referenced n = true →
            t.enrolled n = some { e with phase := .retiring, cadence := none }) ∧
          (s.QueuesLawful → t.referenced n = false → t.enrolled n = none) ∧
          (s.QueuesLawful → ∀ (c : ChannelNo) b, b ∈ (s.channel c).queue →
            let waits (x : Batch) : Prop :=
              x.active = true ∧ ∃ y, x.entryOf n = some y ∧ y.order = .waiting
            let w := b.modifyEntry n fun y =>
              if y.order = .waiting then { y with order := .withdrawn } else y
            let dead : Prop := ∀ p y, p ∈ w.plan → p.disp = .included y →
              y.order = .withdrawn ∨ y.order = .aborted
            let open' : Prop := ∃ p y, p ∈ w.plan ∧ p.disp = .included y ∧ y.order = .waiting
            let g := (s.channel c).summary
            (¬ waits b → b ∈ (t.channel c).queue) ∧
            (waits b → b.state = .planned ∨ b.state = .armed → dead → ∃ total,
              (total = g.withRecord .abandoned w.tally ∨
                total = ChainSummary.withRecord ⟨0, 0, 0, 0, 0, 0, 0, 0, 0, 0⟩ .abandoned w.tally) ∧
              ((∀ x ∈ (s.channel c).queue, waits x → x = b) →
                total = g.withRecord .abandoned w.tally) ∧
              { w with
                state := .abandoned, reason := some .noSites, counts := some w.tally
                summary := some total } ∈ (t.channel c).queue) ∧
            (waits b → b.state = .planned → ¬ dead → ¬ open' →
              { w with state := .armed } ∈ (t.channel c).queue) ∧
            (waits b → b.state = .planned → open' → w ∈ (t.channel c).queue) ∧
            (waits b → b.state = .armed → ¬ dead → w ∈ (t.channel c).queue) ∧
            (waits b → b.state = .onAir ∨ b.state = .cancelling → w ∈ (t.channel c).queue)))))

/-- The moves of a record that no other may replace, whatever row is taken (R28): a RETIRING record
stays RETIRING or becomes VACANT, and a VACANT one leaves that state only by an ENROL that names it,
to SETTLING. -/
def Obligations.RetiringAndVacantRecordsMoveOnlyAsStated : Prop :=
  ∀ (i : Instr) (s t : State) (n : SiteNo), exec i s = .next t →
    (∀ e, s.enrolled n = some e → e.phase = .retiring →
      t.enrolled n = none ∨ ∃ e', t.enrolled n = some e' ∧ e'.phase = .retiring) ∧
    (s.enrolled n = none → t.enrolled n = none ∨
      (∃ label f, i = .enrol label n.val f) ∧
        ∃ e', t.enrolled n = some e' ∧ e'.phase = .settling)

/-! ### Delay measurement (03) -/

/-- PROBE checks in its order, zeroes the burst summary, restarts the cadence timer with the interval of
the site's state and requests a burst of one probe more than its count, a count above 15 taken as 15
(R48, R44, R45). The line is taken to be BUSY, so that no frame departs in the same event. -/
def Obligations.ProbeStartsABurst : Prop :=
  ∀ (s : State) (label : Byte) (k : Nat), s.takes = true →
    (∀ n, 48 ≤ n → exec (.probe label n k) s = .next (s.answered 5 label s.now .invalid .empty)) ∧
    (∀ n : SiteNo, s.enrolled n = none →
      exec (.probe label n.val k) s = .next (s.answered 5 label s.now .noSuch .empty)) ∧
    (∀ (n : SiteNo) e, s.enrolled n = some e → e.phase = .retiring ∨ s.holdsProbe n = true →
      exec (.probe label n.val k) s = .next (s.answered 5 label s.now .state .empty)) ∧
    (∀ (n : SiteNo) e, s.enrolled n = some e → e.phase ≠ .retiring → s.holdsProbe n = false →
      s.lineBusy →
      let interval := if e.phase = .tracking then e.config.slow else e.config.fast
      let e' : Enrolled := { e with
        cadence := some (s.now + BitVec.ofNat 40 (interval * 10000))
        est := { e.est with burst := ⟨0, 0, 0, 0, false⟩ } }
      let sites := s.sites.set n { s.site n with body := some e' }
      let r : Result := if 15 < k then .doneAdjusted else .done
      (∀ i, s.slot i = none → (∀ j < i, s.slot j ≠ none) →
        exec (.probe label n.val k) s = .next (({ s with
          sites := sites
          meas := { s.meas with
            slots := s.meas.slots.set i (some ⟨n, s.now, true, min 15 k, none⟩) } } : State).answered
          5 label s.now r .empty)) ∧
      ((∀ i, s.slot i ≠ none) →
        exec (.probe label n.val k) s = .next (({ s with
          sites := sites
          meas := { s.meas with wait := s.meas.wait ++ [⟨n, min 15 k, true⟩] } } : State).answered
          5 label s.now r .empty)))

/-- A cadence expiry reloads the timer from the expiry taken, by the state the site holds, and asks for
one probe: the lowest free slot, the tail of the wait list when none is free, nothing for a site that
holds a slot or an entry (R43, R45). The line is taken to be BUSY. -/
def Obligations.CadenceExpiryAsksAndReloads : Prop :=
  ∀ (s : State) (n : SiteNo) (e : Enrolled) (x : HubTime), s.port.resetLow = false → s.lineBusy →
    s.enrolled n = some e → e.cadence = some x → reached s.now x = true →
    let interval := if e.phase = .tracking then e.config.slow else e.config.fast
    let u : State := { s with sites := s.sites.set n { s.site n with
      body := some { e with cadence := some (x + BitVec.ofNat 40 (interval * 10000)) } } }
    (s.holdsProbe n = true → exec (.cadenceExpiry n) s = .next u) ∧
    (∀ i, s.holdsProbe n = false → s.slot i = none → (∀ j < i, s.slot j ≠ none) →
      exec (.cadenceExpiry n) s = .next { u with meas := { s.meas with
        slots := s.meas.slots.set i (some ⟨n, s.now, false, 0, none⟩) } }) ∧
    (s.holdsProbe n = false → (∀ i, s.slot i ≠ none) →
      exec (.cadenceExpiry n) s = .next { u with meas := { s.meas with
        wait := s.meas.wait ++ [⟨n, 0, false⟩] } })

/-- An echo that answers no current probe, by the first test of R50 that it meets: for a VACANT site it
leaves no trace; for a RETIRING one it yields nothing (R39); a deafened site's is discarded, counted
and extends the gap; one that carries the last timed-out sequence is LATE (R52); any other is STRAY
and deafens the site (R53). An echo whose site number is 48 or more is discarded and counted (R142).
The line is taken to be BUSY. The arrival of a frame without a reported flag is the model's choice
(notes/assumptions 7). -/
def Obligations.EchoesAreClassedInOrder : Prop :=
  ∀ (s : State) (site sq : Byte) (t : BitVec 16), s.port.resetLow = false → s.lineBusy →
    let hunt : State := { s with highway := { s.highway with assembler := .hunt } }
    let gap := s.arrival + BitVec.ofNat 40 (s.meas.quietGap * 10000)
    (48 ≤ site.toNat → exec (.echo site sq t) s = .next { s with highway := { s.highway with
      assembler := .hunt, errors := min 65535 (s.highway.errors + 1) } }) ∧
    (∀ n : SiteNo, n.val = site.toNat → s.enrolled n = none →
      exec (.echo site sq t) s = .next hunt) ∧
    (∀ (n : SiteNo) e, n.val = site.toNat → s.enrolled n = some e →
      let stray : State := { hunt with sites := s.sites.set n { s.site n with body := some { e with
        deafenUntil := some (match e.deafenUntil with
          | some x => if later gap x then gap else x
          | none => gap)
        est := { e.est with totals := { e.est.totals with
          stray := min 65535 (e.est.totals.stray + 1) } } } } }
      let unmatched := ∀ i p f, s.slot i = some p → p.site = n → p.flight = some f →
        f.sequence ≠ sq.toNat
      (e.phase = .retiring → unmatched → exec (.echo site sq t) s = .next hunt) ∧
      (e.phase ≠ .retiring → e.deafenUntil ≠ none → exec (.echo site sq t) s = .next stray) ∧
      (e.phase ≠ .retiring → e.deafenUntil = none → unmatched →
        e.est.lastTimedOut = some sq.toNat →
        exec (.echo site sq t) s = .next { hunt with sites := s.sites.set n { s.site n with
          body := some { e with est := { e.est with totals := { e.est.totals with
            late := min 65535 (e.est.totals.late + 1) } } } } }) ∧
      (e.phase ≠ .retiring → e.deafenUntil = none → unmatched →
        e.est.lastTimedOut ≠ some sq.toNat → exec (.echo site sq t) s = .next stray))

/-- A MATCHED echo passes its sample through the estimator, enters the verdict for a burst, and frees its
slot or readies the next probe of the burst (R50, R49, R46); the departed probe of a RETIRING site
frees its slot whole, and with it may go the site's last reference, which makes the record VACANT
(R39, R40, R41). The line is taken to be BUSY. The arrival of a frame without a reported flag is the
model's choice (notes/assumptions 7). -/
def Obligations.MatchedEchoIsFoldedAndFreesItsSlot : Prop :=
  ∀ (s : State) (site sq : Byte) (turn : BitVec 16) (n : SiteNo) (e : Enrolled) (i : SlotNo)
    (p : Slot) (f : Flight), s.port.resetLow = false → s.lineBusy → n.val = site.toNat →
    s.enrolled n = some e → s.slotOf n = some i → s.slot i = some p → p.flight = some f →
    f.sequence = sq.toNat →
    (e.phase ≠ .retiring → e.deafenUntil = none →
      ∀ folded accepted,
        e.foldSample s.meas s.arrival f.departure turn.toNat = (folded, accepted) →
      let b := folded.est.burst
      let e' : Enrolled := { folded with est := { folded.est with
        burst := if p.burst = false then b
          else if accepted then { b with accepted := min 16 (b.accepted + 1) }
          else { b with rejected := min 16 (b.rejected + 1), fault := true } } }
      exec (.echo site sq turn) s = .next { s with
        highway := { s.highway with assembler := .hunt }
        sites := s.sites.set n
          ⟨(s.site n).change || (e'.phase != e.phase), (s.site n).zonesRemoved, some e'⟩
        meas := s.decided i p }) ∧
    (e.phase = .retiring → ∃ t : State, exec (.echo site sq turn) s = .next t ∧
      t.meas = s.handedOn i ∧ t.time = s.time ∧ t.port = s.port ∧
      t.highway = { s.highway with assembler := .hunt } ∧
      ((∃ c b, b ∈ (s.channel c).queue ∧ b.active = true ∧ n ∈ b.includedSites) →
        t.sites = s.sites ∧ t.zones = s.zones ∧ t.channels = s.channels) ∧
      ((∀ c b, b ∈ (s.channel c).queue → b.active = true → n ∉ b.includedSites) →
        (∀ j q, j ≠ i → s.slot j = some q → q.site = n → q.flight = none) →
        t.sites = s.sites.set n ⟨true, s.zonesNaming n, none⟩ ∧
        t.zones = s.zones.map (fun o => o.filter fun z => !(z.siteA == n || z.siteB == n)) ∧
        t.channels = s.channels.map fun c => { c with
          context := c.context.map fun x => { x with entries := x.entries.set n none } }))

/-- A probe timeout counts a failure, the timed-out total and the sequence, enters the outcome of a burst
probe, and turns a SETTLING or TRACKING site STALE at the stale limit with its accepted count 0; the
slot is then freed or readied (R51, R49, R46). For a RETIRING site it only frees the slot (R39). The
end of a deafen gap makes it absent (R54). The line is taken to be BUSY at a timeout. -/
def Obligations.ProbeTimeoutCountsAFailure : Prop :=
  (∀ (s : State) (i : SlotNo) (p : Slot) (f : Flight) (e : Enrolled), s.port.resetLow = false →
    s.lineBusy → s.slot i = some p → p.flight = some f → reached s.now f.timeout = true →
    s.enrolled p.site = some e →
    (e.phase ≠ .retiring →
      let failures := min 255 (e.est.failures + 1)
      let stale := e.phase ≠ .stale ∧ s.meas.staleLimit ≤ failures
      let b := e.est.burst
      let e' : Enrolled := { e with
        phase := if stale then .stale else e.phase
        est := { e.est with
          failures := failures
          lastTimedOut := some f.sequence
          acceptedCount := if stale then 0 else e.est.acceptedCount
          totals := { e.est.totals with timedOut := min 65535 (e.est.totals.timedOut + 1) }
          burst := if p.burst = false then b
            else { b with timedOut := min 16 (b.timedOut + 1), fault := true } } }
      exec (.probeTimeout i) s = .next { s with
        sites := s.sites.set p.site
          ⟨(s.site p.site).change || (e'.phase != e.phase), (s.site p.site).zonesRemoved, some e'⟩
        meas := s.decided i p }) ∧
    (e.phase = .retiring → ∃ t : State, exec (.probeTimeout i) s = .next t ∧
      t.meas = s.handedOn i ∧ t.time = s.time ∧ t.port = s.port ∧ t.highway = s.highway ∧
      ((∃ c b, b ∈ (s.channel c).queue ∧ b.active = true ∧ p.site ∈ b.includedSites) →
        t.sites = s.sites ∧ t.zones = s.zones ∧ t.channels = s.channels) ∧
      ((∀ c b, b ∈ (s.channel c).queue → b.active = true → p.site ∉ b.includedSites) →
        (∀ j q, j ≠ i → s.slot j = some q → q.site = p.site → q.flight = none) →
        t.sites = s.sites.set p.site ⟨true, s.zonesNaming p.site, none⟩))) ∧
  (∀ (s : State) (n : SiteNo) (e : Enrolled) (x : HubTime), s.port.resetLow = false →
    s.enrolled n = some e → e.deafenUntil = some x → reached s.now x = true →
    exec (.deafenEnd n) s = .next { s with sites := s.sites.set n { s.site n with
      body := some { e with deafenUntil := none } } })

/-- R57: a valid round trip r is scaled to (r × 16 × share + 128) div 256 with the share as it stands
when the sample is taken, formed without loss in 40 bits; the sample lies in 0 .. 2^28 and is
267,386,880 at most, reached at r = 16,777,216 and share 255; a share of 128 splits the round trip
evenly. A first sample shows S whole, since it becomes D. -/
def Obligations.OutboundSampleIsScaledByTheShare : Prop :=
  (∀ (e : Enrolled) (m : Measurement) (arr dep : HubTime) (t r : Nat),
    e.est.d = none → e.config.share ≤ 255 → e.config.ceiling ≤ 16777216 →
    ((arr - dep).toNat : Int) - t = r → 1 ≤ r → r ≤ e.config.ceiling →
    (e.foldSample m arr dep t).1.est.d = some ((r * 16 * e.config.share + 128) / 256) ∧
    r * 16 * e.config.share + 128 < 2 ^ 40 ∧
    (r * 16 * e.config.share + 128) / 256 ≤ 267386880 ∧ 267386880 ≤ 2 ^ 28) ∧
  (∀ (share r : Nat), outboundSample share r = (r * 16 * share + 128) / 256) ∧
  outboundSample 255 16777216 = 267386880 ∧
  (∀ r : Nat, outboundSample 128 r = r * 8)

/-- The paths of a sample through the estimator (R56, R58 to R62): a round trip out of range is rejected
and leaves the run of rejects; a first sample gives D and the gate floor; an ungated update moves D
and U by a half; in TRACKING the gate decides between an update with the site's shift, a reject, and
a step at the confirming reject. D′ lies between D and S. The gain is at least 1, as its range has
it. -/
def Obligations.SamplesTakeTheirPathThroughTheEstimator : Prop :=
  ∀ (e : Enrolled) (m : Measurement) (arr dep : HubTime) (t : Nat), 1 ≤ e.config.gain →
    let r : Int := ((arr - dep).toNat : Int) - t
    let sample : Int := (r * 16 * e.config.share + 128) / 256
    let reject (rejects : Nat) : Enrolled := { e with est := { e.est with
      rejects := rejects
      totals := { e.est.totals with rejected := min 65535 (e.est.totals.rejected + 1) } } }
    let accept (phase : SitePhase) (count d u : Nat) : Enrolled := { e with
      phase := phase
      est := { e.est with
        d := some d, u := u, acceptedCount := count, failures := 0, rejects := 0
        lastAccepted := some arr
        totals := { e.est.totals with accepted := min 65535 (e.est.totals.accepted + 1) } } }
    let count := if e.phase = .stale then 1 else min 255 (e.est.acceptedCount + 1)
    let settled : SitePhase :=
      if e.phase = .settling ∧ m.settleCount ≤ count then .tracking else .settling
    let moves (k d d' u' : Nat) : Prop :=
      (d' : Int) = d + (sample - d + 2 ^ (k - 1)) / 2 ^ k ∧
      min (d : Int) sample ≤ d' ∧ (d' : Int) ≤ max (d : Int) sample ∧
      (u' : Int) = max 0 (min 16777215
        ((e.est.u : Int) + (|sample - d| - e.est.u + 2 ^ (k - 1)) / 2 ^ k))
    let gate : Int := min (4 * (e.est.u : Int) + e.config.gateFloor) 16777215
    let rejects := min 255 (e.est.rejects + 1)
    (r < 1 ∨ (e.config.ceiling : Int) < r →
      e.foldSample m arr dep t = (reject e.est.rejects, false)) ∧
    (1 ≤ r → r ≤ e.config.ceiling → e.phase = .settling ∨ e.phase = .stale →
      (e.est.d = none → e.foldSample m arr dep t =
        (accept settled count sample.toNat e.config.gateFloor, true)) ∧
      (∀ d, e.est.d = some d → ∃ d' u', moves 1 d d' u' ∧
        e.foldSample m arr dep t = (accept settled count d' u', true))) ∧
    (∀ d, 1 ≤ r → r ≤ e.config.ceiling → e.phase = .tracking → e.est.d = some d →
      (|sample - d| ≤ gate → ∃ d' u', moves e.config.gain d d' u' ∧
        e.foldSample m arr dep t = (accept .tracking count d' u', true)) ∧
      (gate < |sample - d| → rejects < m.stepConfirm →
        e.foldSample m arr dep t = (reject rejects, false)) ∧
      (gate < |sample - d| → m.stepConfirm ≤ rejects →
        e.foldSample m arr dep t =
          (accept .settling 1 sample.toNat e.config.gateFloor, true)))

/-! ### Overlap zones (04) -/

/-- The commands of the zone table, each with its checks in their order: DEFINE ZONE writes a fresh
record with G and B clamped (R69, R70, R71), AMEND ZONE changes the fields named and keeps the
evaluation fields (R72), DROP ZONE removes the record (R73), QUERY ZONE returns it as it stands and
clears its fail flag (R74). -/
def Obligations.ZoneCommandsWriteAndReportRecords : Prop :=
  ∀ (s : State) (label : Byte), s.takes = true →
    let bound (v : Int) : Int := max (-1048576) (min 1048575 v)
    let fitsG (v : Int) : Prop := -1048576 ≤ v ∧ v ≤ 1048575
    let fitsB (v : Nat) : Prop := 1 ≤ v ∧ v ≤ 1048576
    let write (z : ZoneNo) (o : Option Zone) : State := { s with zones := s.zones.set z o }
    (∀ z f, 192 ≤ z ∨ 48 ≤ f.siteA ∨ 48 ≤ f.siteB ∨ f.siteA = f.siteB ∨ 3 ≤ f.policy →
      exec (.defineZone label z f) s = .next (s.answered 7 label s.now .invalid .empty)) ∧
    (∀ (z : ZoneNo) (a b : SiteNo) (g : Int) (budget : Nat) (p : Policy) (code : Nat), a ≠ b →
      code = (match p with | .warn => 0 | .dropWorse => 1 | .hold => 2) →
      let define := Instr.defineZone label z.val ⟨a.val, b.val, g, budget, code⟩
      let usable (n : SiteNo) : Prop := ∃ e, s.enrolled n = some e ∧ e.phase ≠ .retiring
      let taken : Prop := ∃ y q, s.zone y = some q ∧
        (q.siteA = a ∧ q.siteB = b ∨ q.siteA = b ∧ q.siteB = a)
      let fresh : Zone := ⟨a, b, bound g, max 1 (min 1048576 budget), p, none, none, 0, 0, false⟩
      (s.zone z ≠ none → exec define s = .next (s.answered 7 label s.now .exists .empty)) ∧
      (s.zone z = none → ¬ (usable a ∧ usable b) →
        exec define s = .next (s.answered 7 label s.now .noSuch .empty)) ∧
      (s.zone z = none → usable a → usable b → taken →
        exec define s = .next (s.answered 7 label s.now .conflict .empty)) ∧
      (s.zone z = none → usable a → usable b → ¬ taken →
        (fitsG g ∧ fitsB budget →
          exec define s = .next ((write z (some fresh)).answered 7 label s.now .done .empty)) ∧
        (¬ (fitsG g ∧ fitsB budget) → exec define s =
          .next ((write z (some fresh)).answered 7 label s.now .doneAdjusted .empty)))) ∧
    (∀ z f, 192 ≤ z ∨ f.siteA ≠ none ∨ f.siteB ≠ none ∨ (∃ v, f.policy = some v ∧ 3 ≤ v) →
      exec (.amendZone label z f) s = .next (s.answered 8 label s.now .invalid .empty)) ∧
    (∀ (z : ZoneNo) f, f.siteA = none → f.siteB = none → (∀ v, f.policy = some v → v < 3) →
      (s.zone z = none →
        exec (.amendZone label z.val f) s = .next (s.answered 8 label s.now .noSuch .empty)) ∧
      (∀ q, s.zone z = some q →
        let q' : Zone := { q with
          g := match f.g with
            | some v => bound v
            | none => q.g
          budget := match f.budget with
            | some v => max 1 (min 1048576 v)
            | none => q.budget
          policy := match f.policy with
            | some 0 => .warn
            | some 1 => .dropWorse
            | some 2 => .hold
            | _ => q.policy }
        let fits := (∀ v, f.g = some v → fitsG v) ∧ (∀ v, f.budget = some v → fitsB v)
        (fits → exec (.amendZone label z.val f) s =
          .next ((write z (some q')).answered 8 label s.now .done .empty)) ∧
        (¬ fits → exec (.amendZone label z.val f) s =
          .next ((write z (some q')).answered 8 label s.now .doneAdjusted .empty)))) ∧
    (∀ z, 192 ≤ z →
      exec (.dropZone label z) s = .next (s.answered 9 label s.now .invalid .empty) ∧
      exec (.queryZone label z) s = .next (s.answered 10 label s.now .invalid .empty)) ∧
    (∀ z : ZoneNo,
      (s.zone z = none →
        exec (.dropZone label z.val) s = .next (s.answered 9 label s.now .noSuch .empty) ∧
        exec (.queryZone label z.val) s = .next (s.answered 10 label s.now .noSuch .empty)) ∧
      (∀ q, s.zone z = some q →
        exec (.dropZone label z.val) s =
          .next ((write z none).answered 9 label s.now .done .empty) ∧
        exec (.queryZone label z.val) s =
          .next ((write z (some { q with failFlag := false })).answered
            10 label s.now .done (.zone q))))

/-- The evaluation pass over the zones (R75 to R82). One visit: a zone whose sites are not both included
is skipped with nothing written; an evaluated one records its residual, its lead side and flips, and a
failure; WARN counts, HOLD stops the pass, DROP_WORSE excludes the site with the larger U, or the one
that is not FORCE_IN, or counts when both are. The whole pass visits every zone number once, in
ascending order, from the whole set with nothing removed or counted; unless a HOLD zone fails, it leaves
at least one site of a set that had one, and each site that leaves is among those removed. -/
def Obligations.ZonePassEvaluatesAndActs : Prop :=
  (∀ (s : State) (p : ZonePass) (n : ZoneNo),
    (p.stopped = true → p.visit s n = p) ∧
    (p.zones[n] = none → p.visit s n = p) ∧
    (∀ z, p.zones[n] = some z →
      (∀ x ∈ p.included, x.site ≠ z.siteA) ∨ (∀ x ∈ p.included, x.site ≠ z.siteB) →
      p.visit s n = p) ∧
    (∀ z a b, p.stopped = false → p.zones[n] = some z →
      p.included.find? (fun x => x.site == z.siteA) = some a →
      p.included.find? (fun x => x.site == z.siteB) = some b →
      |a.figures.o| ≤ 1048576 → |b.figures.o| ≤ 1048576 → |z.g| ≤ 1048576 →
      a.figures.u < 16777216 → b.figures.u < 16777216 →
      let r : Int := a.figures.o - b.figures.o - z.g
      let failed := (z.budget : Int) < |r| + a.figures.u + b.figures.u + 2
      let z' : Zone := { z with
        residual := some r
        lead := if r < 0 then some .aLeads else if 0 < r then some .bLeads else z.lead
        flips := if r < 0 ∧ z.lead = some .bLeads ∨ 0 < r ∧ z.lead = some .aLeads
          then min 255 (z.flips + 1) else z.flips
        fails := if failed then min 65535 (z.fails + 1) else z.fails
        failFlag := z.failFlag || decide failed }
      let q : ZonePass := { p with zones := p.zones.set n (some z') }
      let without (k : SiteNo) : ZonePass := { q with
        included := q.included.filter fun x => x.site != k
        removed := q.removed ++ [k] }
      (¬ failed → p.visit s n = q) ∧
      (failed → z.policy = .warn → p.visit s n = { q with warnings := p.warnings + 1 }) ∧
      (failed → z.policy = .hold → p.visit s n = { q with stopped := true }) ∧
      (failed → z.policy = .dropWorse →
        (s.forcedIn a.site = false → s.forcedIn b.site = false →
          p.visit s n = without (if b.figures.u < a.figures.u then a.site else b.site)) ∧
        (s.forcedIn a.site = true → s.forcedIn b.site = false → p.visit s n = without b.site) ∧
        (s.forcedIn a.site = false → s.forcedIn b.site = true → p.visit s n = without a.site) ∧
        (s.forcedIn a.site = true → s.forcedIn b.site = true →
          p.visit s n = { q with warnings := p.warnings + 1 })))) ∧
  (∀ (s : State) (included : List Candidate),
    s.zonePass included =
      (List.finRange 192).foldl (ZonePass.visit s) ⟨included, [], 0, s.zones, false⟩) ∧
  (∀ (s : State) (included : List Candidate),
    (∀ z r, s.zone z = some r → r.siteA ≠ r.siteB) →
    (included.length < 2 → s.zonePass included = ⟨included, [], 0, s.zones, false⟩) ∧
    (included ≠ [] → (s.zonePass included).stopped = true ∨ (s.zonePass included).included ≠ []) ∧
    (∀ x, x ∈ (s.zonePass included).included ↔
      x ∈ included ∧ x.site ∉ (s.zonePass included).removed))

/-! ### Channels and batches (05) and their contexts (06): the commands -/

/-- SET CHANNEL checks in its order, writes the settings named with its grid rules, and sets the compute
point of a waiting candidate afresh when the guard or the compute lead changes, planning a candidate
that is then due (R84, R85). That a kept grid origin which no longer fits answers DONE_ADJUSTED is
DEDUCED (notes/assumptions 15). -/
def Obligations.SetChannelClampsAndWrites : Prop :=
  ∀ (s : State) (label : Byte) (f : ChannelFields), s.takes = true →
    let put (lo hi : Nat) (given : Option Nat) (kept : Nat) : Nat :=
      match given with
      | some v => max lo (min hi v)
      | none => kept
    let fits (lo hi : Nat) (given : Option Nat) : Prop := ∀ v, given = some v → lo ≤ v ∧ v ≤ hi
    (∀ c, 4 ≤ c → exec (.setChannel label c f) s =
      .next (s.answered 11 label s.now .invalid .empty)) ∧
    (∀ c : ChannelNo, (∃ v, f.notice = some v ∧ 2 ≤ v) → exec (.setChannel label c.val f) s =
      .next (s.answered 11 label s.now .invalid .empty)) ∧
    (∀ c : ChannelNo, (∀ v, f.notice = some v → v < 2) →
      ((∃ b ∈ (s.channel c).queue, b.state = .planned ∨ b.state = .armed ∨ b.state = .cancelling ∨
          b.state = .onAir) →
        exec (.setChannel label c.val f) s =
          .next (s.answered 11 label s.now .conflict .empty)) ∧
      ((∀ b ∈ (s.channel c).queue, b.state ≠ .planned ∧ b.state ≠ .armed ∧ b.state ≠ .cancelling ∧
          b.state ≠ .onAir) →
        let g := (s.channel c).settings
        let period := match f.gridPeriod with
          | some 0 => 0
          | some v => max 100000 (min 4294967296 v)
          | none => g.gridPeriod
        let origin := f.gridOrigin.getD g.gridOrigin
        let g' : ChannelSettings :=
          { period0 := put 1000 100000 f.period0 g.period0
            period1 := put 1000 100000 f.period1 g.period1
            guardTime := put 0 10000000 f.guardTime g.guardTime
            computeLead := put 100 10000 f.computeLead g.computeLead
            dispatch := put 0 1000000 f.dispatch g.dispatch
            slipLimit := put 0 5000 f.slipLimit g.slipLimit
            gridPeriod := period
            gridOrigin := if origin < period then origin else period - 1
            notice := match f.notice with
              | some 0 => .each
              | some 1 => .chainEnd
              | _ => g.notice }
        let fit := fits 1000 100000 f.period0 ∧ fits 1000 100000 f.period1 ∧
          fits 0 10000000 f.guardTime ∧ fits 100 10000 f.computeLead ∧
          fits 0 1000000 f.dispatch ∧ fits 0 5000 f.slipLimit ∧
          (∀ v, f.gridPeriod = some v → v = 0 ∨ 100000 ≤ v ∧ v ≤ 4294967296) ∧
          g'.gridOrigin = origin
        let write (timer : Option HubTime) : State := { s with
          channels := s.channels.set c { s.channel c with settings := g', timer := timer } }
        ∃ r : Result, (fit → r = .done) ∧ (¬ fit → r = .doneAdjusted) ∧
          (g'.guardTime = g.guardTime ∧ g'.computeLead = g.computeLead ∨
              (∀ b ∈ (s.channel c).queue, b.state ≠ .queued) →
            exec (.setChannel label c.val f) s =
              .next ((write (s.channel c).timer).answered 11 label s.now r .empty)) ∧
          (∀ ahead b point, g'.guardTime ≠ g.guardTime ∨ g'.computeLead ≠ g.computeLead →
            (s.channel c).candidate = some (ahead, b) →
            ((∃ a, b.mode = .absolute a ∧ point = a - BitVec.ofNat 40 (g'.computeLead * 10000)) ∨
              (∃ x, b.mode = .follow ∧ b.predEnd = some x ∧
                point = x + BitVec.ofNat 40 g'.guardTime -
                  BitVec.ofNat 40 (g'.computeLead * 10000))) →
            (later point s.now = true → exec (.setChannel label c.val f) s =
              .next ((write (some point)).answered 11 label s.now r .empty)) ∧
            (later point s.now = false → exec (.setChannel label c.val f) s =
              .next (((write (s.channel c).timer).planCandidate c).answered
                11 label s.now r .empty)))))

/-- SUBMIT checks in its order (R88), builds the record with its duration and predecessor end (R86, R89,
R90) at the tail, and makes it the candidate when no older record is QUEUED: its compute point is
set, or it is planned as the command is taken (R91, R92). -/
def Obligations.SubmitBuildsARecordAtTheTail : Prop :=
  ∀ (s : State) (label : Byte) (q : Submission), s.takes = true →
    (4 ≤ q.channel ∨ 3 ≤ q.mode ∨ q.mode = 0 ∧ q.air = none →
      exec (.submit label q) s = .next (s.answered 12 label s.now .invalid .empty)) ∧
    (∀ (c : ChannelNo) (mode : TimingMode), q.channel = c.val →
      ((∃ a, q.mode = 0 ∧ q.air = some a ∧ mode = .absolute a) ∨ (q.mode = 1 ∧ mode = .follow) ∨
        (q.mode = 2 ∧ mode = .earliest)) →
      ∀ b : Batch, b = s.submitted c q mode →
      ∀ g : ChannelSettings, g = (s.channel c).settings →
      ∀ queue : List Batch, queue = (s.channel c).queue →
      let bad : Prop := q.spans = [] ∨ 7 < q.spans.length ∨ (∀ p ∈ q.spans, p.symbols = 0) ∨
        4294967296 < b.duration ∨ q.sites = some [] ∨
        ∃ l k, q.sites = some l ∧ k ∈ l ∧ ∀ n : SiteNo, n.val = k → s.isMember n c = false
      let inUse : Prop := ∃ d x, x ∈ (s.channel d).queue ∧ x.tag = q.tag
      (bad → exec (.submit label q) s = .next (s.answered 12 label s.now .invalid .empty)) ∧
      (¬ bad → 8 ≤ queue.length →
        exec (.submit label q) s = .next (s.answered 12 label s.now .full .empty)) ∧
      (¬ bad → queue.length < 8 → inUse →
        exec (.submit label q) s = .next (s.answered 12 label s.now .inUse .empty)) ∧
      (¬ bad → queue.length < 8 → ¬ inUse →
        let acts : Prop := mode = .follow ∧ (b.predEnd = none ∨
          ∃ x, queue.getLast? = some x ∧ x.state = .abandoned ∧ x.air = none)
        let point (x : HubTime) : Prop :=
          (∃ a, mode = .absolute a ∧ x = a - BitVec.ofNat 40 (g.computeLead * 10000)) ∨
          (mode = .follow ∧ ¬ acts ∧ ∃ y, b.predEnd = some y ∧
            x = y + BitVec.ofNat 40 g.guardTime - BitVec.ofNat 40 (g.computeLead * 10000))
        let planned (early : Bool) : State :=
          ((s.joined c b (s.channel c).timer).planBatch c b early).arbitrate.setTimer c none
        ((∃ x ∈ queue, x.state = .queued) → exec (.submit label q) s =
          .next ((s.joined c b (s.channel c).timer).answered 12 label s.now .done .empty)) ∧
        (∀ x, (∀ y ∈ queue, y.state ≠ .queued) → point x → later x s.now = true →
          exec (.submit label q) s =
            .next ((s.joined c b (some x)).answered 12 label s.now .done .empty)) ∧
        (∀ x, (∀ y ∈ queue, y.state ≠ .queued) → point x → later x s.now = false →
          exec (.submit label q) s =
            .next ((planned false).answered 12 label s.now .done .empty)) ∧
        ((∀ y ∈ queue, y.state ≠ .queued) → mode = .earliest → exec (.submit label q) s =
          .next ((planned false).answered 12 label s.now .done .empty)) ∧
        ((∀ y ∈ queue, y.state ≠ .queued) → acts → exec (.submit label q) s =
          .next ((planned true).answered 12 label s.now .done .empty))))

/-- CANCEL acts by the state of the record (R100): NO_SUCH, PENDING, TOO_LATE and STATE change nothing;
a QUEUED record is removed and its successor takes its predecessor end; a PLANNED or ARMED one is
cancelled through its entries, is removed when none is outstanding, and becomes CANCELLING otherwise
with its abort frames on the list in site order or, when all aborts are missed, with the
cancel-partial mark (R101, R102, R137). The line is taken to be BUSY where a batch is cancelled. -/
def Obligations.CancelActsByTheState : Prop :=
  ∀ (s : State) (label : Byte) (tag : Nat), s.takes = true →
    (s.findBatch tag = none →
      exec (.cancel label tag) s = .next (s.answered 13 label s.now .noSuch .empty)) ∧
    (∀ c b, s.findBatch tag = some (c, b) →
      (b.state = .cancelling →
        exec (.cancel label tag) s = .next (s.answered 13 label s.now .pending .empty)) ∧
      (b.state = .onAir →
        exec (.cancel label tag) s = .next (s.answered 13 label s.now .tooLate .empty)) ∧
      (b.state = .done ∨ b.state = .abandoned ∨ b.state = .cancelled →
        exec (.cancel label tag) s = .next (s.answered 13 label s.now .state .empty)) ∧
      (∀ front rest, b.state = .queued → (s.channel c).queue = front ++ b :: rest →
        (∀ x ∈ front, x.tag ≠ tag) →
        let u : State := { s with channels := s.channels.set c { s.channel c with
          queue := front ++ (match rest with
            | [] => []
            | n :: more => { n with predEnd := b.predEnd } :: more) } }
        ((∃ x ∈ front, x.state = .queued) →
          exec (.cancel label tag) s = .next (u.answered 13 label s.now .done .empty)) ∧
        ((∀ x ∈ front, x.state ≠ .queued) → exec (.cancel label tag) s =
          .next ((u.newCandidate c).answered 13 label s.now .done .empty))) ∧
      (b.state = .planned ∨ b.state = .armed → s.lineBusy →
        let entry (e : Included) : Included :=
          let limit := e.departure.getD 0 + BitVec.ofNat 40 ((e.hold.map Hold.ticks).getD 0) -
            BitVec.ofNat 40 e.armMargin
          match e.order with
          | .waiting => { e with order := .aborted }
          | .sent | .receipted | .unconfirmed =>
            if later limit s.now then { e with order := .aborting, abortDeadline := some limit }
            else { e with order := .abortMissed, abortDeadline := some limit }
          | _ => e
        let plan := b.plan.map fun p => match p.disp with
          | .included e => { p with disp := .included (entry e) }
          | .excluded _ => p
        let has (o : OrderState) : Prop := ∃ p e, p ∈ plan ∧ p.disp = .included e ∧ e.order = o
        (¬ has .aborting → ¬ has .abortMissed →
          (∀ n ∈ b.includedSites, s.isRetiring n = false) →
          exec (.cancel label tag) s = .next (({ s with
            channels := s.channels.set c { s.channel c with
              queue := (s.channel c).queue.filter fun x => x.tag != tag } } : State).answered
            13 label s.now .done .empty)) ∧
        (¬ has .aborting → has .abortMissed →
          exec (.cancel label tag) s = .next ((s.replaceBatch c tag { b with
            plan := plan, state := .cancelling, flushed := false, partialMark := true }).answered
            13 label s.now .done .empty)) ∧
        (has .aborting →
          exec (.cancel label tag) s = .next (({ s.replaceBatch c tag { b with
              plan := plan, state := .cancelling, flushed := false } with
            highway := { s.highway with aborts := s.highway.aborts ++ plan.filterMap fun p =>
              match p.disp with
              | .included e => if e.order = .aborting then some ⟨c, tag, p.site⟩ else none
              | .excluded _ => none } } : State).answered 13 label s.now .pending .empty))))

/-- FLUSH CHANNEL cancels every record that is QUEUED, PLANNED or ARMED as CANCEL would (R100 to R103): a
QUEUED one is removed; a PLANNED or ARMED one is cancelled through its entries, stays CANCELLING and
flushed, with its abort frames on the list, while an abort is outstanding, or with the cancel-partial
mark when aborts were only missed, and is removed otherwise. Every other record stays as it is and
where it is; a predecessor end moves only behind a QUEUED record that was removed ahead of a record
that stays. The compute timer stops, the pin flag and the context go, the chain summary stays, and the
answer has its three counts. That nothing is planned between the cancels is DEDUCED
(notes/assumptions 25). The tags are unique, as every step keeps them; the line is taken to be BUSY. -/
def Obligations.FlushChannelCancelsAndCounts : Prop :=
  ∀ (s : State) (label : Byte), s.takes = true →
    (∀ c, 4 ≤ c → exec (.flushChannel label c) s =
      .next (s.answered 14 label s.now .invalid .empty)) ∧
    (∀ c : ChannelNo, s.QueuesLawful → s.lineBusy →
      let entry (e : Included) : Included :=
        let limit := e.departure.getD 0 + BitVec.ofNat 40 ((e.hold.map Hold.ticks).getD 0) -
          BitVec.ofNat 40 e.armMargin
        match e.order with
        | .waiting => { e with order := .aborted }
        | .sent | .receipted | .unconfirmed =>
          if later limit s.now then { e with order := .aborting, abortDeadline := some limit }
          else { e with order := .abortMissed, abortDeadline := some limit }
        | _ => e
      let plan (b : Batch) : List PlanEntry := b.plan.map fun p => match p.disp with
        | .included e => { p with disp := .included (entry e) }
        | .excluded _ => p
      let frames (b : Batch) : List AbortRef := (plan b).filterMap fun p => match p.disp with
        | .included e => if e.order = .aborting then some ⟨c, b.tag, p.site⟩ else none
        | .excluded _ => none
      let missed (b : Batch) : Bool := (plan b).any fun p => match p.disp with
        | .included e => e.order == .abortMissed
        | .excluded _ => false
      let planned (b : Batch) : Bool := b.state == .planned || b.state == .armed
      let cancelled (b : Batch) : List Batch :=
        let b' := { b with plan := plan b, state := .cancelling, flushed := true }
        if frames b ≠ [] then [b'] else if missed b then [{ b' with partialMark := true }] else []
      let stays (b : Batch) : List Batch :=
        if b.state = .queued then [] else if planned b then cancelled b else [b]
      let queue := (s.channel c).queue
      let same (b : Batch) : Batch := { b with predEnd := none }
      ∃ (t : State) (removed left : Nat),
      exec (.flushChannel label c.val) s = .next t ∧
      (t.channel c).queue.map same = (queue.flatMap stays).map same ∧
      ((∀ front x rest, queue = front ++ x :: rest → x.state = .queued →
          ∀ y ∈ rest, y.state = .queued) → (t.channel c).queue = queue.flatMap stays) ∧
      t.highway = { s.highway with
        aborts := s.highway.aborts ++ (queue.filter planned).flatMap frames } ∧
      removed = (queue.filter fun b => (stays b).isEmpty).length ∧
      left = (queue.filter fun b => planned b && !(stays b).isEmpty).length ∧
      ((∀ b ∈ queue, ∀ n ∈ b.includedSites, s.isRetiring n = false) →
        t.sites = s.sites ∧ t.zones = s.zones ∧ ∀ d, d ≠ c → t.channel d = s.channel d) ∧
      t.port.forming = some ⟨⟨14, label, s.now, if left = 0 then .done else .pending,
        .flush removed left
          ((s.channel c).queue.filter fun b => b.state == .onAir).length⟩, 0, s.free⟩ ∧
      removed + left = ((s.channel c).queue.filter fun b =>
        b.state == .queued || b.state == .planned || b.state == .armed).length ∧
      (t.channel c).queue.length + removed = (s.channel c).queue.length ∧
      (t.channel c).timer = none ∧ (t.channel c).context = none ∧ (t.channel c).pinned = false ∧
      (t.channel c).settings = (s.channel c).settings ∧
      (t.channel c).summary = (s.channel c).summary ∧
      (∀ b ∈ (t.channel c).queue, b.state ≠ .queued ∧ b.state ≠ .planned ∧ b.state ≠ .armed ∧
        ∃ x ∈ (s.channel c).queue, x.tag = b.tag ∧
          (x.state = .planned ∨ x.state = .armed → b.state = .cancelling ∧ b.flushed = true) ∧
          (x.state ≠ .planned → x.state ≠ .armed → b = { x with predEnd := b.predEnd })) ∧
      (∀ d, d ≠ c → (t.channel d).queue = (s.channel d).queue ∧
        (t.channel d).timer = (s.channel d).timer ∧ (t.channel d).pinned = (s.channel d).pinned ∧
        (t.channel d).summary = (s.channel d).summary ∧
        (t.channel d).settings = (s.channel d).settings) ∧
      t.time = s.time ∧ t.meas = s.meas)

/-- QUERY BATCH returns the record as it stands and changes nothing (R104); COLLECT, by tag or the oldest
held one of a channel, returns a held record with its outcome and removes it (R105, R87). -/
def Obligations.QueryBatchAndCollectReportRecords : Prop :=
  ∀ (s : State) (label : Byte), s.takes = true →
    let held (b : Batch) : Prop := b.state = .done ∨ b.state = .abandoned ∨ b.state = .cancelled
    let outcome (b : Batch) (o : BatchOutcome) : Prop :=
      (b.state = .done → b.partialMark = false → o = .done) ∧
      (b.state = .done → b.partialMark = true → o = .cancelPartial) ∧
      (b.state = .abandoned → o = .abandoned) ∧ (b.state = .cancelled → o = .cancelled)
    let without (c : ChannelNo) (tag : Nat) : State := { s with
      channels := s.channels.set c { s.channel c with
        queue := (s.channel c).queue.filter fun x => x.tag != tag } }
    (∀ tag, s.findBatch tag = none →
      exec (.queryBatch label tag) s = .next (s.answered 15 label s.now .noSuch .empty) ∧
      exec (.collect label (.byTag tag)) s = .next (s.answered 16 label s.now .noSuch .empty)) ∧
    (∀ tag c b, s.findBatch tag = some (c, b) →
      exec (.queryBatch label tag) s = .next (s.answered 15 label s.now .done (.batch c b)) ∧
      (¬ held b → exec (.collect label (.byTag tag)) s =
        .next (s.answered 16 label s.now .state .empty)) ∧
      (held b → ∃ o, outcome b o ∧ exec (.collect label (.byTag tag)) s =
        .next ((without c tag).answered 16 label s.now .done (.collected c b o)))) ∧
    (∀ c, 4 ≤ c → exec (.collect label (.byChannel c)) s =
      .next (s.answered 16 label s.now .invalid .empty)) ∧
    (∀ c : ChannelNo,
      ((∀ b ∈ (s.channel c).queue, ¬ held b) → exec (.collect label (.byChannel c.val)) s =
        .next (s.answered 16 label s.now .noSuch .empty)) ∧
      (∀ front b rest, (s.channel c).queue = front ++ b :: rest → (∀ x ∈ front, ¬ held x) →
        held b → ∃ o, outcome b o ∧ exec (.collect label (.byChannel c.val)) s =
          .next ((without c b.tag).answered 16 label s.now .done (.collected c b o))))

/-- PIN sets the pin flag on the context a channel has, or captures one first: an entry with the current
figures for each member site and none for any other (06, R107, R109). UNPIN clears the flag and
discards the context (R110). -/
def Obligations.PinAndUnpinKeepTheContext : Prop :=
  ∀ (s : State) (label : Byte), s.takes = true →
    let size (x : Context) : Nat := (x.entries.toList.filter Option.isSome).length
    let write (c : ChannelNo) (x : Option Context) (pinned : Bool) : State := { s with
      channels := s.channels.set c { s.channel c with context := x, pinned := pinned } }
    (∀ c, 4 ≤ c →
      exec (.pin label c) s = .next (s.answered 17 label s.now .invalid .empty) ∧
      exec (.unpin label c) s = .next (s.answered 18 label s.now .invalid .empty)) ∧
    (∀ (c : ChannelNo) x, (s.channel c).context = some x → exec (.pin label c.val) s =
      .next ((write c (some x) true).answered 17 label s.now .done (.pin true x.time (size x)))) ∧
    (∀ c : ChannelNo, (s.channel c).context = none → ∃ x : Context, x.time = s.now ∧
      (∀ n, s.enrolled n = none → x.entries[n] = none) ∧
      (∀ n e, s.enrolled n = some e → x.entries[n] =
        if e.carriers[c].isSome
        then some ⟨e.est.d, e.est.u, e.config.e, e.config.o, e.config.m, e.config.w⟩ else none) ∧
      exec (.pin label c.val) s =
        .next ((write c (some x) true).answered 17 label s.now .done
          (.pin true x.time (size x)))) ∧
    (∀ c : ChannelNo, exec (.unpin label c.val) s =
      .next ((write c none false).answered 18 label s.now .done
        (.unpin (s.channel c).pinned ((s.channel c).context.map fun x => (x.time, size x)))))

/-! ### Timed events of channels, batches and plan entries (05, 07) -/

/-- A timed-event row acts only when its time has been reached and it still applies: one that is not due
changes nothing (R3; notes/assumptions 2). So does a release before its time, or reached by an entry that
has left WAITING or of a batch that is not active (R133), and a slew adjustment in a period that is not one
of its own (R13). -/
def Obligations.TimedRowsActOnlyWhenDue : Prop :=
  (∀ (i : Instr) (s : State), i ∉ s.dueRows →
    (i = .edgeAccepted ∨ i = .missDeadline ∨ i = .holdoverElapsed ∨ i = .lineFree ∨
      (∃ n, i = .cadenceExpiry n ∨ i = .deafenEnd n) ∨ (∃ k, i = .probeTimeout k) ∨
      (∃ c, i = .computePoint c) ∨ (∃ tag, i = .airTime tag ∨ i = .batchEnd tag) ∨
      (∃ tag n, i = .withdrawal tag n ∨ i = .receiptDeadline tag n ∨ i = .abortDeadline tag n)) →
    exec i s = .next s) ∧
  (∀ (s : State) (tag : Nat) (n : SiteNo),
    (∀ c b e, s.findBatch tag = some (c, b) → b.active = true → b.entryOf n = some e →
      e.order ≠ .waiting ∨ reached s.now e.release = false) →
    exec (.release tag n) s = .next s) ∧
  (∀ s : State, s.time.slewDue = false → exec .slewAdjustment s = .next s)

/-- The air time of an active batch (R94): from PLANNED or ARMED it goes ON_AIR with its entries as they
stand; from CANCELLING its remaining aborts are missed, their frames leave the abort list and it
carries the cancel-partial mark (R102). The line is taken to be BUSY. -/
def Obligations.AirTimePutsTheBatchOnAir : Prop :=
  ∀ (s : State) (tag : Nat) (c : ChannelNo) (b : Batch) (a : HubTime), s.port.resetLow = false →
    s.lineBusy → s.findBatch tag = some (c, b) → b.air = some a → reached s.now a = true →
    (b.state = .planned ∨ b.state = .armed →
      exec (.airTime tag) s = .next (s.replaceBatch c tag { b with state := .onAir })) ∧
    (b.state = .cancelling →
      let plan := b.plan.map fun p => match p.disp with
        | .included e =>
          let missed := if e.order = .aborting then { e with order := .abortMissed } else e
          { p with disp := .included missed }
        | .excluded _ => p
      exec (.airTime tag) s = .next
        { s.replaceBatch c tag { b with plan := plan, state := .onAir, partialMark := true } with
          highway := { s.highway with aborts := s.highway.aborts.filter fun r =>
            !(r.channel == c && r.tag == tag) } })

/-- The end of an ON_AIR batch (R95, R97, R98, R99): WAITING and SENT entries are settled, each site that
is deemed to have keyed takes the end as its confirmed end unless it holds one that is no earlier
(R26), the record becomes DONE with its entry counts, is added to the chain summary, and is held with
the summary or reaped. A RETIRING site whose last reference this was becomes VACANT (R40). The line
is taken to be BUSY. -/
def Obligations.BatchEndSettlesAndConfirms : Prop :=
  ∀ (s : State) (tag : Nat) (c : ChannelNo) (b : Batch) (a : HubTime) (front rest : List Batch),
    s.port.resetLow = false → s.lineBusy → s.findBatch tag = some (c, b) → b.state = .onAir →
    b.air = some a →
    let finish := a + BitVec.ofNat 40 b.duration
    reached s.now finish = true → (s.channel c).queue = front ++ b :: rest →
    (∀ x ∈ front ++ rest, x.tag ≠ tag) →
    let settle (o : OrderState) : OrderState := match o with
      | .waiting => .withdrawn
      | .sent => .unconfirmed
      | _ => o
    let plan := b.plan.map fun p => match p.disp with
      | .included e => { p with disp := .included { e with order := settle e.order } }
      | .excluded _ => p
    let entries : List Included := plan.filterMap fun p => match p.disp with
      | .included e => some e
      | .excluded _ => none
    let number (f : Included → Bool) : Nat := (entries.filter f).length
    let counts : EntryCounts :=
      { included := entries.length, excluded := plan.length - entries.length
        receipted := number fun e => e.order == .receipted
        refusedCold := number fun e => e.order == .refused && e.verdict == some .cold
        refusedBusy := number fun e => e.order == .refused && e.verdict == some .busy
        unconfirmed := number fun e => e.order == .unconfirmed
        withdrawn := number fun e => e.order == .withdrawn
        aborted := number fun e => e.order == .aborted
        abortMissed := number fun e => e.order == .abortMissed }
    let g := (s.channel c).summary
    let total : ChainSummary :=
      { done := min 65535 (g.done + 1), abandoned := min 65535 g.abandoned
        cancelled := min 65535 g.cancelled
        receipted := min 65535 (g.receipted + counts.receipted)
        refused := min 65535 (g.refused + (counts.refusedCold + counts.refusedBusy))
        unconfirmed := min 65535 (g.unconfirmed + counts.unconfirmed)
        withdrawn := min 65535 (g.withdrawn + counts.withdrawn)
        aborted := min 65535 (g.aborted + counts.aborted)
        abortMissed := min 65535 (g.abortMissed + counts.abortMissed)
        excluded := min 65535 (g.excluded + counts.excluded) }
    let keyed (n : SiteNo) : Prop := ∃ p e, p ∈ plan ∧ p.site = n ∧ p.disp = .included e ∧
      (e.order = .receipted ∨ e.order = .unconfirmed ∨ e.order = .abortMissed)
    let holds : Prop := b.notice = true ∨ (s.channel c).settings.notice = .each ∨
      b.partialMark = true ∨ (∀ x, rest.head? = some x → x.mode ≠ .follow)
    ∃ t : State, exec (.batchEnd tag) s = .next t ∧
      t.time = s.time ∧ t.meas = s.meas ∧ t.highway = s.highway ∧ t.port = s.port ∧
      (holds → (t.channel c).queue = front ++ { b with
          plan := plan, state := .done, counts := some counts, summary := some total } :: rest ∧
        (t.channel c).summary = ⟨0, 0, 0, 0, 0, 0, 0, 0, 0, 0⟩) ∧
      (¬ holds → (t.channel c).queue = front ++ rest ∧ (t.channel c).summary = total) ∧
      (∀ d, d ≠ c → (t.channel d).queue = (s.channel d).queue ∧
        (t.channel d).summary = (s.channel d).summary) ∧
      (∀ n e, s.enrolled n = some e → s.isRetiring n = false → ∃ carriers,
        t.site n = { s.site n with body := some { e with carriers := carriers } } ∧
        (∀ d : ChannelNo, d ≠ c → carriers[d] = e.carriers[d]) ∧
        (keyed n → ∀ x, e.carriers[c] = some x → carriers[c] =
          if (∃ old, x.confirmedEnd = some old ∧ later finish old = false)
          then some x else some ⟨some finish⟩) ∧
        (¬ keyed n ∨ e.carriers[c] = none → carriers[c] = e.carriers[c])) ∧
      (∀ n ∈ b.includedSites, s.isRetiring n = true →
        (∀ d x, x ∈ (s.channel d).queue → x.active = true → n ∈ x.includedSites →
          d = c ∧ x.tag = tag) →
        (∀ i p, s.slot i = some p → p.site = n → p.flight = none) →
        t.enrolled n = none ∧ (t.site n).change = true)

/-- The timed events of the entries of an active batch: a release opens a WAITING entry to the arbiter
(R133); a deadline withdraws it, and the batch is abandoned and held with its counts and the chain
summary when no entry of it is live, or becomes ARMED when none is WAITING (R135, R136, R93, R97 to
R99); a receipt deadline makes a SENT entry UNCONFIRMED
(R146); an abort deadline makes an ABORTING entry ABORT_MISSED, drops its frame, and completes the
cancel (R138, R102). RETIRE withdraws every WAITING order of its site (R38). The line is taken to be
BUSY. -/
def Obligations.EntryDeadlinesMoveTheirEntries : Prop :=
  (∀ (s : State) (tag : Nat) (n : SiteNo) (c : ChannelNo) (b : Batch) (e : Included),
    s.port.resetLow = false → s.lineBusy → s.findBatch tag = some (c, b) → b.active = true →
    b.entryOf n = some e →
    (e.order = .waiting → reached s.now e.release = true → exec (.release tag n) s =
      .next (s.replaceBatch c tag (b.modifyEntry n fun e => { e with released := true }))) ∧
    (e.order = .waiting → reached s.now e.deadline = true →
      let w := b.modifyEntry n fun e =>
        if e.order = .waiting then { e with order := .withdrawn } else e
      let dead : Prop := ∀ p x, p ∈ w.plan → p.disp = .included x →
        x.order = .withdrawn ∨ x.order = .aborted
      let open' : Prop := ∃ p x, p ∈ w.plan ∧ p.disp = .included x ∧ x.order = .waiting
      (b.state = .onAir ∨ b.state = .cancelling →
        exec (.withdrawal tag n) s = .next (s.replaceBatch c tag w)) ∧
      (b.state = .planned → ¬ dead → open' →
        exec (.withdrawal tag n) s = .next (s.replaceBatch c tag w)) ∧
      (b.state = .planned → ¬ dead → ¬ open' →
        exec (.withdrawal tag n) s = .next (s.replaceBatch c tag { w with state := .armed })) ∧
      (b.state = .planned → dead → (∀ k ∈ b.includedSites, s.isRetiring k = false) →
        exec (.withdrawal tag n) s = .next { s with
          channels := s.channels.set c { s.channel c with
            queue := (s.channel c).queue.map fun x => if x.tag == tag then
              { w with
                state := .abandoned, reason := some .noSites, counts := some w.tally
                summary := some ((s.channel c).summary.withRecord .abandoned w.tally) } else x
            summary := ⟨0, 0, 0, 0, 0, 0, 0, 0, 0, 0⟩ } })) ∧
    (∀ x, e.order = .sent → e.receiptDeadline = some x → reached s.now x = true →
      exec (.receiptDeadline tag n) s =
        .next (s.replaceBatch c tag (b.modifyEntry n fun e => { e with order := .unconfirmed }))) ∧
    (∀ x, e.order = .aborting → e.abortDeadline = some x → reached s.now x = true →
      b.state = .cancelling →
      let w := b.modifyEntry n fun e =>
        if e.order = .aborting then { e with order := .abortMissed } else e
      let rest : State := { s with highway := { s.highway with
        aborts := s.highway.aborts.filter fun r =>
          !(r.channel == c && r.tag == tag && r.site == n) } }
      let more : Prop := ∃ p y, p ∈ w.plan ∧ p.disp = .included y ∧ y.order = .aborting
      (more → exec (.abortDeadline tag n) s = .next (rest.replaceBatch c tag w)) ∧
      (¬ more → exec (.abortDeadline tag n) s =
        .next (rest.replaceBatch c tag { w with partialMark := true })))) ∧
  (∀ (s t : State) (label : Byte) (n : SiteNo) (e : Enrolled), s.takes = true → s.lineBusy →
    s.QueuesLawful → s.enrolled n = some e → e.phase ≠ .retiring →
    exec (.retire label n.val) s = .next t →
    ∀ c b x, b ∈ (t.channel c).queue → b.active = true → b.entryOf n = some x →
      x.order ≠ .waiting)

/-- A compute point plans the channel's candidate, and the record behind it becomes the candidate (R91);
and what one planning does to the part, given what its stages answer (R90, R93, R107, R108, R116,
R127 to R129): the context it read stands, the zone records and the clamp tallies of the RANGE
exclusions are written, the record becomes PLANNED, or ON_AIR when its air time is not later than now
(R94), or ABANDONED and held with its counts and the chain summary (R97 to R99), and the successor takes
its predecessor end. That the line is offered after each planning, and that a record without a
predecessor end at its planning acts as EARLIEST, is DEDUCED (notes/assumptions 17 and 23). -/
def Obligations.PlanningWritesTheRecordAndItsSuccessor : Prop :=
  (∀ (s : State) (c : ChannelNo) (x : HubTime), s.port.resetLow = false →
    (s.channel c).timer = some x → reached s.now x = true →
    ((∀ b ∈ (s.channel c).queue, b.state ≠ .queued) → exec (.computePoint c) s = .next { s with
      channels := s.channels.set c { s.channel c with timer := none } }) ∧
    (∀ ahead b, (s.channel c).candidate = some (ahead, b) → exec (.computePoint c) s =
      .next ((s.planBatch c b false).arbitrate.newCandidate c))) ∧
  (∀ (s : State) (c : ChannelNo) (b : Batch) (acts : Bool) (front rest : List Batch),
    (s.channel c).queue = front ++ b :: rest → (∀ x ∈ front ++ rest, x.tag ≠ b.tag) →
    b.state = .queued → (∀ l, b.sites = some l → l.Nodup) →
    let early := b.mode = .follow ∧ (acts = true ∨ b.predEnd = none)
    let mode := if early then .earliest else b.mode
    let t := s.planBatch c b acts
    ∃ ctx : Context,
      (∀ x, (s.channel c).context = some x → (s.channel c).pinned = true ∨ mode = .follow →
        ctx = x) ∧
      ((s.channel c).context = none ∨ (s.channel c).pinned = false ∧ mode ≠ .follow →
        ctx = s.capture c) ∧
      (t.channel c).context = some ctx ∧ (t.channel c).timer = none ∧
      (t.channel c).settings = (s.channel c).settings ∧
      (t.channel c).pinned = (s.channel c).pinned ∧
      t.time = s.time ∧ t.meas = s.meas ∧ t.highway = s.highway ∧ t.port = s.port ∧
      (∀ d, d ≠ c → t.channel d = s.channel d) ∧
      let r := s.runPlanning c b mode ctx
      let passed (x : Option HubTime) : List Batch := match rest with
        | [] => []
        | n :: more => { n with predEnd := x } :: more
      t.zones = r.zones ∧
      (∀ n e, s.enrolled n = some e → t.site n =
        if ⟨n, .excluded .range⟩ ∈ r.plan then { s.site n with
          body := some { e with clampTally := min 127 (e.clampTally + 1), clampFlag := true } }
        else s.site n) ∧
      (∀ air slip, r.air = some (air, slip) →
        (t.channel c).queue = front ++ { b with
          state := if later air s.now then .planned else .onAir
          air := some air, slip := slip, warnings := r.warnings, plan := r.plan
          unverified := decide (s.time.mode ≠ .locked) } ::
            passed (some (air + BitVec.ofNat 40 b.duration)) ∧
        (t.channel c).summary = (s.channel c).summary) ∧
      (r.air = none →
        let counts := ({ b with plan := r.plan } : Batch).tally
        (t.channel c).queue = front ++ { b with
          state := .abandoned, reason := r.reason, warnings := r.warnings, plan := r.plan
          unverified := decide (s.time.mode ≠ .locked), counts := some counts
          summary := some ((s.channel c).summary.withRecord .abandoned counts) } ::
            passed b.predEnd ∧
        (t.channel c).summary = ⟨0, 0, 0, 0, 0, 0, 0, 0, 0, 0⟩))

/-! ### Launch planning (06) -/

/-- No planning ever includes a site it must not: an INCLUDED entry is that of a candidate whose live
record is a member of the channel, neither RETIRING nor FORCE_OUT, TRACKING unless FORCE_IN, with a
D in the context; and each candidate that fails a test carries the reason of the first test it fails
(R113, R114, R127, R128). -/
def Obligations.PlansIncludeOnlyEligibleSites : Prop :=
  ∀ (s : State) (c : ChannelNo) (b : Batch) (mode : TimingMode) (ctx : Context),
    let r := s.runPlanning c b mode ctx
    let candidate (n : SiteNo) : Prop := match b.sites with
      | some l => n ∈ l
      | none => s.isMember n c = true
    (∀ p e, p ∈ r.plan → p.disp = .included e → candidate p.site ∧
      ∃ x f, s.enrolled p.site = some x ∧ x.carriers[c].isSome ∧ x.phase ≠ .retiring ∧
        x.config.steer ≠ .forceOut ∧ (x.phase = .tracking ∨ x.config.steer = .forceIn) ∧
        ctx.entries[p.site] = some f ∧ f.d ≠ none) ∧
    (∀ n, candidate n → s.isMember n c = false → ⟨n, .excluded .notMember⟩ ∈ r.plan) ∧
    (∀ n x, candidate n → s.isMember n c = true → s.enrolled n = some x →
      (x.phase = .retiring → ⟨n, .excluded .retiring⟩ ∈ r.plan) ∧
      (x.phase ≠ .retiring → x.config.steer = .forceOut →
        ⟨n, .excluded .forcedOut⟩ ∈ r.plan) ∧
      (x.phase ≠ .retiring → x.config.steer ≠ .forceOut → ctx.entries[n] = none →
        ⟨n, .excluded .notInContext⟩ ∈ r.plan) ∧
      (∀ f, x.phase ≠ .retiring → x.config.steer ≠ .forceOut → ctx.entries[n] = some f →
        (f.d = none ∨ x.phase = .settling ∧ x.config.steer ≠ .forceIn →
          ⟨n, .excluded .unsettled⟩ ∈ r.plan) ∧
        (f.d ≠ none → x.phase = .stale → x.config.steer ≠ .forceIn →
          ⟨n, .excluded .stale⟩ ∈ r.plan)))

/-- Every INCLUDED entry carries the planning sums of its context figures at the air time of the plan:
the hold floor with the warm-up when its pre-key flag is set, never above the largest hold, the
target, the deadline, the release, the arm margin, and nothing yet of a departure (R116, R117, R118,
R127, R133). The pre-key flag is set exactly when the site was in standby at an air time the planning
proposed: for EARLIEST now plus the dispatch allowance or an air time of its passes, else the given air
time or one of a slip that succeeds, at most the slip limit behind it (R118, R122, R124, R125); it is set
when the site is in standby at the air time chosen; a site is in standby when it has no keying on the channel, or
when the air time is later than its latest keying by more than the idle hold: its confirmed end, or the
end of another active batch with an earlier air time and a live entry of it (R115). The latest is
stated where the keyings lie within half the hub time range. -/
def Obligations.PlannedEntriesCarryThePlanningSums : Prop :=
  (∀ (s : State) (c : ChannelNo) (tag : Nat) (air : HubTime) (n : SiteNo),
    (∀ x, x ∈ s.keyings c tag air n ↔
      (∃ q y, s.enrolled n = some q ∧ q.carriers[c] = some y ∧ y.confirmedEnd = some x) ∨
      (∃ b a y, b ∈ (s.channel c).queue ∧ b.tag ≠ tag ∧ b.active = true ∧ b.air = some a ∧
        earlier a air = true ∧ b.entryOf n = some y ∧
        (y.order = .waiting ∨ y.order = .sent ∨ y.order = .receipted ∨ y.order = .unconfirmed ∨
          y.order = .abortMissed) ∧ x = a + BitVec.ofNat 40 b.duration)) ∧
    (s.keyings c tag air n = [] → s.inStandby c tag air n = true) ∧
    (∀ base k q, k ∈ s.keyings c tag air n → (k - base).toNat < 2 ^ 39 →
      (∀ x ∈ s.keyings c tag air n, (x - base).toNat ≤ (k - base).toNat) →
      s.enrolled n = some q →
      s.inStandby c tag air n = later air (k + BitVec.ofNat 40 (q.config.idleHold * 1000000)))) ∧
  (∀ (s : State) (c : ChannelNo) (b : Batch) (mode : TimingMode) (ctx : Context) (air : HubTime)
    (slip : Nat), (s.runPlanning c b mode ctx).air = some (air, slip) →
    (∃ p e, p ∈ (s.runPlanning c b mode ctx).plan ∧ p.disp = .included e) ∧
    ∀ p e, p ∈ (s.runPlanning c b mode ctx).plan → p.disp = .included e →
      ∃ f d, ctx.entries[p.site] = some f ∧ f.d = some d ∧
        let hold := f.m * 16 + if e.preKey then f.w * 16 else 0
        hold ≤ 2 ^ 28 - 1 ∧
        e.target = BitVec.ofNat 44 (air.toNat * 16) + BitVec.ofInt 44 (f.o - f.e - d) ∧
        e.deadline = BitVec.ofNat 40 ((e.target - BitVec.ofNat 44 hold).toNat / 16) ∧
        e.release = BitVec.ofNat 40
          ((e.target - BitVec.ofNat 44 (2 ^ 28) + 1#44 + 15#44).toNat / 16) ∧
        e.released = !later e.release s.now ∧ e.armMargin = f.m ∧ e.order = .waiting ∧
        e.verdict = none ∧ e.departure = none ∧ e.hold = none ∧ e.receiptDeadline = none ∧
        e.abortDeadline = none ∧
        (s.inStandby c b.tag air p.site = true → e.preKey = true) ∧
        (let proposed := s.proposals c b mode (s.eligibility c ctx (s.candidates c b.sites));
          (e.preKey = true ↔ ∃ a ∈ proposed, s.inStandby c b.tag a p.site = true) ∧
          (mode ≠ .earliest → ∀ a ∈ proposed,
            (a - (air - BitVec.ofNat 40 slip)).toNat ≤ (s.channel c).settings.slipLimit * 10000)) ∧
        (mode ≠ .earliest → (s.channel c).settings.slipLimit = 0 →
          e.preKey = s.inStandby c b.tag air p.site))

/-- The grid ceiling of x is the first instant of the form origin plus a multiple of the period, counted
forward around the modulus, that is not earlier than x; with the grid off it is x (R121). -/
def Obligations.GridCeilingIsTheFirstGridInstant : Prop :=
  ∀ (period origin : Nat) (x : HubTime),
    gridCeiling 0 origin x = x ∧
    (0 < period → ∃ k : Nat,
      gridCeiling period origin x = BitVec.ofNat 40 (origin + k * period) ∧
      (x - BitVec.ofNat 40 origin).toNat ≤ k * period ∧
      ∀ j : Nat, (x - BitVec.ofNat 40 origin).toNat ≤ j * period → k ≤ j)

/-- The air time by mode, and what lateness and slip leave at it. Each proposed air time settles the
standby set and removes a site whose hold floor exceeds the largest hold (R116, R118). ABSOLUTE keeps
its air time unless that is earlier than the predecessor end plus the guard, which is OVERLAP (R119),
with no candidate too (DEDUCED, notes/assumptions 16);
FOLLOW takes that sum (R120); EARLIEST takes the grid ceiling of the latest of now plus the dispatch
allowance, that sum and every earliest feasible air time, and is no earlier than any of them after its
further passes either (R121, R122; stated where those times lie within a quarter of the hub time
range). Then no eligible site is late, the slip is the way from the given air time and no more than the
limit, and each site that was eligible stays or is removed for LATE or RANGE; a slip that succeeds
excludes no site as LATE, and with none late the air time stands (R123, R124, R125). What the latest of
times in a cycle is, where a slip takes it, is the model's choice (notes/assumptions 30). -/
def Obligations.ChosenAirTimeLeavesNoSiteLate : Prop :=
  (∀ (s : State) (c : ChannelNo) (tag : Nat) (ready air chosen : HubTime) (w w' : Working)
    (slip : Nat), s.lateness c tag ready air w = .chosen chosen slip w' →
    (∀ x ∈ w'.eligible, earlier (x.deadline chosen) ready = false) ∧
    chosen = air + BitVec.ofNat 40 slip ∧
    slip ≤ (s.channel c).settings.slipLimit * 10000 ∧
    (∀ x ∈ w.eligible, (∃ y ∈ w'.eligible, y.site = x.site) ∨
      (x.site, .late) ∈ w'.removed ∨ (x.site, .range) ∈ w'.removed) ∧
    ((∀ x ∈ w.eligible, earlier (x.deadline air) ready = false) → chosen = air ∧ w' = w) ∧
    (∀ n, (n, .late) ∈ w'.removed → (n, .late) ∈ w.removed ∨
      slip = 0 ∧ ∃ x ∈ w.eligible, x.site = n ∧ earlier (x.deadline air) ready = true)) ∧
  (∀ (s : State) (c : ChannelNo) (tag : Nat) (ready air : HubTime) (w : Working),
    let g := (s.channel c).settings
    (∀ y, y ∈ (s.settle c tag air w).2.eligible ↔
      (∃ x ∈ w.eligible,
        y = { x with standby := x.standby || s.inStandby c tag air x.site }) ∧
      y.figures.m * 16 + (if y.standby then y.figures.w * 16 else 0) ≤ 2 ^ 28 - 1) ∧
    (∀ x xs first w', g.slipLimit ≠ 0 →
      w.eligible.filter (fun y => earlier (y.deadline air) ready) = x :: xs →
      first = gridCeiling g.gridPeriod g.gridOrigin
        (latest (x.feasible ready) (xs.map fun y => y.feasible ready)) →
      (first - air).toNat ≤ g.slipLimit * 10000 → s.settle c tag first w = ([], w') →
      (∀ y ∈ w'.eligible, earlier (y.deadline first) ready = false) →
      s.lateness c tag ready air w = .chosen first (first - air).toNat w')) ∧
  (∀ (s : State) (c : ChannelNo) (b : Batch) (w : Working),
    let g := (s.channel c).settings
    let ready := s.now + BitVec.ofNat 40 g.dispatch
    let clear (p : HubTime) : HubTime := p + BitVec.ofNat 40 g.guardTime
    let settled (a : HubTime) : Working := (s.settle c b.tag a w).2
    (∀ a p, b.predEnd = some p → earlier a (clear p) = true →
      s.airStage c b (.absolute a) w = .overlap) ∧
    (∀ a, (∀ p, b.predEnd = some p → earlier a (clear p) = false) →
      s.airStage c b (.absolute a) w = s.lateness c b.tag ready a (settled a)) ∧
    (∀ p, b.predEnd = some p →
      s.airStage c b .follow w = s.lateness c b.tag ready (clear p) (settled (clear p))) ∧
    (∀ first w', first = gridCeiling g.gridPeriod g.gridOrigin
        (latest ready ((b.predEnd.map clear).toList ++
          (settled ready).eligible.map fun x => x.feasible ready)) →
      s.settle c b.tag first (settled ready) = ([], w') →
      (w'.eligible = [] → s.airStage c b .earliest w = .noSite w') ∧
      (w'.eligible ≠ [] → s.airStage c b .earliest w = .chosen first 0 w')) ∧
    (∀ base air slip w', g.gridPeriod ≤ 2 ^ 32 →
      (ready - base).toNat < 2 ^ 38 → (∀ p, b.predEnd = some p → (clear p - base).toNat < 2 ^ 38) →
      (∀ x ∈ w.eligible, ∀ k : Bool,
        (({ x with standby := k } : Candidate).feasible ready - base).toNat < 2 ^ 38) →
      s.airStage c b .earliest w = .chosen air slip w' →
      slip = 0 ∧ w'.eligible ≠ [] ∧ (ready - base).toNat ≤ (air - base).toNat ∧
      (∀ p, b.predEnd = some p → (clear p - base).toNat ≤ (air - base).toNat) ∧
      (∀ x ∈ w'.eligible, (x.feasible ready - base).toNat ≤ (air - base).toNat) ∧
      ∃ y, air = gridCeiling g.gridPeriod g.gridOrigin y))

/-- An order that departs between its release and its deadline carries a hold no smaller than its hold
floor and no larger than the largest one, with a remainder of 0 to 15, and the departure and the hold
together make the target (R117, R134). The hold floor is a whole number of ticks below 2^24, as R116
bounds it. -/
def Obligations.DepartureHoldCoversTheFloor : Prop :=
  ∀ (z : FineTime) (floor : Nat) (dep : HubTime), floor < 2 ^ 24 →
    let deadline : HubTime := fineDiv16 (z - BitVec.ofNat 44 (floor * 16))
    (dep - releaseOf z).toNat ≤ (deadline - releaseOf z).toNat →
    let hold := holdAt z dep
    floor ≤ hold.ticks ∧ hold.ticks < 2 ^ 24 ∧ hold.fine < 16 ∧
    BitVec.ofNat 44 (dep.toNat * 16 + hold.ticks * 16 + hold.fine) = z

/-! ### Site highway (07) -/

/-- LINE_FREE makes the line IDLE and offers it to the arbiter (R130, R132). With no candidate it stays
IDLE; the frame chosen holds the line for its bytes at the line rate, rounded up to a tick. A departing
order becomes SENT with its stamp, its hold and its receipt deadline, and arms its batch when it was
the last one WAITING (R134, R93); a departing abort makes its entry ABORTED and may complete its
cancel (R137, R102), with the mark when an abort was missed, or else as CANCELLED with its counts, held
with the chain summary or reaped, a flushed batch reaped always (R97 to R99, R103); a departing probe
takes the site's sequence number and its timeout (R139, R47). -/
def Obligations.LineFreeLetsTheChosenFrameDepart : Prop :=
  ∀ (s : State) (f : HighwayFrame) (x : HubTime), s.port.resetLow = false →
    s.highway.line = .busy f x → reached s.now x = true →
    let kbit := match s.highway.rate with
      | .kbit1024 => 1024
      | .kbit2048 => 2048
      | .kbit4096 => 4096
    let after (bytes : Nat) : HubTime :=
      s.now + BitVec.ofNat 40 ((bytes * 80000000 + (kbit * 1000 - 1)) / (kbit * 1000))
    let onLine (g : HighwayFrame) (bytes : Nat) : State :=
      { s with highway := { s.highway with line := .busy g (after bytes) } }
    (s.choose = none →
      exec .lineFree s = .next { s with highway := { s.highway with line := .idle } }) ∧
    (∀ r b, s.choose = some (.abort r) → (s.channel r.channel).find r.tag = some b →
      b.state = .cancelling →
      let w := b.modifyEntry r.site fun e => { e with order := .aborted }
      let busy := onLine (.abort r.site r.channel r.tag) 8
      let sent : State := { busy with highway := { busy.highway with aborts := s.highway.aborts.erase r } }
      let has (o : OrderState) : Prop := ∃ p e, p ∈ w.plan ∧ p.disp = .included e ∧ e.order = o
      (has .aborting → exec .lineFree s = .next (sent.replaceBatch r.channel r.tag w)) ∧
      (¬ has .aborting → has .abortMissed → exec .lineFree s =
        .next (sent.replaceBatch r.channel r.tag { w with partialMark := true })) ∧
      (¬ has .aborting → ¬ has .abortMissed → ∃ t : State, exec .lineFree s = .next t ∧
        t.highway = sent.highway ∧ t.time = s.time ∧ t.meas = s.meas ∧ t.port = s.port ∧
        (∀ y ∈ (t.channel r.channel).queue, y.tag = r.tag → y.state = .cancelled) ∧
        (∀ d, d ≠ r.channel → (t.channel d).queue = (s.channel d).queue ∧
          (t.channel d).summary = (s.channel d).summary) ∧
        (∀ front rest, (s.channel r.channel).queue = front ++ b :: rest →
          (∀ x ∈ front ++ rest, x.tag ≠ r.tag) →
          let total := (s.channel r.channel).summary.withRecord .cancelled w.tally
          let holds : Prop := b.flushed = false ∧ (b.notice = true ∨
            (s.channel r.channel).settings.notice = .each ∨
            (∀ x, rest.head? = some x → x.mode ≠ .follow))
          (holds → (t.channel r.channel).queue = front ++ { w with
              state := .cancelled, counts := some w.tally, summary := some total } :: rest ∧
            (t.channel r.channel).summary = ⟨0, 0, 0, 0, 0, 0, 0, 0, 0, 0⟩) ∧
          (¬ holds → (t.channel r.channel).queue = front ++ rest ∧
            (t.channel r.channel).summary = total)) ∧
        ((∀ n ∈ b.includedSites, s.isRetiring n = false) →
          t.sites = s.sites ∧ t.zones = s.zones))) ∧
    (∀ r b e q, s.choose = some (.order r) → (s.channel r.channel).find r.tag = some b →
      b.entryOf r.site = some e → s.enrolled r.site = some q →
      let spans := b.spans.filter fun p => p.symbols != 0
      let hold := holdAt e.target s.now
      let w := b.modifyEntry r.site fun y => { y with
        order := .sent, departure := some s.now, hold := some (holdAt y.target s.now)
        receiptDeadline := some (s.now + BitVec.ofNat 40 (q.config.ceiling + 65536)) }
      let waits : Prop := ∃ p y, p ∈ w.plan ∧ p.disp = .included y ∧ y.order = .waiting
      let sent := onLine (.order r.site r.channel r.tag hold e.preKey spans) (12 + 5 * spans.length)
      (∀ y ∈ (s.channel r.channel).queue, y.tag = r.tag → y = b) →
      (b.state = .planned → ¬ waits → exec .lineFree s =
        .next (sent.replaceBatch r.channel r.tag { w with state := .armed })) ∧
      (b.state ≠ .planned ∨ waits → exec .lineFree s =
        .next (sent.replaceBatch r.channel r.tag w))) ∧
    (∀ i p e, s.choose = some (.probe i) → s.slot i = some p → s.enrolled p.site = some e →
      let sent := onLine (.probe p.site e.est.sequence) 6
      let flight : Flight :=
        ⟨e.est.sequence, s.now, s.now + BitVec.ofNat 40 (e.config.ceiling + 65536)⟩
      exec .lineFree s = .next { sent with
        sites := s.sites.set p.site { s.site p.site with body := some { e with est := { e.est with
          sequence := (e.est.sequence + 1) % 256
          burst := if p.burst then { e.est.burst with sent := min 16 (e.est.burst.sent + 1) }
            else e.est.burst } } }
        meas := { s.meas with slots := s.meas.slots.set i (some { p with flight := some flight }) } })

/-- The arbiter's choice (R131, R132): the oldest abort frame; without one, among the released WAITING
entries of PLANNED and ON_AIR batches, the earliest deadline, then the older batch, then the lower
site; without those the oldest QUEUED probe, the lower slot on a tie; nothing without a candidate. An order
or abort whose deadline hub time has passed is no candidate: no order departs later than its deadline (R134,
R135), and no abort later than its abort deadline (R138); that its event comes first in the period that
passes a skipped deadline is DEDUCED (notes/assumptions 34).
Times are compared within half the hub time range, where the later-than relation orders them. -/
def Obligations.ArbiterTakesAbortsThenOrdersThenProbes : Prop :=
  ∀ s : State,
    let passed (r : AbortRef) : Prop := ∃ b e x, (s.channel r.channel).find r.tag = some b ∧
      b.entryOf r.site = some e ∧ e.abortDeadline = some x ∧ later s.now x = true
    (∀ x : OrderRef, x ∈ s.orders ↔ ∃ b p e, b ∈ (s.channel x.channel).queue ∧ p ∈ b.plan ∧
      (b.state = .planned ∨ b.state = .onAir) ∧ p.disp = .included e ∧ e.order = .waiting ∧
      e.released = true ∧ later s.now e.deadline = false ∧
      x = ⟨x.channel, b.tag, b.serial, p.site, e.deadline⟩) ∧
    (∀ r front rest, s.highway.aborts = front ++ r :: rest → (∀ q ∈ front, passed q) → ¬ passed r →
      s.choose = some (.abort r)) ∧
    (∀ base : HubTime, (∀ r ∈ s.highway.aborts, passed r) → s.orders ≠ [] →
      (∀ x ∈ s.orders, (x.deadline - base).toNat < 2 ^ 39) →
      ∃ r ∈ s.orders, s.choose = some (.order r) ∧
        ∀ x ∈ s.orders, (r.deadline - base).toNat < (x.deadline - base).toNat ∨
          r.deadline = x.deadline ∧ (r.serial < x.serial ∨ r.serial = x.serial ∧ r.site ≤ x.site)) ∧
    (∀ base : HubTime, (∀ r ∈ s.highway.aborts, passed r) → s.orders = [] →
      (∀ i p, s.slot i = some p → p.flight = none → (p.queueOrder - base).toNat < 2 ^ 39) →
      (∀ i p, s.slot i = some p → p.flight = none →
        ∃ j q, s.slot j = some q ∧ q.flight = none ∧ s.choose = some (.probe j) ∧
          ((q.queueOrder - base).toNat < (p.queueOrder - base).toNat ∨
            q.queueOrder = p.queueOrder ∧ j ≤ i))) ∧
    ((∀ r ∈ s.highway.aborts, passed r) → s.orders = [] →
      (∀ i p, s.slot i = some p → p.flight ≠ none) → s.choose = none)

/-- The inbound assembler (R141, R142, R143, R145): in HUNT a flag enters COLLECT with its arrival stamp,
in COLLECT it changes nothing; a frame ends at its kind byte when that is neither kind, and is complete at 8
bytes as an echo and at 11 as a receipt, and the row it completes as is due in that period; a discarded
frame, a receipt whose site or verdict is out of its set, and an unmatched receipt are each counted once, up
to 65,535, and leave HUNT and nothing else. The operand of FLAG_FOUND is the stamp (notes/assumptions 21),
and the bytes collected are free values (notes/assumptions 20). -/
def Obligations.InboundFramesAreCountedOrCollected : Prop :=
  (∀ (kind : Byte) (rest : List Byte), (readInboundFrame (155 :: kind :: rest)).isSome = true ↔
    kind = 129 ∧ rest.length = 6 ∨ kind = 130 ∧ rest.length = 9 ∨ kind ≠ 129 ∧ kind ≠ 130) ∧
  (∀ (s : State) stamp kind bytes i, s.highway.assembler = .collect stamp kind bytes →
    readInboundFrame bytes = some i → i ∈ s.dueRows) ∧
  ∀ s : State, s.port.resetLow = false →
    let counted : State := { s with highway := { s.highway with
      assembler := .hunt, errors := min 65535 (s.highway.errors + 1) } }
    (∀ stamp, s.highway.assembler = .hunt → exec (.flagFound stamp) s =
      .next { s with highway := { s.highway with assembler := .collect stamp none [155#8] } }) ∧
    (∀ stamp a k bytes, s.highway.assembler = .collect a k bytes →
      exec (.flagFound stamp) s = .next s) ∧
    (∀ reason, exec (.inboundFrameDiscarded reason) s = .next counted) ∧
    (∀ site channel tag verdict turn, 48 ≤ site.toNat ∨ 3 ≤ verdict.toNat →
      exec (.receipt site channel tag verdict turn) s = .next counted) ∧
    (∀ (site channel : Byte) (tag : BitVec 16) (verdict : Byte) (turn : BitVec 16),
      ((∀ c b, b ∈ (s.channel c).queue → b.tag ≠ tag.toNat) ∨
        (∃ c b, s.findBatch tag.toNat = some (c, b) ∧
          (c.val ≠ channel.toNat ∨
            ∀ n : SiteNo, n.val = site.toNat → ∀ e, b.entryOf n = some e → e.order ≠ .sent))) →
      exec (.receipt site channel tag verdict turn) s = .next counted)

/-- A matched receipt writes its verdict in the SENT entry and hands its sample to the estimator, whatever
the verdict; an accepted sample restarts the cadence timer with the interval of the state it leaves;
a RETIRING site takes no sample (R145, R55, R44, R39). That a RECEIPTED entry holds the verdict ACCEPT is
DEDUCED (notes/assumptions 13); the arrival of a frame without a reported flag is the model's choice
(notes/assumptions 7). -/
def Obligations.MatchedReceiptActsOnItsEntry : Prop :=
  ∀ (s : State) (site channel : Byte) (tag : BitVec 16) (verdict : Byte) (turn : BitVec 16)
    (n : SiteNo) (c : ChannelNo) (b : Batch) (e : Included) (dep : HubTime) (v : Verdict)
    (q : Enrolled), s.port.resetLow = false → n.val = site.toNat → c.val = channel.toNat →
    s.findBatch tag.toNat = some (c, b) → b.entryOf n = some e → e.order = .sent →
    e.departure = some dep → s.enrolled n = some q →
    verdict = (match v with | .accept => 0 | .cold => 1 | .busy => 2) →
    let w := b.modifyEntry n fun y => { y with
      order := if v = .accept then .receipted else .refused
      verdict := some v }
    let u : State := { s.replaceBatch c tag.toNat w with
      highway := { s.highway with assembler := .hunt } }
    (q.phase = .retiring →
      exec (.receipt site channel tag verdict turn) s = .next u) ∧
    (∀ folded accepted, q.phase ≠ .retiring →
      q.foldSample s.meas s.arrival dep turn.toNat = (folded, accepted) →
      let interval := if folded.phase = .tracking then q.config.slow else q.config.fast
      let q' : Enrolled := if accepted
        then { folded with cadence := some (s.now + BitVec.ofNat 40 (interval * 10000)) }
        else folded
      exec (.receipt site channel tag verdict turn) s = .next { u with
        sites := s.sites.set n
          ⟨(s.site n).change || (q'.phase != q.phase), (s.site n).zonesRemoved, some q'⟩ })

/-- R144: an echo that passes its checks is handed to the measurement engine, as it completes, with its
site number, its sequence, its turnaround and the arrival stamp of its flag, the port keeping nothing of
it; it never raises the highway error count, whatever its classification, a VACANT site's included. -/
def Obligations.EchoNeverRaisesTheErrorCount : Prop :=
  ∀ (s t : State) (n : SiteNo) (site sq : Byte) (turn : BitVec 16), s.port.resetLow = false →
    n.val = site.toNat → exec (.echo site sq turn) s = .next t →
    (∀ stamp kind bytes, s.highway.assembler = .collect stamp kind bytes →
      t = (({ s with highway := { s.highway with assembler := .hunt } } : State).takeEcho
        n sq.toNat stamp turn.toNat).arbitrate) ∧
    t.highway.errors = s.highway.errors ∧ t.highway.assembler = .hunt

/-! ### Frames (09) -/

/-- The reader of frames gives back what the writer spelled, with every operand at every value its frame
admits: the command frame of a well-formed host command reads as that command, whatever bytes
follow it in the transaction; the frame of an echo or receipt for a site of the part reads as its
row (R149, R141, R142, R161). The frames the part sends to the sites are byte by byte those of 09, the probe
6 bytes long, the abort 8 and the launch order 12 and 5 for each span (R130, R134, R137, R139). -/
def Obligations.FramesReadBackAsTheirRows : Prop :=
  (∀ f : HighwayFrame,
    let bytes (n v : Nat) : List Byte :=
      (List.range n).map fun i => BitVec.ofNat 8 (v / 256 ^ (n - 1 - i))
    let span (p : Span) : List Byte :=
      bytes 2 p.symbols ++ [BitVec.ofNat 8
        ((match p.rate with | .zero => 0 | .one => 128) + (match p.levels with | .two => 0 | .four => 64)
          + (if p.payload = none then 0 else 32))] ++
      (match p.payload with | some x => bytes 2 x | none => [0, 0])
    let covered : List Byte := match f with
      | .probe site sequence => [1, BitVec.ofNat 8 site.val, BitVec.ofNat 8 sequence]
      | .abort site channel tag =>
        [2, BitVec.ofNat 8 site.val, BitVec.ofNat 8 channel.val] ++ bytes 2 tag
      | .order site channel tag hold preKey spans =>
        [3, BitVec.ofNat 8 site.val, BitVec.ofNat 8 channel.val] ++ bytes 2 tag ++
          bytes 3 hold.ticks ++
          [BitVec.ofNat 8 (hold.fine * 16 + (if preKey then 8 else 0) + spans.length)] ++
          spans.flatMap span
    f.bytes = [155] ++ covered ++ bytes 2 (crc16 covered).toNat ∧
    f.bytes.length = match f with
      | .probe _ _ => 6
      | .abort _ _ _ => 8
      | .order _ _ _ _ _ spans => 12 + 5 * spans.length) ∧
  (∀ (i : Instr) (bytes more : List Byte), i.wf = true → commandFrame i = some bytes →
    readCommandFrame (bytes ++ more) = .row i) ∧
  (∀ (site sq : Byte) (turn : BitVec 16) (bytes : List Byte), site.toNat < 48 →
    inboundFrame (.echo site sq turn) = some bytes →
    readInboundFrame bytes = some (.echo site sq turn)) ∧
  (∀ (site channel : Byte) (tag : BitVec 16) (verdict : Byte) (turn : BitVec 16)
    (bytes : List Byte), site.toNat < 48 → verdict.toNat < 3 →
    inboundFrame (.receipt site channel tag verdict turn) = some bytes →
    readInboundFrame bytes = some (.receipt site channel tag verdict turn))

/-! ### What every step keeps -/

/-- Every step keeps every setting of every block in its range and the time scale in agreement with its
state (R5, R7 to R12, R14, R20, R64, R84, R143). That the in-window run is 2 at most, being 0 in LOCKED,
is DEDUCED (notes/assumptions 10). -/
def Obligations.StepKeepsSettingsInRange : Prop :=
  ∀ s t : State, s.SettingsInRange → step s = .next t → t.SettingsInRange

/-- Every step keeps every site record in its ranges: the configuration, the estimate and its counts,
the clamp tally (R22, R24, R25, R57, R61). -/
def Obligations.StepKeepsSitesInRange : Prop :=
  ∀ s t : State, s.SitesInRange → step s = .next t → t.SitesInRange

/-- Every step keeps the zone table lawful, with every site a zone names enrolled (R68, R69, R29, R41),
and the queues lawful: 8 records at most and no tag twice on the part (R87, R88). -/
def Obligations.StepKeepsTheTablesLawful : Prop :=
  (∀ s t : State, s.ZonesLawful → step s = .next t → t.ZonesLawful) ∧
  (∀ s t : State, s.QueuesLawful → step s = .next t → t.QueuesLawful)

/-- The part right after power-on has its settings and its site records in range and its tables lawful
(R20, R22, R64, R69, R84, R87, R160). -/
def Obligations.ResetIsLawful : Prop :=
  State.reset.SettingsInRange ∧ State.reset.SitesInRange ∧ State.reset.ZonesLawful ∧
  State.reset.QueuesLawful
end

