-- ==== Sys2Proof/Laws/Arith.lean ====
section
/-! SUPPORT. What the time relation, the saturating counts and the clamps do, for every operand. -/

namespace Sys2Proof.Machine

@[simp] theorem later_self (x : HubTime) : later x x = false := by simp [later]

/-- Later-than in numbers (00, R1). -/
theorem later_iff (x y : HubTime) : later x y = true ↔ 0 < (x - y).toNat ∧ (x - y).toNat < 2 ^ 39 := by
  have : x ≠ y ↔ 0 < (x - y).toNat := by
    constructor
    · intro h; by_contra hz
      apply h
      have : (x - y).toNat = 0 := by omega
      bv_omega
    · rintro h rfl; simp at h
  simp [later, this]

/-- Nothing is both later and earlier (00, R1). -/
theorem later_asymm {x y : HubTime} (h : later x y = true) : later y x = false := by
  rw [Bool.eq_false_iff]
  intro h'
  rw [later_iff] at h h'
  bv_omega

@[simp] theorem reached_self (x : HubTime) : reached x x = true := by simp [reached]

theorem satCount_le (m c n : Nat) : satCount m c n ≤ m := Nat.min_le_left _ _

/-- A saturating count rises, or stands at its largest value. -/
theorem satCount_eq (m c n : Nat) : satCount m c n = c + n ∧ c + n ≤ m ∨ satCount m c n = m ∧ m < c + n := by
  unfold satCount; omega

/-- A saturated sum lies in the 32-bit range, and one that fits is exact (00, R1). -/
theorem sat32_range (x : Int) : -2147483648 ≤ sat32 x ∧ sat32 x ≤ 2147483647 := by
  unfold sat32; omega

theorem sat32_of_fits {x : Int} (h : -2147483648 ≤ x) (h' : x ≤ 2147483647) : sat32 x = x := by
  unfold sat32; omega

/-- A clamped value lies in its range when the range is one. -/
theorem Range.clamp_range (r : Range) (v : Nat) (h : r.lo ≤ r.hi) :
    r.lo ≤ r.clamp v ∧ r.clamp v ≤ r.hi := by
  unfold Range.clamp; omega

/-- A value in range is not moved. -/
theorem Range.clamp_of_fits {r : Range} {v : Nat} (h : r.lo ≤ v) (h' : v ≤ r.hi) : r.clamp v = v := by
  unfold Range.clamp; omega

/-- A field written lies in its range: the given value clamped, or the value kept. -/
theorem Range.field_range (r : Range) (given : Option Nat) (kept : Nat) (h : r.lo ≤ r.hi)
    (hk : r.lo ≤ kept ∧ kept ≤ r.hi) : r.lo ≤ r.field given kept ∧ r.field given kept ≤ r.hi := by
  cases given with
  | none => exact hk
  | some v => exact r.clamp_range v h

theorem clampOffset_range (v : Int) :
    -offsetBound ≤ clampOffset offsetBound v ∧ clampOffset offsetBound v < offsetBound := by
  unfold clampOffset offsetBound; omega

theorem fieldOffset_range (given : Option Int) (kept : Int)
    (hk : -offsetBound ≤ kept ∧ kept < offsetBound) :
    -offsetBound ≤ fieldOffset offsetBound given kept ∧
      fieldOffset offsetBound given kept < offsetBound := by
  cases given with
  | none => exact hk
  | some v => exact clampOffset_range v

theorem clampGrid_range (v : Nat) :
    clampGrid v = 0 ∨ (100000 ≤ clampGrid v ∧ clampGrid v ≤ 2 ^ 32) := by
  unfold clampGrid; split <;> omega

theorem clampOrigin_range (period v : Nat) :
    clampOrigin period v = 0 ∨ clampOrigin period v < period := by
  unfold clampOrigin; split <;> omega

/-- A site number below 48 names its site, any other names none. -/
@[simp] theorem siteOf_val (n : SiteNo) : siteOf n.val = some n := by simp [siteOf, n.isLt]

@[simp] theorem channelOf_val (c : ChannelNo) : channelOf c.val = some c := by simp [channelOf, c.isLt]

@[simp] theorem zoneOf_val (z : ZoneNo) : zoneOf z.val = some z := by simp [zoneOf, z.isLt]

theorem siteOf_eq_none {n : Nat} : siteOf n = none ↔ 48 ≤ n := by simp [siteOf]

theorem channelOf_eq_none {n : Nat} : channelOf n = none ↔ 4 ≤ n := by simp [channelOf]

theorem zoneOf_eq_none {n : Nat} : zoneOf n = none ↔ 192 ≤ n := by simp [zoneOf]

theorem siteOf_eq_some {n : Nat} {m : SiteNo} : siteOf n = some m ↔ n = m.val := by
  constructor
  · intro h
    unfold siteOf at h
    split at h
    · cases h; rfl
    · cases h
  · rintro rfl; simp

end Sys2Proof.Machine
end

