-- ==== Sys2Proof/Laws/State.lean ====
section
/-! SUPPORT. What each update of the state leaves as it was, one lemma per field, and what reading a
record after writing one gives. -/

namespace Sys2Proof.Machine

/-! ### Plain writes -/

@[simp] theorem State.setSite_time (s : State) (n : SiteNo) (r : SiteRecord) :
    (s.setSite n r).time = s.time := rfl

@[simp] theorem State.setSite_meas (s : State) (n : SiteNo) (r : SiteRecord) :
    (s.setSite n r).meas = s.meas := rfl

@[simp] theorem State.setSite_zones (s : State) (n : SiteNo) (r : SiteRecord) :
    (s.setSite n r).zones = s.zones := rfl

@[simp] theorem State.setSite_channels (s : State) (n : SiteNo) (r : SiteRecord) :
    (s.setSite n r).channels = s.channels := rfl

@[simp] theorem State.setSite_highway (s : State) (n : SiteNo) (r : SiteRecord) :
    (s.setSite n r).highway = s.highway := rfl

@[simp] theorem State.setSite_port (s : State) (n : SiteNo) (r : SiteRecord) :
    (s.setSite n r).port = s.port := rfl

@[simp] theorem State.setSite_submits (s : State) (n : SiteNo) (r : SiteRecord) :
    (s.setSite n r).submits = s.submits := rfl

@[simp] theorem State.setSite_free (s : State) (n : SiteNo) (r : SiteRecord) :
    (s.setSite n r).free = s.free := rfl

@[simp] theorem State.setSite_pending (s : State) (n : SiteNo) (r : SiteRecord) :
    (s.setSite n r).pending = s.pending := rfl

@[simp] theorem State.setZone_time (s : State) (z : ZoneNo) (r : Option Zone) :
    (s.setZone z r).time = s.time := rfl

@[simp] theorem State.setZone_sites (s : State) (z : ZoneNo) (r : Option Zone) :
    (s.setZone z r).sites = s.sites := rfl

@[simp] theorem State.setZone_meas (s : State) (z : ZoneNo) (r : Option Zone) :
    (s.setZone z r).meas = s.meas := rfl

@[simp] theorem State.setZone_channels (s : State) (z : ZoneNo) (r : Option Zone) :
    (s.setZone z r).channels = s.channels := rfl

@[simp] theorem State.setZone_highway (s : State) (z : ZoneNo) (r : Option Zone) :
    (s.setZone z r).highway = s.highway := rfl

@[simp] theorem State.setZone_port (s : State) (z : ZoneNo) (r : Option Zone) :
    (s.setZone z r).port = s.port := rfl

@[simp] theorem State.setZone_submits (s : State) (z : ZoneNo) (r : Option Zone) :
    (s.setZone z r).submits = s.submits := rfl

@[simp] theorem State.setZone_free (s : State) (z : ZoneNo) (r : Option Zone) :
    (s.setZone z r).free = s.free := rfl

@[simp] theorem State.setZone_pending (s : State) (z : ZoneNo) (r : Option Zone) :
    (s.setZone z r).pending = s.pending := rfl

@[simp] theorem State.setChannel_time (s : State) (c : ChannelNo) (r : Channel) :
    (s.setChannel c r).time = s.time := rfl

@[simp] theorem State.setChannel_sites (s : State) (c : ChannelNo) (r : Channel) :
    (s.setChannel c r).sites = s.sites := rfl

@[simp] theorem State.setChannel_meas (s : State) (c : ChannelNo) (r : Channel) :
    (s.setChannel c r).meas = s.meas := rfl

@[simp] theorem State.setChannel_zones (s : State) (c : ChannelNo) (r : Channel) :
    (s.setChannel c r).zones = s.zones := rfl

@[simp] theorem State.setChannel_highway (s : State) (c : ChannelNo) (r : Channel) :
    (s.setChannel c r).highway = s.highway := rfl

@[simp] theorem State.setChannel_port (s : State) (c : ChannelNo) (r : Channel) :
    (s.setChannel c r).port = s.port := rfl

@[simp] theorem State.setChannel_submits (s : State) (c : ChannelNo) (r : Channel) :
    (s.setChannel c r).submits = s.submits := rfl

@[simp] theorem State.setChannel_free (s : State) (c : ChannelNo) (r : Channel) :
    (s.setChannel c r).free = s.free := rfl

@[simp] theorem State.setChannel_pending (s : State) (c : ChannelNo) (r : Channel) :
    (s.setChannel c r).pending = s.pending := rfl

@[simp] theorem State.modifyChannel_time (s : State) (c : ChannelNo) (f : Channel → Channel) :
    (s.modifyChannel c f).time = s.time := rfl

@[simp] theorem State.modifyChannel_sites (s : State) (c : ChannelNo) (f : Channel → Channel) :
    (s.modifyChannel c f).sites = s.sites := rfl

@[simp] theorem State.modifyChannel_meas (s : State) (c : ChannelNo) (f : Channel → Channel) :
    (s.modifyChannel c f).meas = s.meas := rfl

@[simp] theorem State.modifyChannel_zones (s : State) (c : ChannelNo) (f : Channel → Channel) :
    (s.modifyChannel c f).zones = s.zones := rfl

@[simp] theorem State.modifyChannel_highway (s : State) (c : ChannelNo) (f : Channel → Channel) :
    (s.modifyChannel c f).highway = s.highway := rfl

@[simp] theorem State.modifyChannel_port (s : State) (c : ChannelNo) (f : Channel → Channel) :
    (s.modifyChannel c f).port = s.port := rfl

@[simp] theorem State.modifyChannel_submits (s : State) (c : ChannelNo) (f : Channel → Channel) :
    (s.modifyChannel c f).submits = s.submits := rfl

@[simp] theorem State.modifyChannel_free (s : State) (c : ChannelNo) (f : Channel → Channel) :
    (s.modifyChannel c f).free = s.free := rfl

@[simp] theorem State.modifyChannel_pending (s : State) (c : ChannelNo) (f : Channel → Channel) :
    (s.modifyChannel c f).pending = s.pending := rfl

@[simp] theorem State.modifyBatch_time (s : State) (c : ChannelNo) (tag : Nat) (f : Batch → Batch) :
    (s.modifyBatch c tag f).time = s.time := rfl

@[simp] theorem State.modifyBatch_sites (s : State) (c : ChannelNo) (tag : Nat) (f : Batch → Batch) :
    (s.modifyBatch c tag f).sites = s.sites := rfl

@[simp] theorem State.modifyBatch_meas (s : State) (c : ChannelNo) (tag : Nat) (f : Batch → Batch) :
    (s.modifyBatch c tag f).meas = s.meas := rfl

@[simp] theorem State.modifyBatch_zones (s : State) (c : ChannelNo) (tag : Nat) (f : Batch → Batch) :
    (s.modifyBatch c tag f).zones = s.zones := rfl

@[simp] theorem State.modifyBatch_highway (s : State) (c : ChannelNo) (tag : Nat) (f : Batch → Batch) :
    (s.modifyBatch c tag f).highway = s.highway := rfl

@[simp] theorem State.modifyBatch_port (s : State) (c : ChannelNo) (tag : Nat) (f : Batch → Batch) :
    (s.modifyBatch c tag f).port = s.port := rfl

@[simp] theorem State.modifyBatch_submits (s : State) (c : ChannelNo) (tag : Nat) (f : Batch → Batch) :
    (s.modifyBatch c tag f).submits = s.submits := rfl

@[simp] theorem State.modifyBatch_free (s : State) (c : ChannelNo) (tag : Nat) (f : Batch → Batch) :
    (s.modifyBatch c tag f).free = s.free := rfl

@[simp] theorem State.modifyBatch_pending (s : State) (c : ChannelNo) (tag : Nat) (f : Batch → Batch) :
    (s.modifyBatch c tag f).pending = s.pending := rfl

@[simp] theorem State.setTimer_time (s : State) (c : ChannelNo) (t : Option HubTime) :
    (s.setTimer c t).time = s.time := rfl

@[simp] theorem State.setTimer_sites (s : State) (c : ChannelNo) (t : Option HubTime) :
    (s.setTimer c t).sites = s.sites := rfl

@[simp] theorem State.setTimer_meas (s : State) (c : ChannelNo) (t : Option HubTime) :
    (s.setTimer c t).meas = s.meas := rfl

@[simp] theorem State.setTimer_zones (s : State) (c : ChannelNo) (t : Option HubTime) :
    (s.setTimer c t).zones = s.zones := rfl

@[simp] theorem State.setTimer_highway (s : State) (c : ChannelNo) (t : Option HubTime) :
    (s.setTimer c t).highway = s.highway := rfl

@[simp] theorem State.setTimer_port (s : State) (c : ChannelNo) (t : Option HubTime) :
    (s.setTimer c t).port = s.port := rfl

@[simp] theorem State.setTimer_submits (s : State) (c : ChannelNo) (t : Option HubTime) :
    (s.setTimer c t).submits = s.submits := rfl

@[simp] theorem State.setTimer_free (s : State) (c : ChannelNo) (t : Option HubTime) :
    (s.setTimer c t).free = s.free := rfl

@[simp] theorem State.setTimer_pending (s : State) (c : ChannelNo) (t : Option HubTime) :
    (s.setTimer c t).pending = s.pending := rfl

@[simp] theorem State.setSlot_time (s : State) (i : SlotNo) (r : Option Slot) :
    (s.setSlot i r).time = s.time := rfl

@[simp] theorem State.setSlot_sites (s : State) (i : SlotNo) (r : Option Slot) :
    (s.setSlot i r).sites = s.sites := rfl

@[simp] theorem State.setSlot_zones (s : State) (i : SlotNo) (r : Option Slot) :
    (s.setSlot i r).zones = s.zones := rfl

@[simp] theorem State.setSlot_channels (s : State) (i : SlotNo) (r : Option Slot) :
    (s.setSlot i r).channels = s.channels := rfl

@[simp] theorem State.setSlot_highway (s : State) (i : SlotNo) (r : Option Slot) :
    (s.setSlot i r).highway = s.highway := rfl

@[simp] theorem State.setSlot_port (s : State) (i : SlotNo) (r : Option Slot) :
    (s.setSlot i r).port = s.port := rfl

@[simp] theorem State.setSlot_submits (s : State) (i : SlotNo) (r : Option Slot) :
    (s.setSlot i r).submits = s.submits := rfl

@[simp] theorem State.setSlot_free (s : State) (i : SlotNo) (r : Option Slot) :
    (s.setSlot i r).free = s.free := rfl

@[simp] theorem State.setSlot_pending (s : State) (i : SlotNo) (r : Option Slot) :
    (s.setSlot i r).pending = s.pending := rfl

@[simp] theorem State.transmit_time (s : State) (f : HighwayFrame) :
    (s.transmit f).time = s.time := rfl

@[simp] theorem State.transmit_sites (s : State) (f : HighwayFrame) :
    (s.transmit f).sites = s.sites := rfl

@[simp] theorem State.transmit_meas (s : State) (f : HighwayFrame) :
    (s.transmit f).meas = s.meas := rfl

@[simp] theorem State.transmit_zones (s : State) (f : HighwayFrame) :
    (s.transmit f).zones = s.zones := rfl

@[simp] theorem State.transmit_channels (s : State) (f : HighwayFrame) :
    (s.transmit f).channels = s.channels := rfl

@[simp] theorem State.transmit_port (s : State) (f : HighwayFrame) :
    (s.transmit f).port = s.port := rfl

@[simp] theorem State.transmit_submits (s : State) (f : HighwayFrame) :
    (s.transmit f).submits = s.submits := rfl

@[simp] theorem State.transmit_free (s : State) (f : HighwayFrame) :
    (s.transmit f).free = s.free := rfl

@[simp] theorem State.transmit_pending (s : State) (f : HighwayFrame) :
    (s.transmit f).pending = s.pending := rfl

@[simp] theorem State.endTransaction_time (s : State) :
    (s.endTransaction).time = s.time := rfl

@[simp] theorem State.endTransaction_sites (s : State) :
    (s.endTransaction).sites = s.sites := rfl

@[simp] theorem State.endTransaction_meas (s : State) :
    (s.endTransaction).meas = s.meas := rfl

@[simp] theorem State.endTransaction_zones (s : State) :
    (s.endTransaction).zones = s.zones := rfl

@[simp] theorem State.endTransaction_channels (s : State) :
    (s.endTransaction).channels = s.channels := rfl

@[simp] theorem State.endTransaction_highway (s : State) :
    (s.endTransaction).highway = s.highway := rfl

@[simp] theorem State.endTransaction_submits (s : State) :
    (s.endTransaction).submits = s.submits := rfl

@[simp] theorem State.endTransaction_free (s : State) :
    (s.endTransaction).free = s.free := rfl

@[simp] theorem State.endTransaction_pending (s : State) :
    (s.endTransaction).pending = s.pending := rfl

@[simp] theorem State.huntAgain_time (s : State) :
    (s.huntAgain).time = s.time := rfl

@[simp] theorem State.huntAgain_sites (s : State) :
    (s.huntAgain).sites = s.sites := rfl

@[simp] theorem State.huntAgain_meas (s : State) :
    (s.huntAgain).meas = s.meas := rfl

@[simp] theorem State.huntAgain_zones (s : State) :
    (s.huntAgain).zones = s.zones := rfl

@[simp] theorem State.huntAgain_channels (s : State) :
    (s.huntAgain).channels = s.channels := rfl

@[simp] theorem State.huntAgain_port (s : State) :
    (s.huntAgain).port = s.port := rfl

@[simp] theorem State.huntAgain_submits (s : State) :
    (s.huntAgain).submits = s.submits := rfl

@[simp] theorem State.huntAgain_free (s : State) :
    (s.huntAgain).free = s.free := rfl

@[simp] theorem State.huntAgain_pending (s : State) :
    (s.huntAgain).pending = s.pending := rfl

@[simp] theorem State.discardFrame_time (s : State) :
    (s.discardFrame).time = s.time := rfl

@[simp] theorem State.discardFrame_sites (s : State) :
    (s.discardFrame).sites = s.sites := rfl

@[simp] theorem State.discardFrame_meas (s : State) :
    (s.discardFrame).meas = s.meas := rfl

@[simp] theorem State.discardFrame_zones (s : State) :
    (s.discardFrame).zones = s.zones := rfl

@[simp] theorem State.discardFrame_channels (s : State) :
    (s.discardFrame).channels = s.channels := rfl

@[simp] theorem State.discardFrame_port (s : State) :
    (s.discardFrame).port = s.port := rfl

@[simp] theorem State.discardFrame_submits (s : State) :
    (s.discardFrame).submits = s.submits := rfl

@[simp] theorem State.discardFrame_free (s : State) :
    (s.discardFrame).free = s.free := rfl

@[simp] theorem State.discardFrame_pending (s : State) :
    (s.discardFrame).pending = s.pending := rfl

@[simp] theorem State.moveStored_time (s : State) (d : HubTime) :
    (s.moveStored d).time = s.time := rfl

@[simp] theorem State.moveStored_zones (s : State) (d : HubTime) :
    (s.moveStored d).zones = s.zones := rfl

@[simp] theorem State.moveStored_channels (s : State) (d : HubTime) :
    (s.moveStored d).channels = s.channels := rfl

@[simp] theorem State.moveStored_port (s : State) (d : HubTime) :
    (s.moveStored d).port = s.port := rfl

@[simp] theorem State.moveStored_submits (s : State) (d : HubTime) :
    (s.moveStored d).submits = s.submits := rfl

@[simp] theorem State.moveStored_free (s : State) (d : HubTime) :
    (s.moveStored d).free = s.free := rfl

@[simp] theorem State.moveStored_pending (s : State) (d : HubTime) :
    (s.moveStored d).pending = s.pending := rfl

@[simp] theorem State.vacate_time (s : State) (n : SiteNo) :
    (s.vacate n).time = s.time := rfl

@[simp] theorem State.vacate_meas (s : State) (n : SiteNo) :
    (s.vacate n).meas = s.meas := rfl

@[simp] theorem State.vacate_highway (s : State) (n : SiteNo) :
    (s.vacate n).highway = s.highway := rfl

@[simp] theorem State.vacate_port (s : State) (n : SiteNo) :
    (s.vacate n).port = s.port := rfl

@[simp] theorem State.vacate_submits (s : State) (n : SiteNo) :
    (s.vacate n).submits = s.submits := rfl

@[simp] theorem State.vacate_free (s : State) (n : SiteNo) :
    (s.vacate n).free = s.free := rfl

@[simp] theorem State.vacate_pending (s : State) (n : SiteNo) :
    (s.vacate n).pending = s.pending := rfl

@[simp] theorem State.markUnverified_time (s : State) :
    (s.markUnverified).time = s.time := rfl

@[simp] theorem State.markUnverified_sites (s : State) :
    (s.markUnverified).sites = s.sites := rfl

@[simp] theorem State.markUnverified_meas (s : State) :
    (s.markUnverified).meas = s.meas := rfl

@[simp] theorem State.markUnverified_zones (s : State) :
    (s.markUnverified).zones = s.zones := rfl

@[simp] theorem State.markUnverified_highway (s : State) :
    (s.markUnverified).highway = s.highway := rfl

@[simp] theorem State.markUnverified_port (s : State) :
    (s.markUnverified).port = s.port := rfl

@[simp] theorem State.markUnverified_submits (s : State) :
    (s.markUnverified).submits = s.submits := rfl

@[simp] theorem State.markUnverified_free (s : State) :
    (s.markUnverified).free = s.free := rfl

@[simp] theorem State.markUnverified_pending (s : State) :
    (s.markUnverified).pending = s.pending := rfl

/-! ### Writes that a record's presence or a condition decides -/

@[simp] theorem State.modifySite_time (s : State) (n : SiteNo) (f : Enrolled → Enrolled) :
    (s.modifySite n f).time = s.time := by
  unfold State.modifySite; split <;> rfl

@[simp] theorem State.modifySite_meas (s : State) (n : SiteNo) (f : Enrolled → Enrolled) :
    (s.modifySite n f).meas = s.meas := by
  unfold State.modifySite; split <;> rfl

@[simp] theorem State.modifySite_zones (s : State) (n : SiteNo) (f : Enrolled → Enrolled) :
    (s.modifySite n f).zones = s.zones := by
  unfold State.modifySite; split <;> rfl

@[simp] theorem State.modifySite_channels (s : State) (n : SiteNo) (f : Enrolled → Enrolled) :
    (s.modifySite n f).channels = s.channels := by
  unfold State.modifySite; split <;> rfl

@[simp] theorem State.modifySite_highway (s : State) (n : SiteNo) (f : Enrolled → Enrolled) :
    (s.modifySite n f).highway = s.highway := by
  unfold State.modifySite; split <;> rfl

@[simp] theorem State.modifySite_port (s : State) (n : SiteNo) (f : Enrolled → Enrolled) :
    (s.modifySite n f).port = s.port := by
  unfold State.modifySite; split <;> rfl

@[simp] theorem State.modifySite_submits (s : State) (n : SiteNo) (f : Enrolled → Enrolled) :
    (s.modifySite n f).submits = s.submits := by
  unfold State.modifySite; split <;> rfl

@[simp] theorem State.modifySite_free (s : State) (n : SiteNo) (f : Enrolled → Enrolled) :
    (s.modifySite n f).free = s.free := by
  unfold State.modifySite; split <;> rfl

@[simp] theorem State.modifySite_pending (s : State) (n : SiteNo) (f : Enrolled → Enrolled) :
    (s.modifySite n f).pending = s.pending := by
  unfold State.modifySite; split <;> rfl

@[simp] theorem State.requestProbe_time (s : State) (w : WaitEntry) :
    (s.requestProbe w).time = s.time := by
  unfold State.requestProbe; split <;> rfl

@[simp] theorem State.requestProbe_sites (s : State) (w : WaitEntry) :
    (s.requestProbe w).sites = s.sites := by
  unfold State.requestProbe; split <;> rfl

@[simp] theorem State.requestProbe_zones (s : State) (w : WaitEntry) :
    (s.requestProbe w).zones = s.zones := by
  unfold State.requestProbe; split <;> rfl

@[simp] theorem State.requestProbe_channels (s : State) (w : WaitEntry) :
    (s.requestProbe w).channels = s.channels := by
  unfold State.requestProbe; split <;> rfl

@[simp] theorem State.requestProbe_highway (s : State) (w : WaitEntry) :
    (s.requestProbe w).highway = s.highway := by
  unfold State.requestProbe; split <;> rfl

@[simp] theorem State.requestProbe_port (s : State) (w : WaitEntry) :
    (s.requestProbe w).port = s.port := by
  unfold State.requestProbe; split <;> rfl

@[simp] theorem State.requestProbe_submits (s : State) (w : WaitEntry) :
    (s.requestProbe w).submits = s.submits := by
  unfold State.requestProbe; split <;> rfl

@[simp] theorem State.requestProbe_free (s : State) (w : WaitEntry) :
    (s.requestProbe w).free = s.free := by
  unfold State.requestProbe; split <;> rfl

@[simp] theorem State.requestProbe_pending (s : State) (w : WaitEntry) :
    (s.requestProbe w).pending = s.pending := by
  unfold State.requestProbe; split <;> rfl

@[simp] theorem State.freeProbe_time (s : State) (i : SlotNo) :
    (s.freeProbe i).time = s.time := by
  unfold State.freeProbe; split <;> rfl

@[simp] theorem State.freeProbe_sites (s : State) (i : SlotNo) :
    (s.freeProbe i).sites = s.sites := by
  unfold State.freeProbe; split <;> rfl

@[simp] theorem State.freeProbe_zones (s : State) (i : SlotNo) :
    (s.freeProbe i).zones = s.zones := by
  unfold State.freeProbe; split <;> rfl

@[simp] theorem State.freeProbe_channels (s : State) (i : SlotNo) :
    (s.freeProbe i).channels = s.channels := by
  unfold State.freeProbe; split <;> rfl

@[simp] theorem State.freeProbe_highway (s : State) (i : SlotNo) :
    (s.freeProbe i).highway = s.highway := by
  unfold State.freeProbe; split <;> rfl

@[simp] theorem State.freeProbe_port (s : State) (i : SlotNo) :
    (s.freeProbe i).port = s.port := by
  unfold State.freeProbe; split <;> rfl

@[simp] theorem State.freeProbe_submits (s : State) (i : SlotNo) :
    (s.freeProbe i).submits = s.submits := by
  unfold State.freeProbe; split <;> rfl

@[simp] theorem State.freeProbe_free (s : State) (i : SlotNo) :
    (s.freeProbe i).free = s.free := by
  unfold State.freeProbe; split <;> rfl

@[simp] theorem State.freeProbe_pending (s : State) (i : SlotNo) :
    (s.freeProbe i).pending = s.pending := by
  unfold State.freeProbe; split <;> rfl

@[simp] theorem State.checkVacate_time (s : State) (n : SiteNo) :
    (s.checkVacate n).time = s.time := by
  unfold State.checkVacate; split <;> rfl

@[simp] theorem State.checkVacate_meas (s : State) (n : SiteNo) :
    (s.checkVacate n).meas = s.meas := by
  unfold State.checkVacate; split <;> rfl

@[simp] theorem State.checkVacate_highway (s : State) (n : SiteNo) :
    (s.checkVacate n).highway = s.highway := by
  unfold State.checkVacate; split <;> rfl

@[simp] theorem State.checkVacate_port (s : State) (n : SiteNo) :
    (s.checkVacate n).port = s.port := by
  unfold State.checkVacate; split <;> rfl

@[simp] theorem State.checkVacate_submits (s : State) (n : SiteNo) :
    (s.checkVacate n).submits = s.submits := by
  unfold State.checkVacate; split <;> rfl

@[simp] theorem State.checkVacate_free (s : State) (n : SiteNo) :
    (s.checkVacate n).free = s.free := by
  unfold State.checkVacate; split <;> rfl

@[simp] theorem State.checkVacate_pending (s : State) (n : SiteNo) :
    (s.checkVacate n).pending = s.pending := by
  unfold State.checkVacate; split <;> rfl

@[simp] theorem State.checkVacateAll_time (s : State) (ns : List SiteNo) :
    (s.checkVacateAll ns).time = s.time := by
  unfold State.checkVacateAll
  induction ns generalizing s with
  | nil => rfl
  | cons n ns ih => rw [List.foldl_cons, ih]; simp

@[simp] theorem State.checkVacateAll_meas (s : State) (ns : List SiteNo) :
    (s.checkVacateAll ns).meas = s.meas := by
  unfold State.checkVacateAll
  induction ns generalizing s with
  | nil => rfl
  | cons n ns ih => rw [List.foldl_cons, ih]; simp

@[simp] theorem State.checkVacateAll_highway (s : State) (ns : List SiteNo) :
    (s.checkVacateAll ns).highway = s.highway := by
  unfold State.checkVacateAll
  induction ns generalizing s with
  | nil => rfl
  | cons n ns ih => rw [List.foldl_cons, ih]; simp

@[simp] theorem State.checkVacateAll_port (s : State) (ns : List SiteNo) :
    (s.checkVacateAll ns).port = s.port := by
  unfold State.checkVacateAll
  induction ns generalizing s with
  | nil => rfl
  | cons n ns ih => rw [List.foldl_cons, ih]; simp

@[simp] theorem State.checkVacateAll_submits (s : State) (ns : List SiteNo) :
    (s.checkVacateAll ns).submits = s.submits := by
  unfold State.checkVacateAll
  induction ns generalizing s with
  | nil => rfl
  | cons n ns ih => rw [List.foldl_cons, ih]; simp

@[simp] theorem State.checkVacateAll_free (s : State) (ns : List SiteNo) :
    (s.checkVacateAll ns).free = s.free := by
  unfold State.checkVacateAll
  induction ns generalizing s with
  | nil => rfl
  | cons n ns ih => rw [List.foldl_cons, ih]; simp

@[simp] theorem State.checkVacateAll_pending (s : State) (ns : List SiteNo) :
    (s.checkVacateAll ns).pending = s.pending := by
  unfold State.checkVacateAll
  induction ns generalizing s with
  | nil => rfl
  | cons n ns ih => rw [List.foldl_cons, ih]; simp

@[simp] theorem State.takeCadence_time (s : State) (n : SiteNo) (e : Enrolled) (x : HubTime) :
    (s.takeCadence n e x).time = s.time := by
  unfold State.takeCadence; dsimp only; split <;> simp

@[simp] theorem State.takeCadence_zones (s : State) (n : SiteNo) (e : Enrolled) (x : HubTime) :
    (s.takeCadence n e x).zones = s.zones := by
  unfold State.takeCadence; dsimp only; split <;> simp

@[simp] theorem State.takeCadence_channels (s : State) (n : SiteNo) (e : Enrolled) (x : HubTime) :
    (s.takeCadence n e x).channels = s.channels := by
  unfold State.takeCadence; dsimp only; split <;> simp

@[simp] theorem State.takeCadence_highway (s : State) (n : SiteNo) (e : Enrolled) (x : HubTime) :
    (s.takeCadence n e x).highway = s.highway := by
  unfold State.takeCadence; dsimp only; split <;> simp

@[simp] theorem State.takeCadence_port (s : State) (n : SiteNo) (e : Enrolled) (x : HubTime) :
    (s.takeCadence n e x).port = s.port := by
  unfold State.takeCadence; dsimp only; split <;> simp

@[simp] theorem State.takeCadence_submits (s : State) (n : SiteNo) (e : Enrolled) (x : HubTime) :
    (s.takeCadence n e x).submits = s.submits := by
  unfold State.takeCadence; dsimp only; split <;> simp

@[simp] theorem State.takeCadence_free (s : State) (n : SiteNo) (e : Enrolled) (x : HubTime) :
    (s.takeCadence n e x).free = s.free := by
  unfold State.takeCadence; dsimp only; split <;> simp

@[simp] theorem State.takeCadence_pending (s : State) (n : SiteNo) (e : Enrolled) (x : HubTime) :
    (s.takeCadence n e x).pending = s.pending := by
  unfold State.takeCadence; dsimp only; split <;> simp

@[simp] theorem State.putTime_sites (s : State) (t : TimeScale) :
    (s.putTime t).sites = s.sites := by
  unfold State.putTime; dsimp only; split <;> rfl

@[simp] theorem State.putTime_meas (s : State) (t : TimeScale) :
    (s.putTime t).meas = s.meas := by
  unfold State.putTime; dsimp only; split <;> rfl

@[simp] theorem State.putTime_zones (s : State) (t : TimeScale) :
    (s.putTime t).zones = s.zones := by
  unfold State.putTime; dsimp only; split <;> rfl

@[simp] theorem State.putTime_highway (s : State) (t : TimeScale) :
    (s.putTime t).highway = s.highway := by
  unfold State.putTime; dsimp only; split <;> rfl

@[simp] theorem State.putTime_port (s : State) (t : TimeScale) :
    (s.putTime t).port = s.port := by
  unfold State.putTime; dsimp only; split <;> rfl

@[simp] theorem State.putTime_submits (s : State) (t : TimeScale) :
    (s.putTime t).submits = s.submits := by
  unfold State.putTime; dsimp only; split <;> rfl

@[simp] theorem State.putTime_free (s : State) (t : TimeScale) :
    (s.putTime t).free = s.free := by
  unfold State.putTime; dsimp only; split <;> rfl

@[simp] theorem State.putTime_pending (s : State) (t : TimeScale) :
    (s.putTime t).pending = s.pending := by
  unfold State.putTime; dsimp only; split <;> rfl

@[simp] theorem State.terminate_time (s : State) (c : ChannelNo) (b : Batch) :
    (s.terminate c b).time = s.time := by
  simp [State.terminate]

@[simp] theorem State.terminate_meas (s : State) (c : ChannelNo) (b : Batch) :
    (s.terminate c b).meas = s.meas := by
  simp [State.terminate]

@[simp] theorem State.terminate_highway (s : State) (c : ChannelNo) (b : Batch) :
    (s.terminate c b).highway = s.highway := by
  simp [State.terminate]

@[simp] theorem State.terminate_port (s : State) (c : ChannelNo) (b : Batch) :
    (s.terminate c b).port = s.port := by
  simp [State.terminate]

@[simp] theorem State.terminate_submits (s : State) (c : ChannelNo) (b : Batch) :
    (s.terminate c b).submits = s.submits := by
  simp [State.terminate]

@[simp] theorem State.terminate_free (s : State) (c : ChannelNo) (b : Batch) :
    (s.terminate c b).free = s.free := by
  simp [State.terminate]

@[simp] theorem State.terminate_pending (s : State) (c : ChannelNo) (b : Batch) :
    (s.terminate c b).pending = s.pending := by
  simp [State.terminate]

@[simp] theorem State.withdrawEntry_time (s : State) (c : ChannelNo) (b : Batch) (n : SiteNo) :
    (s.withdrawEntry c b n).time = s.time := by
  unfold State.withdrawEntry; dsimp only; split <;> simp

@[simp] theorem State.withdrawEntry_meas (s : State) (c : ChannelNo) (b : Batch) (n : SiteNo) :
    (s.withdrawEntry c b n).meas = s.meas := by
  unfold State.withdrawEntry; dsimp only; split <;> simp

@[simp] theorem State.withdrawEntry_highway (s : State) (c : ChannelNo) (b : Batch) (n : SiteNo) :
    (s.withdrawEntry c b n).highway = s.highway := by
  unfold State.withdrawEntry; dsimp only; split <;> simp

@[simp] theorem State.withdrawEntry_port (s : State) (c : ChannelNo) (b : Batch) (n : SiteNo) :
    (s.withdrawEntry c b n).port = s.port := by
  unfold State.withdrawEntry; dsimp only; split <;> simp

@[simp] theorem State.withdrawEntry_submits (s : State) (c : ChannelNo) (b : Batch) (n : SiteNo) :
    (s.withdrawEntry c b n).submits = s.submits := by
  unfold State.withdrawEntry; dsimp only; split <;> simp

@[simp] theorem State.withdrawEntry_free (s : State) (c : ChannelNo) (b : Batch) (n : SiteNo) :
    (s.withdrawEntry c b n).free = s.free := by
  unfold State.withdrawEntry; dsimp only; split <;> simp

@[simp] theorem State.withdrawEntry_pending (s : State) (c : ChannelNo) (b : Batch) (n : SiteNo) :
    (s.withdrawEntry c b n).pending = s.pending := by
  unfold State.withdrawEntry; dsimp only; split <;> simp

@[simp] theorem State.completeCancel_time (s : State) (c : ChannelNo) (b : Batch) :
    (s.completeCancel c b).time = s.time := by
  unfold State.completeCancel; split
  · split <;> simp
  · simp

@[simp] theorem State.completeCancel_meas (s : State) (c : ChannelNo) (b : Batch) :
    (s.completeCancel c b).meas = s.meas := by
  unfold State.completeCancel; split
  · split <;> simp
  · simp

@[simp] theorem State.completeCancel_highway (s : State) (c : ChannelNo) (b : Batch) :
    (s.completeCancel c b).highway = s.highway := by
  unfold State.completeCancel; split
  · split <;> simp
  · simp

@[simp] theorem State.completeCancel_port (s : State) (c : ChannelNo) (b : Batch) :
    (s.completeCancel c b).port = s.port := by
  unfold State.completeCancel; split
  · split <;> simp
  · simp

@[simp] theorem State.completeCancel_submits (s : State) (c : ChannelNo) (b : Batch) :
    (s.completeCancel c b).submits = s.submits := by
  unfold State.completeCancel; split
  · split <;> simp
  · simp

@[simp] theorem State.completeCancel_free (s : State) (c : ChannelNo) (b : Batch) :
    (s.completeCancel c b).free = s.free := by
  unfold State.completeCancel; split
  · split <;> simp
  · simp

@[simp] theorem State.completeCancel_pending (s : State) (c : ChannelNo) (b : Batch) :
    (s.completeCancel c b).pending = s.pending := by
  unfold State.completeCancel; split
  · split <;> simp
  · simp

@[simp] theorem State.putTime_time (s : State) (t : TimeScale) : (s.putTime t).time = t := by
  unfold State.putTime; dsimp only; split <;> rfl

@[simp] theorem State.endTransaction_port (s : State) :
    s.endTransaction.port = { s.port with transaction := none, ignored := false } := rfl

/-! ### Reading after writing -/

@[simp] theorem State.site_setSite_self (s : State) (n : SiteNo) (r : SiteRecord) :
    (s.setSite n r).site n = r := by simp [State.site, State.setSite]

@[simp] theorem State.site_setSite_of_ne (s : State) {n k : SiteNo} (r : SiteRecord) (h : k ≠ n) :
    (s.setSite n r).site k = s.site k := by
  have : n.val ≠ k.val := fun e => h (Fin.ext e.symm)
  simp [State.site, State.setSite, this]

@[simp] theorem State.zone_setZone_self (s : State) (z : ZoneNo) (r : Option Zone) :
    (s.setZone z r).zone z = r := by simp [State.zone, State.setZone]

@[simp] theorem State.zone_setZone_of_ne (s : State) {z y : ZoneNo} (r : Option Zone) (h : y ≠ z) :
    (s.setZone z r).zone y = s.zone y := by
  have : z.val ≠ y.val := fun e => h (Fin.ext e.symm)
  simp [State.zone, State.setZone, this]

@[simp] theorem State.channel_setChannel_self (s : State) (c : ChannelNo) (r : Channel) :
    (s.setChannel c r).channel c = r := by simp [State.channel, State.setChannel]

@[simp] theorem State.channel_setChannel_of_ne (s : State) {c d : ChannelNo} (r : Channel)
    (h : d ≠ c) : (s.setChannel c r).channel d = s.channel d := by
  have : c.val ≠ d.val := fun e => h (Fin.ext e.symm)
  simp [State.channel, State.setChannel, this]

@[simp] theorem State.slot_setSlot_self (s : State) (i : SlotNo) (r : Option Slot) :
    (s.setSlot i r).slot i = r := by simp [State.slot, State.setSlot]

@[simp] theorem State.slot_setSlot_of_ne (s : State) {i j : SlotNo} (r : Option Slot) (h : j ≠ i) :
    (s.setSlot i r).slot j = s.slot j := by
  have : i.val ≠ j.val := fun e => h (Fin.ext e.symm)
  simp [State.slot, State.setSlot, this]

/-- A record that is changed keeps its zones-removed count, and its change flag is set exactly when its
state changes or the flag was set (02, R27). -/
theorem SiteRecord.put_eq (r : SiteRecord) (e : Enrolled) :
    (r.put e).body = some e ∧ (r.put e).zonesRemoved = r.zonesRemoved ∧
      (r.put e).change = (r.change || (r.body.map Enrolled.phase != some e.phase)) := ⟨rfl, rfl, rfl⟩

/-- The enrolled record of a site after one was changed. -/
theorem State.enrolled_modifySite (s : State) (n k : SiteNo) (f : Enrolled → Enrolled) :
    (s.modifySite n f).enrolled k = if k = n then (s.enrolled n).map f else s.enrolled k := by
  unfold State.modifySite
  split
  next e h =>
    split
    next hk =>
      subst hk
      rw [h]
      simp [State.enrolled, SiteRecord.put]
    next hk => simp [State.enrolled, hk]
  next h =>
    split
    next hk => subst hk; simp [h]
    next hk => rfl

/-- Replacing the records of a tag is what `modifyBatch` with a constant does. -/
theorem State.modifyBatch_const (s : State) (c : ChannelNo) (tag : Nat) (b : Batch) :
    (s.modifyBatch c tag fun _ => b) =
      { s with channels := s.channels.set c { s.channels[c] with
          queue := s.channels[c].queue.map fun x => if x.tag == tag then b else x } } := rfl

end Sys2Proof.Machine
end

