-- ==== Sys2Proof/Laws/Ops.lean ====
section
/-! SUPPORT. What the shared operations over records do, each said once: the claim of a probe slot, a
freed slot, a cadence expiry, a record that becomes VACANT. -/

namespace Sys2Proof.Machine

/-- A request claims the lowest-numbered free slot, or joins the tail of the wait list when none is
free (03, R45). -/
theorem State.requestProbe_cases (s : State) (w : WaitEntry) :
    (∃ i, s.freeSlot = some i ∧ s.requestProbe w =
      s.setSlot i (some ⟨w.site, s.time.hub, w.burst, w.further, none⟩)) ∨
    (s.freeSlot = none ∧ s.requestProbe w =
      { s with meas := { s.meas with wait := s.meas.wait ++ [w] } }) := by
  unfold State.requestProbe
  split
  next i h => exact .inl ⟨i, h, rfl⟩
  next h => exact .inr ⟨h, rfl⟩

/-- The slot found free is free, and every lower one is held (03, R45). -/
theorem State.freeSlot_spec {s : State} {i : SlotNo} (h : s.freeSlot = some i) :
    s.slot i = none ∧ ∀ j < i, s.slot j ≠ none := by
  unfold State.freeSlot at h
  have hi := List.find?_some h
  refine ⟨by simpa using hi, fun j hj hn => ?_⟩
  have hall := (List.find?_eq_some_iff_append.mp h).2
  obtain ⟨as, bs, heq, hlow⟩ := hall
  have hsorted : (as ++ i :: bs).Pairwise (· < ·) := heq ▸ List.pairwise_lt_finRange 8
  have hj' : j ∈ as ++ i :: bs := heq ▸ List.mem_finRange j
  rw [List.pairwise_append] at hsorted
  rcases List.mem_append.mp hj' with hm | hm
  · simpa [hn] using hlow j hm
  · rcases List.mem_cons.mp hm with rfl | hm
    · exact absurd hj (lt_irrefl _)
    · exact absurd hj (not_lt_of_gt (List.rel_of_pairwise_cons hsorted.2.1 hm))

/-- A freed slot is handed to the head of the wait list, or stays free (03, R46). -/
theorem State.freeProbe_cases (s : State) (i : SlotNo) :
    (s.meas.wait = [] ∧ s.freeProbe i = s.setSlot i none) ∨
    (∃ w rest, s.meas.wait = w :: rest ∧ s.freeProbe i = { s with meas := { s.meas with
      slots := s.meas.slots.set i (some ⟨w.site, s.time.hub, w.burst, w.further, none⟩)
      wait := rest } }) := by
  unfold State.freeProbe
  split
  next h => exact .inl ⟨h, rfl⟩
  next w rest h => exact .inr ⟨w, rest, h, rfl⟩

/-- A record that becomes VACANT, and what becomes of the zones and the contexts (02, R41). -/
theorem State.vacate_eq (s : State) (n : SiteNo) :
    s.vacate n = { s with
      sites := s.sites.set n ⟨true, s.zonesNaming n, none⟩
      zones := s.zones.map fun o => o.filter fun z => !(z.siteA == n || z.siteB == n)
      channels := s.channels.map fun c => { c with
        context := c.context.map fun x => { x with entries := x.entries.set n none } } } := rfl

/-- After it is vacated a site is VACANT with its change flag set; the others stand (02, R41). -/
theorem State.site_vacate (s : State) (n k : SiteNo) :
    (s.vacate n).site k = if k = n then ⟨true, s.zonesNaming n, none⟩ else s.site k := by
  have : (s.vacate n).site k = (s.setSite n ⟨true, s.zonesNaming n, none⟩).site k := rfl
  rw [this]
  split
  next h => subst h; simp
  next h => simp [h]

/-- No zone names a vacated site (02, R41). -/
theorem State.vacate_zone_names (s : State) (n : SiteNo) (z : ZoneNo) (r : Zone)
    (h : (s.vacate n).zone z = some r) : s.zone z = some r ∧ r.siteA ≠ n ∧ r.siteB ≠ n := by
  simp [State.zone, State.vacate, Option.filter_eq_some_iff, Zone.names] at h
  simpa [State.zone] using h

/-- The check of R40 vacates the site or leaves the part as it is (02, R40). -/
theorem State.checkVacate_cases (s : State) (n : SiteNo) :
    (s.isRetiring n = true ∧ s.referenced n = false ∧ s.checkVacate n = s.vacate n) ∨
    ((s.isRetiring n = false ∨ s.referenced n = true) ∧ s.checkVacate n = s) := by
  unfold State.checkVacate
  cases h : s.isRetiring n <;> cases h' : s.referenced n <;> simp

/-- Sites that are not RETIRING are not vacated (02, R40). -/
theorem State.checkVacateAll_none (s : State) (ns : List SiteNo)
    (h : ∀ n ∈ ns, s.isRetiring n = false) : s.checkVacateAll ns = s := by
  unfold State.checkVacateAll
  induction ns with
  | nil => rfl
  | cons n ns ih =>
    have hn : s.checkVacate n = s := by simp [State.checkVacate, h n (by simp)]
    rw [List.foldl_cons, hn]
    exact ih fun k hk => h k (by simp [hk])

/-- A batch found by its tag stands in the queue of its channel and carries the tag (05, R87). -/
theorem State.findBatch_mem {s : State} {tag : Nat} {c : ChannelNo} {b : Batch}
    (h : s.findBatch tag = some (c, b)) : b ∈ (s.channel c).queue ∧ b.tag = tag := by
  unfold State.findBatch at h
  obtain ⟨d, _, hd⟩ := List.exists_of_findSome?_eq_some h
  rw [Option.map_eq_some_iff] at hd
  obtain ⟨x, hx, heq⟩ := hd
  cases heq
  unfold Channel.find at hx
  exact ⟨List.mem_of_find?_eq_some hx, by simpa using List.find?_some hx⟩

end Sys2Proof.Machine
end

