-- ==== Sys2Proof/Laws/Arbiter.lean ====
section
/-! SUPPORT. What the arbiter can do when it is offered the line (07, R130 to R132), and what its
departures leave as it was. -/

namespace Sys2Proof.Machine

/-- A BUSY line keeps the arbiter waiting (07, R132). -/
theorem State.arbitrate_busy {s : State} (h : s.highway.line ≠ .idle) : s.arbitrate = s := by
  unfold State.arbitrate
  split
  · rfl
  next hi => exact absurd hi h

/-- Offered the line, the arbiter does nothing or has its choice depart from an IDLE line
(07, R132). -/
theorem State.arbitrate_cases (s : State) :
    s.arbitrate = s ∨
      ∃ c, s.highway.line = .idle ∧ s.choose = some c ∧ s.arbitrate = s.depart c := by
  unfold State.arbitrate
  split
  · exact .inl rfl
  next hi =>
    split
    next c hc => exact .inr ⟨c, hi, hc, rfl⟩
    · exact .inl rfl

/-- What the arbiter takes (07, R132): the oldest abort frame whose deadline has not been passed; without
one, a released order; without either, a QUEUED probe. -/
theorem State.choose_cases (s : State) :
    (∃ r, s.highway.aborts.find? s.offers = some r ∧ s.choose = some (.abort r)) ∨
    (s.highway.aborts.find? s.offers = none ∧ ∃ r, firstBy OrderRef.before s.orders = some r ∧
      s.choose = some (.order r)) ∨
    (s.highway.aborts.find? s.offers = none ∧ firstBy OrderRef.before s.orders = none ∧
      s.choose = (firstBy (fun x y => earlier x.2 y.2) s.queuedSlots).map fun p => .probe p.1) := by
  unfold State.choose
  cases ha : s.highway.aborts.find? s.offers with
  | some r => exact .inl ⟨r, rfl, rfl⟩
  | none =>
    cases ho : firstBy OrderRef.before s.orders with
    | some r => exact .inr (.inl ⟨rfl, r, rfl, rfl⟩)
    | none => exact .inr (.inr ⟨rfl, rfl, rfl⟩)

/-- No order is offered once hub time has passed its deadline (07, R134, R135). -/
theorem Batch.orders_deadline {b : Batch} {c : ChannelNo} {now : HubTime} {r : OrderRef}
    (h : r ∈ b.orders c now) : later now r.deadline = false := by
  unfold Batch.orders at h
  split at h
  · obtain ⟨p, -, hp⟩ := List.mem_filterMap.mp h
    obtain ⟨e, -, he⟩ := Option.bind_eq_some_iff.mp hp
    split at he
    next hc => cases he; simpa using (Bool.and_eq_true_iff.mp hc).2
    · cases he
  · cases h

/-- The chosen one is a member of the list. -/
theorem firstBy_mem {α : Type} (before : α → α → Bool) {l : List α} {x : α}
    (h : firstBy before l = some x) : x ∈ l := by
  cases l with
  | nil => cases h
  | cons a as =>
    simp only [firstBy, Option.some.injEq] at h
    have key : ∀ (as : List α) (best : α),
        as.foldl (fun best y => if before y best then y else best) best = best ∨
        as.foldl (fun best y => if before y best then y else best) best ∈ as := by
      intro as
      induction as with
      | nil => intro best; exact .inl rfl
      | cons b bs ih =>
        intro best
        rw [List.foldl_cons]
        rcases ih (if before b best then b else best) with hh | hh
        · rw [hh]
          split
          · exact .inr (by simp)
          · exact .inl rfl
        · exact .inr (by simp [hh])
    rcases key as a with hh | hh
    · rw [← h, hh]; simp
    · rw [← h]; simp [hh]

theorem State.departAbort_frame (s : State) (r : AbortRef) :
    (s.departAbort r).time = s.time ∧ (s.departAbort r).meas = s.meas ∧
    (s.departAbort r).port = s.port ∧ (s.departAbort r).submits = s.submits ∧
    (s.departAbort r).free = s.free ∧ (s.departAbort r).pending = s.pending := by
  unfold State.departAbort
  dsimp only
  split <;> simp

theorem State.departOrder_frame (s : State) (r : OrderRef) :
    (s.departOrder r).time = s.time ∧ (s.departOrder r).meas = s.meas ∧
    (s.departOrder r).sites = s.sites ∧ (s.departOrder r).zones = s.zones ∧
    (s.departOrder r).port = s.port ∧ (s.departOrder r).submits = s.submits ∧
    (s.departOrder r).free = s.free ∧ (s.departOrder r).pending = s.pending := by
  unfold State.departOrder
  dsimp only
  split
  · split <;> simp
  · simp

theorem State.departProbe_frame (s : State) (i : SlotNo) :
    (s.departProbe i).time = s.time ∧ (s.departProbe i).zones = s.zones ∧
    (s.departProbe i).channels = s.channels ∧
    (s.departProbe i).port = s.port ∧ (s.departProbe i).submits = s.submits ∧
    (s.departProbe i).free = s.free ∧ (s.departProbe i).pending = s.pending := by
  unfold State.departProbe
  split <;> simp

/-- Whatever departs, the time scale, the port, the model's counters and the queue of rows stand. -/
theorem State.arbitrate_frame (s : State) :
    s.arbitrate.time = s.time ∧ s.arbitrate.port = s.port ∧ s.arbitrate.submits = s.submits ∧
    s.arbitrate.free = s.free ∧ s.arbitrate.pending = s.pending := by
  rcases s.arbitrate_cases with h | ⟨c, _, _, h⟩
  · simp [h]
  · rw [h]
    cases c with
    | abort r =>
      obtain ⟨a, _, b, c, d, e⟩ := s.departAbort_frame r
      exact ⟨a, b, c, d, e⟩
    | order r =>
      obtain ⟨a, _, _, _, b, c, d, e⟩ := s.departOrder_frame r
      exact ⟨a, b, c, d, e⟩
    | probe i =>
      obtain ⟨a, _, _, b, c, d, e⟩ := s.departProbe_frame i
      exact ⟨a, b, c, d, e⟩

@[simp] theorem State.arbitrate_time (s : State) : s.arbitrate.time = s.time := s.arbitrate_frame.1

@[simp] theorem State.arbitrate_port (s : State) : s.arbitrate.port = s.port := s.arbitrate_frame.2.1

@[simp] theorem State.arbitrate_submits (s : State) : s.arbitrate.submits = s.submits :=
  s.arbitrate_frame.2.2.1

@[simp] theorem State.arbitrate_free (s : State) : s.arbitrate.free = s.free :=
  s.arbitrate_frame.2.2.2.1

@[simp] theorem State.arbitrate_pending (s : State) : s.arbitrate.pending = s.pending :=
  s.arbitrate_frame.2.2.2.2

end Sys2Proof.Machine
end

