-- ==== Sys2Proof/Laws/Batches.lean ====
section
/-! SUPPORT. What the shared operations on batch records do, each said once: becoming terminal, a
withdrawal, the completion of a cancel, the cancelling of a planned batch (05; 07). -/

namespace Sys2Proof.Machine

/-- Every plan entry is INCLUDED or EXCLUDED. -/
theorem length_included_excluded (plan : List PlanEntry) :
    (plan.filterMap PlanEntry.included?).length +
      (plan.filter fun p => p.included?.isNone).length = plan.length := by
  induction plan with
  | nil => rfl
  | cons p ps ih => cases h : p.included? <;> simp [h] <;> omega

/-- The entry counts that a terminal record takes, entry by entry (05, R97). -/
theorem Batch.entryCounts_eq (b : Batch) : b.entryCounts = b.tally := by
  have h := length_included_excluded b.plan
  have e : (b.plan.filter fun p => p.included?.isNone).length =
      b.plan.length - (b.plan.filterMap PlanEntry.included?).length := by omega
  unfold Batch.entryCounts
  rw [e]
  rfl

/-- What a terminal record adds to a chain summary, by its state (05, R99). -/
theorem ChainSummary.add_eq (g : ChainSummary) (b : Batch) (n : EntryCounts) :
    g.add b n = g.withRecord b.state n := by
  simp only [ChainSummary.add, ChainSummary.withRecord, Batch.ended, satCount, beq_iff_eq]

/-- A batch that becomes terminal is held with the summary, or reaped (05, R97 to R99). -/
theorem Channel.terminate_cases (c : Channel) (b : Batch) :
    let counted : Batch := { b with counts := some b.entryCounts }
    let total := c.summary.add counted b.entryCounts
    (c.holds counted = true ∧ c.terminate b = { c with
      queue := c.queue.map fun x =>
        if x.tag == b.tag then { counted with summary := some total } else x
      summary := .zero }) ∨
    (c.holds counted = false ∧ c.terminate b = { c with
      queue := c.queue.filter fun x => x.tag != b.tag
      summary := total }) := by
  intro counted total
  unfold Channel.terminate
  cases h : c.holds counted with
  | true => exact .inl ⟨rfl, by simp [counted] at h; simp [h, Channel.modifyBatch, counted, total]⟩
  | false => exact .inr ⟨rfl, by simp [counted] at h; simp [h, Channel.removeBatch, counted, total]⟩

/-- A withdrawal abandons a batch without a live entry, or leaves it PLANNED, ARMED or ON_AIR
(07, R135, R136). -/
theorem State.withdrawEntry_cases (s : State) (c : ChannelNo) (b : Batch) (n : SiteNo) :
    let w := b.modifyEntry n Included.withdraw
    (((w.state = .planned ∨ w.state = .armed) ∧ w.noneLive = true) ∧
      s.withdrawEntry c b n =
        s.terminate c { w with state := .abandoned, reason := some .noSites }) ∨
    (¬ ((w.state = .planned ∨ w.state = .armed) ∧ w.noneLive = true) ∧
      s.withdrawEntry c b n = s.modifyBatch c b.tag fun _ => w.armIfReady) := by
  intro w
  unfold State.withdrawEntry
  by_cases h : (w.state = .planned ∨ w.state = .armed) ∧ w.noneLive = true
  · refine .inl ⟨h, ?_⟩
    have : ((w.state == .planned || w.state == .armed) && w.noneLive) = true := by
      simpa using h
    simp only [w] at this
    simp only [this, if_true, w]
  · refine .inr ⟨h, ?_⟩
    have : ((w.state == .planned || w.state == .armed) && w.noneLive) = false := by
      rw [Bool.eq_false_iff]; intro hh; exact h (by simpa using hh)
    simp only [w] at this
    simp only [this, Bool.false_eq_true, if_false, w]
    rfl

/-- The completion test of a cancel (05, R102). -/
theorem State.completeCancel_cases (s : State) (c : ChannelNo) (b : Batch) :
    (b.state = .cancelling ∧ b.anyIn .aborting = false ∧ b.anyIn .abortMissed = true ∧
      s.completeCancel c b = s.modifyBatch c b.tag fun _ => { b with partialMark := true }) ∨
    (b.state = .cancelling ∧ b.anyIn .aborting = false ∧ b.anyIn .abortMissed = false ∧
      s.completeCancel c b = s.terminate c { b with state := .cancelled }) ∨
    ((b.state ≠ .cancelling ∨ b.anyIn .aborting = true) ∧
      s.completeCancel c b = s.modifyBatch c b.tag fun _ => b) := by
  unfold State.completeCancel
  by_cases h : b.state = .cancelling
  · cases h' : b.anyIn .aborting <;> cases h'' : b.anyIn .abortMissed <;> simp [h]
  · simp [h]

/-- A withdrawn entry: WITHDRAWN if it was WAITING, as it was otherwise (07, R135). -/
theorem Included.withdraw_order (e : Included) :
    e.withdraw.order = if e.order = .waiting then .withdrawn else e.order := by
  unfold Included.withdraw
  by_cases h : e.order = .waiting <;> simp [h]

@[simp] theorem Batch.modifyEntry_tag (b : Batch) (n : SiteNo) (f : Included → Included) :
    (b.modifyEntry n f).tag = b.tag := rfl

@[simp] theorem Batch.modifyEntry_state (b : Batch) (n : SiteNo) (f : Included → Included) :
    (b.modifyEntry n f).state = b.state := rfl

@[simp] theorem Batch.modifyEntry_air (b : Batch) (n : SiteNo) (f : Included → Included) :
    (b.modifyEntry n f).air = b.air := rfl

@[simp] theorem Batch.modifyEntries_tag (b : Batch) (f : Included → Included) :
    (b.modifyEntries f).tag = b.tag := rfl

@[simp] theorem Batch.modifyEntries_state (b : Batch) (f : Included → Included) :
    (b.modifyEntries f).state = b.state := rfl

@[simp] theorem Batch.armIfReady_tag (b : Batch) : b.armIfReady.tag = b.tag := by
  unfold Batch.armIfReady; split <;> rfl

@[simp] theorem Batch.armIfReady_plan (b : Batch) : b.armIfReady.plan = b.plan := by
  unfold Batch.armIfReady; split <;> rfl

/-- Changing the record of a tag keeps the length of the queue and, when the tag is kept, its tags. -/
theorem Channel.modifyBatch_tags (c : Channel) (tag : Nat) (f : Batch → Batch)
    (h : ∀ b ∈ c.queue, b.tag = tag → (f b).tag = tag) :
    (c.modifyBatch tag f).queue.map Batch.tag = c.queue.map Batch.tag := by
  simp only [Channel.modifyBatch, List.map_map]
  apply List.map_congr_left
  intro b hb
  by_cases ht : b.tag = tag
  · simp [ht, h b hb ht]
  · simp [ht]

end Sys2Proof.Machine
end

