-- ==== Sys2Proof/Laws/Estimator.lean ====
section
/-! SUPPORT. The paths of one sample through the estimator, each said once (03, R56 to R62). -/

namespace Sys2Proof.Machine

/-- The outbound sample of a valid round trip, in whole numbers (03, R57). -/
theorem outboundSample_eq (share r : Nat) :
    outboundSample share (r : Int) = (r * 16 * share + 128) / 256 := by
  unfold outboundSample
  have : ((r : Int) * 16 * share + 128) / 256 = ((r * 16 * share + 128) / 256 : Nat) := by
    push_cast; rfl
  rw [this, Int.toNat_natCast]

/-- The gate lies below 2^24 (03, R59). -/
theorem gateOf_lt (u gateFloor : Nat) : gateOf u gateFloor < 2 ^ 24 := by
  unfold gateOf; omega

/-- U stays below 2^24 (03, R61). -/
theorem foldUncertainty_lt (k d u sample : Nat) : foldUncertainty k d u sample < 2 ^ 24 := by
  unfold foldUncertainty; omega

/-- The ways of one sample through the estimator, by the record's state and its D (03, R56 to R60). -/
theorem Enrolled.foldSample_cases (e : Enrolled) (meas : Measurement) (arr dep : HubTime)
    (t : Nat) :
    let r := roundTrip arr dep t
    let sample := outboundSample e.config.share r
    ((r < 1 ∨ (e.config.ceiling : Int) < r) ∧
      e.foldSample meas arr dep t = (e.reject e.est.rejects, false)) ∨
    (1 ≤ r ∧ r ≤ e.config.ceiling ∧
      ((e.est.d = none ∧
        e.foldSample meas arr dep t =
          (e.accept meas.settleCount arr sample e.config.gateFloor false, true)) ∨
      ∃ d, e.est.d = some d ∧
        ((e.phase ≠ .tracking ∧
          e.foldSample meas arr dep t =
            (e.accept meas.settleCount arr (foldDelay 1 d sample)
              (foldUncertainty 1 d e.est.u sample) false, true)) ∨
        (e.phase = .tracking ∧ |(sample : Int) - d| ≤ gateOf e.est.u e.config.gateFloor ∧
          e.foldSample meas arr dep t =
            (e.accept meas.settleCount arr (foldDelay e.config.gain d sample)
              (foldUncertainty e.config.gain d e.est.u sample) false, true)) ∨
        (e.phase = .tracking ∧ gateOf e.est.u e.config.gateFloor < |(sample : Int) - d| ∧
          satCount 255 e.est.rejects 1 < meas.stepConfirm ∧
          e.foldSample meas arr dep t = (e.reject (satCount 255 e.est.rejects 1), false)) ∨
        (e.phase = .tracking ∧ gateOf e.est.u e.config.gateFloor < |(sample : Int) - d| ∧
          meas.stepConfirm ≤ satCount 255 e.est.rejects 1 ∧
          e.foldSample meas arr dep t =
            (e.accept meas.settleCount arr sample e.config.gateFloor true, true))))) := by
  intro r sample
  unfold Enrolled.foldSample
  by_cases hr : r < 1 ∨ (e.config.ceiling : Int) < r
  · left
    refine ⟨hr, ?_⟩
    have : (decide (r < 1) || decide ((e.config.ceiling : Int) < r)) = true := by simpa using hr
    simp [r] at this
    simp [this]
  · right
    rw [not_or, not_lt, not_lt] at hr
    refine ⟨hr.1, hr.2, ?_⟩
    have hb : (decide (roundTrip arr dep t < 1) ||
        decide ((e.config.ceiling : Int) < roundTrip arr dep t)) = false := by
      simp [r] at hr; simp; omega
    simp only [hb, Bool.false_eq_true, if_false]
    cases hd : e.est.d with
    | none => left; exact ⟨rfl, rfl⟩
    | some d =>
      right
      refine ⟨d, rfl, ?_⟩
      by_cases hp : e.phase = .tracking
      · by_cases hg : |(sample : Int) - d| ≤ gateOf e.est.u e.config.gateFloor
        · right; left; exact ⟨hp, hg, by simp [hp, sample, r] at hg ⊢; simp [hg]⟩
        · have hg' := not_le.mp hg
          by_cases hs : satCount 255 e.est.rejects 1 < meas.stepConfirm
          · right; right; left
            exact ⟨hp, hg', hs, by simp [hp, sample, r] at hg ⊢; simp [not_le.mpr hg, hs]⟩
          · right; right; right
            exact ⟨hp, hg', not_lt.mp hs, by simp [hp, sample, r] at hg ⊢; simp [not_le.mpr hg, hs]⟩
      · left; exact ⟨hp, by simp [hp, sample, r]⟩

/-- A RETIRING record stays RETIRING under an accepted sample; no other becomes it (03, R62). -/
theorem phaseAfter_retiring (p : SitePhase) (step : Bool) (count settle : Nat) :
    phaseAfter p step count settle = .retiring ↔ p = .retiring := by
  cases p <;> simp [phaseAfter] <;> split <;> simp

end Sys2Proof.Machine
end

