-- ==== Sys2Proof/Laws/Port.lean ====
section
/-! SUPPORT. What the shared operations of the command port do: a command taken, a command discarded,
a refusal, a row while RESET is low, a hub clock period of a transaction. -/

namespace Sys2Proof.Machine

/-- A command that is taken: its block acts on the part with the transaction ended, and the answer is
recorded (08, R149). -/
theorem takeCommand_taken {s : State} (h : s.takes = true) (identifier label : Byte)
    (act : State → Answer) :
    takeCommand identifier label s act =
      .next ((act s.endTransaction).record identifier label s.now) := by
  simp [takeCommand, h]

/-- A command that is not taken changes nothing but the transaction (08, R149). -/
theorem takeCommand_discarded {s : State} (h : s.takes = false) (identifier label : Byte)
    (act : State → Answer) : takeCommand identifier label s act = .next s.endTransaction := by
  simp [takeCommand, h]

/-- A recorded answer, in the words of the statements. -/
theorem Answer.record_eq (a : Answer) (identifier label : Byte) (taken : HubTime)
    (h : a.state.port.transaction = none) (h' : a.state.port.ignored = false) :
    a.record identifier label taken =
      a.state.answered identifier label taken a.result a.body := by
  obtain ⟨r, b, s⟩ := a
  obtain ⟨t, si, m, z, c, hw, p, su, fr, pe⟩ := s
  obtain ⟨st, fo, tr, rl, ig⟩ := p
  cases h; cases h'; rfl

/-- A refused command that is taken (08, R152). -/
theorem takeCommand_refuse {s : State} (h : s.takes = true) (identifier label : Byte) (r : Result) :
    takeCommand identifier label s (refuse r) =
      .next (s.answered identifier label s.now r .empty) := by
  rw [takeCommand_taken h]; rfl

/-- An event acts while RESET is high (08, R160). -/
theorem whileRunning_running {s : State} (h : s.port.resetLow = false) (act : State → State) :
    whileRunning s act = .next (act s) := by
  simp [whileRunning, h]

/-- An event does nothing while RESET is low (08, R160). -/
theorem whileRunning_held {s : State} (h : s.port.resetLow = true) (act : State → State) :
    whileRunning s act = .next s := by
  simp [whileRunning, h]

/-- When a command is taken (08, R149, R160). -/
theorem State.takes_iff (s : State) :
    s.takes = true ↔
      s.port.resetLow = false ∧ s.port.ignored = false ∧ s.port.presented ≠ .working := by
  simp [State.takes, and_assoc]

@[simp] theorem State.answered_time (s : State) (i l : Byte) (x : HubTime) (r : Result) (b : Body) :
    (s.answered i l x r b).time = s.time := rfl

@[simp] theorem State.answered_sites (s : State) (i l : Byte) (x : HubTime) (r : Result) (b : Body) :
    (s.answered i l x r b).sites = s.sites := rfl

@[simp] theorem State.answered_meas (s : State) (i l : Byte) (x : HubTime) (r : Result) (b : Body) :
    (s.answered i l x r b).meas = s.meas := rfl

@[simp] theorem State.answered_zones (s : State) (i l : Byte) (x : HubTime) (r : Result) (b : Body) :
    (s.answered i l x r b).zones = s.zones := rfl

@[simp] theorem State.answered_channels (s : State) (i l : Byte) (x : HubTime) (r : Result)
    (b : Body) : (s.answered i l x r b).channels = s.channels := rfl

@[simp] theorem State.answered_highway (s : State) (i l : Byte) (x : HubTime) (r : Result)
    (b : Body) : (s.answered i l x r b).highway = s.highway := rfl

@[simp] theorem Answer.record_time (a : Answer) (i l : Byte) (x : HubTime) :
    (a.record i l x).time = a.state.time := rfl

@[simp] theorem Answer.record_sites (a : Answer) (i l : Byte) (x : HubTime) :
    (a.record i l x).sites = a.state.sites := rfl

@[simp] theorem Answer.record_meas (a : Answer) (i l : Byte) (x : HubTime) :
    (a.record i l x).meas = a.state.meas := rfl

@[simp] theorem Answer.record_zones (a : Answer) (i l : Byte) (x : HubTime) :
    (a.record i l x).zones = a.state.zones := rfl

@[simp] theorem Answer.record_channels (a : Answer) (i l : Byte) (x : HubTime) :
    (a.record i l x).channels = a.state.channels := rfl

@[simp] theorem Answer.record_highway (a : Answer) (i l : Byte) (x : HubTime) :
    (a.record i l x).highway = a.state.highway := rfl

@[simp] theorem Answer.record_pending (a : Answer) (i l : Byte) (x : HubTime) :
    (a.record i l x).pending = a.state.pending := rfl

/-- A hub clock period on the port's wires: the transaction goes on with more bytes received, or ends
without a command, as a poll or an ignored one (08, R148, R149, R160). -/
theorem State.hostPeriod_cases (s : State) :
    (∃ n, s.hostPeriod = { s with free := n }) ∨
    (∃ n, s.hostPeriod = { s with
      free := n, port := { s.port with transaction := none, ignored := false } } ∧
      (s.port.ignored = true ∨ ∃ t, s.port.transaction = some t ∧
        readCommandFrame t.received = .poll)) ∨
    (∃ n t bytes, s.port.transaction = some t ∧ s.hostPeriod = { s with
      free := n
      port := { s.port with transaction := some { t with received := t.received ++ bytes } } }) := by
  unfold State.hostPeriod
  dsimp only
  split
  next t ht =>
    split
    next hp => exact .inr (.inl ⟨_, rfl, .inr ⟨t, ht, by simpa using (Bool.and_eq_true_iff.mp hp).1⟩⟩)
    next => exact .inr (.inr ⟨_, t, _, ht, rfl⟩)
  next ht =>
    split
    next hi =>
      split
      · exact .inr (.inl ⟨_, rfl, .inl hi⟩)
      · exact .inl ⟨_, rfl⟩
    next => exact .inl ⟨s.free, rfl⟩

/-- Behind its last byte a response is followed by fill bytes of all ones (08, R148). -/
theorem Transaction.pdo_fill (t : Transaction) {k : Nat} (h : t.frame.length ≤ k) :
    t.pdo k = 255#8 := by
  simp [Transaction.pdo, List.getElem?_eq_none h]

/-- Before that, PDO carries the frame from its first byte (08, R148). -/
theorem Transaction.pdo_frame (t : Transaction) {k : Nat} (h : k < t.frame.length) :
    t.pdo k = t.frame[k] := by
  simp [Transaction.pdo, h]
@[simp] theorem State.hostPeriod_time (s : State) :
    s.hostPeriod.time = s.time := by
  rcases s.hostPeriod_cases with ⟨_, h⟩ | ⟨_, h, _⟩ | ⟨_, _, _, _, h⟩ <;> rw [h]

@[simp] theorem State.hostPeriod_sites (s : State) :
    s.hostPeriod.sites = s.sites := by
  rcases s.hostPeriod_cases with ⟨_, h⟩ | ⟨_, h, _⟩ | ⟨_, _, _, _, h⟩ <;> rw [h]

@[simp] theorem State.hostPeriod_meas (s : State) :
    s.hostPeriod.meas = s.meas := by
  rcases s.hostPeriod_cases with ⟨_, h⟩ | ⟨_, h, _⟩ | ⟨_, _, _, _, h⟩ <;> rw [h]

@[simp] theorem State.hostPeriod_zones (s : State) :
    s.hostPeriod.zones = s.zones := by
  rcases s.hostPeriod_cases with ⟨_, h⟩ | ⟨_, h, _⟩ | ⟨_, _, _, _, h⟩ <;> rw [h]

@[simp] theorem State.hostPeriod_channels (s : State) :
    s.hostPeriod.channels = s.channels := by
  rcases s.hostPeriod_cases with ⟨_, h⟩ | ⟨_, h, _⟩ | ⟨_, _, _, _, h⟩ <;> rw [h]

@[simp] theorem State.hostPeriod_highway (s : State) :
    s.hostPeriod.highway = s.highway := by
  rcases s.hostPeriod_cases with ⟨_, h⟩ | ⟨_, h, _⟩ | ⟨_, _, _, _, h⟩ <;> rw [h]

@[simp] theorem State.hostPeriod_submits (s : State) :
    s.hostPeriod.submits = s.submits := by
  rcases s.hostPeriod_cases with ⟨_, h⟩ | ⟨_, h, _⟩ | ⟨_, _, _, _, h⟩ <;> rw [h]

@[simp] theorem State.hostPeriod_pending (s : State) :
    s.hostPeriod.pending = s.pending := by
  rcases s.hostPeriod_cases with ⟨_, h⟩ | ⟨_, h, _⟩ | ⟨_, _, _, _, h⟩ <;> rw [h]

@[simp] theorem State.hostPeriod_stored (s : State) :
    s.hostPeriod.port.stored = s.port.stored := by
  rcases s.hostPeriod_cases with ⟨_, h⟩ | ⟨_, h, _⟩ | ⟨_, _, _, _, h⟩ <;> rw [h]

@[simp] theorem State.hostPeriod_forming (s : State) :
    s.hostPeriod.port.forming = s.port.forming := by
  rcases s.hostPeriod_cases with ⟨_, h⟩ | ⟨_, h, _⟩ | ⟨_, _, _, _, h⟩ <;> rw [h]

@[simp] theorem State.hostPeriod_resetLow (s : State) :
    s.hostPeriod.port.resetLow = s.port.resetLow := by
  rcases s.hostPeriod_cases with ⟨_, h⟩ | ⟨_, h, _⟩ | ⟨_, _, _, _, h⟩ <;> rw [h]

end Sys2Proof.Machine
end

