-- ==== Sys2Proof/Laws/Inbound.lean ====
section
/-! SUPPORT. What the inbound assembler can do in a hub clock period and at RESTART (07, R141, R147), and
what a period leaves as it was. -/

namespace Sys2Proof.Machine

/-- A hub clock period on the inbound line: nothing, or at most one byte more in COLLECT, while the frame
is short of its size (07, R141). -/
theorem State.linePeriod_cases (s : State) :
    s.linePeriod = s ∨
    ∃ n x k bytes more, s.highway.assembler = .collect x k bytes ∧
      readInboundFrame bytes = none ∧ more.length ≤ 1 ∧
      s.linePeriod = { s with
        free := n
        highway := { s.highway with
          assembler := .collect x (bytes ++ more)[1]? (bytes ++ more) } } := by
  unfold State.linePeriod
  split
  · exact .inl rfl
  next x k bytes h =>
    split
    · exact .inl rfl
    next hc =>
      refine .inr ⟨s.free + 1, x, k, bytes, (Config.hrxdByte s.free).toList, h, ?_, ?_, ?_⟩
      · simpa [Assembler.complete, h] using hc
      · cases Config.hrxdByte s.free <;> simp
      · simp [Assembler.take, h]

/-- In HUNT a period brings the assembler nothing (07, R141). -/
theorem State.linePeriod_hunt {s : State} (h : s.highway.assembler = .hunt) : s.linePeriod = s := by
  simp [State.linePeriod, h]

/-- RESTART leaves the assembler in HUNT unless a frame has completed in the same period
(07, R147; 08, R159). -/
theorem Assembler.restart_partial {a : Assembler} (h : a.complete = none) : a.restart = .hunt := by
  simp [Assembler.restart, h]

@[simp] theorem State.linePeriod_time (s : State) : s.linePeriod.time = s.time := by
  rcases s.linePeriod_cases with h | ⟨_, _, _, _, _, _, _, _, h⟩ <;> rw [h]

@[simp] theorem State.linePeriod_sites (s : State) : s.linePeriod.sites = s.sites := by
  rcases s.linePeriod_cases with h | ⟨_, _, _, _, _, _, _, _, h⟩ <;> rw [h]

@[simp] theorem State.linePeriod_meas (s : State) : s.linePeriod.meas = s.meas := by
  rcases s.linePeriod_cases with h | ⟨_, _, _, _, _, _, _, _, h⟩ <;> rw [h]

@[simp] theorem State.linePeriod_zones (s : State) : s.linePeriod.zones = s.zones := by
  rcases s.linePeriod_cases with h | ⟨_, _, _, _, _, _, _, _, h⟩ <;> rw [h]

@[simp] theorem State.linePeriod_channels (s : State) : s.linePeriod.channels = s.channels := by
  rcases s.linePeriod_cases with h | ⟨_, _, _, _, _, _, _, _, h⟩ <;> rw [h]

@[simp] theorem State.linePeriod_port (s : State) : s.linePeriod.port = s.port := by
  rcases s.linePeriod_cases with h | ⟨_, _, _, _, _, _, _, _, h⟩ <;> rw [h]

@[simp] theorem State.linePeriod_submits (s : State) : s.linePeriod.submits = s.submits := by
  rcases s.linePeriod_cases with h | ⟨_, _, _, _, _, _, _, _, h⟩ <;> rw [h]

@[simp] theorem State.linePeriod_pending (s : State) : s.linePeriod.pending = s.pending := by
  rcases s.linePeriod_cases with h | ⟨_, _, _, _, _, _, _, _, h⟩ <;> rw [h]

@[simp] theorem State.linePeriod_line (s : State) : s.linePeriod.highway.line = s.highway.line := by
  rcases s.linePeriod_cases with h | ⟨_, _, _, _, _, _, _, _, h⟩ <;> rw [h]

@[simp] theorem State.linePeriod_aborts (s : State) : s.linePeriod.highway.aborts = s.highway.aborts := by
  rcases s.linePeriod_cases with h | ⟨_, _, _, _, _, _, _, _, h⟩ <;> rw [h]

@[simp] theorem State.linePeriod_rate (s : State) : s.linePeriod.highway.rate = s.highway.rate := by
  rcases s.linePeriod_cases with h | ⟨_, _, _, _, _, _, _, _, h⟩ <;> rw [h]

@[simp] theorem State.linePeriod_errors (s : State) : s.linePeriod.highway.errors = s.highway.errors := by
  rcases s.linePeriod_cases with h | ⟨_, _, _, _, _, _, _, _, h⟩ <;> rw [h]

/-! ### A whole period (01, R2, R13) -/

@[simp] theorem State.period_time (s : State) (t : TimeScale) : (s.period t).time = t := by
  simp [State.period]

@[simp] theorem State.period_sites (s : State) (t : TimeScale) :
    (s.period t).sites = s.sites := by
  simp [State.period, Port.pass]

@[simp] theorem State.period_meas (s : State) (t : TimeScale) :
    (s.period t).meas = s.meas := by
  simp [State.period, Port.pass]

@[simp] theorem State.period_zones (s : State) (t : TimeScale) :
    (s.period t).zones = s.zones := by
  simp [State.period, Port.pass]

@[simp] theorem State.period_channels (s : State) (t : TimeScale) :
    (s.period t).channels = s.channels := by
  simp [State.period, Port.pass]

@[simp] theorem State.period_submits (s : State) (t : TimeScale) :
    (s.period t).submits = s.submits := by
  simp [State.period, Port.pass]

@[simp] theorem State.period_pending (s : State) (t : TimeScale) :
    (s.period t).pending = s.pending := by
  simp [State.period, Port.pass]

@[simp] theorem State.period_line (s : State) (t : TimeScale) :
    (s.period t).highway.line = s.highway.line := by
  simp [State.period, Port.pass]

@[simp] theorem State.period_aborts (s : State) (t : TimeScale) :
    (s.period t).highway.aborts = s.highway.aborts := by
  simp [State.period, Port.pass]

@[simp] theorem State.period_rate (s : State) (t : TimeScale) :
    (s.period t).highway.rate = s.highway.rate := by
  simp [State.period, Port.pass]

@[simp] theorem State.period_errors (s : State) (t : TimeScale) :
    (s.period t).highway.errors = s.highway.errors := by
  simp [State.period, Port.pass]

@[simp] theorem State.period_stored (s : State) (t : TimeScale) :
    (s.period t).port.stored = s.port.stored := by
  simp [State.period, Port.pass]

@[simp] theorem State.period_resetLow (s : State) (t : TimeScale) :
    (s.period t).port.resetLow = s.port.resetLow := by
  simp [State.period, Port.pass]

/-- The response in formation grows older by a period (08, R150). -/
@[simp] theorem State.period_forming (s : State) (t : TimeScale) :
    (s.period t).port.forming = s.port.forming.map fun f => { f with age := f.age + 1 } := by
  simp [State.period, Port.pass]

end Sys2Proof.Machine
end

