-- ==== Sys2Proof/Laws/Planning.lean ====
section
/-! SUPPORT. What a planning, and the run of plannings of a channel, leave as they were (05, R91; 06,
R111), and the two ends a planning can have (06, R127, R128). -/

namespace Sys2Proof.Machine

theorem State.tallyRanges_frame (s : State) (plan : List PlanEntry) :
    (s.tallyRanges plan).time = s.time ∧ (s.tallyRanges plan).meas = s.meas ∧
    (s.tallyRanges plan).zones = s.zones ∧ (s.tallyRanges plan).channels = s.channels ∧
    (s.tallyRanges plan).highway = s.highway ∧ (s.tallyRanges plan).port = s.port ∧
    (s.tallyRanges plan).submits = s.submits ∧ (s.tallyRanges plan).free = s.free ∧
    (s.tallyRanges plan).pending = s.pending := by
  unfold State.tallyRanges
  induction plan generalizing s with
  | nil => simp
  | cons p ps ih =>
    rw [List.foldl_cons]
    split
    · simpa using ih (s.modifySite p.site Enrolled.tallyClamp)
    · exact ih s

/-- A planning touches the site table, the zone table and the queues, and nothing else (06, R111). -/
theorem State.planBatch_frame (s : State) (c : ChannelNo) (b : Batch) (acts : Bool) :
    (s.planBatch c b acts).time = s.time ∧ (s.planBatch c b acts).meas = s.meas ∧
    (s.planBatch c b acts).highway = s.highway ∧ (s.planBatch c b acts).port = s.port ∧
    (s.planBatch c b acts).submits = s.submits ∧ (s.planBatch c b acts).free = s.free ∧
    (s.planBatch c b acts).pending = s.pending := by
  have hf := fun (x : State) (plan : List PlanEntry) => x.tallyRanges_frame plan
  unfold State.planBatch
  dsimp only
  split <;> simp [hf]

/-- A run of plannings leaves the time scale, the port and the model's counters as they were. -/
theorem State.advance_frame (c : ChannelNo) (fuel : Nat) (s : State) :
    (State.advance c fuel s).time = s.time ∧ (State.advance c fuel s).port = s.port ∧
    (State.advance c fuel s).submits = s.submits ∧ (State.advance c fuel s).free = s.free ∧
    (State.advance c fuel s).pending = s.pending := by
  induction fuel generalizing s with
  | zero => simp [State.advance]
  | succ fuel ih =>
    unfold State.advance
    split
    · simp
    · dsimp only
      split
      · simp
      next ahead b _ _ =>
        obtain ⟨h1, h2, h3, h4, h5⟩ := ih (s.planBatch c b (actsEarliest ahead b)).arbitrate
        obtain ⟨p1, _, _, p2, p3, p4, p5⟩ := s.planBatch_frame c b (actsEarliest ahead b)
        simp [h1, h2, h3, h4, h5, p1, p2, p3, p4, p5]

theorem State.newCandidate_frame (s : State) (c : ChannelNo) :
    (s.newCandidate c).time = s.time ∧ (s.newCandidate c).port = s.port ∧
    (s.newCandidate c).submits = s.submits ∧ (s.newCandidate c).free = s.free ∧
    (s.newCandidate c).pending = s.pending := State.advance_frame c _ s

theorem State.planCandidate_frame (s : State) (c : ChannelNo) :
    (s.planCandidate c).time = s.time ∧ (s.planCandidate c).port = s.port ∧
    (s.planCandidate c).submits = s.submits ∧ (s.planCandidate c).free = s.free ∧
    (s.planCandidate c).pending = s.pending := by
  unfold State.planCandidate
  split
  next p b _ =>
    obtain ⟨h1, h2, h3, h4, h5⟩ := (s.planBatch c b false).arbitrate.newCandidate_frame c
    obtain ⟨p1, _, _, p2, p3, p4, p5⟩ := s.planBatch_frame c b false
    simp [h1, h2, h3, h4, h5, p1, p2, p3, p4, p5]
  · simp

/-- With no QUEUED record the compute timer stops and nothing is planned (05, R91). -/
theorem State.newCandidate_none (s : State) (c : ChannelNo) (h : (s.channel c).candidate = none) :
    s.newCandidate c = s.setTimer c none := by
  unfold State.newCandidate State.advance
  simp [h]

/-- A candidate whose compute point lies ahead waits for it (05, R91). -/
theorem State.newCandidate_waits (s : State) (c : ChannelNo) (ahead : Option Batch) (b : Batch)
    (h : (s.channel c).candidate = some (ahead, b))
    (hl : later (computePointOf (s.channel c).settings s.now (actsEarliest ahead b) b) s.now = true) :
    s.newCandidate c = s.setTimer c
      (some (computePointOf (s.channel c).settings s.now (actsEarliest ahead b) b)) := by
  unfold State.newCandidate State.advance
  simp [h, hl]

end Sys2Proof.Machine
end

