-- ==== Sys2Proof/Tests/Slice0.lean ====
section
/-! SUPPORT. Tests of the model, one step or one frame each: the checks of WellFormed, frames written out
byte by byte from 09, the worked examples of 01, 03, 04, 06, 07 and 10, and for each statement with
hypotheses a concrete state and operands that meet them. -/

namespace Sys2Proof.Tests

open Sys2Proof Sys2Proof.Machine

set_option Elab.async false

/-! ### Small states -/

/-- A record of a site on every channel, with the default configuration. -/
def record (phase : SitePhase) (d : Option Nat) (u : Nat) : Enrolled where
  phase := phase
  config := .default
  est := { Estimate.fresh d 0 with u := u }
  clampTally := 0
  clampFlag := false
  carriers := Vector.replicate 4 (some ⟨none⟩)
  cadence := some 100
  deafenUntil := none

/-- The same record with E, O, W and the confirmed end of one channel. -/
def figures (d u e : Nat) (o : Int) (w : Nat) (c : ChannelNo) (confirmed : Option HubTime) :
    Enrolled :=
  let r := record .tracking (some d) u
  { r with
    config := { r.config with e := e, o := o, w := w }
    carriers := (Vector.replicate 4 none).set c (some ⟨confirmed⟩) }

def withSite (s : State) (n : SiteNo) (e : Enrolled) : State :=
  { s with sites := s.sites.set n ⟨false, 0, some e⟩ }

def at' (s : State) (x : HubTime) : State := { s with time := { s.time with hub := x } }

def busy (s : State) (x : HubTime) : State :=
  { s with highway := { s.highway with line := .busy (.probe 0 0) x } }

def withSlot (s : State) (i : SlotNo) (p : Slot) : State :=
  { s with meas := { s.meas with slots := s.meas.slots.set i (some p) } }

def withQueue (s : State) (c : ChannelNo) (bs : List Batch) : State :=
  { s with channels := s.channels.set c { s.channels[c] with queue := bs } }

def withSettings (s : State) (c : ChannelNo) (f : ChannelSettings → ChannelSettings) : State :=
  { s with channels := s.channels.set c { s.channels[c] with settings := f s.channels[c].settings } }

def withTimer (s : State) (c : ChannelNo) (x : HubTime) : State :=
  { s with channels := s.channels.set c { s.channels[c] with timer := some x } }

def withZone (s : State) (z : ZoneNo) (r : Zone) : State := { s with zones := s.zones.set z (some r) }

def locked (s : State) : State :=
  { s with time := { s.time with
      mode := .locked, present := true, expected := some 10000000, miss := some 10000010 } }

/-- A QUEUED batch of two spans and 10,000,000 ticks (05, the example of R86). -/
def queued (tag : Nat) (mode : TimingMode) (sites : Option (List SiteNo)) : Batch where
  tag := tag
  serial := 0
  mode := mode
  sites := sites
  notice := false
  spans := [⟨1200, .zero, .two, some 9⟩, ⟨0, .one, .two, none⟩, ⟨800, .one, .four, none⟩]
  duration := 10000000
  predEnd := none
  state := .queued
  air := none
  slip := 0
  unverified := false
  warnings := 0
  reason := none
  partialMark := false
  flushed := false
  counts := none
  summary := none
  plan := []

/-- An INCLUDED entry in an order state. -/
def entry (o : OrderState) (release deadline : HubTime) : Included where
  target := 800000000
  release := release
  deadline := deadline
  preKey := false
  order := o
  armMargin := 20000
  released := true
  verdict := none
  departure := none
  hold := none
  receiptDeadline := none
  abortDeadline := none

/-- A batch with a plan, air time 80,000,000 and duration 4,000,000. -/
def planned (tag : Nat) (st : BatchState) (plan : List PlanEntry) : Batch :=
  { queued tag (.absolute 80000000) none with
    state := st, air := some 80000000, duration := 4000000, plan := plan }

def include' (n : SiteNo) (e : Included) : PlanEntry := ⟨n, .included e⟩

/-- The state a row leaves; every row of the model leaves one. -/
def after (i : Instr) (s : State) : State :=
  match exec i s with
  | .next t => t
  | .fault _ => s
  | .refused _ => s

/-! ### WellFormed refuses ill-formed operands -/

theorem test_wf_site_fields :
    (Instr.enrol 0 256 {}).wf = false ∧ (Instr.enrol 0 255 {}).wf = true ∧
    (Instr.enrol 0 0 { members := some [256] }).wf = false ∧
    (Instr.enrol 0 0 { members := some (List.replicate 256 0) }).wf = false ∧
    (Instr.enrol 0 0 { steer := some 256 }).wf = false ∧
    (Instr.enrol 0 0 { share := some 65536 }).wf = false ∧
    (Instr.enrol 0 0 { e := some 4294967296 }).wf = false ∧
    (Instr.enrol 0 0 { o := some 2147483648 }).wf = false ∧
    (Instr.enrol 0 0 { o := some (-2147483649) }).wf = false ∧
    (Instr.enrol 0 0 { m := some (2 ^ 40) }).wf = false ∧
    (Instr.amendSite 0 0 { w := some (2 ^ 40) }).wf = false ∧
    (Instr.amendSite 0 0 { idleHold := some (2 ^ 32) }).wf = false ∧
    (Instr.amendSite 0 0 { ceiling := some (2 ^ 40) }).wf = false ∧
    (Instr.amendSite 0 0 { fast := some (2 ^ 32) }).wf = false ∧
    (Instr.amendSite 0 0 { slow := some (2 ^ 32) }).wf = false ∧
    (Instr.amendSite 0 0 { gateFloor := some (2 ^ 32) }).wf = false ∧
    (Instr.amendSite 0 0 { gain := some 256 }).wf = false ∧
    (Instr.amendSite 0 0 { seed := some (2 ^ 32) }).wf = false ∧
    (Instr.amendSite 0 0 { seed := some (2 ^ 32 - 1), o := some (-2147483648) }).wf = true := by
  decide +kernel

theorem test_wf_numbers :
    (Instr.querySite 0 256).wf = false ∧ (Instr.retire 0 256).wf = false ∧
    (Instr.probe 0 256 0).wf = false ∧ (Instr.probe 0 0 256).wf = false ∧
    (Instr.dropZone 0 256).wf = false ∧ (Instr.queryZone 0 256).wf = false ∧
    (Instr.flushChannel 0 256).wf = false ∧ (Instr.pin 0 256).wf = false ∧
    (Instr.unpin 0 256).wf = false ∧ (Instr.cancel 0 65536).wf = false ∧
    (Instr.queryBatch 0 65536).wf = false ∧ (Instr.collect 0 (.byTag 65536)).wf = false ∧
    (Instr.collect 0 (.byChannel 256)).wf = false ∧ (Instr.timeMark 0 (2 ^ 32)).wf = false ∧
    (Instr.setHighway 0 65536).wf = false ∧ (Instr.release 65536 0).wf = false ∧
    (Instr.withdrawal 65536 0).wf = false ∧ (Instr.airTime 65536).wf = false ∧
    (Instr.batchEnd 65536).wf = false ∧ (Instr.receiptDeadline 65536 0).wf = false ∧
    (Instr.abortDeadline 65536 0).wf = false ∧ (Instr.cancel 0 65535).wf = true := by
  decide +kernel

theorem test_wf_settings :
    (Instr.setMeasurement 0 { settleCount := some 256 }).wf = false ∧
    (Instr.setMeasurement 0 { staleLimit := some 256 }).wf = false ∧
    (Instr.setMeasurement 0 { stepConfirm := some 256 }).wf = false ∧
    (Instr.setMeasurement 0 { quietGap := some (2 ^ 32) }).wf = false ∧
    (Instr.setTimebase 0 { edgeFilter := some 256 }).wf = false ∧
    (Instr.setTimebase 0 { lockWindow := some (2 ^ 40) }).wf = false ∧
    (Instr.setTimebase 0 { holdoverLimit := some (2 ^ 32) }).wf = false ∧
    (Instr.setChannel 0 256 {}).wf = false ∧
    (Instr.setChannel 0 0 { period0 := some (2 ^ 40) }).wf = false ∧
    (Instr.setChannel 0 0 { period1 := some (2 ^ 40) }).wf = false ∧
    (Instr.setChannel 0 0 { guardTime := some (2 ^ 40) }).wf = false ∧
    (Instr.setChannel 0 0 { computeLead := some (2 ^ 32) }).wf = false ∧
    (Instr.setChannel 0 0 { dispatch := some (2 ^ 40) }).wf = false ∧
    (Instr.setChannel 0 0 { slipLimit := some (2 ^ 32) }).wf = false ∧
    (Instr.setChannel 0 0 { gridPeriod := some (2 ^ 40) }).wf = false ∧
    (Instr.setChannel 0 0 { gridOrigin := some (2 ^ 40) }).wf = false ∧
    (Instr.setChannel 0 0 { notice := some 256 }).wf = false ∧
    (Instr.setChannel 0 0 { gridPeriod := some (2 ^ 40 - 1) }).wf = true := by
  decide +kernel

theorem test_wf_zones_and_batches :
    (Instr.defineZone 0 256 ⟨0, 1, 0, 1, 0⟩).wf = false ∧
    (Instr.defineZone 0 0 ⟨256, 1, 0, 1, 0⟩).wf = false ∧
    (Instr.defineZone 0 0 ⟨0, 256, 0, 1, 0⟩).wf = false ∧
    (Instr.defineZone 0 0 ⟨0, 1, 2147483648, 1, 0⟩).wf = false ∧
    (Instr.defineZone 0 0 ⟨0, 1, 0, 4294967296, 0⟩).wf = false ∧
    (Instr.defineZone 0 0 ⟨0, 1, 0, 1, 256⟩).wf = false ∧
    (Instr.amendZone 0 256 {}).wf = false ∧ (Instr.amendZone 0 0 { siteA := some 256 }).wf = false ∧
    (Instr.amendZone 0 0 { siteB := some 256 }).wf = false ∧
    (Instr.amendZone 0 0 { g := some 2147483648 }).wf = false ∧
    (Instr.amendZone 0 0 { budget := some 4294967296 }).wf = false ∧
    (Instr.amendZone 0 0 { policy := some 256 }).wf = false ∧
    (Instr.submit 0 ⟨256, 0, 1, none, none, false, []⟩).wf = false ∧
    (Instr.submit 0 ⟨0, 65536, 1, none, none, false, []⟩).wf = false ∧
    (Instr.submit 0 ⟨0, 0, 256, none, none, false, []⟩).wf = false ∧
    (Instr.submit 0 ⟨0, 0, 0, none, none, false, []⟩).wf = false ∧
    (Instr.submit 0 ⟨0, 0, 1, none, some [256], false, []⟩).wf = false ∧
    (Instr.submit 0 ⟨0, 0, 1, none, none, false, [⟨65536, .zero, .two, none⟩]⟩).wf = false ∧
    (Instr.submit 0 ⟨0, 0, 1, none, none, false, [⟨1, .zero, .two, some 65536⟩]⟩).wf = false ∧
    (Instr.submit 0 ⟨0, 0, 0, some 7, none, false, [⟨1, .zero, .two, some 65535⟩]⟩).wf = true := by
  decide +kernel

/-! ### Frames written out from 09, with check fields worked out from its polynomial by hand -/

/-- The check value of the polynomial of 09 with initial value all ones over the ASCII digits 1 to 9. -/
theorem test_crc : crc16 [0x31, 0x32, 0x33, 0x34, 0x35, 0x36, 0x37, 0x38, 0x39] = 0x29B1 := by
  decide +kernel

/-- Length byte, identifier, label, mask, fields, check field; bytes behind the frame are ignored. -/
theorem test_frames_of_commands :
    readCommandFrame [7, 0x16, 5, 0x80, 0x08, 0x00, 0xD6, 0x65] = .row (.setHighway 5 2048) ∧
    readCommandFrame [5, 0x17, 9, 0x00, 0xB0, 0xF7, 0xEE] = .row (.readStatus 9) ∧
    readCommandFrame [7, 0x0D, 1, 0x80, 0x01, 0xF5, 0xF1, 0x13] = .row (.cancel 1 501) ∧
    readCommandFrame [7, 5, 2, 0xC0, 22, 3, 0x60, 0x72] = .row (.probe 2 22 3) ∧
    readCommandFrame [17, 7, 3, 0xFC, 3, 7, 12, 0, 0, 0, 96, 0, 0, 3, 0x20, 0, 0xAA, 0x5E] =
      .row (.defineZone 3 3 ⟨7, 12, 96, 800, 0⟩) ∧
    readCommandFrame [11, 1, 4, 0xD0, 0, 22, 1, 0, 0, 128, 0x93, 0xB1] =
      .row (.enrol 4 22 { members := some [0], share := some 128 }) ∧
    readCommandFrame [12, 11, 6, 0x81, 0, 1, 0, 0, 0x0F, 0x42, 0x40, 0xB0, 0x9C] =
      .row (.setChannel 6 1 { gridPeriod := some 1000000 }) := by
  decide +kernel

/-- A poll; a frame that breaks off, fails its check field, or names no command (08, R149). -/
theorem test_frames_malformed :
    readCommandFrame [] = .poll ∧ readCommandFrame [0, 1, 2] = .poll ∧
    readCommandFrame [7, 0x16] = .row (.malformedFrame (some 0x16) none) ∧
    readCommandFrame [7, 0x16, 5, 0x80, 0x08, 0x01, 0xD6, 0x65] =
      .row (.malformedFrame (some 0x16) (some 5)) ∧
    readCommandFrame ((fun f => (BitVec.ofNat 8 f.length) :: f) (withCheck [25, 3, 0])) =
      .row (.malformedFrame (some 25) (some 3)) := by
  decide +kernel

theorem test_frames_of_the_highway :
    readInboundFrame [155, 129, 30, 90, 0, 100, 0x95, 0x5D] = some (.echo 30 90 100) ∧
    readInboundFrame [155, 130, 15, 0, 0x01, 0x9A, 0, 0, 100, 0xE1, 0xB7] =
      some (.receipt 15 0 410 0 100) ∧
    readInboundFrame [155, 131] = some (.inboundFrameDiscarded .badKind) ∧
    readInboundFrame [154, 131] = none ∧
    readInboundFrame [155, 129, 30, 90, 0, 101, 0x95, 0x5D] =
      some (.inboundFrameDiscarded .badCheck) ∧
    (HighwayFrame.probe 30 90).bytes = [155, 1, 30, 90, 0x20, 0x6F] := by
  decide +kernel

/-- The order of site 7 in the example of 09: 22 bytes, byte 9 with remainder 6 and span count 2. -/
theorem test_frame_of_an_order :
    let f := HighwayFrame.order 7 1 520 ⟨6954938, 6⟩ false
      (sentSpans (queued 1 .follow none).spans)
    f.bytes.length = 22 ∧ f.size = 22 ∧ f.bytes[9]? = some 0x62 ∧
    f.bytes.take 9 = [155, 3, 7, 1, 2, 8, 0x6A, 0x1F, 0xBA] := by
  decide +kernel

/-- No row of the opcode table has bits, so no word spells a row. -/
theorem test_decode_no_bits : decodeTableWord 0 0 = none ∧ decodeTableWord 32 0xFFFFFFFF = none := by
  decide

/-! ### The time scale: the example of 01 -/

/-- The first edge: capture 3,456,789 is stepped to hub time 7 as it is accepted. -/
theorem test_edge_first_step :
    let s := at' State.reset 3456796
    let s := { s with time := { s.time with present := true, filter := .high 8 3456789 true } }
    let t := (after .edgeAccepted s).time
    t.hub = 7 ∧ t.lastOffset = some 3456789 ∧ t.step = none ∧ t.flag = true ∧ t.inRun = 0 ∧
    t.mode = .acquiring := by
  decide +kernel

/-- The third in-window edge, capture 30,000,003, locks with remainder +3. -/
theorem test_edge_lock :
    let s := at' State.reset 30000010
    let s := { s with time := { s.time with
      present := true, filter := .high 8 30000003 true, lastOffset := some (-1), inRun := 2 } }
    let t := (after .edgeAccepted s).time
    t.mode = .locked ∧ t.slew = 3 ∧ t.inRun = 0 ∧ t.outRun = 0 ∧ t.flag = true ∧
    t.expected = some 40000000 ∧ t.miss = some 40000010 := by
  decide +kernel

/-- The mark is resolved at the deferred edge, and the step is applied once no batch is active. -/
theorem test_edge_deferred_mark :
    let s := locked (withQueue (at' State.reset 50000007) 0 [planned 1 .onAir []])
    let s := { s with time := { s.time with
      filter := .high 8 50000000 true, step := some ⟨some 1000, 0⟩ } }
    let t := after .edgeAccepted s
    t.time.step = some ⟨none, 9950000000⟩ ∧ t.time.hub = 50000007 ∧
    let s := { withQueue (at' t 70000007) 0 [] with time := { t.time with
      hub := 70000007, filter := .high 8 70000000 true } }
    let t := after .edgeAccepted s
    t.time.hub = 10020000007 ∧ t.time.expected = some 10030000000 ∧ t.time.step = none := by
  decide +kernel

theorem test_slew_holds_a_tick :
    let s := locked (at' State.reset 30000011)
    let s := { s with time := { s.time with slew := 3, slewFirst := true } }
    let t := after .slewAdjustment s
    t.time.hub = 30000011 ∧ t.time.slew = 2 ∧ t.time.pace = 0 := by
  decide +kernel

/-! ### Samples: the examples of 03 and 10 -/

/-- Samples 1 and 2 of site 22: a first sample, then an update with k = 1 (10). -/
theorem test_samples_settling :
    let e := record .settling none 0
    let (e1, a1) := e.foldSample .reset 100050600 100000300 300
    let (e2, a2) := e1.foldSample .reset 102550604 102500300 300
    e1.est.d = some 400000 ∧ a1 = true ∧ e1.est.acceptedCount = 1 ∧ e2.est.d = some 400016 ∧
    e2.est.u = 96 ∧ a2 = true ∧ e2.est.acceptedCount = 2 := by
  decide +kernel

/-- The reroute of 03: the third failing sample steps, and sample 5 rounds toward minus infinity. -/
theorem test_samples_reroute :
    let e := { record .tracking (some 671738) 143 with
      est := { (record .tracking (some 671738) 143).est with acceptedCount := 255, rejects := 2 } }
    let (e3, a3) := e.foldSample .reset 96000 0 0
    let (e4, _) := e3.foldSample .reset 96002 0 0
    let (e5, _) := e4.foldSample .reset 95998 0 0
    e3.est.d = some 768000 ∧ e3.est.u = 160 ∧ e3.phase = .settling ∧ e3.est.acceptedCount = 1 ∧
    a3 = true ∧ e4.est.d = some 768008 ∧ e4.est.u = 88 ∧ e5.est.d = some 767996 ∧
    e5.est.u = 56 := by
  decide +kernel

/-- The settling of site 22 starts with a probe that departs in sequence 0 with timeout 108,454,444
(10): the line takes it as the timer of ENROL expires at once. -/
theorem test_enrol_probes_at_once :
    let s := at' State.reset 100000300
    let t := after (.enrol 4 22 { members := some [0] }) s
    ((t.slot 0).bind Slot.flight) = some ⟨0, 100000300, 108454444⟩ ∧
    ((t.enrolled 22).map fun e => (e.phase, e.est.sequence, e.cadence)) =
      some (.settling, 1, some 102500300) ∧ (t.site 22).change = false := by
  decide +kernel

/-! ### Echoes: the stray of 10 -/

def straySite : State :=
  let e := record .tracking (some 80000) 100
  withSlot (withSite (busy State.reset 400000000) 30 { e with
    config := { e.config with ceiling := 1000000 }, est := { e.est with sequence := 91 } }) 5
    ⟨30, 299999000, false, 0, some ⟨90, 300000000, 301065536⟩⟩

theorem test_echo_stray_deafens :
    let t := after (.echo 30 55 100) (at' straySite 300005000)
    ((t.enrolled 30).map fun e => (e.deafenUntil, e.est.totals.stray)) =
      some (some 302005000, 1) ∧ t.slot 5 = straySite.slot 5 ∧ t.highway.errors = 0 := by
  decide +kernel

/-- Had the good echo come first: matched, S = 80,000, the slot freed. -/
theorem test_echo_matched :
    let t := after (.echo 30 90 100) { at' straySite 300010110 with
      highway := { straySite.highway with assembler := .collect 300010100 none [155] } }
    ((t.enrolled 30).map fun e => (e.est.d, e.est.u, e.est.totals.accepted)) =
      some (some 80000, 88, 1) ∧ t.slot 5 = none := by
  decide +kernel

theorem test_timeout_counts :
    let t := after (.probeTimeout 5) (at' straySite 301065536)
    ((t.enrolled 30).map fun e => (e.est.failures, e.est.lastTimedOut, e.phase)) =
      some (1, some 90, .tracking) ∧ t.slot 5 = none := by
  decide +kernel

/-! ### Zones: the pass of 04 -/

def passSites : List Candidate :=
  [⟨4, 0, ⟨some 0, 300, 0, 120, 20000, 0⟩, false⟩, ⟨7, 0, ⟨some 0, 143, 0, 32, 20000, 0⟩, false⟩,
   ⟨12, 0, ⟨some 0, 210, 0, -48, 20000, 0⟩, false⟩, ⟨20, 0, ⟨some 0, 95, 0, 0, 20000, 0⟩, false⟩]

def passZones (budget30 : Nat) : State :=
  withZone (withZone (withZone (withZone (withZone State.reset
    3 ⟨7, 12, 96, 800, .warn, none, some .aLeads, 2, 0, false⟩)
    11 ⟨4, 7, -200, 500, .dropWorse, none, some .aLeads, 0, 5, false⟩)
    17 ⟨4, 20, 0, 1000, .warn, none, none, 0, 0, false⟩)
    30 ⟨12, 20, -40, budget30, .hold, none, none, 0, 0, false⟩)
    41 ⟨7, 20, 0, 16, .warn, none, some .bLeads, 0, 9, false⟩

theorem test_zone_pass :
    let p := (passZones 400).zonePass passSites
    p.included.map Candidate.site = [7, 12, 20] ∧ p.removed = [4] ∧ p.warnings = 1 ∧
    p.stopped = false ∧
    p.zones[3] = some ⟨7, 12, 96, 800, .warn, some (-16), some .aLeads, 2, 0, false⟩ ∧
    p.zones[11] = some ⟨4, 7, -200, 500, .dropWorse, some 288, some .bLeads, 1, 6, true⟩ ∧
    p.zones[17] = some ⟨4, 20, 0, 1000, .warn, none, none, 0, 0, false⟩ ∧
    p.zones[41] = some ⟨7, 20, 0, 16, .warn, some 32, some .bLeads, 0, 10, true⟩ := by
  decide +kernel

theorem test_zone_pass_hold :
    let p := (passZones 300).zonePass passSites
    p.stopped = true ∧ p.removed = [4] ∧ p.warnings = 0 ∧ p.zones[41] = (passZones 300).zones[41] ∧
    (p.zones[30].map fun z => (z.fails, z.failFlag)) = some (1, true) := by
  decide +kernel

/-- With site 4 in FORCE_IN, site 7 is excluded in its place. -/
theorem test_zone_pass_forced :
    let e := record .tracking (some 0) 300
    let s := withSite (passZones 400) 4 { e with config := { e.config with steer := .forceIn } }
    let p := s.zonePass passSites
    p.included.map Candidate.site = [4, 12, 20] ∧ p.removed = [7] ∧ p.warnings = 0 ∧
    p.zones[17] = some ⟨4, 20, 0, 1000, .warn, some 120, some .bLeads, 0, 0, false⟩ := by
  decide +kernel

/-! ### Planning: the examples of 06 and 10 -/

/-- Batch 410 of 10 at its compute point. -/
def batch410 : State :=
  let s := at' State.reset 48000000
  let s := withSite (withSite (withSite s
    7 (figures 671738 143 16000 32 5000000 0 (some 45000000)))
    12 (figures 400000 210 8000 (-48) 5000000 0 (some 45000000)))
    15 (figures 160000 95 0 0 1000000 0 none)
  let s := withZone (withZone s 3 ⟨7, 12, 96, 800, .warn, none, none, 0, 0, false⟩)
    8 ⟨12, 15, 100, 300, .dropWorse, none, none, 0, 0, false⟩
  withTimer (withQueue s 0 [queued 410 (.absolute 50000000) none]) 0 48000000

theorem test_compute_point_410 :
    let t := after (.computePoint 0) batch410
    let b := (t.channel 0).find 410
    (b.map fun b => (b.state, b.air, b.endTime)) =
      some (.planned, some 50000000, some 60000000) ∧
    ((b.bind fun b => b.entryOf 7).map fun e => (e.target, e.release, e.deadline, e.preKey)) =
      some (799312294, 33179803, 49937018, false) ∧
    ((b.bind fun b => b.entryOf 15).map fun e => (e.deadline, e.preKey)) = some (48970000, true) ∧
    ((b.bind fun b => b.entryOf 15).map fun e => (e.hold, e.receiptDeadline)) =
      some (some ⟨1990000, 0⟩, some 56454144) ∧
    (b.map fun b => b.plan.map PlanEntry.site) = some [7, 12, 15] := by
  decide +kernel

theorem test_compute_point_410_zone_and_line :
    let t := after (.computePoint 0) batch410
    t.zone 8 = some ⟨12, 15, 100, 300, .dropWorse, some (-148), some .aLeads, 0, 1, true⟩ ∧
    (t.highway.line = .busy (.order 15 0 410 ⟨1990000, 0⟩ true
      [⟨1200, .zero, .two, some 9⟩, ⟨800, .one, .four, none⟩]) 48000860) := by
  decide +kernel

/-- Site 7's order departs when the line falls free, and the batch is ARMED. -/
theorem test_line_free_410 :
    let t := after .lineFree (at' (after (.computePoint 0) batch410) 48000860)
    let b := (t.channel 0).find 410
    (b.map Batch.state) = some .armed ∧
    ((b.bind fun b => b.entryOf 7).map fun e => (e.order, e.hold, e.receiptDeadline)) =
      some (.sent, some ⟨1956158, 6⟩, some 56455004) := by
  decide +kernel

/-- The slip example of 06, with the slip limit in ms. -/
def slipBatch (limit : Nat) : State :=
  let s := busy (at' State.reset 48000000) 48000360
  let s := withSite (withSite (withSite s
    7 (figures 671738 143 16000 32 5000000 1 (some 45000000)))
    12 (figures 400000 210 8000 (-48) 5000000 1 none))
    20 (figures 160000 95 0 0 6000000 1 (some 12000000))
  let s := withSettings s 1 fun g => { g with slipLimit := limit, gridPeriod := 1000000 }
  withTimer (withQueue s 1 [queued 600 (.absolute 50000000) (some [7, 12, 20])]) 1 48000000

theorem test_slip :
    let t := after (.computePoint 1) (slipBatch 500)
    let b := (t.channel 1).find 600
    (b.map fun b => (b.air, b.slip, b.state)) = some (some 55000000, 5000000, .planned) ∧
    ((b.bind fun b => b.entryOf 7).map fun e => (e.target, e.deadline, e.preKey)) =
      some (879312294, 54937018, false) ∧
    ((b.bind fun b => b.entryOf 12).map fun e => (e.deadline, e.preKey)) =
      some (49954497, true) ∧
    ((b.bind fun b => b.entryOf 20).map fun e => (e.release, e.deadline, e.preKey)) =
      some (38212785, 48970000, true) := by
  decide +kernel

theorem test_slip_fails :
    let t := after (.computePoint 1) (slipBatch 400)
    let b := (t.channel 1).find 600
    (b.map fun b => (b.air, b.slip)) = some (some 50000000, 0) ∧
    (b.bind fun b => b.plan[1]?) = some ⟨12, .excluded .late⟩ ∧
    ((b.bind fun b => b.entryOf 20).map fun e => (e.deadline, e.preKey)) =
      some (49970000, false) := by
  decide +kernel

/-- The EARLIEST batch of 10 with its three passes of standby. The example has every site ready for
4,000,000 ticks after its confirmed end; by R115 that is an idle hold of 4, not the 40 it names
(notes/assumptions 28). -/
theorem test_earliest_grid :
    let figures d u e o w c x :=
      let r := figures d u e o w c x
      { r with config := { r.config with idleHold := 4 } }
    let s := busy (at' State.reset 200000000) 300000000
    let s := withSite (withSite (withSite s
      7 (figures 671738 143 16000 32 5000000 1 (some 199000000)))
      12 (figures 400000 210 8000 (-48) 5000000 1 none))
      20 (figures 160000 95 0 0 6000000 1 (some 196500000))
    let s := withSettings s 1 fun g => { g with gridPeriod := 1000000 }
    let t := after (.submit 1 ⟨1, 520, 2, none, none, false, [⟨1000, .zero, .two, none⟩]⟩) s
    let b := (t.channel 1).find 520
    (b.map fun b => (b.air, b.slip, b.state)) = some (some 207000000, 0, .planned) ∧
    ((b.bind fun b => b.entryOf 7).map fun e => (e.target, e.release, e.deadline, e.preKey)) =
      some (3311312294, 190179803, 201937018, true) ∧
    ((b.bind fun b => b.entryOf 20).map fun e => e.deadline) = some 200970000 := by
  decide +kernel

/-! ### Cancelling: the sequence of 10 -/

def sentEntry (o : OrderState) (departure : HubTime) (hold m : Nat) : Included :=
  { entry o 0 0 with departure := some departure, hold := some ⟨hold, 0⟩, armMargin := m }

def batch710 : State :=
  withQueue (busy (at' State.reset 71180000) 71180700) 2 [planned 710 .armed
    [include' 4 (sentEntry .sent 70000000 9500000 20000),
     include' 9 (sentEntry .receipted 70000860 1200000 20000),
     include' 21 (sentEntry .receipted 70001720 9000000 500000)]]

theorem test_cancel_710 :
    let t := after (.cancel 1 710) batch710
    t.highway.aborts = [⟨2, 710, 4⟩, ⟨2, 710, 9⟩, ⟨2, 710, 21⟩] ∧
    ((t.channel 2).find 710).map (fun b => (b.state, b.included.map fun e =>
      (e.order, e.abortDeadline))) = some (.cancelling, [(.aborting, some 79480000),
        (.aborting, some 71180860), (.aborting, some 78501720)]) ∧
    (t.port.forming.map fun f => f.response.result) = some .pending := by
  decide +kernel

/-- The abort of site 4 leaves the line busy until 71,181,013; the deadline of site 9 then passes. -/
theorem test_abort_710 :
    let t := after .lineFree (at' (after (.cancel 1 710) batch710) 71180700)
    let t' := after (.abortDeadline 710 9) (at' t 71180860)
    t.highway.line = .busy (.abort 4 2 710) 71181013 ∧
    t'.highway.aborts = [⟨2, 710, 21⟩] ∧
    ((t'.channel 2).find 710).map (fun b => b.included.map Included.order) =
      some [.aborted, .abortMissed, .aborting] := by
  decide +kernel

/-! ### The port and the tables -/

theorem test_submit_duration :
    batchDuration .reset (queued 1 .follow none).spans = 10000000 := by
  decide +kernel

theorem test_status_after_submit :
    let t := after (.readStatus 2) (withSite State.reset 3 (record .retiring none 0))
    (t.port.forming.map fun f => (f.response.answered, f.response.label, f.response.result)) =
      some (23, 2, .done) := by
  decide +kernel

theorem test_working_is_presented :
    let t := after .transactionBegin (after (.readTime 1) State.reset)
    (t.port.transaction.map fun x => x.presented) = some .working ∧
    after (.timeMark 2 5) t = t.endTransaction := by
  decide +kernel

theorem test_grid_ceiling : gridCeiling 1000000 250000 53095503 = 53250000 := by
  decide +kernel

/-- The first presentation is 14 bytes, the check field last, and then fill of all ones; PDO is at high
impedance without a transaction (08, R148; 09). -/
theorem test_pdo :
    let p := (after .transactionBegin State.reset).port
    (p.transaction.map fun x => (x.frame.length, x.pdo 0, x.pdo 1, x.pdo 9, x.pdo 14)) =
      some (14, 0, 12, 4, 255) ∧ p.pdo = some 0 ∧ State.reset.port.pdo = none := by
  decide +kernel

/-! ### Witnesses

For each statement with hypotheses a theorem `witness_<its name>`: from the statement, applied at a concrete
state and concrete operands, what one of its clauses says there. Each proof meets every hypothesis of
the clause it applies, at a boundary value where the clause has a range. -/

/-- No slot, no record and the like: what is said of each of them holds. -/
theorem of_none {ι α : Type} {f : ι → Option α} (h : ∀ i, f i = none) {P : ι → α → Prop} :
    ∀ i a, f i = some a → P i a := fun i a e => by simp [h i] at e

/-- What every included entry of a plan says. -/
theorem of_plan {plan : List PlanEntry} {P : Included → Prop} [DecidablePred P]
    (h : (plan.all fun p => match p.disp with
      | .included e => decide (P e)
      | .excluded _ => true) = true) :
    ∀ p e, p ∈ plan → p.disp = .included e → P e := by
  intro p e hp he
  have := List.all_eq_true.mp h p hp
  rw [he] at this
  exact of_decide_eq_true this

theorem no_entry {plan : List PlanEntry} {o : OrderState}
    (h : (plan.all fun p => match p.disp with
      | .included e => decide (e.order ≠ o)
      | .excluded _ => true) = true) :
    ¬ ∃ p e, p ∈ plan ∧ p.disp = .included e ∧ e.order = o := fun ⟨p, e, hp, he, ho⟩ =>
  of_plan (P := fun e => e.order ≠ o) h p e hp he ho

/-- The line BUSY until 500. -/
def line : State := busy State.reset 500

/-- Every probe slot claimed. -/
def full (s : State) : State :=
  { s with meas := { s.meas with
      slots := Vector.ofFn fun i => some ⟨⟨40 + i.val, by omega⟩, 5, false, 0, none⟩ } }

def tracking : Enrolled := record .tracking (some 80000) 100
def retiring : Enrolled := record .retiring (some 3) 0

/-- A high pulse that has reached the edge filter. -/
def edge (s : State) (run : Nat) (c : HubTime) : State :=
  { s with time := { s.time with filter := .high run c true } }

/-- A timebase in HOLDOVER with the reference present. -/
def holding (s : State) (elapsed periods : Nat) : State :=
  { s with time := { s.time with
      mode := .holdover, present := true, holdover := elapsed, holdoverPeriods := periods } }

/-- A response in formation since `age` periods. -/
def forming (age : Nat) : State :=
  { State.reset with port := { State.reset.port with
      forming := some ⟨⟨20, 1, 0, .pending, .empty⟩, age, 0⟩ } }

/-- A row that leaves a next state leaves the one of `after`. -/
theorem exec_after {i : Instr} {s : State}
    (h : (match exec i s with
      | .next _ => true
      | _ => false) = true) : exec i s = .next (after i s) := by
  unfold after
  split at h <;> simp_all

/-- A batch that is QUEUED or held, with air time 30,000,000. -/
def short (tag : Nat) (st : BatchState) : Batch :=
  { queued tag (.absolute 30000000) none with state := st }

/-- The line BUSY at hub time `x`, a batch at the front of channel 2 and one QUEUED behind it. -/
def onChannel (x : HubTime) (b : Batch) : State := withQueue (at' line x) 2 [b, short 1 .queued]

/-- Batch 710 with a WAITING entry of site 4, another entry in a state of its own, and an exclusion. -/
def mixed (st : BatchState) (o : OrderState) : Batch :=
  planned 710 st [include' 4 (entry .waiting 10 20), include' 9 (sentEntry o 1 2 3),
    ⟨11, .excluded .late⟩]

/-- Batch 710 in CANCELLING, its abort of site 4 outstanding until 60. -/
def cancelling (o : OrderState) : Batch :=
  planned 710 .cancelling [include' 4 { sentEntry .aborting 1 2 3 with abortDeadline := some 60 },
    include' 9 { sentEntry o 1 2 3 with abortDeadline := some 60, receiptDeadline := some 60 }]

/-- Its frames on the abort list. -/
def aborts (s : State) : State :=
  { s with highway := { s.highway with aborts := [⟨2, 710, 4⟩, ⟨2, 710, 9⟩, ⟨1, 710, 4⟩] } }

/-- A frame in COLLECT with the bytes received so far. -/
def collecting (bytes : List Byte) : State :=
  { line with highway := { line.highway with assembler := .collect 7 (some 129) bytes } }

/-- The echo of site 30 (09, Echo), byte by byte: the kind is the byte behind the flag, and the frame is due
as it is complete (07, R141). -/
theorem test_collect_completes :
    (Assembler.collect 7 none [155]).take [129] = .collect 7 (some 129) [155, 129] ∧
    (collecting [155, 129, 30, 90, 0, 100, 0x95]).dueRows = [] ∧
    (collecting [155, 129, 30, 90, 0, 100, 0x95, 0x5D]).dueRows = [.echo 30 90 100] := by
  decide +kernel

/-- An order is chosen at its deadline and not a tick later (07, R134, R135). -/
theorem test_choice_at_the_deadline :
    let s (x : HubTime) := onChannel x (planned 710 .planned [include' 4 (entry .waiting 10 20)])
    (s 20).choose = some (.order ⟨2, 710, 0, 4, 20⟩) ∧ (s 21).choose = none := by
  decide +kernel

theorem witness_StepRunsTheFrontRow (h : Obligations.StepRunsTheFrontRow) :
    step { State.reset with pending := [.readTime 1, .powerOn] } =
      exec (.readTime 1) { State.reset with pending := [.powerOn] } :=
  h _ _ { State.reset with pending := [.readTime 1, .powerOn] } rfl

theorem witness_IdleStepTakesADueRowOrAPeriod (h : Obligations.IdleStepTakesADueRowOrAPeriod) :
    step (after .reset State.reset) = .next (after .reset State.reset) ∧
    (∃ i ∈ (at' line 500).dueRows, ∃ n, step (at' line 500) = exec i { at' line 500 with free := n }) ∧
    (let s := locked State.reset
     let s := { s with time := { s.time with slew := 1, pace := 9999 } }
     step s = exec .slewAdjustment s) ∧
    (let s := { holding State.reset 0 9999998 with time := { (holding State.reset 0 9999998).time with
      filter := .high 7 3 false, hub := 1099511627775 } }
     ∃ t, step s = .next t ∧ t.time.hub = 0 ∧ t.time.holdoverPeriods = 9999999 ∧
      t.time.filter = .high 8 3 true) := by
  refine ⟨(h _ ?_).1 ?_, (h _ ?_).2.1 ?_ ?_, (h _ ?_).2.2.1 ?_ ?_ ?_, ?_⟩
  iterate 9 decide +kernel
  intro s
  have ⟨t, h0, h1, _, _, _, _, h2, h3, _⟩ := (h s (by decide +kernel)).2.2.2 (by decide +kernel)
    (by decide +kernel) (by decide +kernel)
  exact ⟨t, h0, h1.trans (by decide +kernel), (h3 rfl).trans (by decide +kernel), h2 7 3 false rfl⟩

theorem witness_PortRowsActAsStated (h : Obligations.PortRowsActAsStated) :
    (∃ t, exec .transactionBegin (forming 1) = .next t) ∧
    (∃ t, exec .transactionBegin (after .responseReady (forming 1)) = .next t) ∧
    (∃ t, exec .responseReady (forming 1) = .next t) ∧
    Instr.responseReady ∈ (forming 2000).dueRows ∧
    (∃ t, exec (.malformedFrame (some 9) none) State.reset = .next t) ∧
    (∃ t, exec (.malformedFrame none none) State.reset = .next t) ∧
    (let x : Transaction := ⟨.initial, ⟨32, true, false, false, .free⟩, [1]⟩
     x.frame = [0, 12, 0, 0, 0, 0, 0, 0, 0, 4, 32, 131] ++ natBytes 2
       (crc16 [0, 0, 0, 0, 0, 0, 0, 4, 32, 131]).toNat ∧ x.frame.length = 14 ∧
     x.pdo 14 = 255 ∧ x.frame[13]? = some (x.pdo 13) ∧
     (∃ k, { State.reset.port with transaction := some x }.pdo = some (x.pdo k)) ∧
     State.reset.port.pdo = none) := by
  have sends := h.1 ⟨.initial, ⟨32, true, false, false, .free⟩, [1]⟩
  have wire := h.2.1 { State.reset with port := { State.reset.port with
    transaction := some ⟨.initial, ⟨32, true, false, false, .free⟩, [1]⟩ } }
  have fourteen := sends.2.1 (.inr rfl)
  have idle := (h.2.1 State.reset).1 rfl
  replace h := h.2.2
  have begins (s : State) (hr : s.port.resetLow = false) :
      ∃ t, exec .transactionBegin s = .next t := ⟨_, (h s hr).1.choose_spec.1⟩
  have malformed (a b : Option Byte) : ∃ t, exec (.malformedFrame a b) State.reset = .next t :=
    have ⟨_, _, _, _, e⟩ := (h State.reset rfl).2.2 a b (by decide +kernel)
    ⟨_, e⟩
  exact ⟨begins _ rfl, begins _ (by decide +kernel),
    ⟨_, ((h (forming 1) rfl).2.1 ⟨⟨20, 1, 0, .pending, .empty⟩, 1, 0⟩ rfl).1⟩,
    ((h (forming 2000) rfl).2.1 ⟨⟨20, 1, 0, .pending, .empty⟩, 2000, 0⟩ rfl).2 (by decide),
    malformed _ _, malformed _ _, sends.1.trans (by decide +kernel), fourteen,
    sends.2.2.2 14 (by rw [fourteen]), sends.2.2.1 13 (by rw [fourteen]; decide),
    ⟨_, wire.2 _ rfl⟩, idle⟩

theorem witness_NothingIsTakenWhileHeldOrWorking
    (h : Obligations.NothingIsTakenWhileHeldOrWorking) :
    let s := after .transactionBegin (forming 0)
    let low := after .reset s
    let high := after .resetReleased low
    s.port.presented = .working ∧ (∃ t, exec (.enrol 1 2 {}) s = .next t) ∧
    low.port.resetLow = true ∧ (∃ t, exec (.enrol 1 2 {}) low = .next t) ∧
    high.port.ignored = true ∧ (∃ t, exec (.restart 1) high = .next t) ∧
    exec .lineFree low = .next low ∧ low.attn = false := by
  intro s low high
  refine ⟨?_, ⟨_, h.1 _ s ?_ (.inl ?_)⟩, ?_, ⟨_, h.1 _ low ?_ (.inr (.inr ?_))⟩, ?_,
    ⟨_, h.1 _ high ?_ (.inr (.inl ?_))⟩, h.2.1 _ _ ?_ ?_ ?_, h.2.2 _ ?_⟩
  all_goals decide +kernel

theorem witness_ARefusalIsTheWholeEffect (h : Obligations.ARefusalIsTheWholeEffect) :
    after (.cancel 1 5) State.reset = State.reset.answered 13 1 0 .noSuch .empty := by
  refine h (.cancel 1 5) State.reset _ ⟨⟨13, 1, 0, .noSuch, .empty⟩, 0, 0⟩ ?_ ?_
    (exec_after ?_) ?_ ?_
  all_goals decide +kernel

theorem witness_PowerOnAndResetGivePowerOnValues
    (h : Obligations.PowerOnAndResetGivePowerOnValues) :
    let s := after .transactionBegin State.reset
    ∃ t, exec .reset s = .next t ∧ t.port.ignored = true := by
  intro s
  have ⟨t, e, _, _, _, _, _, hi, _⟩ := h.2.1 s
  exact ⟨t, e, hi (by decide +kernel)⟩

theorem witness_ReadStatusReportsAndClearsTheErrorCount
    (h : Obligations.ReadStatusReportsAndClearsTheErrorCount) :
    ∃ t, exec (.readStatus 1) { State.reset with highway :=
      { State.reset.highway with errors := 65535 } } = .next t := by
  have ⟨_, e, _⟩ := h { State.reset with highway :=
    { State.reset.highway with errors := 65535 } } 1 (by decide +kernel)
  exact ⟨_, e⟩

theorem witness_RestartClearsTheWorkAndKeepsTheRecords
    (h : Obligations.RestartClearsTheWorkAndKeepsTheRecords) :
    let s := withZone (withSite (withSite line 0 retiring) 47 tracking) 191
      ⟨0, 47, 0, 1, .warn, none, none, 0, 0, false⟩
    let nine := (List.range 9).foldl (fun s k => withSite s (Fin.ofNat 48 k) tracking) line
    (∃ t, exec (.restart 1) s = .next t ∧ t.enrolled 0 = none ∧ t.site 1 = s.site 1 ∧
      t.zone 191 = none ∧ t.zone 0 = none ∧ (t.enrolled 47).isSome ∧
      t.highway.line = .busy (.probe 47 0) 235 ∧ t.slot 7 = none) ∧
    (∃ t, exec (.restart 1) nine = .next t ∧ t.slot 7 = some ⟨7, 0, false, 0, none⟩ ∧
      t.meas.wait = [⟨8, 0, false⟩]) ∧
    (∃ t, exec (.restart 1) line = .next t ∧ t.highway.line = .idle) ∧
    (∃ t, exec (.restart 1) (collecting [155, 1]) = .next t ∧
      t.highway.assembler = .collect 7 (some 129) [155, 1]) ∧
    (∃ t, exec (.restart 1) (collecting [155, 129]) = .next t ∧ t.highway.assembler = .hunt) := by
  intro s nine
  refine ⟨?_, ?_, ?_, ?_, ?_⟩
  · have ⟨t, e, h⟩ := h s 1 (by decide +kernel)
    have ⟨_, _, _, _, _, _, _, _, _, _, hv, hr, ho, _, hl, hn, _, _, hz, hz', _⟩ := h
    have hk := (ho 47 tracking (by decide +kernel) (by decide +kernel)).2.2
    refine ⟨t, e, (hr 0 retiring ?_ ?_).1, hv 1 ?_, (hz' 191 _ rfl).trans ?_, hz 0 ?_,
      (congrArg Option.isSome hk).trans ?_, (hl 47 tracking ?_ ?_).trans ?_, hn 7 ?_⟩
    all_goals decide +kernel
  · have ⟨t, e, h⟩ := h nine 1 (by decide +kernel)
    have ⟨_, _, _, _, _, _, _, _, _, _, _, _, _, _, _, _, hs, hw, _⟩ := h
    refine ⟨t, e, (hs 7 7 tracking ?_ ?_).trans ?_, hw.trans ?_⟩
    all_goals decide +kernel
  · have ⟨t, e, h⟩ := h line 1 (by decide +kernel)
    have ⟨_, _, _, _, _, _, _, _, _, _, _, _, _, hi, _⟩ := h
    exact ⟨t, e, hi (by decide +kernel)⟩
  · have ⟨t, e, _, _, _, _, _, _, _, hc, _⟩ := h (collecting [155, 1]) 1 (by decide +kernel)
    exact ⟨t, e, (hc 7 (some 129) [155, 1] rfl).trans (by decide +kernel)⟩
  · have ⟨t, e, _, _, _, _, _, _, _, hc, _⟩ := h (collecting [155, 129]) 1 (by decide +kernel)
    exact ⟨t, e, (hc 7 (some 129) [155, 129] rfl).trans (by decide +kernel)⟩

theorem witness_EdgeFilterRowsMoveTheFilter (h : Obligations.EdgeFilterRowsMoveTheFilter) :
    let low := { State.reset with time := { State.reset.time with filter := .low } }
    let high := { State.reset with time := { State.reset.time with
      filter := .high 1 4 false, glitches := 65535 } }
    (∃ t, exec .pulseBegins low = .next t) ∧ (∃ t, exec .glitch high = .next t) ∧
    (∃ t, exec .ppsLowSample State.reset = .next t) :=
  ⟨⟨_, (h { State.reset with time := { State.reset.time with filter := .low } } rfl).1 rfl⟩,
   ⟨_, (h { State.reset with time := { State.reset.time with
      filter := .high 1 4 false, glitches := 65535 } } rfl).2.1 1 4 false rfl⟩,
   ⟨_, (h State.reset rfl).2.2 rfl⟩⟩

/-- Offsets +10, -10, +11, -11 and half a second, under the lock window 10. -/
theorem witness_LockedEdgeSteersTheSlew (h : Obligations.LockedEdgeSteersTheSlew) :
    let s := locked State.reset
    let outs (k : Nat) := { s with time := { s.time with outRun := k } }
    (∃ t, exec .edgeAccepted (edge s 8 10000010) = .next t) ∧
    (∃ t, exec .edgeAccepted (edge s 8 9999990) = .next t) ∧
    (∃ t, exec .edgeAccepted (edge (outs 1) 8 10000011) = .next t) ∧
    (∃ t, exec .edgeAccepted (edge (outs 2) 9 9999989) = .next t) ∧
    (∃ t, exec .edgeAccepted (edge (outs 2) 8 5000000) = .next t) := by
  intro s outs
  refine ⟨⟨_, (h _ 8 10000010 ?_ ?_ ?_ ?_ ?_ 10 ?_).1 ?_⟩,
    ⟨_, (h _ 8 9999990 ?_ ?_ ?_ ?_ ?_ (-10) ?_).1 ?_⟩,
    ⟨_, (h _ 8 10000011 ?_ ?_ ?_ ?_ ?_ 11 ?_).2.1 ?_ ?_⟩,
    ⟨_, (h _ 9 9999989 ?_ ?_ ?_ ?_ ?_ (-11) ?_).2.2 ?_ ?_⟩,
    ⟨_, (h _ 8 5000000 ?_ ?_ ?_ ?_ ?_ (-5000000) ?_).2.2 ?_ ?_⟩⟩
  all_goals decide +kernel

theorem witness_InWindowEdgesLeadToLocked (h : Obligations.InWindowEdgesLeadToLocked) :
    let acquiring (runs : Nat) : State := { State.reset with time := { State.reset.time with
      present := true, lastOffset := some 1, inRun := runs } }
    (∃ t, exec .edgeAccepted (edge (acquiring 2) 8 10000010) = .next t ∧ t.time.mode = .locked) ∧
    (∃ t, exec .edgeAccepted (edge (acquiring 1) 8 9999990) = .next t ∧ t.time.inRun = 2) ∧
    (∃ t, exec .edgeAccepted (edge (holding State.reset 0 0) 8 0) = .next t ∧ t.time.inRun = 1) ∧
    (let s := { State.reset with time := { State.reset.time with mode := .free } }
     ∃ t, exec .edgeAccepted (edge s 8 0) = .next t ∧ t.time.inRun = 0) ∧
    (∃ t, exec .edgeAccepted (edge (acquiring 2) 8 10000011) = .next t) ∧
    (let outs (k : Nat) : State := { State.reset with time := { State.reset.time with
      mode := .free, outRun := k } }
     (∃ t, exec .edgeAccepted (edge (outs 1) 8 9999989) = .next t) ∧
     ∃ t, exec .edgeAccepted (edge (outs 2) 8 5000000) = .next t) := by
  intro acquiring
  refine ⟨?_, ?_, ?_, ?_, ?_, ?_⟩
  case refine_5 =>
    refine ⟨_, (h.2 _ 8 10000011 ?_ ?_ ?_ ?_ (fun _ => ?_) ?_).1 ?_⟩
    all_goals decide +kernel
  case refine_6 =>
    intro outs
    refine ⟨⟨_, ((h.2 _ 8 9999989 ?_ ?_ ?_ ?_ ?_ ?_).2 (.inr ?_)).1 ?_⟩,
      ⟨_, ((h.2 _ 8 5000000 ?_ ?_ ?_ ?_ ?_ ?_).2 (.inr ?_)).2 ?_⟩⟩
    all_goals decide +kernel
  · have ⟨t, e, _, _, _, _, _, _, _, _, _, _, _, hl⟩ := h.1 (edge (acquiring 2) 8 10000010) 8 10000010
      rfl rfl (by decide) rfl (by decide) (by decide) (by decide +kernel) _ rfl
    exact ⟨t, e, (hl rfl (by decide)).1⟩
  · have ⟨t, e, _, _, _, _, _, _, _, _, _, _, hl, _⟩ := h.1 (edge (acquiring 1) 8 9999990) 8 9999990
      rfl rfl (by decide) rfl (by decide) (by decide) (by decide +kernel) _ rfl
    exact ⟨t, e, (hl rfl (by decide)).2.1⟩
  · have ⟨t, e, _, _, _, _, _, _, _, _, _, _, hl, _⟩ := h.1 (edge (holding State.reset 0 0) 8 0) 8 0
      rfl rfl (by decide) rfl (by decide) (by decide) (by decide +kernel) _ rfl
    exact ⟨t, e, (hl rfl (by decide)).2.1⟩
  · intro s
    have ⟨t, e, _, _, _, _, _, _, _, _, _, hl, _⟩ := h.1 (edge s 8 0) 8 0
      rfl rfl (by decide) rfl (by decide) (by decide) (by decide +kernel) _ rfl
    exact ⟨t, e, (hl rfl).2.1⟩

theorem witness_PendingStepIsAppliedOrDeferredAtAnEdge
    (h : Obligations.PendingStepIsAppliedOrDeferredAtAnEdge) :
    let active := withQueue (locked State.reset) 3 [planned 1 .onAir []]
    let stepped (s : State) (p : PendingStep) := { s with time := { s.time with step := some p } }
    (∃ t, exec .edgeAccepted (edge State.reset 8 3456789) = .next t) ∧
    (∃ t, exec .edgeAccepted (edge (stepped (locked State.reset) ⟨some 4294967295, 0⟩) 8 5) =
      .next t) ∧
    (∃ t, exec .edgeAccepted (edge (stepped (locked State.reset) ⟨none, -549755813888⟩) 8 5) =
      .next t) ∧
    (∃ t, exec .edgeAccepted (edge (stepped active ⟨some 0, 0⟩) 8 5) = .next t) ∧
    (let s (mode : TimebaseState) (present : Bool) (inRun outRun : Nat) : State :=
       { stepped active ⟨some 0, 0⟩ with time := { (stepped active ⟨some 0, 0⟩).time with
         mode := mode, present := present, inRun := inRun, outRun := outRun } }
     let runs (s : State) (c : HubTime) : Prop := ∃ t, exec .edgeAccepted (edge s 8 c) = .next t
     runs (s .acquiring true 0 0) 11 ∧ runs (s .locked true 0 2) 9999990 ∧
     runs (s .locked true 0 1) 10000011 ∧ runs (s .locked true 0 2) 9999989 ∧
     runs (s .free false 0 2) 10 ∧ runs (s .holdover true 0 2) 10 ∧ runs (s .free true 1 2) 10 ∧
     runs (s .holdover true 1 1) 5000000 ∧ runs (s .free true 1 2) 11) := by
  intro active stepped
  refine ⟨?_, ?_, ?_, ?_, ?_⟩
  · have ⟨t, e, _⟩ := (h (edge State.reset 8 3456789) 8 3456789 ⟨none, 0⟩ rfl rfl (by decide)
      (.inr ⟨rfl, rfl, rfl, rfl⟩)).1 (by decide +kernel)
    exact ⟨t, e⟩
  · have ⟨t, e, _⟩ := (h (edge (stepped (locked State.reset) ⟨some 4294967295, 0⟩) 8 5) 8 5
      ⟨some 4294967295, 0⟩ rfl rfl (by decide) (.inl rfl)).1 (by decide +kernel)
    exact ⟨t, e⟩
  · have ⟨t, e, _⟩ := (h (edge (stepped (locked State.reset) ⟨none, -549755813888⟩) 8 5) 8 5
      ⟨none, -549755813888⟩ rfl rfl (by decide) (.inl rfl)).1 (by decide +kernel)
    exact ⟨t, e⟩
  · have ⟨t, e, _⟩ := (h (edge (stepped active ⟨some 0, 0⟩) 8 5) 8 5 ⟨some 0, 0⟩ rfl rfl (by decide)
      (.inl rfl)).2.1 (by decide +kernel)
    exact ⟨t, e⟩
  · intro s runs
    have rule (m : TimebaseState) (present : Bool) (i o : Nat) (c : HubTime)
        (ha : (edge (s m present i o) 8 c).anyActive = true) :=
      (h (edge (s m present i o) 8 c) 8 c ⟨some 0, 0⟩ rfl rfl (Nat.le_refl 8) (.inl rfl)).2.2 ha
    refine ⟨⟨_, (rule .acquiring true 0 0 11 ?_).1 ?_⟩,
      ⟨_, ((rule .locked true 0 2 9999990 ?_).2.1 ?_).1 ?_⟩,
      ⟨_, ((rule .locked true 0 1 10000011 ?_).2.1 ?_).2.1 ?_ ?_⟩,
      ⟨_, ((rule .locked true 0 2 9999989 ?_).2.1 ?_).2.2 ?_ ?_⟩,
      ⟨_, ((rule .free false 0 2 10 ?_).2.2 (.inr ?_)).1 ?_ ?_⟩,
      ⟨_, ((rule .holdover true 0 2 10 ?_).2.2 (.inl ?_)).2.1 ?_ ?_ ?_⟩,
      ⟨_, ((rule .free true 1 2 10 ?_).2.2 (.inr ?_)).2.2.1 ?_ ?_ ?_⟩,
      ⟨_, ((rule .holdover true 1 1 5000000 ?_).2.2 (.inl ?_)).2.2.2.1 ?_ ?_⟩,
      ⟨_, ((rule .free true 1 2 11 ?_).2.2 (.inr ?_)).2.2.2.2 ?_ ?_⟩⟩
    all_goals decide +kernel

theorem witness_SlewAdjustmentHoldsOrSkipsATick
    (h : Obligations.SlewAdjustmentHoldsOrSkipsATick) :
    let s (slew : Int) := { locked State.reset with time := { (locked State.reset).time with
      slew := slew, pace := 9999 } }
    (∃ t, exec .slewAdjustment (s 1) = .next t ∧ t.time.slew = 1 - 1) ∧
    (∃ t, exec .slewAdjustment (s (-1)) = .next t ∧ t.time.slew = -1 + 1) := by
  intro s
  have ⟨t, e, hp, _⟩ := (h (s 1) rfl).2 (by decide +kernel)
  have ⟨t', e', _, hn, _⟩ := (h (s (-1)) rfl).2 (by decide +kernel)
  exact ⟨⟨t, e, (hp (by decide)).2⟩, t', e', (hn (by decide)).2⟩

theorem witness_TimebaseEventsMoveTheState (h : Obligations.TimebaseEventsMoveTheState) :
    let s := at' (locked (withQueue State.reset 0 [planned 1 .armed []])) 10000010
    (∃ t, exec .missDeadline s = .next t) ∧
    (∃ t, exec .holdoverElapsed (holding State.reset 3598 10000000) = .next t) ∧
    (∃ t, exec .holdoverElapsed (holding State.reset 3599 10000000) = .next t ∧
      t.time.mode = .free) ∧
    (∃ t, exec .referenceLost s = .next t) ∧ (∃ t, exec .referenceReturned State.reset = .next t) := by
  intro s
  have ⟨t, e, _⟩ := (h (holding State.reset 3598 10000000) rfl).2.1 rfl (by decide)
  have ⟨t', e', hl, _, _, hf, _⟩ := (h (holding State.reset 3599 10000000) rfl).2.1 rfl (by decide)
  exact ⟨⟨_, (h s rfl).1 10000010 rfl rfl (by decide +kernel)⟩, ⟨t, e⟩,
    ⟨t', e', (hf (by rw [hl]; decide)).1⟩, ⟨_, (h s rfl).2.2.1 rfl⟩,
    ⟨_, (h State.reset rfl).2.2.2 rfl⟩⟩

theorem witness_TimeMarkAndReadTimeAnswer (h : Obligations.TimeMarkAndReadTimeAnswer) :
    (∃ t, exec (.timeMark 3 4294967295) State.reset = .next t) ∧
    (∃ t, exec (.readTime 3) State.reset = .next t) :=
  ⟨⟨_, (h State.reset 3 (by decide +kernel)).1 4294967295⟩,
   ⟨_, (h State.reset 3 (by decide +kernel)).2⟩⟩

theorem witness_SettingsCommandsClampAndWrite (h : Obligations.SettingsCommandsClampAndWrite) :
    (∃ t, exec (.setMeasurement 1 { settleCount := some 8, quietGap := some 1001 }) State.reset =
      .next t) ∧
    (∃ t, exec (.setTimebase 1 { edgeFilter := some 64, holdoverLimit := some 0 })
      (holding State.reset 1 0) = .next t) ∧
    (∃ t, exec (.setHighway 1 2048) line = .next t) ∧
    (∃ t, exec (.setHighway 1 1536) State.reset = .next t) ∧
    (∃ t, exec (.setHighway 1 3073) State.reset = .next t) := by
  have free (rate : Nat) : ∃ t, exec (.setHighway 1 rate) State.reset = .next t :=
    have ⟨_, _, e, _⟩ := ((h State.reset 1 (by decide +kernel)).2.2 rate).2 (by decide +kernel)
      (by decide +kernel)
    ⟨_, e⟩
  have ⟨_, e1, _⟩ := (h State.reset 1 (by decide +kernel)).1
    { settleCount := some 8, quietGap := some 1001 }
  have ⟨_, e2, _⟩ := (h (holding State.reset 1 0) 1 (by decide +kernel)).2.1
    { edgeFilter := some 64, holdoverLimit := some 0 }
  exact ⟨⟨_, e1⟩, ⟨_, e2⟩, ⟨_, ((h line 1 (by decide +kernel)).2.2 2048).1 (.inl (by decide))⟩,
    free _, free _⟩

theorem witness_OnlyTimeRowsChangeTheTimeScale (h : Obligations.OnlyTimeRowsChangeTheTimeScale) :
    (after (.restart 1) (locked State.reset)).time = (locked State.reset).time :=
  (h (.restart 1) (locked State.reset) _ (exec_after (by decide +kernel))).1 rfl

theorem witness_LeavingLockedMarksEveryActiveBatch
    (h : Obligations.LeavingLockedMarksEveryActiveBatch) :
    let s := locked (withQueue State.reset 3 [planned 1 .cancelling []])
    { planned 1 .cancelling [] with unverified := true } ∈
      ((after .referenceLost s).channel 3).queue ∧
    ({ planned 1 .cancelling [] with unverified := true } : Batch).unverified = true := by
  intro s
  refine ⟨by decide +kernel, h .referenceLost s (after .referenceLost s) (exec_after ?_) ?_ ?_ ?_ ?_ 3 _ ?_ ?_⟩
  all_goals decide +kernel

theorem witness_EnrolBuildsAFreshRecord (h : Obligations.EnrolBuildsAFreshRecord) :
    (∃ t, exec (.enrol 1 48 {}) State.reset = .next t) ∧
    (∃ t, exec (.enrol 1 47 { members := some [3, 4] }) State.reset = .next t) ∧
    (∃ t, exec (.enrol 1 47 { steer := some 3 }) State.reset = .next t) ∧
    (∃ t, exec (.enrol 1 47 {}) (withSite State.reset 47 retiring) = .next t) ∧
    (∃ t, exec (.enrol 1 47 { members := some [0, 3], steer := some 2 }) State.reset = .next t) ∧
    (∃ t, exec (.enrol 1 0 { share := some 256 }) line = .next t) ∧
    (∃ t, exec (.enrol 1 0 { seed := some 268435456 }) (full line) = .next t) := by
  refine ⟨⟨_, (h _ 1 _ ?_).1 48 ?_⟩,
    ⟨_, (h _ 1 _ ?_).2.1 47 (.inl ⟨[3, 4], 4, ?_, ?_, ?_⟩)⟩,
    ⟨_, (h _ 1 _ ?_).2.1 47 (.inr ⟨3, ?_, ?_⟩)⟩,
    ⟨_, ((h _ 1 {} ?_).2.2 47 (by simp) (by simp)).1 ?_⟩, ?_,
    ⟨_, (((h line 1 { share := some 256 } ?_).2.2 0 (by simp) (by simp)).2 ?_).2.1 0 ?_ ?_ ?_ ?_⟩,
    ⟨_, (((h (full line) 1 { seed := some 268435456 } ?_).2.2 0 (by simp) (by simp)).2 ?_).2.2
      ?_ ?_ ?_⟩⟩
  case refine_12 =>
    have ⟨_, _, e, _⟩ := (((h State.reset 1 { members := some [0, 3], steer := some 2 }
      (by decide +kernel)).2.2 47 (by grind) (by simp)).2 rfl).1 (by decide +kernel)
    exact ⟨_, e⟩
  all_goals decide +kernel

theorem witness_AmendSiteChangesFieldsInPlace (h : Obligations.AmendSiteChangesFieldsInPlace) :
    (∃ t, exec (.amendSite 1 48 {}) State.reset = .next t) ∧
    (∃ t, exec (.amendSite 1 47 { members := some [4] }) State.reset = .next t) ∧
    (∃ t, exec (.amendSite 1 47 { steer := some 3 }) State.reset = .next t) ∧
    (∃ t, exec (.amendSite 1 47 { seed := some 0 }) State.reset = .next t) ∧
    (∃ t, exec (.amendSite 1 47 { steer := some 2 }) State.reset = .next t) ∧
    (∃ t, exec (.amendSite 1 47 {}) (withSite State.reset 47 retiring) = .next t) ∧
    (∃ t, exec (.amendSite 1 0 { share := some 129, members := some [3] })
      (withSite State.reset 0 tracking) = .next t) ∧
    (∃ t, exec (.amendSite 1 0 { share := some 128, gain := some 8 })
      (withSite State.reset 0 tracking) = .next t) := by
  refine ⟨⟨_, (h _ 1 _ ?_).1 48 ?_⟩,
    ⟨_, (h _ 1 _ ?_).2.1 47 (.inl ⟨[4], 4, ?_, ?_, ?_⟩)⟩,
    ⟨_, (h _ 1 _ ?_).2.1 47 (.inr (.inl ⟨3, ?_, ?_⟩))⟩,
    ⟨_, (h _ 1 _ ?_).2.1 47 (.inr (.inr ?_))⟩,
    ⟨_, ((h _ 1 { steer := some 2 } ?_).2.2 47 (by simp) (by simp) ?_).1 ?_⟩,
    ⟨_, ((h _ 1 {} ?_).2.2 47 (by simp) (by simp) ?_).2.1 retiring ?_ ?_⟩,
    ⟨_, ((h _ 1 { share := some 129, members := some [3] } ?_).2.2 0 (by grind) (by simp) ?_).2.2
      tracking ?_ ?_⟩,
    ⟨_, ((h _ 1 { share := some 128, gain := some 8 } ?_).2.2 0 (by simp) (by simp) ?_).2.2
      tracking ?_ ?_⟩⟩
  all_goals decide +kernel

/-- A claimed slot of site 5, with one further probe of its burst. -/
def slot5 (flight : Option Flight) : Slot := ⟨5, 3, true, 1, flight⟩

theorem witness_QuerySiteReportsAndClearsTwoFlags
    (h : Obligations.QuerySiteReportsAndClearsTwoFlags) :
    let base := withSite State.reset 5 tracking
    let waits := { base with meas := { base.meas with wait := [⟨4, 0, false⟩, ⟨5, 2, true⟩] } }
    (∃ t, exec (.querySite 1 48) State.reset = .next t) ∧
    (∃ t, exec (.querySite 1 47) State.reset = .next t) ∧
    (∃ t, ∃ r : SiteReport, exec (.querySite 1 5) (withSite State.reset 5 tracking) = .next t ∧
      r.holding = ProbeHolding.none) ∧
    (∃ t r, exec (.querySite 1 5) (withSlot (withSite State.reset 5 tracking) 7
      (slot5 (some ⟨255, 10, 20⟩))) = .next t ∧ r = ProbeHolding.slot 7 true) ∧
    (∃ t r, exec (.querySite 1 5) waits = .next t ∧ r = ProbeHolding.waiting 2) := by
  intro base waits
  refine ⟨⟨_, (h State.reset 1 ?_).1 48 ?_⟩, ⟨_, (h State.reset 1 ?_).2.1 47 ?_⟩, ?_, ?_, ?_⟩
  iterate 4 decide +kernel
  · have ⟨r, e, _, _, _, hn, _⟩ := (h (withSite State.reset 5 tracking) 1 (by decide +kernel)).2.2
      5 tracking rfl
    exact ⟨_, r, e, (hn (by decide +kernel)).1⟩
  · have ⟨r, e, _, _, _, _, hs, _⟩ := (h (withSlot (withSite State.reset 5 tracking) 7
      (slot5 (some ⟨255, 10, 20⟩))) 1 (by decide +kernel)).2.2 5 tracking (by decide +kernel)
    exact ⟨_, _, e, (hs 7 (slot5 (some ⟨255, 10, 20⟩)) (by decide +kernel) (by decide +kernel)).1⟩
  · have ⟨r, e, _, _, _, _, _, hw⟩ := (h waits 1 (by decide +kernel)).2.2 5 tracking
      (by decide +kernel)
    exact ⟨_, _, e, (hw ⟨5, 2, true⟩ [⟨4, 0, false⟩] [] (by decide +kernel) rfl rfl (by simp)).1⟩

theorem witness_RetireVacatesOrRetires (h : Obligations.RetireVacatesOrRetires) :
    let s := withSite line 5 tracking
    let sent := withSlot s 7 (slot5 (some ⟨255, 10, 20⟩))
    let asks := withSlot { s with meas := { s.meas with
      wait := [⟨6, 0, false⟩, ⟨5, 0, false⟩, ⟨7, 0, false⟩] } } 0 (slot5 none)
    let ordered := withSite (onChannel 5 (planned 710 .planned [include' 4 (entry .waiting 10 20),
      include' 9 (sentEntry .aborted 1 2 3)])) 4 tracking
    let armed := withSite (onChannel 5 (mixed .planned .sent)) 4 tracking
    (∃ t, exec (.retire 1 48) s = .next t) ∧ (∃ t, exec (.retire 1 47) s = .next t) ∧
    (∃ t, exec (.retire 1 47) (withSite s 47 retiring) = .next t) ∧
    (∃ t, exec (.retire 1 5) (withZone s 191 ⟨6, 5, 0, 1, .warn, none, none, 0, 0, false⟩) =
      .next t) ∧
    (∃ t, exec (.retire 1 5) sent = .next t) ∧
    (∃ t, exec (.retire 1 5) asks = .next t ∧ t.meas.wait = [⟨7, 0, false⟩]) ∧
    (∃ t b, exec (.retire 1 4) ordered = .next t ∧ b ∈ (t.channel 2).queue ∧ b.state = .abandoned) ∧
    (∃ t b, exec (.retire 1 4) armed = .next t ∧ b ∈ (t.channel 2).queue ∧ b.state = .armed) ∧
    (∃ t, exec (.retire 1 4) ordered = .next t ∧ t.enrolled 4 = none) ∧
    (∃ t, exec (.retire 1 5) sent = .next t ∧ t.enrolled 5 =
      some { tracking with phase := .retiring, cadence := none }) := by
  intro s sent asks ordered armed
  have noSlot (u : State) (hu : u.slotOf 5 = none) : ∀ i p, u.slotOf 5 = some i → u.slot i = some p →
      p.flight ≠ none := by simp [hu]
  have free4 (u : State) (hu : u.slotOf 4 = none) : ∀ i p, u.slotOf 4 = some i → u.slot i = some p →
      p.flight ≠ none := by simp [hu]
  have flying : ∀ i p, sent.slotOf 5 = some i → sent.slot i = some p → p.flight ≠ none := by
    intro i p hi hp
    obtain rfl : 7 = i := Option.some.inj
      ((show sent.slotOf 5 = some 7 from by decide +kernel).symm.trans hi)
    obtain rfl : slot5 (some ⟨255, 10, 20⟩) = p := Option.some.inj
      ((show sent.slot 7 = some _ from rfl).symm.trans hp)
    decide
  have ⟨t, e, w, _⟩ := ((h asks 1 (by decide +kernel)).2.2.2 5 tracking _ rfl (by decide) (by decide)
    (.inr ⟨0, slot5 none, by decide +kernel, rfl, rfl, rfl⟩)).2.2
  have ⟨t1, e1, _, _, _, _, k1⟩ := ((h ordered 1 (by decide +kernel)).2.2.2 4 tracking _ rfl (by decide)
    (by decide) (.inl ⟨free4 _ (by decide +kernel), rfl⟩)).2.2
  have ⟨t3, e3, _, _, _, _, k3⟩ := ((h sent 1 (by decide +kernel)).2.2.2 5 tracking _ rfl (by decide)
    (by decide) (.inl ⟨flying, rfl⟩)).2.2
  have ⟨t2, e2, _, _, _, _, k2⟩ := ((h armed 1 (by decide +kernel)).2.2.2 4 tracking _ rfl (by decide)
    (by decide) (.inl ⟨free4 _ (by decide +kernel), rfl⟩)).2.2
  have ⟨_, a1, _⟩ := (k1 (by decide +kernel)).2.2.2 ⟨by decide +kernel, by decide +kernel⟩ 2
    _ List.mem_cons_self
  have ⟨_, _, a2, _⟩ := (k2 (by decide +kernel)).2.2.2 ⟨by decide +kernel, by decide +kernel⟩ 2
    _ List.mem_cons_self
  have i1 : t1 = after (.retire 1 4) ordered :=
    Host.Outcome.next.inj (e1.symm.trans (exec_after (by decide +kernel)))
  have i3 : t3 = after (.retire 1 5) sent :=
    Host.Outcome.next.inj (e3.symm.trans (exec_after (by decide +kernel)))
  have v1 := (k1 (by decide +kernel)).2.2.1 ⟨by decide +kernel, by decide +kernel⟩
    (by rw [i1]; decide +kernel)
  have v3 := (k3 (by decide +kernel)).2.1 ⟨by decide +kernel, by decide +kernel⟩
    (by rw [i3]; decide +kernel)
  have ⟨_, _, _, m1⟩ := a1 ⟨rfl, _, rfl, rfl⟩ (.inl rfl) (of_plan (by decide +kernel))
  have m2 := a2 ⟨rfl, _, rfl, rfl⟩ rfl (fun d => absurd (d (include' 9 (sentEntry .sent 1 2 3))
    (sentEntry .sent 1 2 3) (by decide +kernel) rfl) (by decide)) (no_entry (by decide +kernel))
  refine ⟨⟨_, (h s 1 ?_).1 48 ?_⟩, ⟨_, (h s 1 ?_).2.1 47 ?_⟩,
    ⟨_, (h (withSite s 47 retiring) 1 ?_).2.2.1 47 retiring ?_ ?_⟩,
    ⟨_, ((h (withZone s 191 ⟨6, 5, 0, 1, .warn, none, none, 0, 0, false⟩) 1 ?_).2.2.2 5 tracking
      _ ?_ ?_ ?_ (.inl ⟨noSlot _ ?_, rfl⟩)).1 ?_⟩,
    ⟨_, ((h sent 1 ?_).2.2.2 5 tracking _ ?_ ?_ ?_ (.inl ⟨flying, rfl⟩)).2.1 ?_ ?_⟩,
    ⟨t, e, (congrArg Measurement.wait w).trans ?_⟩, ⟨t1, _, e1, m1, rfl⟩, ⟨t2, _, e2, m2, rfl⟩,
    ⟨t1, e1, v1⟩, t3, e3, v3⟩
  all_goals decide +kernel

theorem witness_RetiringAndVacantRecordsMoveOnlyAsStated
    (h : Obligations.RetiringAndVacantRecordsMoveOnlyAsStated) :
    let s := withSite line 5 retiring
    let t := after (.restart 1) s
    (t.enrolled 5 = none ∨ ∃ e, t.enrolled 5 = some e ∧ e.phase = .retiring) ∧
    ∃ e, (after (.enrol 1 47 {}) s).enrolled 47 = some e ∧ e.phase = .settling := by
  intro s t
  refine ⟨(h (.restart 1) s t 5 (exec_after ?_)).1 retiring ?_ ?_, ?_⟩
  iterate 3 decide +kernel
  exact ((h (.enrol 1 47 {}) s _ 47 (exec_after (by decide +kernel))).2 (by decide +kernel)).elim
    (fun e => absurd e (by decide +kernel)) And.right

theorem witness_ProbeStartsABurst (h : Obligations.ProbeStartsABurst) :
    let s := withSite line 5 tracking
    (∃ t, exec (.probe 1 48 0) s = .next t) ∧ (∃ t, exec (.probe 1 47 0) s = .next t) ∧
    (∃ t, exec (.probe 1 47 0) (withSite s 47 retiring) = .next t) ∧
    (∃ t, exec (.probe 1 5 0) (withSlot s 7 (slot5 none)) = .next t) ∧
    (∃ t, exec (.probe 1 5 15) s = .next t) ∧ (∃ t, exec (.probe 1 5 16) (full s) = .next t) := by
  intro s
  refine ⟨⟨_, (h s 1 0 ?_).1 48 ?_⟩, ⟨_, (h s 1 0 ?_).2.1 47 ?_⟩,
    ⟨_, (h _ 1 0 ?_).2.2.1 47 retiring ?_ (.inl ?_)⟩,
    ⟨_, (h _ 1 0 ?_).2.2.1 5 tracking ?_ (.inr ?_)⟩,
    ⟨_, ((h s 1 15 ?_).2.2.2 5 tracking ?_ ?_ ?_ ?_).1 0 ?_ ?_⟩,
    ⟨_, ((h (full s) 1 16 ?_).2.2.2 5 tracking ?_ ?_ ?_ ?_).2 ?_⟩⟩
  all_goals decide +kernel

theorem witness_CadenceExpiryAsksAndReloads (h : Obligations.CadenceExpiryAsksAndReloads) :
    let s := at' (withSite line 5 tracking) 100
    (∃ t, exec (.cadenceExpiry 5) (withSlot s 7 (slot5 none)) = .next t) ∧
    (∃ t, exec (.cadenceExpiry 5) s = .next t) ∧
    (∃ t, exec (.cadenceExpiry 5) (full s) = .next t) := by
  intro s
  refine ⟨⟨_, (h _ 5 tracking 100 ?_ ?_ ?_ ?_ ?_).1 ?_⟩,
    ⟨_, (h s 5 tracking 100 ?_ ?_ ?_ ?_ ?_).2.1 0 ?_ ?_ ?_⟩,
    ⟨_, (h (full s) 5 tracking 100 ?_ ?_ ?_ ?_ ?_).2.2 ?_ ?_⟩⟩
  all_goals decide +kernel

theorem witness_EchoesAreClassedInOrder (h : Obligations.EchoesAreClassedInOrder) :
    let deaf := { tracking with deafenUntil := some 50 }
    let late := { tracking with est := { tracking.est with lastTimedOut := some 9 } }
    (∃ t, exec (.echo 48 9 0) line = .next t) ∧ (∃ t, exec (.echo 47 9 0) line = .next t) ∧
    (∃ t, exec (.echo 47 9 0) (withSite line 47 retiring) = .next t) ∧
    (∃ t, exec (.echo 47 9 0) (withSite line 47 deaf) = .next t) ∧
    (∃ t, exec (.echo 47 9 0) (withSite line 47 late) = .next t) ∧
    (∃ t, exec (.echo 47 8 0) (withSite line 47 late) = .next t) := by
  intro deaf late
  have free (e : Enrolled) (sq : Nat) : ∀ i p f, (withSite line 47 e).slot i = some p →
      p.site = 47 → p.flight = some f → f.sequence ≠ sq :=
    fun i p f hp => of_none (P := fun _ p => p.site = 47 → p.flight = some f → f.sequence ≠ sq)
      (show ∀ i, (withSite line 47 e).slot i = none from
        (by decide +kernel : ∀ i, line.slot i = none)) i p hp
  refine ⟨⟨_, (h line 48 9 0 ?_ ?_).1 ?_⟩, ⟨_, (h line 47 9 0 ?_ ?_).2.1 47 ?_ ?_⟩,
    ⟨_, ((h _ 47 9 0 ?_ ?_).2.2 47 retiring ?_ ?_).1 ?_ (free _ _)⟩,
    ⟨_, ((h _ 47 9 0 ?_ ?_).2.2 47 deaf ?_ ?_).2.1 ?_ ?_⟩,
    ⟨_, ((h _ 47 9 0 ?_ ?_).2.2 47 late ?_ ?_).2.2.1 ?_ ?_ (free _ _) ?_⟩,
    ⟨_, ((h _ 47 8 0 ?_ ?_).2.2 47 late ?_ ?_).2.2.2 ?_ ?_ (free _ _) ?_⟩⟩
  all_goals decide +kernel

/-- The departed probe of site 5, sequence 255. -/
def flown (e : Enrolled) : State :=
  withSlot (withSite line 5 e) 7 (slot5 (some ⟨255, 10, 20⟩))

theorem flown_once (e : Enrolled) : ∀ j q, j ≠ 7 → (flown e).slot j = some q → q.site = 5 →
    q.flight = none := by
  intro j q hj hq
  have : (flown e).slot j = none :=
    (by decide +kernel : ∀ j : SlotNo, j ≠ 7 → (flown tracking).slot j = none) j hj
  simp [this] at hq

theorem witness_MatchedEchoIsFoldedAndFreesItsSlot
    (h : Obligations.MatchedEchoIsFoldedAndFreesItsSlot) :
    (∃ t, exec (.echo 5 255 0) (at' (flown tracking) 10010) = .next t) ∧
    (∃ t, exec (.echo 5 255 0) (flown retiring) = .next t ∧
      t.sites = (flown retiring).sites.set 5 ⟨true, 0, none⟩) ∧
    (∃ t, exec (.echo 5 255 0) (withQueue (flown retiring) 3
      [planned 1 .armed [include' 5 (entry .sent 0 0)]]) = .next t) := by
  have ⟨t, e, _, _, _, _, _, hv⟩ := (h (flown retiring) 5 255 0 5 retiring 7
    (slot5 (some ⟨255, 10, 20⟩)) ⟨255, 10, 20⟩ rfl (by decide) rfl rfl (by decide +kernel) rfl rfl
    rfl).2 rfl
  have ⟨t', e', _⟩ := (h (withQueue (flown retiring) 3
    [planned 1 .armed [include' 5 (entry .sent 0 0)]]) 5 255 0 5 retiring 7
    (slot5 (some ⟨255, 10, 20⟩)) ⟨255, 10, 20⟩ rfl (by decide) rfl rfl (by decide +kernel) rfl rfl
    rfl).2 rfl
  exact ⟨⟨_, (h (at' (flown tracking) 10010) 5 255 0 5 tracking 7 (slot5 (some ⟨255, 10, 20⟩))
    ⟨255, 10, 20⟩ rfl (by decide) rfl rfl (by decide +kernel) rfl rfl rfl).1 (by decide) rfl _ _ rfl⟩,
    ⟨t, e, (hv (by decide +kernel) (flown_once _)).1⟩, t', e'⟩

theorem witness_ProbeTimeoutCountsAFailure (h : Obligations.ProbeTimeoutCountsAFailure) :
    let failing := { tracking with est := { tracking.est with failures := 2 } }
    let deaf := { tracking with deafenUntil := some 50 }
    (∃ t, exec (.probeTimeout 7) (at' (flown failing) 20) = .next t) ∧
    (∃ t, exec (.probeTimeout 7) (at' (flown retiring) 20) = .next t ∧
      t.sites = (flown retiring).sites.set 5 ⟨true, 0, none⟩) ∧
    (∃ t, exec (.deafenEnd 5) (at' (withSite State.reset 5 deaf) 50) = .next t) := by
  intro failing deaf
  have ⟨t, e, _, _, _, _, _, hv⟩ := (h.1 (at' (flown retiring) 20) 7
    (slot5 (some ⟨255, 10, 20⟩)) ⟨255, 10, 20⟩ retiring rfl (by decide) rfl rfl (by decide +kernel)
    rfl).2 rfl
  exact ⟨⟨_, (h.1 (at' (flown failing) 20) 7 (slot5 (some ⟨255, 10, 20⟩)) ⟨255, 10, 20⟩ failing rfl
    (by decide) rfl rfl (by decide +kernel) rfl).1 (by decide)⟩,
    ⟨t, e, hv (by decide +kernel) (flown_once _)⟩,
    _, h.2 (at' (withSite State.reset 5 deaf) 50) 5 deaf 50 rfl rfl rfl (by decide +kernel)⟩

theorem witness_OutboundSampleIsScaledByTheShare
    (h : Obligations.OutboundSampleIsScaledByTheShare) :
    let e := record .settling none 0
    (({ e with config := { e.config with share := 255, ceiling := 16777216 } }).foldSample .reset
      16777216 0 0).1.est.d = some ((16777216 * 16 * 255 + 128) / 256) := by
  refine (h.1 _ .reset 16777216 0 0 16777216 ?_ ?_ ?_ ?_ ?_ ?_).1
  all_goals decide +kernel

/-- Round trips 0, 1, the ceiling, and one tick above it; then the gate, of 560 fine units, at 560 (70
ticks from the 10,000 of D) and above it, below and at the confirming reject. -/
theorem witness_SamplesTakeTheirPathThroughTheEstimator
    (h : Obligations.SamplesTakeTheirPathThroughTheEstimator) :
    let confirming := { tracking with est := { tracking.est with rejects := 2 } }
    (tracking.foldSample .reset 5 5 0).2 = false ∧
    (tracking.foldSample .reset 8388614 5 0).2 = false ∧
    ((record .stale none 0).foldSample .reset 8388613 5 0).2 = true ∧
    ((record .settling (some 3) 0).foldSample .reset 6 5 0).2 = true ∧
    (tracking.foldSample .reset 10070 0 0).2 = true ∧
    (tracking.foldSample .reset 10071 0 0).2 = false ∧
    (confirming.foldSample .reset 9929 0 0).2 = true := by
  intro confirming
  have ⟨_, _, _, e1⟩ := (h (record .settling (some 3) 0) .reset 6 5 0 (by decide)).2.1 (by decide)
    (by decide) (by decide) |>.2 3 rfl
  have ⟨_, _, _, e2⟩ := ((h tracking .reset 10070 0 0 (by decide)).2.2 80000 (by decide)
    (by decide) rfl rfl).1 (by decide)
  exact ⟨congrArg Prod.snd ((h tracking .reset 5 5 0 (by decide)).1 (by decide)),
    congrArg Prod.snd ((h tracking .reset 8388614 5 0 (by decide)).1 (by decide)),
    congrArg Prod.snd (((h (record .stale none 0) .reset 8388613 5 0 (by decide)).2.1 (by decide)
      (by decide) (by decide)).1 rfl),
    congrArg Prod.snd e1, congrArg Prod.snd e2,
    congrArg Prod.snd (((h tracking .reset 10071 0 0 (by decide)).2.2 80000 (by decide)
      (by decide) rfl rfl).2.1 (by decide) (by decide)),
    congrArg Prod.snd (((h confirming .reset 9929 0 0 (by decide)).2.2 80000 (by decide)
      (by decide) rfl rfl).2.2 (by decide) (by decide))⟩

theorem witness_ZoneCommandsWriteAndReportRecords
    (h : Obligations.ZoneCommandsWriteAndReportRecords) :
    let two := withSite (withSite State.reset 0 tracking) 47 tracking
    let z : Zone := ⟨47, 0, 0, 1, .warn, none, none, 0, 0, true⟩
    (∀ f ∈ [(192, ZoneDefinition.mk 0 1 0 1 0), (0, ⟨48, 1, 0, 1, 0⟩), (0, ⟨0, 48, 0, 1, 0⟩),
      (0, ⟨47, 47, 0, 1, 0⟩), (0, ⟨0, 1, 0, 1, 3⟩)],
      ∃ t, exec (.defineZone 1 f.1 f.2) two = .next t) ∧
    (∃ t, exec (.defineZone 1 191 ⟨0, 47, 0, 1, 0⟩) (withZone two 191 z) = .next t) ∧
    (∃ t, exec (.defineZone 1 191 ⟨0, 46, 0, 1, 0⟩) two = .next t) ∧
    (∃ t, exec (.defineZone 1 0 ⟨0, 47, 0, 1, 0⟩) (withZone two 191 z) = .next t) ∧
    (∃ t, exec (.defineZone 1 191 ⟨0, 47, 1048575, 1048576, 2⟩) two = .next t) ∧
    (∃ t, exec (.defineZone 1 191 ⟨0, 47, -1048577, 1, 1⟩) two = .next t) ∧
    (∃ t, exec (.amendZone 1 192 {}) two = .next t) ∧
    (∃ t, exec (.amendZone 1 0 { siteA := some 0 }) two = .next t) ∧
    (∃ t, exec (.amendZone 1 0 { policy := some 3 }) two = .next t) ∧
    (∃ t, exec (.amendZone 1 0 { policy := some 2 }) two = .next t) ∧
    (∃ t, exec (.amendZone 1 191 { g := some (-1048576) }) (withZone two 191 z) = .next t) ∧
    (∃ t, exec (.amendZone 1 191 { budget := some 0 }) (withZone two 191 z) = .next t) ∧
    (∃ t, exec (.dropZone 1 192) two = .next t) ∧ (∃ t, exec (.queryZone 1 191) two = .next t) ∧
    (∃ t, exec (.dropZone 1 191) (withZone two 191 z) = .next t) := by
  intro two z
  have ht : two.takes = true := by decide +kernel
  have hz : (withZone two 191 z).takes = true := by decide +kernel
  have pair (s : State) (a : SiteNo) (ha : s.enrolled a = some tracking) :
      ∃ e, s.enrolled a = some e ∧ e.phase ≠ .retiring := ⟨tracking, ha, by decide⟩
  have bare : ¬ ∃ y q, two.zone y = some q ∧
      (q.siteA = 0 ∧ q.siteB = 47 ∨ q.siteA = 47 ∧ q.siteB = 0) := fun ⟨y, q, hq, _⟩ =>
    of_none (P := fun _ _ => False) (by decide +kernel : ∀ y, two.zone y = none) y q hq
  refine ⟨fun f hf => ⟨_, (h two 1 ht).1 f.1 f.2 ?_⟩,
    ⟨_, ((h _ 1 hz).2.1 191 0 47 0 1 .warn 0 ?_ ?_).1 ?_⟩,
    ⟨_, ((h two 1 ht).2.1 191 0 46 0 1 .warn 0 ?_ ?_).2.1 ?_ fun ⟨_, e, he, _⟩ =>
      absurd ((show two.enrolled 46 = none by decide +kernel).symm.trans he) (by simp)⟩,
    ⟨_, ((h _ 1 hz).2.1 0 0 47 0 1 .warn 0 ?_ ?_).2.2.1 ?_ (pair _ 0 ?_) (pair _ 47 ?_)
      ⟨191, z, ?_, ?_⟩⟩,
    ⟨_, (((h two 1 ht).2.1 191 0 47 1048575 1048576 .hold 2 ?_ ?_).2.2.2 ?_ (pair _ 0 ?_) (pair _ 47 ?_)
      bare).1 ?_⟩,
    ⟨_, (((h two 1 ht).2.1 191 0 47 (-1048577) 1 .dropWorse 1 ?_ ?_).2.2.2 ?_ (pair _ 0 ?_)
      (pair _ 47 ?_) bare).2 ?_⟩,
    ⟨_, (h two 1 ht).2.2.1 192 _ (.inl ?_)⟩, ⟨_, (h two 1 ht).2.2.1 0 _ (.inr (.inl ?_))⟩,
    ⟨_, (h two 1 ht).2.2.1 0 _ (.inr (.inr (.inr ⟨3, ?_, ?_⟩)))⟩,
    ⟨_, ((h two 1 ht).2.2.2.1 0 { policy := some 2 } ?_ ?_ (by simp)).1 ?_⟩,
    ⟨_, (((h _ 1 hz).2.2.2.1 191 { g := some (-1048576) } ?_ ?_ (by simp)).2 z ?_).1 (by simp)⟩,
    ⟨_, (((h _ 1 hz).2.2.2.1 191 { budget := some 0 } ?_ ?_ (by simp)).2 z ?_).2 (by simp)⟩,
    ⟨_, ((h two 1 ht).2.2.2.2.1 192 ?_).1⟩, ⟨_, (((h two 1 ht).2.2.2.2.2 191).1 ?_).2⟩,
    ⟨_, (((h _ 1 hz).2.2.2.2.2 191).2 z ?_).1⟩⟩
  case refine_1 => revert f; decide
  all_goals decide +kernel

theorem witness_ZonePassEvaluatesAndActs (h : Obligations.ZonePassEvaluatesAndActs) :
    let a : Candidate := ⟨4, 0, ⟨some 0, 0, 0, 10, 20000, 0⟩, false⟩
    let b : Candidate := ⟨7, 0, ⟨some 0, 0, 0, 0, 20000, 0⟩, false⟩
    let z (budget : Nat) (p : Policy) : Zone := ⟨4, 7, 0, budget, p, none, some .aLeads, 255, 65535, false⟩
    let visit (budget : Nat) (p : Policy) :=
      (⟨[a, b], [], 3, (withZone State.reset 191 (z budget p)).zones, false⟩ : ZonePass).visit
        State.reset 191
    (visit 12 .hold).stopped = false ∧ (visit 11 .warn).warnings = 4 ∧
    (visit 11 .hold).stopped = true ∧ (visit 11 .dropWorse).removed = [7] ∧
    ((passZones 400).zonePass passSites).included ≠ [] := by
  intro a b z visit
  let p (budget : Nat) (y : Policy) : ZonePass :=
    ⟨[a, b], [], 3, (withZone State.reset 191 (z budget y)).zones, false⟩
  refine ⟨?_, ?_, ?_, ?_, ?_⟩
  · refine (congrArg ZonePass.stopped (((h.1 State.reset (p 12 .hold) 191).2.2.2 (z 12 .hold) a b
      ?_ ?_ ?_ ?_ ?_ ?_ ?_ ?_ ?_).1 ?_)).trans ?_
    all_goals decide +kernel
  · refine (congrArg ZonePass.warnings (((h.1 State.reset (p 11 .warn) 191).2.2.2 (z 11 .warn) a b
      ?_ ?_ ?_ ?_ ?_ ?_ ?_ ?_ ?_).2.1 ?_ ?_)).trans ?_
    all_goals decide +kernel
  · refine (congrArg ZonePass.stopped (((h.1 State.reset (p 11 .hold) 191).2.2.2 (z 11 .hold) a b
      ?_ ?_ ?_ ?_ ?_ ?_ ?_ ?_ ?_).2.2.1 ?_ ?_)).trans ?_
    all_goals decide +kernel
  · refine (congrArg ZonePass.removed ((((h.1 State.reset (p 11 .dropWorse) 191).2.2.2
      (z 11 .dropWorse) a b ?_ ?_ ?_ ?_ ?_ ?_ ?_ ?_ ?_).2.2.2 ?_ ?_).1 ?_ ?_)).trans ?_
    all_goals decide +kernel
  · have distinct : ∀ n r, (passZones 400).zone n = some r → r.siteA ≠ r.siteB := by
      intro n r hr
      have := (by decide +kernel : ∀ n, ((passZones 400).zone n).all fun r => r.siteA != r.siteB) n
      simpa [hr] using this
    exact ((h.2.2 (passZones 400) passSites distinct).2.1 (by decide)).resolve_left (by decide +kernel)

theorem witness_SetChannelClampsAndWrites (h : Obligations.SetChannelClampsAndWrites) :
    let s := withTimer (withQueue line 3 [short 1 .done, short 2 .queued]) 3 100
    (∃ t, exec (.setChannel 1 4 {}) s = .next t) ∧
    (∃ t, exec (.setChannel 1 3 { notice := some 2 }) s = .next t) ∧
    (∃ t, exec (.setChannel 1 3 {}) (withQueue line 3 [planned 1 .onAir []]) = .next t) ∧
    (∃ t, exec (.setChannel 1 3 { gridPeriod := some 100000, gridOrigin := some 100000 }) s =
      .next t) ∧
    (∃ t, exec (.setChannel 1 3 { computeLead := some 2001 }) (at' s 9989999) = .next t) ∧
    (∃ t, exec (.setChannel 1 3 { guardTime := some 10000001 }) (at' s 10000000) = .next t) := by
  intro s
  have cand (x : HubTime) : ((at' s x).channel 3).candidate = some (some (short 1 .done), short 2 .queued) :=
    show (s.channel 3).candidate = _ by decide +kernel
  have still (x : HubTime) : ∀ b ∈ ((at' s x).channel 3).queue, b.state ≠ .planned ∧ b.state ≠ .armed ∧
      b.state ≠ .cancelling ∧ b.state ≠ .onAir := show ∀ b ∈ (s.channel 3).queue, _ by decide +kernel
  have takes (x : HubTime) : (at' s x).takes = true := show s.takes = true by decide +kernel
  have ⟨_, _, _, e1, _⟩ := ((h s 1 { gridPeriod := some 100000, gridOrigin := some 100000 }
    (by decide +kernel)).2.2 3 (by simp)).2 (still 0)
  have ⟨_, _, _, _, e2⟩ := ((h (at' s 9989999) 1 { computeLead := some 2001 } (takes _)).2.2 3
    (by simp)).2 (still _)
  have ⟨_, _, _, _, e3⟩ := ((h (at' s 10000000) 1 { guardTime := some 10000001 } (takes _)).2.2 3
    (by simp)).2 (still _)
  exact ⟨⟨_, (h s 1 {} (by decide +kernel)).1 4 (by decide)⟩,
    ⟨_, (h s 1 { notice := some 2 } (by decide +kernel)).2.1 3 ⟨2, rfl, by decide⟩⟩,
    ⟨_, ((h (withQueue line 3 [planned 1 .onAir []]) 1 {} (by decide +kernel)).2.2 3 (by simp)).1
      (by decide +kernel)⟩,
    ⟨_, e1 (.inl (by decide +kernel))⟩,
    ⟨_, (e2 (some (short 1 .done)) (short 2 .queued) 9990000 (by decide +kernel) (cand _)
      (.inl ⟨30000000, rfl, by decide +kernel⟩)).1 (by decide +kernel)⟩,
    ⟨_, (e3 (some (short 1 .done)) (short 2 .queued) 10000000 (by decide +kernel) (cand _)
      (.inl ⟨30000000, rfl, by decide +kernel⟩)).2 (by decide +kernel)⟩⟩

/-- A submission to channel 3 with tag 9. -/
def submission (mode : Nat) (air : Option HubTime) (spans : List Span) : Submission :=
  ⟨3, 9, mode, air, none, true, spans⟩

def oneSpan : List Span := [⟨10, .zero, .two, none⟩]

/-- Each refusal at its boundary, then each way a record becomes, or does not become, the candidate. -/
theorem witness_SubmitBuildsARecordAtTheTail (h : Obligations.SubmitBuildsARecordAtTheTail) :
    let runs (q : Submission) (s : State) : Prop := ∃ t, exec (.submit 1 q) s = .next t
    let dead : Batch := { short 4 .abandoned with predEnd := some 700 }
    runs { submission 1 none oneSpan with channel := 4 } line ∧
    runs (submission 3 none oneSpan) line ∧ runs (submission 0 none oneSpan) line ∧
    runs (submission 2 none []) line ∧ runs (submission 2 none (List.replicate 8 ⟨1, .one, .two, none⟩)) line ∧
    runs { submission 2 none oneSpan with sites := some [47] } line ∧
    runs (submission 2 none oneSpan) (withQueue line 3 ((List.range 8).map fun k => short k .done)) ∧
    runs (submission 2 none oneSpan) (withQueue line 0 [short 9 .done]) ∧
    runs (submission 1 none oneSpan) (withQueue line 3 [short 1 .queued]) ∧
    runs (submission 0 (some 30000000) oneSpan) (at' line 9999999) ∧
    runs (submission 0 (some 30000000) oneSpan) (at' line 10000000) ∧
    runs (submission 2 none oneSpan) line ∧
    runs (submission 1 none oneSpan) (withQueue line 3 [dead]) := by
  intro runs dead
  have fine (q : Submission) (s : State) (m : TimingMode)
      (hs : q.spans = oneSpan) (hl : q.sites = none) (hc : q.channel = 3)
      (hd : (s.submitted 3 q m).duration ≤ 4294967296) :
      ¬ (q.spans = [] ∨ 7 < q.spans.length ∨ (∀ p ∈ q.spans, p.symbols = 0) ∨
        4294967296 < (s.submitted 3 q m).duration ∨ q.sites = some [] ∨
        ∃ l k, q.sites = some l ∧ k ∈ l ∧ ∀ n : SiteNo, n.val = k → s.isMember n 3 = false) := by
    simp [hs, hl, oneSpan]
    omega
  have unused (s : State) (hq : ∀ d, ∀ x ∈ (s.channel d).queue, x.tag ≠ 9) :
      ¬ ∃ d x, x ∈ (s.channel d).queue ∧ x.tag = 9 := fun ⟨d, x, hx, ht⟩ => hq d x hx ht
  have mem (s : State) (q : Submission) (mode : TimingMode) (ht : s.takes = true) (hc : q.channel = 3)
      (hm : (∃ a, q.mode = 0 ∧ q.air = some a ∧ mode = .absolute a) ∨
        (q.mode = 1 ∧ mode = .follow) ∨ (q.mode = 2 ∧ mode = .earliest)) :=
    (h s 1 q ht).2 3 mode hc hm _ rfl _ rfl _ rfl
  have accepted (s : State) (q : Submission) (mode : TimingMode) (ht : s.takes = true)
      (hc : q.channel = 3)
      (hm : (∃ a, q.mode = 0 ∧ q.air = some a ∧ mode = .absolute a) ∨
        (q.mode = 1 ∧ mode = .follow) ∨ (q.mode = 2 ∧ mode = .earliest))
      (hs : q.spans = oneSpan) (hl : q.sites = none) (hg : q.tag = 9)
      (hd : (s.submitted 3 q mode).duration ≤ 4294967296)
      (hq : ∀ d, ∀ x ∈ (s.channel d).queue, x.tag ≠ 9) (hn : (s.channel 3).queue.length < 8) :=
    (mem s q mode ht hc hm).2.2.2 (fine q s mode hs hl hc hd) hn (hg ▸ unused s hq)
  refine ⟨⟨_, (h line 1 _ ?_).1 (.inl ?_)⟩, ⟨_, (h line 1 _ ?_).1 (.inr (.inl ?_))⟩,
    ⟨_, (h line 1 _ ?_).1 (.inr (.inr ?_))⟩,
    ⟨_, (mem line _ .earliest ?_ ?_ ?_).1 (.inl ?_)⟩,
    ⟨_, (mem line _ .earliest ?_ ?_ ?_).1 (.inr (.inl ?_))⟩,
    ⟨_, (mem line _ .earliest ?_ ?_ ?_).1
      (.inr (.inr (.inr (.inr (.inr ⟨[47], 47, ?_, ?_, ?_⟩)))))⟩,
    ⟨_, (mem (withQueue line 3 ((List.range 8).map fun k => short k .done)) _ .earliest ?_ ?_ ?_).2.1
      (fine _ _ _ ?_ ?_ ?_ ?_) ?_⟩,
    ⟨_, (mem (withQueue line 0 [short 9 .done]) _ .earliest ?_ ?_ ?_).2.2.1
      (fine _ _ _ ?_ ?_ ?_ ?_) ?_ ⟨0, short 9 .done, ?_, ?_⟩⟩,
    ⟨_, (accepted (withQueue line 3 [short 1 .queued]) _ .follow ?_ ?_ ?_ ?_ ?_ ?_ ?_ ?_ ?_).1
      ⟨short 1 .queued, ?_, ?_⟩⟩,
    ⟨_, (accepted (at' line 9999999) _ (.absolute 30000000) ?_ ?_ (.inl ⟨30000000, ?_, ?_, ?_⟩)
      ?_ ?_ ?_ ?_ ?_ ?_).2.1 10000000 ?_ (.inl ⟨30000000, ?_, ?_⟩) ?_⟩,
    ⟨_, (accepted (at' line 10000000) _ (.absolute 30000000) ?_ ?_ (.inl ⟨30000000, ?_, ?_, ?_⟩)
      ?_ ?_ ?_ ?_ ?_ ?_).2.2.1 10000000 ?_ (.inl ⟨30000000, ?_, ?_⟩) ?_⟩,
    ⟨_, (accepted line _ .earliest ?_ ?_ ?_ ?_ ?_ ?_ ?_ ?_ ?_).2.2.2.1 ?_ ?_⟩,
    ⟨_, (accepted (withQueue line 3 [dead]) _ .follow ?_ ?_ ?_ ?_ ?_ ?_ ?_ ?_ ?_).2.2.2.2 ?_
      ⟨?_, .inr ⟨dead, ?_, ?_, ?_⟩⟩⟩⟩
  all_goals first
    | exact .inr (.inr ⟨rfl, rfl⟩)
    | exact .inr (.inl ⟨rfl, rfl⟩)
    | decide +kernel

theorem witness_CancelActsByTheState (h : Obligations.CancelActsByTheState) :
    let sent (o : OrderState) := sentEntry o 70000000 9500000 20000
    let s (b : Batch) := onChannel 79479999 b
    let two (o : OrderState) (st : BatchState) := planned 710 st [include' 4 (sent o)]
    let runs (s : State) : Prop := ∃ t, exec (.cancel 1 710) s = .next t
    runs (s (planned 711 .planned [])) ∧ runs (s (two .aborting .cancelling)) ∧
    runs (s (two .sent .onAir)) ∧ runs (s (two .sent .done)) ∧
    runs (withQueue line 2 [short 710 .queued, short 1 .queued]) ∧
    runs (withQueue line 2 [short 1 .queued, short 710 .queued]) ∧
    runs (s (two .waiting .planned)) ∧
    runs (onChannel 79480000 (two .sent .planned)) ∧ runs (s (two .receipted .armed)) := by
  intro sent s two runs
  have found (x : HubTime) (o : OrderState) (st : BatchState) :
      (onChannel x (two o st)).findBatch 710 = some (2, two o st) := by
    cases o <;> cases st <;> rfl
  refine ⟨⟨_, (h (s (planned 711 .planned [])) 1 710 ?_).1 ?_⟩,
    ⟨_, ((h (s (two .aborting .cancelling)) 1 710 ?_).2 2 _ (found _ _ _)).1 ?_⟩,
    ⟨_, ((h (s (two .sent .onAir)) 1 710 ?_).2 2 _ (found _ _ _)).2.1 ?_⟩,
    ⟨_, ((h (s (two .sent .done)) 1 710 ?_).2 2 _ (found _ _ _)).2.2.1 (.inl ?_)⟩,
    ⟨_, (((h (withQueue line 2 [short 710 .queued, short 1 .queued]) 1 710 ?_).2 2
      (short 710 .queued) ?_).2.2.2.1 [] [short 1 .queued] ?_ ?_ ?_).2 ?_⟩,
    ⟨_, (((h (withQueue line 2 [short 1 .queued, short 710 .queued]) 1 710 ?_).2 2
      (short 710 .queued) ?_).2.2.2.1 [short 1 .queued] [] ?_ ?_ ?_).1 ?_⟩,
    ⟨_, (((h (s (two .waiting .planned)) 1 710 ?_).2 2 _ (found _ _ _)).2.2.2.2 (.inl ?_) ?_).1
      (no_entry ?_) (no_entry ?_) ?_⟩,
    ⟨_, (((h (onChannel 79480000 (two .sent .planned)) 1 710 ?_).2 2 _ (found _ _ _)).2.2.2.2
      (.inl ?_) ?_).2.1 (no_entry ?_) ⟨include' 4 { sent .abortMissed with
        abortDeadline := some 79480000 }, _, ?_, rfl, ?_⟩⟩,
    ⟨_, (((h (s (two .receipted .armed)) 1 710 ?_).2 2 _ (found _ _ _)).2.2.2.2 (.inr ?_) ?_).2.2
      ⟨include' 4 { sent .aborting with abortDeadline := some 79480000 }, _, ?_, rfl, ?_⟩⟩⟩
  all_goals decide +kernel

/-- Behind an ON_AIR record, every record behind a QUEUED one is QUEUED. -/
theorem onAir_suffix : ∀ front x rest,
    ((onChannel 5 (planned 710 .onAir [])).channel 2).queue = front ++ x :: rest →
    x.state = .queued → ∀ y ∈ rest, y.state = .queued := by
  intro front x rest hq hx
  rw [show ((onChannel 5 (planned 710 .onAir [])).channel 2).queue =
    [planned 710 .onAir [], short 1 .queued] from rfl] at hq
  match front with
  | [] => simp at hq; simp [← hq.1, planned] at hx
  | [_] => simp at hq; simp [hq]
  | _ :: _ :: _ => simp at hq

theorem witness_FlushChannelCancelsAndCounts (h : Obligations.FlushChannelCancelsAndCounts) :
    let s := onChannel 5 (planned 710 .armed [include' 4 (sentEntry .sent 70000000 9500000 20000)])
    let onAir := onChannel 5 (planned 710 .onAir [])
    (∃ t, exec (.flushChannel 1 4) s = .next t) ∧
    (∃ t, exec (.flushChannel 1 2) s = .next t ∧ t.highway.aborts = [⟨2, 710, 4⟩]) ∧
    (∃ t, exec (.flushChannel 1 3) s = .next t ∧ t.highway.aborts = []) ∧
    (∃ t, exec (.flushChannel 1 2) onAir = .next t ∧
      (t.channel 2).queue = [planned 710 .onAir []]) := by
  intro s onAir
  have lawful : s.QueuesLawful := ⟨by decide +kernel, by decide +kernel⟩
  refine ⟨⟨_, (h s 1 (by decide +kernel)).1 4 (by decide)⟩, ?_, ?_, ?_⟩
  · obtain ⟨t, _, _, e, _, _, a, _⟩ := (h s 1 (by decide +kernel)).2 2 lawful (by decide)
    refine ⟨t, e, ?_⟩
    rw [a]
    decide +kernel
  · obtain ⟨t, _, _, e, _, _, a, _⟩ := (h s 1 (by decide +kernel)).2 3 lawful (by decide)
    refine ⟨t, e, ?_⟩
    rw [a]
    decide +kernel
  · obtain ⟨t, _, _, e, _, q, _⟩ := (h onAir 1 (by decide +kernel)).2 2
      ⟨by decide +kernel, by decide +kernel⟩ (by decide)
    refine ⟨t, e, ?_⟩
    rw [q onAir_suffix]
    decide +kernel

theorem witness_QueryBatchAndCollectReportRecords
    (h : Obligations.QueryBatchAndCollectReportRecords) :
    let s := withQueue line 3 [short 1 .queued, short 2 .abandoned, short 3 .done]
    (∃ t, exec (.queryBatch 1 4) s = .next t) ∧ (∃ t, exec (.queryBatch 1 1) s = .next t) ∧
    (∃ t, exec (.collect 1 (.byTag 1)) s = .next t) ∧
    (∃ t, exec (.collect 1 (.byTag 3)) s = .next t) ∧
    (∃ t, exec (.collect 1 (.byChannel 4)) s = .next t) ∧
    (∃ t, exec (.collect 1 (.byChannel 0)) s = .next t) ∧
    (∃ t, exec (.collect 1 (.byChannel 3)) s = .next t) := by
  intro s
  have ht : s.takes = true := by decide +kernel
  have ⟨_, _, e⟩ := ((h s 1 ht).2.1 3 3 (short 3 .done) (by decide +kernel)).2.2 (.inl rfl)
  have ⟨_, _, e'⟩ := ((h s 1 ht).2.2.2 3).2 [short 1 .queued] (short 2 .abandoned) [short 3 .done]
    rfl (by decide) (by decide)
  exact ⟨⟨_, ((h s 1 ht).1 4 (by decide +kernel)).1⟩,
    ⟨_, ((h s 1 ht).2.1 1 3 (short 1 .queued) (by decide +kernel)).1⟩,
    ⟨_, ((h s 1 ht).2.1 1 3 (short 1 .queued) (by decide +kernel)).2.1 (by decide)⟩, ⟨_, e⟩,
    ⟨_, (h s 1 ht).2.2.1 4 (by decide)⟩, ⟨_, ((h s 1 ht).2.2.2 0).1 (by decide +kernel)⟩, _, e'⟩

theorem witness_PinAndUnpinKeepTheContext (h : Obligations.PinAndUnpinKeepTheContext) :
    let s := withSite State.reset 47 tracking
    let held := after .responseReady (after (.pin 1 3) s)
    (∃ t, exec (.pin 1 4) s = .next t) ∧ (∃ t, exec (.unpin 1 4) s = .next t) ∧
    (∃ t, exec (.pin 1 3) s = .next t) ∧
    (∃ t, exec (.pin 1 3) held = .next t) ∧
    (∃ t, exec (.unpin 1 3) held = .next t) := by
  intro s held
  have fresh : ∃ t, exec (.pin 1 3) s = .next t :=
    have ⟨_, _, _, _, e⟩ := (h s 1 (by decide +kernel)).2.2.1 3 (by decide +kernel)
    ⟨_, e⟩
  have hc : ∃ x, (held.channel 3).context = some x :=
    Option.isSome_iff_exists.mp (by decide +kernel)
  exact ⟨⟨_, ((h s 1 (by decide +kernel)).1 4 (by decide)).1⟩,
    ⟨_, ((h s 1 (by decide +kernel)).1 4 (by decide)).2⟩, fresh,
    hc.elim fun x hx => ⟨_, (h held 1 (by decide +kernel)).2.1 3 x hx⟩,
    _, (h held 1 (by decide +kernel)).2.2.2 3⟩

theorem witness_TimedRowsActOnlyWhenDue (h : Obligations.TimedRowsActOnlyWhenDue) :
    exec .lineFree (at' line 499) = .next (at' line 499) ∧
    exec (.abortDeadline 65535 47) line = .next line ∧ exec .slewAdjustment line = .next line ∧
    exec (.release 710 4) (onChannel 9 (mixed .planned .sent)) =
      .next (onChannel 9 (mixed .planned .sent)) ∧
    exec (.release 710 9) (onChannel 10 (mixed .planned .sent)) =
      .next (onChannel 10 (mixed .planned .sent)) := by
  have found (x : HubTime) (c : ChannelNo) (b : Batch)
      (hb : (onChannel x (mixed .planned .sent)).findBatch 710 = some (c, b)) :
      b = mixed .planned .sent := by
    have := (show (onChannel x (mixed .planned .sent)).findBatch 710 =
      some (2, mixed .planned .sent) from rfl).symm.trans hb
    exact ((Prod.mk.inj (Option.some.inj this)).2).symm
  refine ⟨h.1 .lineFree _ ?_ ?_, h.1 (.abortDeadline 65535 47) _ ?_ ?_, h.2.2 _ ?_,
    h.2.1 _ 710 4 fun c b e hb _ he => .inr ?_, h.2.1 _ 710 9 fun c b e hb _ he => .inl ?_⟩
  case refine_6 =>
    obtain rfl := found _ c b hb
    obtain rfl : entry .waiting 10 20 = e := Option.some.inj
      ((show (mixed .planned .sent).entryOf 4 = some _ from rfl).symm.trans he)
    decide +kernel
  case refine_7 =>
    obtain rfl := found _ c b hb
    obtain rfl : sentEntry .sent 1 2 3 = e := Option.some.inj
      ((show (mixed .planned .sent).entryOf 9 = some _ from rfl).symm.trans he)
    decide
  case refine_2 => simp
  case refine_4 => simp
  all_goals decide +kernel

theorem witness_AirTimePutsTheBatchOnAir (h : Obligations.AirTimePutsTheBatchOnAir) :
    (∃ t, exec (.airTime 710) (onChannel 80000000 (mixed .planned .sent)) = .next t) ∧
    (∃ t, exec (.airTime 710) (aborts (onChannel 80000000 (cancelling .sent))) = .next t) := by
  refine ⟨⟨_, (h (onChannel 80000000 (mixed .planned .sent)) 710 2 (mixed .planned .sent) 80000000
    ?_ ?_ ?_ ?_ ?_).1 (.inl ?_)⟩, ⟨_, (h (aborts (onChannel 80000000 (cancelling .sent))) 710 2
    (cancelling .sent) 80000000 ?_ ?_ ?_ ?_ ?_).2 ?_⟩⟩
  all_goals decide +kernel

/-- A batch whose air time and duration pass the top of hub time and end at 99. -/
theorem witness_BatchEndSettlesAndConfirms (h : Obligations.BatchEndSettlesAndConfirms) :
    let b := { mixed .onAir .sent with air := some 1099511627675, duration := 200 }
    let s := withSite (withSite (onChannel 99 b) 4 retiring) 9 tracking
    ∃ t, exec (.batchEnd 710) s = .next t ∧ t.enrolled 4 = none := by
  intro b s
  have ⟨t, e, _, _, _, _, _, _, _, _, hr⟩ := h s 710 2 b 1099511627675 [] [short 1 .queued]
    (by decide +kernel) (by decide +kernel) (by decide +kernel) rfl rfl (by decide +kernel)
    (by decide +kernel) (by decide +kernel)
  exact ⟨t, e, (hr 4 (by decide +kernel) (by decide +kernel) (by decide +kernel)
    (of_none (P := fun _ p => p.site = 4 → p.flight = none)
      (by decide +kernel : ∀ i, s.slot i = none))).1⟩

theorem witness_EntryDeadlinesMoveTheirEntries (h : Obligations.EntryDeadlinesMoveTheirEntries) :
    let w := entry .waiting 10 20
    let two := planned 710 .planned [include' 4 w, include' 9 w]
    let one := planned 710 .planned [include' 4 w, include' 9 (sentEntry .aborted 1 2 3)]
    (∃ t, exec (.release 710 4) (onChannel 10 (mixed .planned .sent)) = .next t) ∧
    (∃ t, exec (.withdrawal 710 4) (onChannel 20 (mixed .onAir .sent)) = .next t) ∧
    (∃ t, exec (.withdrawal 710 4) (onChannel 20 two) = .next t) ∧
    (∃ t, exec (.withdrawal 710 4) (onChannel 20 (mixed .planned .sent)) = .next t) ∧
    (∃ t, exec (.withdrawal 710 4) (onChannel 20 one) = .next t) ∧
    (∃ t, exec (.receiptDeadline 710 9) (onChannel 60 (cancelling .sent)) = .next t) ∧
    (∃ t, exec (.abortDeadline 710 4) (aborts (onChannel 60 (cancelling .aborting))) = .next t) ∧
    (∃ t, exec (.abortDeadline 710 4) (aborts (onChannel 60 (cancelling .sent))) = .next t) ∧
    (let t := after (.retire 1 4) (withSite (onChannel 5 two) 4 tracking)
     ∀ b x, b ∈ (t.channel 2).queue → b.active = true → b.entryOf 4 = some x →
      x.order ≠ .waiting) := by
  intro w two one
  let a := { sentEntry .aborting 1 2 3 with abortDeadline := some 60 }
  let u := { sentEntry .sent 1 2 3 with abortDeadline := some 60, receiptDeadline := some 60 }
  have e := ((h.1 (onChannel 20 one) 710 4 2 one w (by decide +kernel)
    (by decide +kernel) (by decide +kernel) rfl rfl).2.1 rfl (by decide +kernel)).2.2.2 rfl
    (of_plan (by decide +kernel)) (by decide +kernel)
  refine ⟨⟨_, (h.1 (onChannel 10 (mixed .planned .sent)) 710 4 2 (mixed .planned .sent) w
      ?_ ?_ ?_ ?_ ?_).1 ?_ ?_⟩,
    ⟨_, ((h.1 (onChannel 20 (mixed .onAir .sent)) 710 4 2 (mixed .onAir .sent) w
      ?_ ?_ ?_ ?_ ?_).2.1 ?_ ?_).1 (.inl ?_)⟩,
    ⟨_, ((h.1 (onChannel 20 two) 710 4 2 two w ?_ ?_ ?_ ?_ ?_).2.1 ?_ ?_).2.1 ?_
      (fun d => absurd (d (include' 9 w) w ?_ rfl) ?_) ⟨include' 9 w, w, ?_, rfl, rfl⟩⟩,
    ⟨_, ((h.1 (onChannel 20 (mixed .planned .sent)) 710 4 2 (mixed .planned .sent) w
      ?_ ?_ ?_ ?_ ?_).2.1 ?_ ?_).2.2.1 ?_
      (fun d => absurd (d (include' 9 (sentEntry .sent 1 2 3)) (sentEntry .sent 1 2 3) ?_ rfl) ?_)
      (no_entry ?_)⟩, ⟨_, e⟩,
    ⟨_, (h.1 (onChannel 60 (cancelling .sent)) 710 9 2 (cancelling .sent) u
      ?_ ?_ ?_ ?_ ?_).2.2.1 60 ?_ ?_ ?_⟩,
    ⟨_, ((h.1 (aborts (onChannel 60 (cancelling .aborting))) 710 4 2 (cancelling .aborting) a
      ?_ ?_ ?_ ?_ ?_).2.2.2 60 ?_ ?_ ?_ ?_).1
      ⟨include' 9 { u with order := .aborting }, { u with order := .aborting }, ?_, rfl, rfl⟩⟩,
    ⟨_, ((h.1 (aborts (onChannel 60 (cancelling .sent))) 710 4 2 (cancelling .sent) a
      ?_ ?_ ?_ ?_ ?_).2.2.2 60 ?_ ?_ ?_ ?_).2 (no_entry ?_)⟩,
    h.2 (withSite (onChannel 5 two) 4 tracking) _ 1 4 tracking ?_ ?_ ⟨?_, ?_⟩ ?_ ?_
      (exec_after ?_) 2⟩
  all_goals decide +kernel

theorem witness_PlanningWritesTheRecordAndItsSuccessor
    (h : Obligations.PlanningWritesTheRecordAndItsSuccessor) :
    (∃ t, exec (.computePoint 3) (at' (withTimer line 3 100) 100) = .next t) ∧
    (∃ t, exec (.computePoint 0) batch410 = .next t) ∧
    ∃ ctx, ((batch410.planBatch 0 (queued 410 (.absolute 50000000) none) false).channel 0).context =
      some ctx := by
  have ⟨ctx, _, _, hc, _⟩ := h.2 batch410 0 (queued 410 (.absolute 50000000) none) false [] []
    (by decide +kernel) (by decide) rfl (by simp [queued])
  refine ⟨⟨_, (h.1 (at' (withTimer line 3 100) 100) 3 100 ?_ ?_ ?_).1 ?_⟩,
    ⟨_, (h.1 batch410 0 48000000 ?_ ?_ ?_).2 none (queued 410 (.absolute 50000000) none) ?_⟩, ctx, hc⟩
  all_goals decide +kernel

/-- Each test at a site that passes every test before it. -/
theorem witness_PlansIncludeOnlyEligibleSites (h : Obligations.PlansIncludeOnlyEligibleSites) :
    let steered (m : SteerMode) := { tracking with config := { tracking.config with steer := m } }
    let empty : Context := ⟨0, Vector.replicate 48 none⟩
    let plan (e : Enrolled) (ctx : Context) :=
      ((withSite State.reset 47 e).runPlanning 3 (queued 1 .earliest none) .earliest ctx).plan
    let known (d : Option Nat) : Context := ⟨0, Vector.replicate 48 (some ⟨d, 0, 0, 0, 1000, 0⟩)⟩
    ⟨47, .excluded .notMember⟩ ∈
      (State.reset.runPlanning 3 (queued 1 .earliest (some [47])) .earliest empty).plan ∧
    ⟨47, .excluded .retiring⟩ ∈ plan retiring empty ∧
    ⟨47, .excluded .forcedOut⟩ ∈ plan (steered .forceOut) empty ∧
    ⟨47, .excluded .notInContext⟩ ∈ plan tracking empty ∧
    ⟨47, .excluded .unsettled⟩ ∈ plan tracking (known none) ∧
    ⟨47, .excluded .unsettled⟩ ∈ plan (record .settling none 0) (known (some 0)) ∧
    ⟨47, .excluded .stale⟩ ∈ plan (record .stale none 0) (known (some 0)) := by
  intro steered empty plan known
  have at47 (e : Enrolled) (ctx : Context) (hm : (withSite State.reset 47 e).isMember 47 3 = true) :=
    (h (withSite State.reset 47 e) 3 (queued 1 .earliest none) .earliest ctx).2.2 47 e hm hm rfl
  refine ⟨(h State.reset 3 (queued 1 .earliest (some [47])) .earliest empty).2.1 47
      (show (47 : SiteNo) ∈ [47] from ?_) ?_,
    (at47 retiring empty ?_).1 ?_, (at47 (steered .forceOut) empty ?_).2.1 ?_ ?_,
    (at47 tracking empty ?_).2.2.1 ?_ ?_ ?_,
    ((at47 tracking (known none) ?_).2.2.2 ⟨none, 0, 0, 0, 1000, 0⟩ ?_ ?_ ?_).1 (.inl ?_),
    ((at47 (record .settling none 0) (known (some 0)) ?_).2.2.2 ⟨some 0, 0, 0, 0, 1000, 0⟩
      ?_ ?_ ?_).1 (.inr ?_),
    ((at47 (record .stale none 0) (known (some 0)) ?_).2.2.2 ⟨some 0, 0, 0, 0, 1000, 0⟩
      ?_ ?_ ?_).2 ?_ ?_ ?_⟩
  all_goals decide +kernel

/-- Site 47 with confirmed ends at `x`. -/
def keying (x : HubTime) : Enrolled :=
  { tracking with carriers := Vector.replicate 4 (some ⟨some x⟩) }

def keyed (x : HubTime) : State := withSite State.reset 47 (keying x)

theorem witness_PlannedEntriesCarryThePlanningSums
    (h : Obligations.PlannedEntriesCarryThePlanningSums) :
    (∃ p e, p ∈ (batch410.runPlanning 0 (queued 410 (.absolute 50000000) none) (.absolute 50000000)
      (batch410.capture 0)).plan ∧ p.disp = .included e) ∧
    State.reset.inStandby 3 0 5 47 = true ∧
    (keyed 138).inStandby 3 0 40000139 47 = true ∧ (keyed 138).inStandby 3 0 40000138 47 = false ∧
    (let b := queued 600 (.absolute 50000000) (some [7, 12, 20])
     let s := slipBatch 500
     let w := s.eligibility 1 (s.capture 1) (s.candidates 1 b.sites)
     (∃ a ∈ s.proposals 1 b b.mode w, s.inStandby 1 600 a 12 = true) ∧
     ((55000000 : HubTime) - (55000000 - BitVec.ofNat 40 5000000)).toNat ≤
       (s.channel 1).settings.slipLimit * 10000) := by
  let e := { entry .waiting 38197282 49954497 with
    target := 879591952, preKey := true, armMargin := 20000, released := true }
  obtain ⟨_, _, _, _, _, _, _, _, _, _, _, _, _, _, _, _, _, ⟨keys, bound⟩, _⟩ :=
    (h.2 (slipBatch 500) 1 (queued 600 (.absolute 50000000) (some [7, 12, 20]))
      (.absolute 50000000) ((slipBatch 500).capture 1) 55000000 5000000 (by decide +kernel)).2
      ⟨12, .included e⟩ e (by decide +kernel) rfl
  have last (air : HubTime) := (h.1 (keyed 138) 3 0 air 47).2.2 138 138 (keying 138)
    (show 138 ∈ [138] by decide) (by decide)
    (fun x hx => by rw [List.mem_singleton.mp (show x ∈ [138] from hx)]) (by decide +kernel)
  refine ⟨(h.2 batch410 0 _ _ (batch410.capture 0) 50000000 0 ?_).1,
    (h.1 State.reset 3 0 5 47).2.1 ?_, (last _).trans ?_, (last _).trans ?_, keys.1 rfl,
    bound nofun 55000000 ?_⟩
  all_goals decide +kernel

/-- The earliest grid instant is the origin, the last of a lap lies past the modulus. -/
theorem witness_GridCeilingIsTheFirstGridInstant
    (h : Obligations.GridCeilingIsTheFirstGridInstant) :
    (∃ k : Nat, gridCeiling 100000 99999 99999 = BitVec.ofNat 40 (99999 + k * 100000)) ∧
    ∃ k : Nat, gridCeiling 4294967296 1 0 = BitVec.ofNat 40 (1 + k * 4294967296) :=
  have ⟨k, hk, _⟩ := (h 100000 99999 99999).2 (by decide)
  have ⟨j, hj, _⟩ := (h 4294967296 1 0).2 (by decide)
  ⟨⟨k, hk⟩, j, hj⟩

/-- An EARLIEST batch behind one that ends at `x`. -/
def behind (x : HubTime) : Batch := { queued 9 .earliest none with predEnd := some x }

/-- A late site slips the air time by 30,000 ticks; with the slip limit 0 it is removed; at its own
feasible air time nothing is late. -/
theorem witness_ChosenAirTimeLeavesNoSiteLate (h : Obligations.ChosenAirTimeLeavesNoSiteLate) :
    let s (limit : Nat) := withSettings State.reset 1 fun g => { g with slipLimit := limit }
    let site (b : Bool) : Candidate := ⟨20, 160000, ⟨some 160000, 95, 0, 0, 20000, 0⟩, b⟩
    (50030000 : HubTime) = 50000000 + BitVec.ofNat 40 30000 ∧
    (∀ x ∈ (⟨[], [(20, .late)]⟩ : Working).eligible,
      earlier (x.deadline 50000000) 50000000 = false) ∧
    ((50030000 : HubTime) = 50030000 ∧ (⟨[site false], []⟩ : Working) = ⟨[site false], []⟩) ∧
    (s 3).lateness 1 9 50000000 50000000 ⟨[site false], []⟩ =
      .chosen 50030000 30000 ⟨[site true], []⟩ ∧
    (s 3).lateness 1 9 50000000 50000000 ⟨[site true], []⟩ =
      .chosen 50030000 (50030000 - 50000000 : HubTime).toNat ⟨[site true], []⟩ ∧
    (s 0).airStage 1 (behind 5) (.absolute 100004) ⟨[site true], []⟩ = .overlap ∧
    (s 0).airStage 1 (behind 5) (.absolute 100005) ⟨[site true], []⟩ ≠ .overlap ∧
    (s 0).airStage 1 (behind 5) .follow ⟨[site true], []⟩ ≠ .overlap ∧
    (s 0).airStage 1 (behind 5) .earliest ⟨[site true], []⟩ = .chosen 100005 0 ⟨[site true], []⟩ ∧
    (s 0).airStage 1 (behind 5) .earliest ⟨[], []⟩ = .noSite ⟨[], []⟩ ∧
    ((s 0).now + BitVec.ofNat 40 ((s 0).channel 1).settings.dispatch - 0).toNat ≤
      ((274877906943 : HubTime) - 0).toNat := by
  intro s site
  refine ⟨(h.1 (s 3) 1 9 50000000 50000000 50030000 ⟨[site false], []⟩ ⟨[site true], []⟩ 30000 ?_).2.1,
    (h.1 (s 0) 1 9 50000000 50000000 50000000 ⟨[site false], []⟩ ⟨[], [(20, .late)]⟩ 0 ?_).1,
    (h.1 (s 0) 1 9 50000000 50030000 50030000 ⟨[site false], []⟩ ⟨[site false], []⟩ 0 ?_).2.2.2.2.1 ?_,
    ?_, (h.2.1 (s 3) 1 9 50000000 50000000 ⟨[site true], []⟩).2 (site true) [] _ _ ?_ ?_ ?_ ?_ ?_ ?_,
    (h.2.2 (s 0) 1 (behind 5) ⟨[site true], []⟩).1 _ 5 rfl ?_,
    ((h.2.2 (s 0) 1 (behind 5) ⟨[site true], []⟩).2.1 _ (fun p hp => ?_)).trans_ne ?_,
    ((h.2.2 (s 0) 1 (behind 5) ⟨[site true], []⟩).2.2.1 5 rfl).trans_ne ?_,
    ((h.2.2 (s 0) 1 (behind 5) ⟨[site true], []⟩).2.2.2.1 _ ⟨[site true], []⟩ ?_ ?_).2 ?_,
    ((h.2.2 (s 0) 1 (behind 5) ⟨[], []⟩).2.2.2.1 100005 ⟨[], []⟩ ?_ ?_).1 ?_,
    ((h.2.2 (s 0) 1 (behind 274877806943) ⟨[site true], []⟩).2.2.2.2 0 274877906943 0
      ⟨[site true], []⟩ ?_ ?_ (fun p hp => ?_) ?_ ?_).2.2.1⟩
  case refine_13 => cases hp; decide +kernel
  case refine_24 => cases hp; decide +kernel
  all_goals decide +kernel

/-- A departure at the release, whose hold is the largest, and one at the deadline of the largest hold
floor, for a target at the bottom of the range. -/
theorem witness_DepartureHoldCoversTheFloor (h : Obligations.DepartureHoldCoversTheFloor) :
    0 ≤ (holdAt 0 (releaseOf 0)).ticks ∧
    16777215 ≤ (holdAt 0 (fineDiv16 (0 - BitVec.ofNat 44 (16777215 * 16)))).ticks := by
  refine ⟨(h 0 0 (releaseOf 0) ?_ ?_).1,
    (h 0 16777215 (fineDiv16 (0 - BitVec.ofNat 44 (16777215 * 16))) ?_ ?_).1⟩
  all_goals decide +kernel

/-- An order that waits for the line holds the earliest target of hub time, and departs at its deadline; an
abort departs at its abort deadline. -/
theorem witness_LineFreeLetsTheChosenFrameDepart (h : Obligations.LineFreeLetsTheChosenFrameDepart) :
    let probing := withSlot (withSite (at' line 500) 5 tracking) 7 (slot5 none)
    let free (s : State) := busy s s.now
    let s (b : Batch) := free (withSite (onChannel 20 b) 4 tracking)
    let aborting (o : OrderState) := free (aborts (onChannel 60 (cancelling o)))
    let two := planned 710 .planned [include' 4 (entry .waiting 10 20), include' 9 (entry .waiting 10 21)]
    (∃ t, exec .lineFree (at' line 500) = .next t) ∧
    (∃ t, exec .lineFree (aborting .aborting) = .next t) ∧
    (∃ t, exec .lineFree (aborting .abortMissed) = .next t) ∧
    (∃ t, exec .lineFree (aborting .aborted) = .next t) ∧
    (∃ t, exec .lineFree (s (mixed .planned .sent)) = .next t) ∧
    (∃ t, exec .lineFree (s (mixed .onAir .sent)) = .next t) ∧
    (∃ t, exec .lineFree (s two) = .next t) ∧ (∃ t, exec .lineFree probing = .next t) := by
  intro probing free s aborting two
  let f := HighwayFrame.probe 0 0
  let r : OrderRef := ⟨2, 710, 0, 4, 20⟩
  let w := entry .waiting 10 20
  have ⟨_, e, _⟩ := ((h (aborting .aborted) f 60 (by decide +kernel)
    (by decide +kernel) (by decide +kernel)).2.1 ⟨2, 710, 4⟩ (cancelling .aborted)
    (by decide +kernel) (by decide +kernel) rfl).2.2 (no_entry (by decide +kernel))
    (no_entry (by decide +kernel))
  refine ⟨⟨_, (h (at' line 500) f 500 ?_ ?_ ?_).1 ?_⟩,
    ⟨_, ((h (aborting .aborting) f 60 ?_ ?_ ?_).2.1 ⟨2, 710, 4⟩
      (cancelling .aborting) ?_ ?_ ?_).1 ⟨include' 9 { sentEntry .aborting 1 2 3 with
        abortDeadline := some 60, receiptDeadline := some 60 }, _, ?_, rfl, rfl⟩⟩,
    ⟨_, ((h (aborting .abortMissed) f 60 ?_ ?_ ?_).2.1 ⟨2, 710, 4⟩
      (cancelling .abortMissed) ?_ ?_ ?_).2.1 (no_entry ?_) ⟨include' 9 { sentEntry .abortMissed
        1 2 3 with abortDeadline := some 60, receiptDeadline := some 60 }, _, ?_, rfl, rfl⟩⟩,
    ⟨_, e⟩,
    ⟨_, ((h (s (mixed .planned .sent)) f 20 ?_ ?_ ?_).2.2.1 r (mixed .planned .sent) w tracking
      ?_ ?_ ?_ ?_ ?_).1 ?_ (no_entry ?_)⟩,
    ⟨_, ((h (s (mixed .onAir .sent)) f 20 ?_ ?_ ?_).2.2.1 r (mixed .onAir .sent) w tracking
      ?_ ?_ ?_ ?_ ?_).2 (.inl ?_)⟩,
    ⟨_, ((h (s two) f 20 ?_ ?_ ?_).2.2.1 r two w tracking ?_ ?_ ?_ ?_ ?_).2
      (.inr ⟨include' 9 (entry .waiting 10 21), _, ?_, rfl, rfl⟩)⟩,
    ⟨_, (h probing f 500 ?_ ?_ ?_).2.2.2 7 (slot5 none) tracking ?_ ?_ ?_⟩⟩
  all_goals decide +kernel

/-- Deadlines and queue orders within half the range of a base, the last of them at its very end. -/
theorem witness_ArbiterTakesAbortsThenOrdersThenProbes
    (h : Obligations.ArbiterTakesAbortsThenOrdersThenProbes) :
    let orders := onChannel 1 (planned 710 .planned
      [include' 4 (entry .waiting 10 549755813888), include' 9 (entry .waiting 10 1)])
    let probes := withSlot (withSlot line 3 { slot5 none with queueOrder := 549755813888 }) 7
      { slot5 none with queueOrder := 1 }
    (aborts line).choose = some (.abort ⟨2, 710, 4⟩) ∧
    (aborts (onChannel 60 (cancelling .aborting))).choose = some (.abort ⟨2, 710, 4⟩) ∧
    (aborts (onChannel 61 (cancelling .aborting))).choose = some (.abort ⟨1, 710, 4⟩) ∧
    (∃ r ∈ orders.orders, orders.choose = some (.order r)) ∧
    (∃ j, probes.choose = some (.probe j)) ∧ line.choose = none := by
  intro orders probes
  have none' (s : State) (hs : s.highway.aborts = []) (P : AbortRef → Prop) :
      ∀ r ∈ s.highway.aborts, P r := by simp [hs]
  have ⟨r, hr, e, _⟩ := (h orders).2.2.1 1 (none' _ rfl _) (by decide +kernel) (by decide +kernel)
  have queued : ∀ i p, probes.slot i = some p → p.flight = none →
      (p.queueOrder - 1).toNat < 2 ^ 39 := by
    intro i p hp _
    have := (by decide +kernel : ∀ i, (probes.slot i).all
      fun p => decide ((p.queueOrder - 1).toNat < 2 ^ 39)) i
    simpa [hp] using this
  have ⟨j, _, _, _, e', _⟩ := (h probes).2.2.2.1 1 (none' _ rfl _) (by decide +kernel) queued
    7 { slot5 none with queueOrder := 1 } (by decide +kernel) rfl
  refine ⟨(h (aborts line)).2.1 ⟨2, 710, 4⟩ [] _ rfl (by simp) ?_,
    (h (aborts (onChannel 60 (cancelling .aborting)))).2.1 ⟨2, 710, 4⟩ [] _ rfl (by simp) ?_,
    (h (aborts (onChannel 61 (cancelling .aborting)))).2.1 ⟨1, 710, 4⟩ [_, _] _ rfl ?_ ?_,
    ⟨r, hr, e⟩, ⟨j, e'⟩,
    (h line).2.2.2.2 (none' _ rfl _) (by decide +kernel) (of_none (by decide +kernel))⟩
  · rintro ⟨b, e, x, hb, -⟩
    exact nomatch (show (none : Option Batch) = some b from hb)
  · rintro ⟨b, e, x, hb, he, hx, hl⟩
    obtain rfl : cancelling .aborting = b := Option.some.inj hb
    obtain rfl : { sentEntry .aborting 1 2 3 with abortDeadline := some 60 } = e := Option.some.inj he
    obtain rfl : 60 = x := Option.some.inj hx
    exact absurd hl (by decide +kernel)
  · intro q hq
    rcases List.mem_cons.mp hq with rfl | hq
    · exact ⟨cancelling .aborting, _, 60, rfl, rfl, rfl, by decide +kernel⟩
    · obtain rfl := List.mem_singleton.mp hq
      exact ⟨cancelling .aborting, _, 60, rfl, rfl, rfl, by decide +kernel⟩
  · rintro ⟨b, e, x, hb, -⟩
    exact nomatch (show (none : Option Batch) = some b from hb)

theorem witness_InboundFramesAreCountedOrCollected
    (h : Obligations.InboundFramesAreCountedOrCollected) :
    let partly := { line with highway := { line.highway with
      assembler := .collect 7 none [155], errors := 65535 } }
    let s := onChannel 500 (mixed .onAir .receipted)
    (∃ t, exec (.flagFound 1099511627775) line = .next t) ∧
    exec (.flagFound 8) partly = .next partly ∧
    (∃ t, exec (.inboundFrameDiscarded .badCheck) partly = .next t) ∧
    (∃ t, exec (.receipt 48 2 710 0 5) s = .next t) ∧
    (∃ t, exec (.receipt 9 2 710 3 5) s = .next t) ∧
    (∃ t, exec (.receipt 9 2 711 2 5) s = .next t) ∧
    (∃ t, exec (.receipt 9 3 710 2 5) s = .next t) ∧
    (∃ t, exec (.receipt 9 2 710 2 5) s = .next t) ∧
    (readInboundFrame [155, 130, 1, 2, 3, 4, 5, 6, 7, 8, 9]).isSome = true ∧
    (readInboundFrame [155, 128]).isSome = true ∧
    Instr.inboundFrameDiscarded .badKind ∈ (collecting [155, 1]).dueRows := by
  intro partly s
  have hf : s.findBatch (710#16).toNat = some (2, mixed .onAir .receipted) := by decide +kernel
  have ends := (h.1 130 [1, 2, 3, 4, 5, 6, 7, 8, 9]).2 (.inr (.inl ⟨rfl, rfl⟩))
  have kinds := (h.1 128 []).2 (.inr (.inr ⟨by decide, by decide⟩))
  have due := h.2.1 (collecting [155, 1]) 7 (some 129) [155, 1] _ rfl
    (show _ = some (.inboundFrameDiscarded .badKind) by decide +kernel)
  replace h := h.2.2
  refine ⟨⟨_, (h line ?_).1 _ ?_⟩, (h partly ?_).2.1 8 7 none [155] ?_,
    ⟨_, (h partly ?_).2.2.1 _⟩, ⟨_, (h s ?_).2.2.2.1 48 2 710 0 5 (.inl ?_)⟩,
    ⟨_, (h s ?_).2.2.2.1 9 2 710 3 5 (.inr ?_)⟩,
    ⟨_, (h s ?_).2.2.2.2 9 2 711 2 5 (.inl ?_)⟩,
    ⟨_, (h s ?_).2.2.2.2 9 3 710 2 5 (.inr ⟨2, _, hf, .inl ?_⟩)⟩,
    ⟨_, (h s ?_).2.2.2.2 9 2 710 2 5 (.inr ⟨2, _, hf, .inr ?_⟩)⟩, ends, kinds, due⟩
  case refine_15 =>
    intro n hn e he
    obtain rfl : n = 9 := Fin.ext hn
    obtain rfl : sentEntry .receipted 1 2 3 = e := Option.some.inj
      ((show (mixed .onAir .receipted).entryOf 9 = some _ from rfl).symm.trans he)
    decide
  all_goals decide +kernel

theorem witness_MatchedReceiptActsOnItsEntry (h : Obligations.MatchedReceiptActsOnItsEntry) :
    let s (e : Enrolled) (x : HubTime) := withSite (onChannel x (mixed .onAir .sent)) 9 e
    (∃ t, exec (.receipt 9 2 710 1 5) (s retiring 10006) = .next t) ∧
    (∃ t, exec (.receipt 9 2 710 0 5) (s tracking 10006) = .next t) ∧
    (∃ t, exec (.receipt 9 2 710 2 65535) (s tracking 10006) = .next t) := by
  intro s
  refine ⟨⟨_, (h (s retiring 10006) 9 2 710 1 5 9 2 (mixed .onAir .sent) (sentEntry .sent 1 2 3) 1
      .cold retiring ?_ ?_ ?_ ?_ ?_ ?_ ?_ ?_ ?_).1 ?_⟩,
    ⟨_, (h (s tracking 10006) 9 2 710 0 5 9 2 (mixed .onAir .sent) (sentEntry .sent 1 2 3) 1
      .accept tracking ?_ ?_ ?_ ?_ ?_ ?_ ?_ ?_ ?_).2 _ _ ?_ rfl⟩,
    ⟨_, (h (s tracking 10006) 9 2 710 2 65535 9 2 (mixed .onAir .sent) (sentEntry .sent 1 2 3) 1
      .busy tracking ?_ ?_ ?_ ?_ ?_ ?_ ?_ ?_ ?_).2 _ _ ?_ rfl⟩⟩
  all_goals decide +kernel

theorem witness_EchoNeverRaisesTheErrorCount (h : Obligations.EchoNeverRaisesTheErrorCount) :
    let s := { flown tracking with highway := { (flown tracking).highway with
      assembler := .collect 1099511627775 none [155] } }
    after (.echo 47 255 65535) s = (({ s with highway := { s.highway with assembler := .hunt } } :
      State).takeEcho 47 255 1099511627775 65535).arbitrate ∧
    (after (.echo 47 255 65535) s).highway.errors = 0 := by
  intro s
  have ⟨handed, kept, _⟩ := h s _ 47 47 255 65535 rfl (by decide) (exec_after (by decide +kernel))
  exact ⟨handed _ _ _ rfl, kept.trans (by decide +kernel)⟩

theorem witness_FramesReadBackAsTheirRows (h : Obligations.FramesReadBackAsTheirRows) :
    readCommandFrame ([7, 0x16, 5, 0x80, 0x08, 0x00, 0xD6, 0x65] ++ [9]) = .row (.setHighway 5 2048) ∧
    readInboundFrame [155, 129, 30, 90, 0, 100, 0x95, 0x5D] = some (.echo 30 90 100) ∧
    readInboundFrame [155, 130, 15, 0, 0x01, 0x9A, 0, 0, 100, 0xE1, 0xB7] =
      some (.receipt 15 0 410 0 100) ∧
    (HighwayFrame.probe 47 255).bytes = [155, 1, 47, 255] ++ natBytes 2 (crc16 [1, 47, 255]).toNat ∧
    (HighwayFrame.abort 9 3 65535).bytes.length = 8 ∧
    (HighwayFrame.order 7 1 410 ⟨6954938, 6⟩ true [⟨65535, .one, .four, some 258⟩]).bytes =
      [155, 3, 7, 1, 1, 154, 106, 31, 186, 105, 255, 255, 224, 1, 2] ++ natBytes 2
        (crc16 [3, 7, 1, 1, 154, 106, 31, 186, 105, 255, 255, 224, 1, 2]).toNat := by
  refine ⟨h.2.1 _ _ [9] ?_ ?_, h.2.2.1 30 90 100 _ ?_ ?_, h.2.2.2 15 0 410 0 100 _ ?_ ?_ ?_,
    (h.1 _).1.trans ?_, (h.1 _).2, (h.1 _).1.trans ?_⟩
  all_goals decide +kernel

/-- A locked part with two sites, a zone between them, two batches, and RESTART at the front of its
queue. -/
def populated : State :=
  { withZone (withSite (withSite (locked (onChannel 5 (mixed .planned .sent))) 0 tracking) 47 tracking)
      191 ⟨0, 47, 0, 1, .warn, none, none, 0, 0, false⟩ with
    pending := [.restart 1] }

theorem populated_step : step populated = .next (after (.restart 1) { populated with pending := [] }) :=
  exec_after (i := .restart 1) (s := { populated with pending := [] }) (by decide +kernel)

theorem populated_settings : populated.SettingsInRange where
  time := by
    constructor
    case offset => exact nofun
    case shift => exact nofun
    all_goals decide +kernel
  meas := by constructor <;> decide +kernel
  channels := fun c => by
    rw [(by decide +kernel : ∀ c, (populated.channel c).settings = .reset) c]
    constructor <;> decide +kernel
  errors := by decide +kernel

theorem populated_sites : populated.SitesInRange := by
  intro n e he
  have := (by decide +kernel : ∀ n, (populated.enrolled n).all fun e => decide (e = tracking)) n
  obtain rfl : e = tracking := by simpa [he] using this
  refine ⟨?_, ?_, by decide +kernel⟩
  · constructor
    case seed => exact nofun
    all_goals decide +kernel
  · constructor
    case d => simp [tracking, record, Estimate.fresh]
    all_goals decide +kernel

theorem populated_zone : ∀ z r, populated.zone z = some r →
    z = 191 ∧ r = ⟨0, 47, 0, 1, .warn, none, none, 0, 0, false⟩ := by
  intro z r hr
  have := (by decide +kernel : ∀ z, (populated.zone z).all fun r => decide (z = 191 ∧
    r = ⟨0, 47, 0, 1, .warn, none, none, 0, 0, false⟩)) z
  simpa [hr] using this

theorem populated_zones : populated.ZonesLawful where
  inRange := fun z r hr => by
    obtain ⟨rfl, rfl⟩ := populated_zone z r hr
    constructor <;> decide +kernel
  pairs := fun z y r q hr hq _ => (populated_zone z r hr).1.trans (populated_zone y q hq).1.symm
  enrolled := fun z r hr => by
    obtain ⟨rfl, rfl⟩ := populated_zone z r hr
    decide +kernel

theorem witness_StepKeepsSettingsInRange (h : Obligations.StepKeepsSettingsInRange) :
    (after (.restart 1) { populated with pending := [] }).SettingsInRange :=
  h populated _ populated_settings populated_step

theorem witness_StepKeepsSitesInRange (h : Obligations.StepKeepsSitesInRange) :
    (after (.restart 1) { populated with pending := [] }).SitesInRange :=
  h populated _ populated_sites populated_step

theorem witness_StepKeepsTheTablesLawful (h : Obligations.StepKeepsTheTablesLawful) :
    (after (.restart 1) { populated with pending := [] }).ZonesLawful ∧
    (after (.restart 1) { populated with pending := [] }).QueuesLawful :=
  ⟨h.1 populated _ populated_zones populated_step,
   h.2 populated _ ⟨by decide +kernel, by decide +kernel⟩ populated_step⟩

end Sys2Proof.Tests
end

