-- ==== Sys2Proof/Proofs/TimeCommands.lean ====
section
/-! PROOFS. The commands of the time scale that only write its registers: TIME MARK and READ TIME
(01, R17, R19). -/

namespace Sys2Proof.Machine

/-- The answered state of a taken command, from what its block makes of the part: if the block leaves
`t` with the transaction ended, the next state is `t` answered with the block's result and body
(08, R149). -/
theorem takeCommand_answered {s t : State} {act : State → Answer} (h : s.takes = true)
    (ht : (act s.endTransaction).state = t.endTransaction) (identifier label : Byte) :
    takeCommand identifier label s act =
      .next (t.answered identifier label s.now (act s.endTransaction).result
        (act s.endTransaction).body) := by
  have ended : (act s.endTransaction).state.port.transaction = none := by simp [ht]
  have notIgnored : (act s.endTransaction).state.port.ignored = false := by simp [ht]
  rw [takeCommand_taken h, Answer.record_eq _ _ _ _ ended notIgnored, ht]
  rfl

/-- TIME MARK replaces whatever step was pending (R14, R17). -/
theorem execTimeMark_taken {s : State} (h : s.takes = true) (label : Byte) (second : Nat) :
    execTimeMark label second s =
      .next (({ s with time := { s.time with step := some ⟨some second, 0⟩ } } : State).answered
        19 label s.now .pending .empty) :=
  takeCommand_answered h rfl 19 label

/-- READ TIME reports the time scale as it was before the flag and the glitch count are cleared
(R19). -/
theorem execReadTime_taken {s : State} (h : s.takes = true) (label : Byte) :
    execReadTime label s =
      .next (({ s with time := { s.time with flag := false, glitches := 0 } } : State).answered
        20 label s.now .done (.time s.time.report)) :=
  takeCommand_answered h rfl 20 label

/-- Settles O16: each command is taken, and its block writes the time scale alone. -/
theorem timeMarkAndReadTimeAnswer : Obligations.TimeMarkAndReadTimeAnswer := by
  intro s label taken
  exact ⟨execTimeMark_taken taken label, execReadTime_taken taken label⟩

end Sys2Proof.Machine
end

