-- ==== Sys2Proof/Proofs/DelayMeasurement.lean ====
section
/-! PROOFS. The scaling of a valid round trip to the outbound sample (03, R57). -/

namespace Sys2Proof.Machine

/-- A first sample with a valid round trip becomes D (03, R56, R57, R62). -/
theorem Enrolled.foldSample_first (e : Enrolled) (meas : Measurement) {arr dep : HubTime} {t r : Nat}
    (first : e.est.d = none) (trip : roundTrip arr dep t = r) (positive : 1 ≤ r)
    (within : r ≤ e.config.ceiling) :
    (e.foldSample meas arr dep t).1.est.d = some ((r * 16 * e.config.share + 128) / 256) := by
  rcases e.foldSample_cases meas arr dep t with
    ⟨outside, -⟩ | ⟨-, -, ⟨-, accepted⟩ | ⟨d, notFirst, -⟩⟩
  · omega
  · rw [accepted, trip, outboundSample_eq]; rfl
  · simp [first] at notFirst

/-- The scaled round trip is greatest at the greatest ceiling and the greatest share (03, R57). -/
theorem scaledRoundTrip_le {share r : Nat} (hshare : share ≤ 255) (hr : r ≤ 16777216) :
    r * 16 * share ≤ 16777216 * 16 * 255 :=
  Nat.mul_le_mul (Nat.mul_le_mul_right 16 hr) hshare

/-- Settles O31: a first sample shows S whole in D, and the bounds are those of the greatest scaled
round trip. -/
theorem outboundSampleIsScaledByTheShare : Obligations.OutboundSampleIsScaledByTheShare := by
  refine ⟨?_, outboundSample_eq, outboundSample_eq 255 16777216, fun r => ?_⟩
  · intro e meas arr dep t r first hshare hceiling trip positive within
    have greatest := scaledRoundTrip_le hshare (within.trans hceiling)
    exact ⟨e.foldSample_first meas first trip positive within, by omega, by omega, by decide⟩
  · rw [outboundSample_eq]
    omega

end Sys2Proof.Machine
end

