-- ==== Sys2Proof/Proofs/BatchRecords.lean ====
section
/-! PROOFS. The commands that report batch records: QUERY BATCH and COLLECT (05, R104, R105). -/

namespace Sys2Proof.Machine

/-- The held states are the terminal ones (05, R98). -/
theorem Batch.terminal_iff (b : Batch) :
    b.terminal = true ↔ b.state = .done ∨ b.state = .abandoned ∨ b.state = .cancelled := by
  cases h : b.state <;> simp [Batch.terminal, h]

/-- The outcome of a held record by its state and its partial mark (05, R105). -/
theorem Batch.outcome_spec (b : Batch) :
    (b.state = .done → b.partialMark = false → b.outcome = .done) ∧
    (b.state = .done → b.partialMark = true → b.outcome = .cancelPartial) ∧
    (b.state = .abandoned → b.outcome = .abandoned) ∧
    (b.state = .cancelled → b.outcome = .cancelled) := by
  refine ⟨fun hs hp => ?_, fun hs hp => ?_, fun hs => ?_, fun hs => ?_⟩
  · simp [Batch.outcome, hs, hp]
  · simp [Batch.outcome, hs, hp]
  · simp [Batch.outcome, hs]
  · simp [Batch.outcome, hs]

@[simp] theorem State.findBatch_endTransaction (s : State) (tag : Nat) :
    s.endTransaction.findBatch tag = s.findBatch tag := rfl

@[simp] theorem State.channel_endTransaction (s : State) (c : ChannelNo) :
    s.endTransaction.channel c = s.channel c := rfl

/-- The answered state of a taken command, from the answer its block gives (08, R149). -/
theorem takeCommand_of_answer {s t : State} {act : State → Answer} {r : Result} {body : Body}
    (taken : s.takes = true) (answer : act s.endTransaction = ⟨r, body, t.endTransaction⟩)
    (identifier label : Byte) :
    takeCommand identifier label s act = .next (t.answered identifier label s.now r body) := by
  rw [takeCommand_answered taken (congrArg Answer.state answer), answer]

/-- A held record collected: the channel's queue is left without its tag (05, R87, R105). -/
theorem State.collect_endTransaction (s : State) (c : ChannelNo) (b : Batch) :
    s.endTransaction.collect c b =
      ⟨.done, .collected c b b.outcome,
        (s.modifyChannel c fun ch => ch.removeBatch b.tag).endTransaction⟩ := rfl

section Answers
variable {s : State} {label : Byte}

/-- QUERY BATCH of a tag on no record (05, R104). -/
theorem execQueryBatch_none (taken : s.takes = true) {tag : Nat} (h : s.findBatch tag = none) :
    execQueryBatch label tag s = .next (s.answered 15 label s.now .noSuch .empty) :=
  takeCommand_of_answer taken (by simp [answerQueryBatch, h, refuse]) 15 label

/-- QUERY BATCH changes nothing but the port (05, R104). -/
theorem execQueryBatch_some (taken : s.takes = true) {tag : Nat} {c : ChannelNo} {b : Batch}
    (h : s.findBatch tag = some (c, b)) :
    execQueryBatch label tag s = .next (s.answered 15 label s.now .done (.batch c b)) :=
  takeCommand_of_answer taken (by simp [answerQueryBatch, h]) 15 label

/-- COLLECT refuses what its key names with the code `r` (05, R105). -/
theorem execCollect_refused (taken : s.takes = true) {key : CollectKey} {r : Result}
    (h : answerCollect key s.endTransaction = refuse r s.endTransaction) :
    execCollect label key s = .next (s.answered 16 label s.now r .empty) :=
  takeCommand_of_answer taken h 16 label

/-- COLLECT returns the record its key names, and removes it (05, R105). -/
theorem execCollect_collected (taken : s.takes = true) {key : CollectKey} {c : ChannelNo} {b : Batch}
    (h : answerCollect key s.endTransaction = s.endTransaction.collect c b) :
    execCollect label key s =
      .next ((s.modifyChannel c fun ch => ch.removeBatch b.tag).answered 16 label s.now .done
        (.collected c b b.outcome)) :=
  takeCommand_of_answer taken (h.trans (s.collect_endTransaction c b)) 16 label

end Answers

/-- By tag, COLLECT gives a held record, and refuses any other with STATE (05, R105). -/
theorem answerCollect_byTag {s : State} {tag : Nat} {c : ChannelNo} {b : Batch}
    (h : s.findBatch tag = some (c, b)) :
    answerCollect (.byTag tag) s = if b.terminal then s.collect c b else refuse .state s := by
  simp [answerCollect, h]

/-- By channel, COLLECT gives the first held record of the queue, or NO_SUCH (05, R105). -/
theorem answerCollect_byChannel (s : State) (c : ChannelNo) :
    answerCollect (.byChannel c.val) s =
      ((s.channel c).queue.find? Batch.terminal).elim (refuse .noSuch s) (s.collect c) := by
  simp only [answerCollect, channelOf_val]
  cases (s.channel c).queue.find? Batch.terminal <;> rfl

/-- The first terminal record of a queue, from the ones in front of it (05, R105). -/
theorem find_terminal_append {front rest : List Batch} {b : Batch}
    (hfront : ∀ x ∈ front, ¬ x.terminal = true) (hb : b.terminal = true) :
    (front ++ b :: rest).find? Batch.terminal = some b := by
  rw [List.find?_append, List.find?_eq_none.mpr hfront, Option.none_or,
    List.find?_cons_of_pos hb]

/-- Settles O39, key by key: the record of a tag, found with that tag, is given when it is terminal, and a
channel gives the first terminal record of its queue. -/
theorem queryBatchAndCollectReportRecords : Obligations.QueryBatchAndCollectReportRecords := by
  intro s label taken
  dsimp only
  simp only [← Batch.terminal_iff]
  refine ⟨fun tag absent => ⟨execQueryBatch_none taken absent, ?_⟩,
    fun tag c b found => ⟨execQueryBatch_some taken found, fun notHeld => ?_, fun held => ?_⟩,
    fun c beyond => ?_, fun c => ⟨fun noneHeld => ?_, fun front b rest queue noneBefore held => ?_⟩⟩
  · exact execCollect_refused taken (by simp [answerCollect, absent])
  · exact execCollect_refused taken
      ((answerCollect_byTag (s := s.endTransaction) found).trans (if_neg notHeld))
  · obtain ⟨-, rfl⟩ := State.findBatch_mem found
    exact ⟨b.outcome, b.outcome_spec,
      execCollect_collected taken
        ((answerCollect_byTag (s := s.endTransaction) found).trans (if_pos held))⟩
  · exact execCollect_refused taken (by simp [answerCollect, channelOf_eq_none.mpr beyond])
  · have noneFound := List.find?_eq_none.mpr noneHeld
    exact execCollect_refused taken (by simp [answerCollect_byChannel, noneFound])
  · have firstHeld := find_terminal_append (rest := rest) noneBefore held
    exact ⟨b.outcome, b.outcome_spec,
      execCollect_collected taken (by simp [answerCollect_byChannel, queue, firstHeld])⟩

end Sys2Proof.Machine
end

