-- ==== Sys2Proof/Proofs/InboundEchoes.lean ====
section
/-! PROOFS. An inbound echo and the highway error count: neither the measurement engine nor the arbiter
touches the inbound half of the port (07, R132, R141 to R144; 03, R50). -/

namespace Sys2Proof.Machine

/-! ### The measurement engine leaves the highway port as it was -/

@[simp] theorem State.huntAgain_errors (s : State) : s.huntAgain.highway.errors = s.highway.errors := rfl

@[simp] theorem State.huntAgain_assembler (s : State) : s.huntAgain.highway.assembler = .hunt := rfl

@[simp] theorem State.nextProbe_highway (s : State) (i : SlotNo) (p : Slot) :
    (s.nextProbe i p).highway = s.highway := by
  unfold State.nextProbe
  split <;> simp

@[simp] theorem State.endRetiringProbe_highway (s : State) (i : SlotNo) (n : SiteNo) :
    (s.endRetiringProbe i n).highway = s.highway := by
  simp [State.endRetiringProbe]

@[simp] theorem State.matchEcho_highway (s : State) (n : SiteNo) (e : Enrolled)
    (m : SlotNo × Slot × Flight) (arr : HubTime) (turnaround : Nat) :
    (s.matchEcho n e m arr turnaround).highway = s.highway := by
  simp [State.matchEcho]

/-- No classification of an echo touches the highway port: its classes are counted in the site's own
totals (03, R50; 07, R144). -/
@[simp] theorem State.takeEcho_highway (s : State) (n : SiteNo) (sequence : Nat) (arr : HubTime)
    (turnaround : Nat) : (s.takeEcho n sequence arr turnaround).highway = s.highway := by
  unfold State.takeEcho
  dsimp only
  split
  case h_1 vacant => rfl
  case h_2 e enrolled =>
    split
    case isTrue retiring => split <;> simp
    case isFalse notRetiring =>
      split
      case isTrue deafened => simp
      case isFalse hearing =>
        split
        case h_1 m matched => simp
        case h_2 unmatched => split <;> simp

/-! ### A departure leaves the inbound half of the port as it was -/

@[simp] theorem State.transmit_errors (s : State) (f : HighwayFrame) :
    (s.transmit f).highway.errors = s.highway.errors := rfl

@[simp] theorem State.transmit_assembler (s : State) (f : HighwayFrame) :
    (s.transmit f).highway.assembler = s.highway.assembler := rfl

theorem State.departAbort_inbound (s : State) (r : AbortRef) :
    (s.departAbort r).highway.errors = s.highway.errors ∧
    (s.departAbort r).highway.assembler = s.highway.assembler := by
  unfold State.departAbort
  dsimp only
  split <;> simp

theorem State.departOrder_inbound (s : State) (r : OrderRef) :
    (s.departOrder r).highway.errors = s.highway.errors ∧
    (s.departOrder r).highway.assembler = s.highway.assembler := by
  unfold State.departOrder
  dsimp only
  split
  · split <;> simp
  · simp

theorem State.departProbe_inbound (s : State) (i : SlotNo) :
    (s.departProbe i).highway.errors = s.highway.errors ∧
    (s.departProbe i).highway.assembler = s.highway.assembler := by
  unfold State.departProbe
  split <;> simp

/-- The arbiter's concern is the outbound line: whatever departs, the error count and the inbound
assembler stand (07, R132, R141, R143). -/
theorem State.arbitrate_inbound (s : State) :
    s.arbitrate.highway.errors = s.highway.errors ∧
    s.arbitrate.highway.assembler = s.highway.assembler := by
  rcases s.arbitrate_cases with stays | ⟨c, -, -, departs⟩
  · simp [stays]
  · rw [departs]
    cases c with
    | abort r => exact s.departAbort_inbound r
    | order r => exact s.departOrder_inbound r
    | probe i => exact s.departProbe_inbound i

@[simp] theorem State.arbitrate_errors (s : State) :
    s.arbitrate.highway.errors = s.highway.errors := s.arbitrate_inbound.1

@[simp] theorem State.arbitrate_assembler (s : State) :
    s.arbitrate.highway.assembler = s.highway.assembler := s.arbitrate_inbound.2

/-! ### The echo -/

/-- A frame that completes in COLLECT arrived with its flag (07, R141). -/
theorem State.arrival_collect {s : State} {stamp : HubTime} {kind : Option Byte} {bytes : List Byte}
    (h : s.highway.assembler = .collect stamp kind bytes) : s.arrival = stamp := by
  simp [State.arrival, h]

/-- An echo of a site of the part is handed to the measurement engine with its four items, and the
arbiter is then offered the line (07, R132, R144). -/
theorem execEcho_handed {s : State} (running : s.port.resetLow = false) {n : SiteNo} {site : Byte}
    (number : n.val = site.toNat) (sq : Byte) (turn : BitVec 16) :
    execEcho site sq turn s =
      .next (s.huntAgain.takeEcho n sq.toNat s.arrival turn.toNat).arbitrate := by
  have inTable : siteOf site.toNat = some n := siteOf_eq_some.mpr number.symm
  simp only [execEcho, whileRunning_running running, inTable]

/-- Settles O55: the echo's only writes to the port are the assembler's return to HUNT and what the
arbiter then sends, and neither counts an error. -/
theorem echoNeverRaisesTheErrorCount : Obligations.EchoNeverRaisesTheErrorCount := by
  intro s t n site sq turn running number taken
  have nextState : t = (s.huntAgain.takeEcho n sq.toNat s.arrival turn.toNat).arbitrate :=
    (Host.Outcome.next.inj ((execEcho_handed running number sq turn).symm.trans taken)).symm
  refine ⟨fun stamp kind bytes collecting => ?_, ?_, ?_⟩
  · rw [nextState, State.arrival_collect collecting]
    rfl
  · simp [nextState]
  · simp [nextState]

end Sys2Proof.Machine
end

