-- ==== Sys2Proof/Proofs/Rows.lean ====
section
/-! PROOFS. The two kinds of rows: those a transaction carries, which the port hands to a block or
discards, and the events, which RESET low holds off (08, R149, R152, R160). -/

namespace Sys2Proof.Machine

/-! ### A refusal changes nothing (08, R152) -/

/-- A refusing code comes only from `refuse`, which leaves the part as it was. -/
def Answer.RefusalOf (a : Answer) (s : State) : Prop :=
  a.result.refuses = true → a = refuse a.result s

theorem refuse_refusalOf (r : Result) (s : State) : (refuse r s).RefusalOf s := fun _ => rfl

theorem accepted_refusalOf {r : Result} {b : Body} {t s : State} (h : r.refuses = false) :
    (⟨r, b, t⟩ : Answer).RefusalOf s := fun hr => by simp [h] at hr

@[simp] theorem doneIf_refuses (moved : Bool) : (doneIf moved).refuses = false := by
  cases moved <;> rfl

@[simp] theorem done_refuses : Result.done.refuses = false := rfl

@[simp] theorem pending_refuses : Result.pending.refuses = false := rfl

@[simp] theorem retire_refuses (s : State) (n : SiteNo) : (s.retire n).1.refuses = false := by
  unfold State.retire
  dsimp only
  split <;> rfl

section Blocks
variable (s : State)

theorem answerEnrol_refusalOf (site : Nat) (f : SiteFields) :
    (answerEnrol site f s).RefusalOf s := by
  unfold answerEnrol
  repeat' split
  all_goals simp [Answer.RefusalOf, refuse]

theorem answerAmendSite_refusalOf (site : Nat) (f : SiteFields) :
    (answerAmendSite site f s).RefusalOf s := by
  unfold answerAmendSite
  repeat' split
  all_goals simp [Answer.RefusalOf, refuse]

theorem answerQuerySite_refusalOf (site : Nat) : (answerQuerySite site s).RefusalOf s := by
  unfold answerQuerySite
  split <;> simp [Answer.RefusalOf, refuse]

theorem answerRetire_refusalOf (site : Nat) : (answerRetire site s).RefusalOf s := by
  unfold answerRetire
  repeat' split
  all_goals simp [Answer.RefusalOf, refuse]

theorem answerProbe_refusalOf (site count : Nat) : (answerProbe site count s).RefusalOf s := by
  unfold answerProbe
  repeat' split
  all_goals simp [Answer.RefusalOf, refuse]

theorem answerDefineZone_refusalOf (zone : Nat) (f : ZoneDefinition) :
    (answerDefineZone zone f s).RefusalOf s := by
  unfold answerDefineZone
  repeat' split
  all_goals simp [Answer.RefusalOf, refuse]

theorem answerAmendZone_refusalOf (zone : Nat) (f : ZoneFields) :
    (answerAmendZone zone f s).RefusalOf s := by
  unfold answerAmendZone
  repeat' split
  all_goals simp [Answer.RefusalOf, refuse]

theorem answerDropZone_refusalOf (zone : Nat) : (answerDropZone zone s).RefusalOf s := by
  unfold answerDropZone
  repeat' split
  all_goals simp [Answer.RefusalOf, refuse]

theorem answerQueryZone_refusalOf (zone : Nat) : (answerQueryZone zone s).RefusalOf s := by
  unfold answerQueryZone
  repeat' split
  all_goals simp [Answer.RefusalOf, refuse]

theorem answerSetChannel_refusalOf (channel : Nat) (f : ChannelFields) :
    (answerSetChannel channel f s).RefusalOf s := by
  unfold answerSetChannel
  repeat' split
  all_goals simp [Answer.RefusalOf, refuse]

theorem answerSubmit_refusalOf (q : Submission) : (answerSubmit q s).RefusalOf s := by
  unfold answerSubmit
  repeat' split
  all_goals simp [Answer.RefusalOf, refuse]

theorem answerCancel_refusalOf (tag : Nat) : (answerCancel tag s).RefusalOf s := by
  unfold answerCancel
  repeat' split
  all_goals simp [Answer.RefusalOf, refuse]

theorem answerFlush_refusalOf (channel : Nat) : (answerFlush channel s).RefusalOf s := by
  unfold answerFlush
  split
  · simp [Answer.RefusalOf, refuse]
  · dsimp only
    split <;> simp [Answer.RefusalOf, refuse]

theorem answerQueryBatch_refusalOf (tag : Nat) : (answerQueryBatch tag s).RefusalOf s := by
  unfold answerQueryBatch
  split <;> simp [Answer.RefusalOf, refuse]

theorem answerCollect_refusalOf (key : CollectKey) : (answerCollect key s).RefusalOf s := by
  unfold answerCollect State.collect
  repeat' split
  all_goals simp [Answer.RefusalOf, refuse]

theorem answerPin_refusalOf (channel : Nat) : (answerPin channel s).RefusalOf s := by
  unfold answerPin
  split <;> simp [Answer.RefusalOf, refuse]

theorem answerUnpin_refusalOf (channel : Nat) : (answerUnpin channel s).RefusalOf s := by
  unfold answerUnpin
  split <;> simp [Answer.RefusalOf, refuse]

theorem answerSetHighway_refusalOf (rate : Nat) : (answerSetHighway rate s).RefusalOf s := by
  unfold answerSetHighway
  split <;> simp [Answer.RefusalOf, refuse]

end Blocks

/-! ### Every row is a command, an event or a row of power -/

/-- A row that a transaction carries is handed to its block, which refuses without effect
(08, R149, R152). -/
theorem exec_fromHost {i : Instr} (h : i.fromHost = true) (s : State) :
    ∃ identifier label act, exec i s = takeCommand identifier label s act ∧
      ∀ x, (act x).RefusalOf x := by
  cases i with
  | malformedFrame identifier label => exact ⟨_, _, _, rfl, refuse_refusalOf _⟩
  | enrol label site f => exact ⟨_, _, _, rfl, fun x => answerEnrol_refusalOf x site f⟩
  | amendSite label site f => exact ⟨_, _, _, rfl, fun x => answerAmendSite_refusalOf x site f⟩
  | querySite label site => exact ⟨_, _, _, rfl, fun x => answerQuerySite_refusalOf x site⟩
  | retire label site => exact ⟨_, _, _, rfl, fun x => answerRetire_refusalOf x site⟩
  | probe label site k => exact ⟨_, _, _, rfl, fun x => answerProbe_refusalOf x site k⟩
  | setMeasurement label f => exact ⟨_, _, _, rfl, fun x => accepted_refusalOf (doneIf_refuses _)⟩
  | defineZone label z f => exact ⟨_, _, _, rfl, fun x => answerDefineZone_refusalOf x z f⟩
  | amendZone label z f => exact ⟨_, _, _, rfl, fun x => answerAmendZone_refusalOf x z f⟩
  | dropZone label z => exact ⟨_, _, _, rfl, fun x => answerDropZone_refusalOf x z⟩
  | queryZone label z => exact ⟨_, _, _, rfl, fun x => answerQueryZone_refusalOf x z⟩
  | setChannel label c f => exact ⟨_, _, _, rfl, fun x => answerSetChannel_refusalOf x c f⟩
  | submit label q => exact ⟨_, _, _, rfl, fun x => answerSubmit_refusalOf x q⟩
  | cancel label tag => exact ⟨_, _, _, rfl, fun x => answerCancel_refusalOf x tag⟩
  | flushChannel label c => exact ⟨_, _, _, rfl, fun x => answerFlush_refusalOf x c⟩
  | queryBatch label tag => exact ⟨_, _, _, rfl, fun x => answerQueryBatch_refusalOf x tag⟩
  | collect label key => exact ⟨_, _, _, rfl, fun x => answerCollect_refusalOf x key⟩
  | pin label c => exact ⟨_, _, _, rfl, fun x => answerPin_refusalOf x c⟩
  | unpin label c => exact ⟨_, _, _, rfl, fun x => answerUnpin_refusalOf x c⟩
  | timeMark label second => exact ⟨_, _, _, rfl, fun x => accepted_refusalOf rfl⟩
  | readTime label => exact ⟨_, _, _, rfl, fun x => accepted_refusalOf rfl⟩
  | setTimebase label f => exact ⟨_, _, _, rfl, fun x => accepted_refusalOf (doneIf_refuses _)⟩
  | setHighway label rate => exact ⟨_, _, _, rfl, fun x => answerSetHighway_refusalOf x rate⟩
  | readStatus label => exact ⟨_, _, _, rfl, fun x => accepted_refusalOf rfl⟩
  | restart label => exact ⟨_, _, _, rfl, fun x => accepted_refusalOf rfl⟩
  | _ => simp [Instr.fromHost] at h

/-- An event is held off by RESET low (08, R160). -/
theorem exec_event {i : Instr} (notHost : i.fromHost = false) (notPower : i.ofPower = false) :
    ∃ act, ∀ s, exec i s = whileRunning s act := by
  cases i <;> simp only [Instr.fromHost, Instr.ofPower, Bool.true_eq_false] at notHost notPower <;>
    exact ⟨_, fun _ => rfl⟩

/-- Settles O1: the queue is not empty, so `step` takes its first row. -/
theorem stepRunsTheFrontRow : Obligations.StepRunsTheFrontRow := by
  intro i rest s queue
  simp only [step, queue]

/-- Settles O4: the port discards the command, and an event is held off. -/
theorem nothingIsTakenWhileHeldOrWorking : Obligations.NothingIsTakenWhileHeldOrWorking := by
  refine ⟨fun i s host held => ?_, fun i s notHost notPower low => ?_, fun s low => ?_⟩
  · obtain ⟨identifier, label, act, runs, -⟩ := exec_fromHost host s
    have notTaken : s.takes = false := by
      rw [Bool.eq_false_iff, ne_eq, State.takes_iff]
      rintro ⟨high, notIgnored, notWorking⟩
      rcases held with working | ignored | low
      · exact notWorking working
      · simp [ignored] at notIgnored
      · simp [low] at high
    rw [runs, takeCommand_discarded notTaken]
    rfl
  · obtain ⟨act, runs⟩ := exec_event notHost notPower
    rw [runs, whileRunning_held low]
  · simp [State.attn, low]

/-- Settles O5: the recorded code is the block's, and with a refusing code the block left the part as it
was. -/
theorem aRefusalIsTheWholeEffect : Obligations.ARefusalIsTheWholeEffect := by
  intro i s t f host taken next forming refuses
  obtain ⟨identifier, label, act, runs, refusal⟩ := exec_fromHost host s
  rw [runs, takeCommand_taken taken] at next
  obtain rfl := Host.Outcome.next.inj next
  obtain rfl := Option.some.inj forming
  rw [refusal s.endTransaction refuses]
  rfl

end Sys2Proof.Machine
end

