-- ==== Sys2Proof/Proofs/Estimator.lean ====
section
/-! PROOFS. A sample through the estimator: how far D and U move, and which of its paths it takes
(03, R56 to R62). -/

namespace Sys2Proof.Machine

/-- A rounded share of an amount lies between 0 and the amount (03, R61). -/
theorem rounded_between {k : Nat} (hk : 1 ≤ k) (x : Int) :
    min 0 x ≤ (x + 2 ^ (k - 1)) / 2 ^ k ∧ (x + 2 ^ (k - 1)) / 2 ^ k ≤ max 0 x := by
  obtain ⟨j, rfl⟩ : ∃ j, k = j + 1 := ⟨k - 1, by omega⟩
  have half : (1 : Int) ≤ 2 ^ j := one_le_pow₀ (by norm_num)
  have whole : (2 : Int) ^ (j + 1) = 2 ^ j * 2 := pow_succ 2 j
  rw [Nat.add_sub_cancel, whole]
  generalize (2 : Int) ^ j = p at half
  constructor
  · rw [Int.le_ediv_iff_mul_le (by omega)]
    rcases le_total 0 x with h | h
    · rw [min_eq_left h]; omega
    · rw [min_eq_right h]; nlinarith
  · rw [← Int.lt_add_one_iff, Int.ediv_lt_iff_lt_mul (by omega)]
    rcases le_total 0 x with h | h
    · rw [max_eq_right h]; nlinarith
    · rw [max_eq_left h]; omega

/-- D moves by the rounded share of its distance from the sample (03, R61). -/
theorem foldDelay_eq {k : Nat} (hk : 1 ≤ k) (d sample : Nat) :
    (foldDelay k d sample : Int) = d + ((sample : Int) - d + 2 ^ (k - 1)) / 2 ^ k := by
  have between := (rounded_between hk ((sample : Int) - d)).1
  unfold foldDelay
  omega

/-- D stays between its old value and the sample (03, R61). -/
theorem foldDelay_between {k : Nat} (hk : 1 ≤ k) (d sample : Nat) :
    min (d : Int) sample ≤ foldDelay k d sample ∧ (foldDelay k d sample : Int) ≤ max (d : Int) sample := by
  have between := rounded_between hk ((sample : Int) - d)
  rw [foldDelay_eq hk]
  omega

/-- U moves by the rounded share of its distance from the innovation, within its limits (03, R61). -/
theorem foldUncertainty_eq (k d u sample : Nat) :
    (foldUncertainty k d u sample : Int) = max 0 (min 16777215
      ((u : Int) + (|(sample : Int) - d| - u + 2 ^ (k - 1)) / 2 ^ k)) := by
  unfold foldUncertainty
  omega

/-- The outbound sample of a valid round trip is no negative number (03, R57). -/
theorem outboundSample_cast (share : Nat) {r : Int} (positive : 1 ≤ r) :
    (outboundSample share r : Int) = (r * 16 * share + 128) / 256 := by
  have : 0 ≤ r * 16 * share := by positivity
  unfold outboundSample
  omega

/-- The gate in whole numbers (03, R59). -/
theorem gateOf_cast (u floor : Nat) :
    (gateOf u floor : Int) = min (4 * (u : Int) + floor) 16777215 := by
  unfold gateOf
  omega

/-- The record an accepted sample leaves, with its state, count, D and U (03, R62). -/
def Enrolled.took (e : Enrolled) (arr : HubTime) (phase : SitePhase) (count d u : Nat) : Enrolled :=
  { e with
    phase := phase
    est := { e.est with
      d := some d, u := u, acceptedCount := count, failures := 0, rejects := 0
      lastAccepted := some arr
      totals := { e.est.totals with accepted := min 65535 (e.est.totals.accepted + 1) } } }

/-- Outside TRACKING the accepted count decides the settling, and a STALE record starts it again
(03, R62). -/
theorem Enrolled.accept_unsettled {e : Enrolled} (h : e.phase = .settling ∨ e.phase = .stale)
    (settle : Nat) (arr : HubTime) (d u : Nat) :
    let count := if e.phase = .stale then 1 else min 255 (e.est.acceptedCount + 1)
    e.accept settle arr d u false = e.took arr
      (if e.phase = .settling ∧ settle ≤ count then .tracking else .settling) count d u := by
  rcases h with h | h <;> simp [Enrolled.accept, Enrolled.took, phaseAfter, satCount, h]

theorem Enrolled.accept_tracking {e : Enrolled} (h : e.phase = .tracking) (settle : Nat)
    (arr : HubTime) (d u : Nat) :
    e.accept settle arr d u false =
      e.took arr .tracking (min 255 (e.est.acceptedCount + 1)) d u := by
  simp [Enrolled.accept, Enrolled.took, phaseAfter, satCount, h]

/-- A step settles a TRACKING record anew (03, R60). -/
theorem Enrolled.accept_step {e : Enrolled} (h : e.phase = .tracking) (settle : Nat)
    (arr : HubTime) (d u : Nat) :
    e.accept settle arr d u true = e.took arr .settling 1 d u := by
  simp [Enrolled.accept, Enrolled.took, phaseAfter, satCount, h]

/-- Settles O32: each path of `foldSample_cases`, with D' and U' as they move. -/
theorem samplesTakeTheirPathThroughTheEstimator :
    Obligations.SamplesTakeTheirPathThroughTheEstimator := by
  intro e m arr dep t gain
  dsimp only
  have trip : roundTrip arr dep t = ((arr - dep).toNat : Int) - t := rfl
  have cast (h : 1 ≤ roundTrip arr dep t) := outboundSample_cast e.config.share h
  have paths := e.foldSample_cases m arr dep t
  dsimp only at paths
  rw [← trip]
  generalize roundTrip arr dep t = r at paths cast
  have moves {k d : Nat} (hk : 1 ≤ k) (positive : 1 ≤ r) :
      (foldDelay k d (outboundSample e.config.share r) : Int) =
          d + ((r * 16 * e.config.share + 128) / 256 - d + 2 ^ (k - 1)) / 2 ^ k ∧
        min (d : Int) ((r * 16 * e.config.share + 128) / 256) ≤
          foldDelay k d (outboundSample e.config.share r) ∧
        (foldDelay k d (outboundSample e.config.share r) : Int) ≤
          max (d : Int) ((r * 16 * e.config.share + 128) / 256) ∧
        (foldUncertainty k d e.est.u (outboundSample e.config.share r) : Int) =
          max 0 (min 16777215 ((e.est.u : Int) +
            (|(r * 16 * e.config.share + 128) / 256 - d| - e.est.u + 2 ^ (k - 1)) / 2 ^ k)) := by
    rw [← cast positive]
    exact ⟨foldDelay_eq hk _ _, (foldDelay_between hk _ _).1, (foldDelay_between hk _ _).2,
      foldUncertainty_eq _ _ _ _⟩
  rcases paths with ⟨outside, path⟩ | ⟨positive, within, path⟩
  · exact ⟨fun _ => path, fun _ _ _ => by omega, fun _ _ _ _ _ => by omega⟩
  refine ⟨fun outside => by omega, fun _ _ unsettled => ⟨fun absent => ?_, fun d present => ?_⟩,
    fun d _ _ tracking present => ?_⟩
  · rcases path with ⟨-, path⟩ | ⟨d, present, -⟩
    · rw [path, Enrolled.accept_unsettled unsettled]; rfl
    · simp [absent] at present
  · rcases path with ⟨absent, -⟩ | ⟨d', present', path⟩
    · simp [absent] at present
    · obtain rfl : d = d' := by simpa [present] using present'
      rcases path with ⟨-, path⟩ | ⟨tracking, -⟩ | ⟨tracking, -⟩ | ⟨tracking, -⟩
      · exact ⟨_, _, moves le_rfl positive, by
          rw [path, Enrolled.accept_unsettled unsettled]; rfl⟩
      all_goals simp [tracking] at unsettled
  · rcases path with ⟨absent, -⟩ | ⟨d', present', path⟩
    · simp [absent] at present
    · obtain rfl : d = d' := by simpa [present] using present'
      rw [gateOf_cast, cast positive] at path
      rcases path with ⟨other, -⟩ | ⟨-, inside, path⟩ | ⟨-, outside, few, path⟩ |
        ⟨-, outside, enough, path⟩
      · exact absurd tracking other
      · refine ⟨fun _ => ⟨_, _, moves gain positive, ?_⟩, fun h => by omega, fun h => by omega⟩
        rw [path, Enrolled.accept_tracking tracking]
        simp [Enrolled.took, tracking]
      · exact ⟨fun h => by omega, fun _ _ => path, fun _ h => absurd few (not_lt.mpr h)⟩
      · refine ⟨fun h => by omega, fun _ h => absurd h (not_lt.mpr enough), fun _ _ => ?_⟩
        rw [path, Enrolled.accept_step tracking]; rfl

end Sys2Proof.Machine
end

