-- ==== Sys2Proof/Proofs/Steady.lean ====
section
/-! PROOFS. What the events and commands of the part have in common: no record appears, a RETIRING one
stays RETIRING while it is enrolled, every value keeps its range, no setting moves, and no zone or batch
record is added. The relation `Steady` says so of two states; each shared operation keeps it, and so every
row built from them. -/

namespace Sys2Proof.Machine

/-- The values of a record are in their ranges (02, R22, R24, R25). -/
structure Enrolled.InRange (e : Enrolled) : Prop where
  config : e.config.InRange
  est : e.est.InRange
  tally : e.clampTally ≤ 127

theorem State.sitesInRange_iff (s : State) :
    s.SitesInRange ↔ ∀ n e, s.enrolled n = some e → e.InRange :=
  forall₃_congr fun _ _ _ => ⟨fun ⟨a, b, c⟩ => ⟨a, b, c⟩, fun ⟨a, b, c⟩ => ⟨a, b, c⟩⟩

/-- A record changed in place: it does not leave RETIRING, and it keeps its ranges (02, R22, R28). -/
structure Enrolled.Moves (e e' : Enrolled) : Prop where
  retiring : e.phase = .retiring → e'.phase = .retiring
  inRange : e.InRange → e'.InRange

theorem Enrolled.Moves.refl (e : Enrolled) : e.Moves e := ⟨id, id⟩

theorem Enrolled.Moves.trans {a b c : Enrolled} (h : a.Moves b) (h' : b.Moves c) : a.Moves c :=
  ⟨h'.retiring ∘ h.retiring, h'.inRange ∘ h.inRange⟩

/-- The time scale and the queue of rows stand, no record, zone or batch is added, settings stand, and
values keep their ranges. -/
structure Steady (s t : State) : Prop where
  time : t.time = s.time
  pending : t.pending = s.pending
  sites : ∀ n e', t.enrolled n = some e' → ∃ e, s.enrolled n = some e ∧ e.Moves e'
  zones : ∀ z r, t.zone z = some r → ∃ q, s.zone z = some q ∧ r.siteA = q.siteA ∧
    r.siteB = q.siteB ∧ (q.InRange → r.InRange)
  named : ∀ z r n, t.zone z = some r → r.names n = true → (s.enrolled n).isSome = true →
    (t.enrolled n).isSome = true
  measured : t.meas.settleCount = s.meas.settleCount ∧ t.meas.staleLimit = s.meas.staleLimit ∧
    t.meas.stepConfirm = s.meas.stepConfirm ∧ t.meas.quietGap = s.meas.quietGap
  settings : ∀ c, (t.channel c).settings = (s.channel c).settings
  tags : ∀ c, ((t.channel c).queue.map Batch.tag).Sublist ((s.channel c).queue.map Batch.tag)
  errors : s.highway.errors ≤ 65535 → t.highway.errors ≤ 65535

namespace Steady

theorem refl (s : State) : Steady s s where
  time := rfl
  pending := rfl
  sites _ e h := ⟨e, h, .refl e⟩
  zones _ r h := ⟨r, h, rfl, rfl, id⟩
  named _ _ _ _ _ h := h
  measured := ⟨rfl, rfl, rfl, rfl⟩
  settings _ := rfl
  tags _ := .refl _
  errors := id

theorem trans {s t u : State} (h : Steady s t) (h' : Steady t u) : Steady s u where
  time := h'.time.trans h.time
  pending := h'.pending.trans h.pending
  sites n e' he' := by
    obtain ⟨e, he, m'⟩ := h'.sites n e' he'
    obtain ⟨e₀, he₀, m⟩ := h.sites n e he
    exact ⟨e₀, he₀, m.trans m'⟩
  zones z r hr := by
    obtain ⟨q, hq, a', b', i'⟩ := h'.zones z r hr
    obtain ⟨p, hp, a, b, i⟩ := h.zones z q hq
    exact ⟨p, hp, a'.trans a, b'.trans b, i' ∘ i⟩
  named z r n hr names enrolled := by
    obtain ⟨q, hq, a, b, -⟩ := h'.zones z r hr
    have names' : q.names n = true := by simpa only [Zone.names, a, b] using names
    exact h'.named z r n hr names (h.named z q n hq names' enrolled)
  measured := by
    obtain ⟨a, b, c, d⟩ := h.measured
    obtain ⟨a', b', c', d'⟩ := h'.measured
    exact ⟨a'.trans a, b'.trans b, c'.trans c, d'.trans d⟩
  settings c := (h'.settings c).trans (h.settings c)
  tags c := (h'.tags c).trans (h.tags c)
  errors := h'.errors ∘ h.errors

/-- A part whose tables read the same, with settings and error count kept. -/
theorem of_eq {s t : State} (time : t.time = s.time) (pending : t.pending = s.pending)
    (sites : t.sites = s.sites)
    (zones : t.zones = s.zones) (channels : t.channels = s.channels)
    (measured : t.meas.settleCount = s.meas.settleCount ∧ t.meas.staleLimit = s.meas.staleLimit ∧
      t.meas.stepConfirm = s.meas.stepConfirm ∧ t.meas.quietGap = s.meas.quietGap)
    (errors : s.highway.errors ≤ 65535 → t.highway.errors ≤ 65535) : Steady s t := by
  have enrolled : t.enrolled = s.enrolled := by funext n; simp [State.enrolled, State.site, sites]
  have zone : t.zone = s.zone := by funext z; simp [State.zone, zones]
  have channel : t.channel = s.channel := by funext c; simp [State.channel, channels]
  exact ⟨time, pending, enrolled ▸ (refl s).sites, zone ▸ (refl s).zones, fun _ _ _ _ _ h => by rwa [enrolled], measured,
    fun c => by rw [channel], fun c => by rw [channel], errors⟩

end Steady

/-! ### Plain writes -/

section Writes
variable {s : State}

/-- Writes to the slots, the wait list, the lines and the port, which no law here reads. -/
theorem steady_of_frame {t : State} (time : t.time = s.time) (pending : t.pending = s.pending)
    (sites : t.sites = s.sites) (zones : t.zones = s.zones)
    (channels : t.channels = s.channels) (meas : t.meas = s.meas)
    (errors : t.highway.errors = s.highway.errors) : Steady s t :=
  .of_eq time pending sites zones channels (by simp [meas]) (by simp [errors])

theorem steady_meas (slots : Vector (Option Slot) 8) (wait : List WaitEntry) :
    Steady s { s with meas := { s.meas with slots := slots, wait := wait } } :=
  .of_eq rfl rfl rfl rfl rfl ⟨rfl, rfl, rfl, rfl⟩ id

theorem steady_setSlot (i : SlotNo) (r : Option Slot) : Steady s (s.setSlot i r) := steady_meas _ _

theorem steady_requestProbe (w : WaitEntry) : Steady s (s.requestProbe w) := by
  rcases s.requestProbe_cases w with ⟨i, -, h⟩ | ⟨-, h⟩ <;> rw [h]
  · exact steady_setSlot i _
  · exact steady_meas _ _

theorem steady_freeProbe (i : SlotNo) : Steady s (s.freeProbe i) := by
  rcases s.freeProbe_cases i with ⟨-, h⟩ | ⟨w, rest, -, h⟩ <;> rw [h]
  · exact steady_setSlot i _
  · exact steady_meas _ _

theorem steady_transmit (f : HighwayFrame) : Steady s (s.transmit f) :=
  steady_of_frame rfl rfl rfl rfl rfl rfl rfl

theorem steady_discardFrame : Steady s s.discardFrame :=
  .of_eq rfl rfl rfl rfl rfl ⟨rfl, rfl, rfl, rfl⟩ fun _ => satCount_le 65535 _ _

theorem steady_aborts (aborts : List AbortRef) :
    Steady s { s with highway := { s.highway with aborts := aborts } } :=
  steady_of_frame rfl rfl rfl rfl rfl rfl rfl

theorem steady_huntAgain : Steady s s.huntAgain := steady_of_frame rfl rfl rfl rfl rfl rfl rfl

end Writes

/-! ### Site records -/

theorem State.enrolled_setSite (s : State) (n k : SiteNo) (r : SiteRecord) :
    (s.setSite n r).enrolled k = if k = n then r.body else s.enrolled k := by
  unfold State.enrolled
  split
  next h => rw [h, State.site_setSite_self]
  next h => rw [State.site_setSite_of_ne s r h]

section Sites
variable {s : State}

/-- A record written over an enrolled one it moves from. -/
theorem steady_setSite {n : SiteNo} {e e' : Enrolled} {r : SiteRecord} (he : s.enrolled n = some e)
    (hr : r.body = some e') (moves : e.Moves e') : Steady s (s.setSite n r) := by
  refine ⟨rfl, rfl, fun k x hx => ?_, (Steady.refl s).zones, fun z q k hz names enrolled => ?_,
    ⟨rfl, rfl, rfl, rfl⟩, fun _ => rfl, fun _ => .refl _, id⟩
  · rw [State.enrolled_setSite] at hx
    split at hx
    next h =>
      obtain rfl := Option.some.inj (hr.symm.trans hx)
      exact ⟨e, h ▸ he, moves⟩
    next => exact ⟨x, hx, .refl x⟩
  · rw [State.enrolled_setSite]
    split
    · simp [hr]
    · exact enrolled

theorem steady_put {n : SiteNo} {e e' : Enrolled} (he : s.enrolled n = some e) (moves : e.Moves e') :
    Steady s (s.setSite n ((s.site n).put e')) := steady_setSite he rfl moves

theorem steady_modifySite {n : SiteNo} {f : Enrolled → Enrolled} (moves : ∀ e : Enrolled, e.Moves (f e)) :
    Steady s (s.modifySite n f) := by
  unfold State.modifySite
  split
  next e he => exact steady_put he (moves e)
  next => exact .refl s

/-- A QUERY SITE leaves every record in its state (02, R36). -/
theorem steady_cleared (n : SiteNo) : Steady s (s.setSite n (s.site n).cleared) := by
  cases he : s.enrolled n with
  | some e =>
    have body : (s.site n).body = some e := he
    exact steady_setSite (e' := { e with clampFlag := false }) he (by simp [SiteRecord.cleared, body])
      ⟨id, fun h => ⟨h.config, h.est, h.tally⟩⟩
  | none =>
    have body : (s.site n).body = none := he
    refine ⟨rfl, rfl, fun k x hx => ?_, (Steady.refl s).zones, fun z q k hz names enrolled => ?_,
      ⟨rfl, rfl, rfl, rfl⟩, fun _ => rfl, fun _ => .refl _, id⟩
    · rw [State.enrolled_setSite] at hx
      split at hx
      · simp [SiteRecord.cleared, body] at hx
      · exact ⟨x, hx, .refl x⟩
    · rw [State.enrolled_setSite]
      split
      next h => subst h; simp [he] at enrolled
      · exact enrolled

theorem State.enrolled_vacate (s : State) (n k : SiteNo) :
    (s.vacate n).enrolled k = if k = n then none else s.enrolled k := by
  unfold State.enrolled
  rw [State.site_vacate]
  split <;> rfl

/-- The channels after a site is vacated: their contexts lose its entry (02, R41). -/
theorem State.channel_vacate (s : State) (n : SiteNo) (c : ChannelNo) :
    (s.vacate n).channel c =
      { s.channel c with context := (s.channel c).context.map (Context.without · n) } := by
  simp [State.channel, State.vacate]

/-- A vacated site takes its zones with it (02, R41). -/
theorem steady_vacate (n : SiteNo) : Steady s (s.vacate n) := by
  refine ⟨rfl, rfl, fun k x hx => ?_, fun z r hz => ?_, fun z r k hz names enrolled => ?_,
    ⟨rfl, rfl, rfl, rfl⟩, fun c => ?_, fun c => ?_, id⟩
  · rw [State.enrolled_vacate] at hx
    split at hx
    · cases hx
    · exact ⟨x, hx, .refl x⟩
  · exact ⟨r, (s.vacate_zone_names n z r hz).1, rfl, rfl, id⟩
  · obtain ⟨-, notA, notB⟩ := s.vacate_zone_names n z r hz
    have other : k ≠ n := by
      rintro rfl
      simp [Zone.names, notA, notB] at names
    rw [State.enrolled_vacate, if_neg other]
    exact enrolled
  · rw [State.channel_vacate]
  · rw [State.channel_vacate]

theorem steady_checkVacate (n : SiteNo) : Steady s (s.checkVacate n) := by
  rcases s.checkVacate_cases n with ⟨-, -, h⟩ | ⟨-, h⟩ <;> rw [h]
  · exact steady_vacate n
  · exact .refl s

/-- What each step of a fold keeps, the fold keeps. -/
theorem steady_foldl {α : Type} {f : State → α → State} (step : ∀ s a, Steady s (f s a))
    (l : List α) (s : State) : Steady s (l.foldl f s) := by
  induction l generalizing s with
  | nil => exact .refl s
  | cons a l ih => exact (step s a).trans (ih (f s a))

theorem steady_checkVacateAll (ns : List SiteNo) : Steady s (s.checkVacateAll ns) :=
  steady_foldl (fun _ => steady_checkVacate) ns s

end Sites

/-! ### Channels and batch records -/

section Channels
variable {s : State}

theorem State.channel_modifyChannel (s : State) (c d : ChannelNo) (f : Channel → Channel) :
    (s.modifyChannel c f).channel d = if d = c then f (s.channel c) else s.channel d := by
  unfold State.modifyChannel
  split
  next h => rw [h, State.channel_setChannel_self]
  next h => rw [State.channel_setChannel_of_ne s _ h]

/-- A channel changed with its settings kept and no tag added. -/
theorem steady_modifyChannel {c : ChannelNo} {f : Channel → Channel}
    (settings : (f (s.channel c)).settings = (s.channel c).settings)
    (tags : ((f (s.channel c)).queue.map Batch.tag).Sublist ((s.channel c).queue.map Batch.tag)) :
    Steady s (s.modifyChannel c f) := by
  refine ⟨rfl, rfl, (Steady.refl s).sites, (Steady.refl s).zones, (Steady.refl s).named,
    ⟨rfl, rfl, rfl, rfl⟩, fun d => ?_, fun d => ?_, id⟩ <;> rw [State.channel_modifyChannel]
  · split
    next h => rw [settings, h]
    · rfl
  · split
    next h => rw [h]; exact tags
    · exact .refl _

theorem steady_setTimer (c : ChannelNo) (x : Option HubTime) : Steady s (s.setTimer c x) :=
  steady_modifyChannel rfl (.refl _)

/-- A record changed under its own tag. -/
theorem steady_modifyBatch {c : ChannelNo} {tag : Nat} {f : Batch → Batch}
    (h : ∀ b, b.tag = tag → (f b).tag = tag) : Steady s (s.modifyBatch c tag f) :=
  steady_modifyChannel rfl
    (by rw [Channel.modifyBatch_tags _ _ _ fun b _ => h b])

theorem steady_replaceBatch {c : ChannelNo} {tag : Nat} {b : Batch} (h : b.tag = tag) :
    Steady s (s.modifyBatch c tag fun _ => b) := steady_modifyBatch fun _ _ => h

theorem Channel.removeBatch_tags (ch : Channel) (tag : Nat) :
    ((ch.removeBatch tag).queue.map Batch.tag).Sublist (ch.queue.map Batch.tag) :=
  (List.filter_sublist).map _

/-- A record leaves a queue without a trace in the tags of the others (05, R87). -/
theorem removeQueued_tags (tag : Nat) (l : List Batch) :
    ((removeQueued tag l).map Batch.tag).Sublist (l.map Batch.tag) := by
  induction l with
  | nil => exact .refl _
  | cons b rest ih =>
    unfold removeQueued
    split
    · cases rest with
      | nil => exact List.nil_sublist _
      | cons n more => exact List.sublist_cons_self _ _
    · exact ih.cons_cons _

/-- An end handed on changes no tag (05, R90). -/
theorem passEnd_tags (tag : Nat) (x : Option HubTime) (l : List Batch) :
    (passEnd tag x l).map Batch.tag = l.map Batch.tag := by
  induction l with
  | nil => rfl
  | cons b rest ih =>
    cases rest with
    | nil => rfl
    | cons n more =>
      unfold passEnd
      split
      · rfl
      · rw [List.map_cons, ih]; rfl

/-- A record put in the place of those of its own tag leaves the tags of a queue as they were. -/
theorem map_replace_tags {tag : Nat} (l : List Batch) {b : Batch} (h : b.tag = tag) :
    (l.map fun x => if x.tag == tag then b else x).map Batch.tag = l.map Batch.tag := by
  rw [List.map_map]
  refine List.map_congr_left fun x _ => ?_
  by_cases hx : x.tag = tag <;> simp [hx, h]

theorem Channel.terminate_settings (ch : Channel) (b : Batch) :
    (ch.terminate b).settings = ch.settings := by
  rcases ch.terminate_cases b with ⟨-, h⟩ | ⟨-, h⟩ <;> rw [h]

theorem Channel.terminate_tags (ch : Channel) (b : Batch) :
    ((ch.terminate b).queue.map Batch.tag).Sublist (ch.queue.map Batch.tag) := by
  rcases ch.terminate_cases b with ⟨-, h⟩ | ⟨-, h⟩ <;> rw [h]
  · have same : ∀ x : Batch, x.tag = b.tag →
        ((ch.queue.map fun y => if y.tag == b.tag then x else y).map Batch.tag).Sublist
          (ch.queue.map Batch.tag) := fun x hx => by rw [map_replace_tags _ hx]
    exact same _ rfl
  · exact ch.removeBatch_tags b.tag

theorem steady_terminate (c : ChannelNo) (b : Batch) : Steady s (s.terminate c b) :=
  (steady_modifyChannel (Channel.terminate_settings _ b) (Channel.terminate_tags _ b)).trans
    (steady_checkVacateAll _)

theorem steady_withdrawEntry (c : ChannelNo) (b : Batch) (n : SiteNo) :
    Steady s (s.withdrawEntry c b n) := by
  rcases s.withdrawEntry_cases c b n with ⟨-, h⟩ | ⟨-, h⟩ <;> rw [h]
  · exact steady_terminate c _
  · exact steady_replaceBatch (by simp)

theorem steady_completeCancel (c : ChannelNo) (b : Batch) : Steady s (s.completeCancel c b) := by
  rcases s.completeCancel_cases c b with ⟨-, -, -, h⟩ | ⟨-, -, -, h⟩ | ⟨-, h⟩ <;> rw [h]
  · exact steady_replaceBatch rfl
  · exact steady_terminate c _
  · exact steady_replaceBatch rfl

/-- What a cancel makes of a record, by what its entries leave outstanding (05, R100 to R103). -/
theorem State.cancelPlanned_cases (s : State) (c : ChannelNo) (b : Batch) (flush : Bool) :
    let w := b.modifyEntries (Included.cancel s.now)
    (w.anyIn .aborting = true ∧ s.cancelPlanned c b flush =
      (let left := s.modifyBatch c b.tag fun _ => { w with state := .cancelling, flushed := flush }
       { left with highway := { left.highway with aborts := left.highway.aborts ++ w.abortRefs c } },
        .aborting)) ∨
    (w.anyIn .aborting = false ∧ w.anyIn .abortMissed = true ∧ s.cancelPlanned c b flush =
      (s.modifyBatch c b.tag fun _ =>
        { w with state := .cancelling, flushed := flush, partialMark := true }, .missed)) ∨
    (w.anyIn .aborting = false ∧ w.anyIn .abortMissed = false ∧ s.cancelPlanned c b flush =
      ((s.modifyChannel c fun ch => ch.removeBatch b.tag).checkVacateAll w.includedSites,
        .removed)) := by
  intro w
  unfold State.cancelPlanned
  cases aborting : w.anyIn .aborting with
  | true => exact .inl ⟨rfl, if_pos aborting⟩
  | false =>
    refine .inr ?_
    cases missed : w.anyIn .abortMissed with
    | true => exact .inl ⟨rfl, rfl, (if_neg (by simp [w, aborting])).trans (if_pos missed)⟩
    | false =>
      exact .inr ⟨rfl, rfl, (if_neg (by simp [w, aborting])).trans (if_neg (by simp [w, missed]))⟩

theorem steady_cancelPlanned (c : ChannelNo) (b : Batch) (flush : Bool) :
    Steady s (s.cancelPlanned c b flush).1 := by
  rcases s.cancelPlanned_cases c b flush with ⟨-, h⟩ | ⟨-, -, h⟩ | ⟨-, -, h⟩ <;> rw [h]
  · refine Steady.trans (steady_replaceBatch ?_) (steady_aborts _)
    rfl
  · exact steady_replaceBatch rfl
  · exact (steady_modifyChannel rfl (Channel.removeBatch_tags _ _)).trans (steady_checkVacateAll _)

end Channels

/-! ### The records that an event changes in place -/

theorem BurstSummary.enter_le (b : BurstSummary) (o : ProbeOutcome)
    (h : b.sent ≤ 16 ∧ b.accepted ≤ 16 ∧ b.timedOut ≤ 16 ∧ b.rejected ≤ 16) :
    (b.enter o).sent ≤ 16 ∧ (b.enter o).accepted ≤ 16 ∧ (b.enter o).timedOut ≤ 16 ∧
      (b.enter o).rejected ≤ 16 := by
  obtain ⟨b₁, b₂, b₃, b₄⟩ := h
  have le := satCount_le 16
  cases o
  · exact ⟨b₁, le _ _, b₃, b₄⟩
  · exact ⟨b₁, b₂, b₃, le _ _⟩
  · exact ⟨b₁, b₂, le _ _, b₄⟩

namespace Enrolled

/-- A change of the estimate that keeps its ranges, with the state at liberty outside RETIRING. -/
theorem Moves.of_est {e e' : Enrolled} (retiring : e.phase = .retiring → e'.phase = .retiring)
    (config : e'.config = e.config) (tally : e'.clampTally = e.clampTally)
    (est : e.InRange → e'.est.InRange) : e.Moves e' :=
  ⟨retiring, fun h => ⟨config ▸ h.config, est h, tally ▸ h.tally⟩⟩

/-- A change of nothing but the timers, the carriers and the sticky flag. -/
theorem Moves.of_eq {e e' : Enrolled} (phase : e'.phase = e.phase) (config : e'.config = e.config)
    (tally : e'.clampTally = e.clampTally) (est : e'.est = e.est) : e.Moves e' :=
  .of_est (fun h => phase.trans h) config tally fun h => est ▸ h.est

theorem moves_restartCadence (e : Enrolled) (now : HubTime) : e.Moves (e.restartCadence now) :=
  .of_eq rfl rfl rfl rfl

theorem moves_tallyClamp (e : Enrolled) : e.Moves e.tallyClamp :=
  ⟨id, fun h => ⟨h.config, h.est, satCount_le 127 _ _⟩⟩

theorem moves_confirmEnd (e : Enrolled) (c : ChannelNo) (x : HubTime) :
    e.Moves (e.confirmEnd c x) := by
  unfold Enrolled.confirmEnd
  split
  · exact .refl e
  · split
    · exact .of_eq rfl rfl rfl rfl
    · exact .refl e

theorem moves_probeSent (e : Enrolled) (burst : Bool) : e.Moves (e.probeSent burst) := by
  refine .of_est id rfl rfl fun h => ?_
  obtain ⟨d, u, counts, -, totals, b₁, b₂, b₃, b₄⟩ := h.est
  refine ⟨d, u, counts, Nat.mod_lt _ (by decide), totals, ?_⟩
  dsimp only [probeSent]
  split
  · exact ⟨satCount_le 16 _ _, b₂, b₃, b₄⟩
  · exact ⟨b₁, b₂, b₃, b₄⟩

theorem moves_countLate (e : Enrolled) : e.Moves e.countLate := by
  refine .of_est id rfl rfl fun h => ?_
  obtain ⟨d, u, counts, sequence, ⟨t₁, t₂, t₃, -, t₅⟩, burst⟩ := h.est
  exact ⟨d, u, counts, sequence, ⟨t₁, t₂, t₃, satCount_le 65535 _ _, t₅⟩, burst⟩

theorem moves_deafen (e : Enrolled) (gap : HubTime) : e.Moves (e.deafen gap) := by
  refine .of_est id rfl rfl fun h => ?_
  obtain ⟨d, u, counts, sequence, ⟨t₁, t₂, t₃, t₄, -⟩, burst⟩ := h.est
  exact ⟨d, u, counts, sequence, ⟨t₁, t₂, t₃, t₄, satCount_le 65535 _ _⟩, burst⟩

theorem moves_enterOutcome (e : Enrolled) (burst : Bool) (o : ProbeOutcome) :
    e.Moves (e.enterOutcome burst o) := by
  unfold enterOutcome
  split
  · exact .of_est id rfl rfl fun h =>
      ⟨h.est.d, h.est.u, h.est.counts, h.est.sequence, h.est.totals, e.est.burst.enter_le o h.est.burst⟩
  · exact .refl e

theorem moves_timeOut (e : Enrolled) (staleLimit sequence : Nat) (burst : Bool) :
    e.Moves (e.timeOut staleLimit sequence burst) := by
  have entered := e.moves_enterOutcome burst .timedOut
  refine ⟨fun retiring => ?_, fun h => ?_⟩
  · simp [timeOut, retiring, entered.retiring retiring]
  · obtain ⟨config, ⟨d, u, ⟨accepted, -, rejects⟩, sequence', ⟨t₁, t₂, -, t₄, t₅⟩, burst'⟩, tally⟩ :=
      entered.inRange h
    refine ⟨config, ⟨d, u, ⟨?_, satCount_le 255 _ _, rejects⟩, sequence',
      ⟨t₁, t₂, satCount_le 65535 _ _, t₄, t₅⟩, burst'⟩, tally⟩
    dsimp only [timeOut]
    split
    · exact Nat.zero_le _
    · exact accepted

/-- A rejected sample (03, R56, R59). -/
theorem moves_reject (e : Enrolled) {k : Nat} (hk : e.InRange → k ≤ 255) : e.Moves (e.reject k) := by
  refine .of_est id rfl rfl fun h => ?_
  obtain ⟨d, u, ⟨accepted, failures, -⟩, sequence, ⟨t₁, -, t₃, t₄, t₅⟩, burst⟩ := h.est
  exact ⟨d, u, ⟨accepted, failures, hk h⟩, sequence, ⟨t₁, satCount_le 65535 _ _, t₃, t₄, t₅⟩, burst⟩

/-- An accepted sample with a D and a U in their ranges (03, R60 to R62). -/
theorem moves_accept (e : Enrolled) (settle : Nat) (arr : HubTime) {d u : Nat} (step : Bool)
    (hd : e.InRange → d ≤ 2 ^ 28) (hu : e.InRange → u < 2 ^ 24) :
    e.Moves (e.accept settle arr d u step) := by
  refine .of_est (fun h => (phaseAfter_retiring _ _ _ _).mpr h) rfl rfl fun h => ?_
  obtain ⟨-, -, counts, sequence, ⟨-, t₂, t₃, t₄, t₅⟩, burst⟩ := h.est
  refine ⟨fun v hv => Option.some.inj hv ▸ hd h, ⟨hu h, fun none => by simp [accept] at none⟩,
    ⟨?_, Nat.zero_le _, Nat.zero_le _⟩, sequence, ⟨satCount_le 65535 _ _, t₂, t₃, t₄, t₅⟩, burst⟩
  dsimp only [accept]
  split
  · decide
  · exact satCount_le 255 _ _

/-- The outbound sample of a round trip within the ceiling fits D (03, R57). -/
theorem outboundSample_le {c : SiteConfig} (h : c.InRange) {r : Int} (positive : 1 ≤ r)
    (within : r ≤ c.ceiling) : outboundSample c.share r ≤ 2 ^ 28 := by
  obtain ⟨n, rfl⟩ := Int.eq_ofNat_of_zero_le (by omega : 0 ≤ r)
  have ceiling : c.ceiling ≤ 16777216 := h.ceiling.2
  have greatest := scaledRoundTrip_le (share := c.share) (r := n) h.share.2 (by omega)
  change outboundSample c.share (n : Int) ≤ 2 ^ 28
  rw [outboundSample_eq]
  omega

theorem foldDelay_le {k d sample m : Nat} (hk : 1 ≤ k) (hd : d ≤ m) (hs : sample ≤ m) :
    foldDelay k d sample ≤ m := by
  have between := (foldDelay_between hk d sample).2
  omega

/-- A sample of a record in its ranges leaves it in them, whichever way it takes (03, R56 to R62). -/
theorem moves_foldSample (e : Enrolled) (meas : Measurement) (arr dep : HubTime) (t : Nat) :
    e.Moves (e.foldSample meas arr dep t).1 := by
  have floor (h : e.InRange) : e.config.gateFloor < 2 ^ 24 :=
    lt_of_le_of_lt h.config.gateFloor.2 (by decide)
  rcases e.foldSample_cases meas arr dep t with
    ⟨-, h⟩ | ⟨positive, within, ⟨-, h⟩ | ⟨d, hd, ⟨-, h⟩ | ⟨-, -, h⟩ | ⟨-, -, -, h⟩ | ⟨-, -, -, h⟩⟩⟩ <;>
    rw [h]
  · exact e.moves_reject fun h => h.est.counts.2.2
  · exact e.moves_accept _ _ _ (fun h => outboundSample_le h.config positive within) floor
  · exact e.moves_accept _ _ _ (fun h => foldDelay_le le_rfl (h.est.d d hd)
      (outboundSample_le h.config positive within)) fun _ => foldUncertainty_lt _ _ _ _
  · exact e.moves_accept _ _ _ (fun h => foldDelay_le h.config.gain.1 (h.est.d d hd)
      (outboundSample_le h.config positive within)) fun _ => foldUncertainty_lt _ _ _ _
  · exact e.moves_reject fun _ => satCount_le 255 _ _
  · exact e.moves_accept _ _ _ (fun h => outboundSample_le h.config positive within) floor

end Enrolled

/-! ### The measurement engine -/

section Measuring
variable {s : State}

theorem steady_takeCadence {n : SiteNo} {e : Enrolled} (he : s.enrolled n = some e) (x : HubTime) :
    Steady s (s.takeCadence n e x) := by
  unfold State.takeCadence
  dsimp only
  have written := steady_put he (e' := { e with cadence := some (x + e.interval) })
    (.of_eq rfl rfl rfl rfl)
  split
  · exact written
  · exact written.trans (steady_requestProbe _)

theorem steady_nextProbe (i : SlotNo) (p : Slot) : Steady s (s.nextProbe i p) := by
  unfold State.nextProbe
  split
  · exact steady_setSlot i _
  · exact steady_freeProbe i

theorem steady_endRetiringProbe (i : SlotNo) (n : SiteNo) : Steady s (s.endRetiringProbe i n) :=
  (steady_freeProbe i).trans (steady_checkVacate n)

theorem steady_matchEcho {n : SiteNo} {e : Enrolled} (he : s.enrolled n = some e)
    (m : SlotNo × Slot × Flight) (arr : HubTime) (turnaround : Nat) :
    Steady s (s.matchEcho n e m arr turnaround) :=
  (steady_put he ((e.moves_foldSample _ _ _ _).trans (Enrolled.moves_enterOutcome _ _ _))).trans
    (steady_nextProbe _ _)

theorem steady_takeEcho (n : SiteNo) (sequence : Nat) (arr : HubTime) (turnaround : Nat) :
    Steady s (s.takeEcho n sequence arr turnaround) := by
  have deafened (gap : HubTime) : Steady s (s.modifySite n (Enrolled.deafen · gap)) :=
    steady_modifySite fun e => e.moves_deafen gap
  unfold State.takeEcho
  dsimp only
  split
  next vacant => exact .refl s
  next e he =>
    split
    next retiring =>
      split
      · exact steady_endRetiringProbe _ _
      · exact .refl s
    next =>
      split
      next deaf => exact deafened _
      next =>
        split
        next m matched => exact steady_matchEcho he m arr turnaround
        next =>
          split
          next late => exact steady_modifySite Enrolled.moves_countLate
          next stray => exact deafened _

theorem steady_takeTimeout (i : SlotNo) (p : Slot) (f : Flight) : Steady s (s.takeTimeout i p f) := by
  unfold State.takeTimeout
  split
  · exact steady_freeProbe i
  next e he =>
    split
    · exact steady_endRetiringProbe i _
    · exact (steady_put he (e.moves_timeOut _ _ _)).trans (steady_nextProbe i p)

theorem steady_foldReceipt (n : SiteNo) (arr dep : HubTime) (turnaround : Nat) :
    Steady s (s.foldReceipt n arr dep turnaround) := by
  unfold State.foldReceipt
  split
  · exact .refl s
  next e he =>
    split
    · exact .refl s
    · have folded := e.moves_foldSample s.meas arr dep turnaround
      dsimp only
      refine steady_put he ?_
      split
      · exact folded.trans (Enrolled.moves_restartCadence _ _)
      · exact folded

theorem steady_takeReceipt (n : SiteNo) (channel tag : Nat) (v : Verdict) (arr : HubTime)
    (turnaround : Nat) : Steady s (s.takeReceipt n channel tag v arr turnaround) := by
  unfold State.takeReceipt
  split
  · exact steady_discardFrame
  · refine Steady.trans (steady_replaceBatch ?_) (steady_foldReceipt _ _ _ _)
    rfl

end Measuring

/-! ### Departures -/

section Departures
variable {s : State}

theorem steady_departAbort (r : AbortRef) : Steady s (s.departAbort r) := by
  unfold State.departAbort
  dsimp only
  have sent : Steady s ({ s.transmit (.abort r.site r.channel r.tag) with
      highway := { (s.transmit (.abort r.site r.channel r.tag)).highway with
        aborts := (s.transmit (.abort r.site r.channel r.tag)).highway.aborts.erase r } }) :=
    (steady_transmit _).trans (steady_aborts _)
  split
  · exact sent.trans (steady_completeCancel _ _)
  · exact sent

theorem steady_departOrder (r : OrderRef) : Steady s (s.departOrder r) := by
  unfold State.departOrder
  dsimp only
  split
  · split
    · exact (steady_transmit _).trans (steady_modifyBatch fun b h => by simpa using h)
    · exact .refl s
  · exact .refl s

theorem steady_departProbe (i : SlotNo) : Steady s (s.departProbe i) := by
  unfold State.departProbe
  split
  · exact ((steady_transmit _).trans (steady_setSlot i _)).trans
      (steady_modifySite fun e => e.moves_probeSent _)
  · exact .refl s

theorem steady_arbitrate : Steady s s.arbitrate := by
  rcases s.arbitrate_cases with h | ⟨c, -, -, h⟩ <;> rw [h]
  · exact .refl s
  · cases c with
    | abort r => exact steady_departAbort r
    | order r => exact steady_departOrder r
    | probe i => exact steady_departProbe i

end Departures

/-! ### Plannings -/

section Planning
variable {s : State}

/-- A zone evaluated keeps its sites and its ranges (04, R76 to R78). -/
theorem Zone.record_inRange {z : Zone} (r : Int) (failed : Bool) (h : z.InRange) :
    (z.record r failed).InRange := by
  obtain ⟨distinct, g, budget, flips, fails⟩ := h
  refine ⟨distinct, g, budget, ?_, ?_⟩ <;> dsimp only [Zone.record] <;> split
  · exact satCount_le 255 _ _
  · exact flips
  · exact satCount_le 65535 _ _
  · exact fails

/-- Zone tables with the same records up to their evaluation fields. -/
def SameZones (a b : Vector (Option Zone) 192) : Prop :=
  ∀ (z : ZoneNo) r, b[z] = some r → ∃ q, a[z] = some q ∧ r.siteA = q.siteA ∧ r.siteB = q.siteB ∧
    (q.InRange → r.InRange)

theorem SameZones.refl (a : Vector (Option Zone) 192) : SameZones a a :=
  fun _ r h => ⟨r, h, rfl, rfl, id⟩

theorem SameZones.trans {a b c : Vector (Option Zone) 192} (h : SameZones a b) (h' : SameZones b c) :
    SameZones a c := by
  intro z r hr
  obtain ⟨q, hq, sa, sb, i⟩ := h' z r hr
  obtain ⟨p, hp, sa', sb', i'⟩ := h z q hq
  exact ⟨p, hp, sa.trans sa', sb.trans sb', i ∘ i'⟩

theorem SameZones.set {a : Vector (Option Zone) 192} {n : ZoneNo} {z : Zone} (h : a[n] = some z)
    (r : Int) (failed : Bool) : SameZones a (a.set n (some (z.record r failed))) := by
  intro k q hq
  by_cases same : n = k
  · subst same
    obtain rfl : z.record r failed = q := by simpa using hq
    exact ⟨z, h, rfl, rfl, Zone.record_inRange r failed⟩
  · have : n.val ≠ k.val := fun e => same (Fin.ext e)
    exact ⟨q, by simpa [this] using hq, rfl, rfl, id⟩

@[simp] theorem ZonePass.fail_zones (p : ZonePass) (s : State) (policy : Policy) (a b : Candidate) :
    (p.fail s policy a b).zones = p.zones := by
  unfold ZonePass.fail
  split
  · rfl
  · rfl
  · split <;> rfl

theorem ZonePass.visit_zones (s : State) (p : ZonePass) (n : ZoneNo) :
    SameZones p.zones (p.visit s n).zones := by
  unfold ZonePass.visit
  split
  · exact .refl _
  · split
    · exact .refl _
    next z hz =>
      split
      · dsimp only
        split
        · rw [ZonePass.fail_zones]; exact .set hz _ _
        · exact .set hz _ _
      · exact .refl _

theorem ZonePass.foldl_visit_zones (s : State) (ns : List ZoneNo) (p : ZonePass) :
    SameZones p.zones (ns.foldl (ZonePass.visit s) p).zones := by
  induction ns generalizing p with
  | nil => exact .refl _
  | cons n ns ih => exact (ZonePass.visit_zones s p n).trans (ih _)

theorem State.zonePass_zones (s : State) (l : List Candidate) :
    SameZones s.zones (s.zonePass l).zones :=
  ZonePass.foldl_visit_zones s _ ⟨l, [], 0, s.zones, false⟩

theorem State.planResult_zones (s : State) (ns : List SiteNo) (air : HubTime) (slip : Nat)
    (w : Working) : (s.planResult ns air slip w).zones = (s.zonePass w.eligible).zones := by
  unfold State.planResult
  generalize s.zonePass w.eligible = p
  dsimp only
  split
  · rfl
  · split <;> rfl

theorem State.runPlanning_zones (s : State) (c : ChannelNo) (b : Batch) (mode : TimingMode)
    (ctx : Context) : SameZones s.zones (s.runPlanning c b mode ctx).zones := by
  unfold State.runPlanning
  dsimp only
  split
  · exact .refl _
  · exact .refl _
  · rw [State.planResult_zones]
    exact s.zonePass_zones _

theorem steady_zones {zones : Vector (Option Zone) 192} (h : SameZones s.zones zones) :
    Steady s { s with zones := zones } :=
  ⟨rfl, rfl, (Steady.refl s).sites, h, fun _ _ _ _ _ h => h, ⟨rfl, rfl, rfl, rfl⟩, fun _ => rfl,
    fun _ => .refl _, id⟩

theorem steady_tallyRanges (plan : List PlanEntry) : Steady s (s.tallyRanges plan) := by
  refine steady_foldl (fun s p => ?_) plan s
  split
  · exact steady_modifySite Enrolled.moves_tallyClamp
  · exact .refl s

theorem steady_planBatch (c : ChannelNo) (b : Batch) (acts : Bool) :
    Steady s (s.planBatch c b acts) := by
  unfold State.planBatch
  dsimp only
  have zones := s.runPlanning_zones c b
    (if b.mode = .follow ∧ (acts ∨ b.predEnd = none) then .earliest else b.mode)
    (s.contextFor c ((if b.mode = .follow ∧ (acts ∨ b.predEnd = none) then .earliest else b.mode)
      == .follow))
  generalize s.runPlanning c b _ _ = r at zones
  have before := (steady_zones zones).trans <|
    (steady_modifyChannel (c := c) (f := fun ch => { ch with
      context := some (s.contextFor c ((if b.mode = .follow ∧ (acts ∨ b.predEnd = none) then
        .earliest else b.mode) == .follow)), timer := none }) rfl (.refl _)).trans
      (steady_tallyRanges r.plan)
  split
  · refine before.trans (steady_modifyChannel rfl ?_)
    rw [passEnd_tags, Channel.modifyBatch_tags _ _ _ fun _ _ _ => rfl]
  · exact (before.trans (steady_modifyChannel rfl (by rw [passEnd_tags]))).trans (steady_terminate c _)

end Planning

end Sys2Proof.Machine
end

