-- ==== Sys2Proof/Proofs/SteadyRows.lean ====
section
/-! PROOFS. Every row but power-on and RESET, and but the five commands that write a record or a setting of
their own (ENROL, SET MEASUREMENT, DEFINE ZONE, SET CHANNEL, SUBMIT), is steady: it adds no record, moves
no setting, and keeps every range. -/

namespace Sys2Proof.Machine

section Queues
variable {s : State}

theorem steady_advance (c : ChannelNo) (fuel : Nat) (s : State) :
    Steady s (State.advance c fuel s) := by
  induction fuel generalizing s with
  | zero => exact .refl s
  | succ fuel ih =>
    unfold State.advance
    split
    · exact steady_setTimer c none
    · dsimp only
      split
      · exact steady_setTimer c _
      · exact ((steady_planBatch c _ _).trans steady_arbitrate).trans (ih _)

theorem steady_newCandidate (c : ChannelNo) : Steady s (s.newCandidate c) := steady_advance c _ s

theorem steady_planCandidate (c : ChannelNo) : Steady s (s.planCandidate c) := by
  unfold State.planCandidate
  split
  · exact ((steady_planBatch c _ _).trans steady_arbitrate).trans (steady_newCandidate c)
  · exact steady_setTimer c none

theorem steady_resetComputePoint (c : ChannelNo) : Steady s (s.resetComputePoint c) := by
  unfold State.resetComputePoint
  split
  · dsimp only
    split
    · exact steady_setTimer c _
    · exact steady_planCandidate c
  · exact .refl s

theorem steady_dropQueued (c : ChannelNo) (tag : Nat) :
    Steady s (s.modifyChannel c fun ch => ch.dropQueued tag) :=
  steady_modifyChannel rfl (removeQueued_tags tag _)

theorem steady_removeBatch (c : ChannelNo) (tag : Nat) :
    Steady s (s.modifyChannel c fun ch => ch.removeBatch tag) :=
  steady_modifyChannel rfl (Channel.removeBatch_tags _ tag)

theorem steady_cancelQueued (c : ChannelNo) (tag : Nat) : Steady s (s.cancelQueued c tag) := by
  unfold State.cancelQueued
  dsimp only
  split
  · exact (steady_dropQueued c tag).trans (steady_newCandidate c)
  · exact steady_dropQueued c tag

theorem steady_flushBatch (c : ChannelNo) (acc : State × Nat × Nat) (tag : Nat) :
    Steady acc.1 (State.flushBatch c acc tag).1 := by
  obtain ⟨s, removed, left⟩ := acc
  unfold State.flushBatch
  dsimp only
  split
  · exact .refl s
  next b _ =>
    have cancelled := steady_cancelPlanned (s := s) c b true
    split
    · exact steady_dropQueued c tag
    iterate 2
      · split <;> next h => simpa only [h] using cancelled
    all_goals exact .refl s

theorem steady_flush (c : ChannelNo) : Steady s (s.flush c).1 := by
  have records (tags : List Nat) (acc : State × Nat × Nat) :
      Steady acc.1 (tags.foldl (State.flushBatch c) acc).1 := by
    induction tags generalizing acc with
    | nil => exact .refl _
    | cons tag tags ih => exact (steady_flushBatch c acc tag).trans (ih _)
  unfold State.flush
  exact ((records _ (s, 0, 0)).trans (steady_modifyChannel rfl (.refl _))).trans steady_arbitrate

end Queues

/-! ### Events of batches and their entries -/

section Events
variable {s : State}

theorem steady_onEntry {tag : Nat} {n : SiteNo} {act : ChannelNo → Batch → Included → State}
    (h : ∀ c b e, b.tag = tag → Steady s (act c b e)) : Steady s (s.onEntry tag n act) := by
  unfold State.onEntry
  split
  · exact .refl s
  next c b found =>
    split
    · split
      · exact h c b _ (State.findBatch_mem found).2
      · exact .refl s
    · exact .refl s

theorem steady_goOnAir (c : ChannelNo) (b : Batch) : Steady s (s.goOnAir c b) := by
  unfold State.goOnAir
  split
  · refine Steady.trans (steady_replaceBatch ?_) (steady_aborts _)
    rfl
  · exact steady_replaceBatch rfl

theorem steady_endBatch (c : ChannelNo) (b : Batch) (x : HubTime) : Steady s (s.endBatch c b x) := by
  refine (steady_foldl (fun s p => ?_) _ s).trans (steady_terminate c _)
  split
  · exact steady_modifySite fun e => e.moves_confirmEnd c x
  · exact .refl s

end Events

/-! ### The whole part -/

section Whole
variable {s : State}

theorem Enrolled.moves_restart (e : Enrolled) : e.Moves e.restart :=
  .of_est id rfl rfl fun h =>
    ⟨h.est.d, h.est.u, ⟨h.est.counts.1, Nat.zero_le _, Nat.zero_le _⟩, h.est.sequence, h.est.totals,
      h.est.burst⟩

theorem Enrolled.moves_move (e : Enrolled) (d : HubTime) : e.Moves (e.move d) :=
  .of_est id rfl rfl fun h =>
    ⟨h.est.d, h.est.u, h.est.counts, h.est.sequence, h.est.totals, h.est.burst⟩

/-- Every record changed alike, each in place. -/
theorem steady_mapSites {f : Enrolled → Enrolled} (moves : ∀ e, Enrolled.Moves e (f e)) :
    Steady s { s with sites := s.sites.map fun r => { r with body := r.body.map f } } := by
  have mapped (n : SiteNo) : ({ s with sites := s.sites.map fun r =>
      { r with body := r.body.map f } } : State).enrolled n = (s.enrolled n).map f := by
    simp [State.enrolled, State.site]
  refine ⟨rfl, rfl, fun n e' he' => ?_, (Steady.refl s).zones, fun z r n _ _ h => ?_, ⟨rfl, rfl, rfl, rfl⟩,
    fun _ => rfl, fun _ => .refl _, id⟩
  · rw [mapped, Option.map_eq_some_iff] at he'
    obtain ⟨e, he, rfl⟩ := he'
    exact ⟨e, he, moves e⟩
  · rw [mapped, Option.isSome_map]
    exact h

/-- Every channel changed alike, with its settings kept and no tag added. -/
theorem steady_mapChannels {f : Channel → Channel} (settings : ∀ c, (f c).settings = c.settings)
    (tags : ∀ c, ((f c).queue.map Batch.tag).Sublist (c.queue.map Batch.tag)) :
    Steady s { s with channels := s.channels.map f } := by
  have mapped (c : ChannelNo) :
      ({ s with channels := s.channels.map f } : State).channel c = f (s.channel c) := by
    simp [State.channel]
  refine ⟨rfl, rfl, (Steady.refl s).sites, (Steady.refl s).zones, (Steady.refl s).named, ⟨rfl, rfl, rfl, rfl⟩,
    fun c => ?_, fun c => ?_, id⟩ <;> rw [mapped]
  · exact settings _
  · exact tags _

theorem steady_moveStored (d : HubTime) : Steady s (s.moveStored d) :=
  (steady_mapSites fun e => e.moves_move d).trans (.of_eq rfl rfl rfl rfl rfl ⟨rfl, rfl, rfl, rfl⟩ id)

theorem steady_markUnverified : Steady s s.markUnverified := by
  refine steady_mapChannels (fun _ => rfl) fun c => ?_
  rw [List.map_map, List.map_congr_left (g := Batch.tag)]
  intro b _
  by_cases active : b.active = true <;> simp [active]

theorem steady_putTime (t : TimeScale) : Steady { s with time := t } (s.putTime t) := by
  unfold State.putTime
  dsimp only
  split
  · exact steady_markUnverified
  · exact .refl _

theorem steady_takeEdge (run : Nat) (capture : HubTime) :
    Steady { s with time := (s.takeEdge run capture).time } (s.takeEdge run capture) := by
  have written (s : State) (t : TimeScale) : Steady { s with time := (s.putTime t).time } (s.putTime t) := by
    rw [State.putTime_time]
    exact steady_putTime t
  unfold State.takeEdge
  dsimp only
  split
  · exact written _ _
  · split
    · exact written _ _
    · exact (steady_moveStored _).trans (written _ _)

theorem steady_period (t : TimeScale) : Steady { s with time := t } (s.period t) :=
  steady_of_frame (by simp) (by simp) (by simp) (by simp) (by simp) (by simp) (by simp)

theorem steady_clearWork : Steady s s.clearWork :=
  ((steady_mapSites Enrolled.moves_restart).trans
    (steady_mapChannels (f := Channel.restart) (fun _ => rfl) fun _ => List.nil_sublist _)).trans
    (.of_eq rfl rfl rfl rfl rfl ⟨rfl, rfl, rfl, rfl⟩ id)

theorem steady_restartCadences : Steady s s.restartCadences := by
  refine steady_foldl (fun s n => ?_) _ s
  split
  next e he => exact steady_takeCadence he _
  · exact .refl s

theorem steady_vacateRetiring : Steady s s.vacateRetiring :=
  steady_foldl (fun _ => steady_vacate) s.retiringSites s

theorem answerRestart_state (s : State) : (answerRestart s).state =
    s.clearWork.vacateRetiring.restartCadences.arbitrate := by
  simp only [answerRestart]

theorem steady_answerRestart : Steady s (answerRestart s).state := by
  rw [answerRestart_state]
  exact ((steady_clearWork.trans steady_vacateRetiring).trans steady_restartCadences).trans
    steady_arbitrate

end Whole

/-! ### Commands -/

section Commands
variable {s : State}

theorem applySiteFields_inRange (f : SiteFields) {c : SiteConfig} (h : c.InRange) :
    (applySiteFields f c).InRange where
  share := shareRange.field_range _ _ (by decide) h.share
  e := latencyRange.field_range _ _ (by decide) h.e
  o := fieldOffset_range _ _ h.o
  m := marginRange.field_range _ _ (by decide) h.m
  w := warmUpRange.field_range _ _ (by decide) h.w
  idleHold := idleRange.field_range _ _ (by decide) h.idleHold
  ceiling := ceilingRange.field_range _ _ (by decide) h.ceiling
  fast := intervalRange.field_range _ _ (by decide) h.fast
  slow := intervalRange.field_range _ _ (by decide) h.slow
  gateFloor := gateRange.field_range _ _ (by decide) h.gateFloor
  gain := gainRange.field_range _ _ (by decide) h.gain
  seed x hx := by
    cases hs : f.seed with
    | none => exact h.seed x (by simpa [applySiteFields, hs] using hx)
    | some v =>
      obtain rfl : seedRange.clamp v = x := by simpa [applySiteFields, hs] using hx
      exact seedRange.clamp_range v (by decide)

theorem Enrolled.moves_amend {e : Enrolled} (f : SiteFields) (h : e.phase ≠ .retiring) :
    e.Moves (e.amend f) := by
  refine ⟨fun retiring => absurd retiring h, fun range => ?_⟩
  have config := applySiteFields_inRange f range.config
  unfold Enrolled.amend
  dsimp only
  split
  · exact ⟨config, range.est, range.tally⟩
  · obtain ⟨d, -, -, sequence, totals, burst⟩ := range.est
    refine ⟨config, ⟨d, ?_, ⟨Nat.zero_le _, Nat.zero_le _, Nat.zero_le _⟩, sequence, totals, burst⟩,
      range.tally⟩
    have floor : (applySiteFields f e.config).gateFloor < 2 ^ 24 :=
      lt_of_le_of_lt config.gateFloor.2 (by decide)
    cases known : e.est.d with
    | none => simp [Enrolled.resettle, known]
    | some d => simpa [Enrolled.resettle, known] using floor

theorem steady_answerAmendSite (site : Nat) (f : SiteFields) :
    Steady s (answerAmendSite site f s).state := by
  unfold answerAmendSite
  split
  · exact .refl s
  · split
    · exact .refl s
    · split
      · exact .refl s
      next e he =>
        split
        · exact .refl s
        next h => exact steady_put he (Enrolled.moves_amend f h)

theorem steady_answerQuerySite (site : Nat) : Steady s (answerQuerySite site s).state := by
  unfold answerQuerySite
  split
  · exact .refl s
  · exact steady_cleared _

theorem steady_stopMeasuring (n : SiteNo) : Steady s (s.stopMeasuring n) := by
  unfold State.stopMeasuring
  dsimp only
  have stopped : Steady s (s.modifySite n fun e => { e with cadence := none }) :=
    steady_modifySite fun e => .of_eq rfl rfl rfl rfl
  have unlisted := stopped.trans (steady_meas (s.modifySite n fun e => { e with cadence := none }).meas.slots
    ((s.modifySite n fun e => { e with cadence := none }).meas.wait.filter fun w => w.site != n))
  split
  · split
    · exact unlisted.trans (steady_freeProbe _)
    · exact unlisted
  · exact unlisted

theorem steady_withdrawSite (n : SiteNo) : Steady s (s.withdrawSite n) := by
  refine steady_foldl (fun s p => ?_) _ s
  split
  · exact steady_withdrawEntry _ _ _
  · exact .refl s

theorem steady_retire (n : SiteNo) : Steady s (s.retire n).2 := by
  unfold State.retire
  dsimp only
  have stopped := steady_stopMeasuring (s := s) n
  split
  · have retiring := steady_modifySite (s := s.stopMeasuring n) (n := n)
      (f := fun e => { e with phase := .retiring })
      fun e => ⟨fun _ => rfl, fun h => ⟨h.config, h.est, h.tally⟩⟩
    exact ((stopped.trans retiring).trans (steady_withdrawSite n)).trans steady_arbitrate
  · exact (stopped.trans (steady_vacate n)).trans steady_arbitrate

theorem steady_answerRetire (site : Nat) : Steady s (answerRetire site s).state := by
  unfold answerRetire
  split
  · exact .refl s
  · split
    · exact .refl s
    · split
      · exact .refl s
      · exact steady_retire _

theorem steady_startBurst (n : SiteNo) (count : Nat) : Steady s (s.startBurst n count) := by
  refine ((steady_modifySite fun e => ?_).trans (steady_requestProbe _)).trans steady_arbitrate
  exact .of_est id rfl rfl fun h =>
    ⟨h.est.d, h.est.u, h.est.counts, h.est.sequence, h.est.totals,
      ⟨Nat.zero_le _, Nat.zero_le _, Nat.zero_le _, Nat.zero_le _⟩⟩

theorem steady_answerProbe (site count : Nat) : Steady s (answerProbe site count s).state := by
  unfold answerProbe
  split
  · exact .refl s
  · split
    · exact .refl s
    · split
      · exact .refl s
      · exact steady_startBurst _ _

/-- A zone record replaced by one that names the same sites, in its ranges. -/
theorem steady_setZone {z : ZoneNo} {q r : Zone} (hz : s.zone z = some q) (a : r.siteA = q.siteA)
    (b : r.siteB = q.siteB) (inRange : q.InRange → r.InRange) : Steady s (s.setZone z (some r)) := by
  refine steady_zones fun y r' hr' => ?_
  by_cases h : y = z
  · subst h
    obtain rfl : r = r' := Option.some.inj ((s.zone_setZone_self y (some r)).symm.trans hr')
    exact ⟨q, hz, a, b, inRange⟩
  · exact ⟨r', (s.zone_setZone_of_ne (some r) h).symm.trans hr', rfl, rfl, id⟩

theorem steady_dropZone (z : ZoneNo) : Steady s (s.setZone z none) := by
  refine steady_zones fun y r hr => ?_
  by_cases h : y = z
  · subst h
    cases (s.zone_setZone_self y none).symm.trans hr
  · exact ⟨r, (s.zone_setZone_of_ne none h).symm.trans hr, rfl, rfl, id⟩

theorem Zone.amend_inRange {z : Zone} (f : ZoneFields) (h : z.InRange) : (z.amend f).InRange :=
  ⟨h.distinct, fieldOffset_range _ _ h.g, budgetRange.field_range _ _ (by decide) h.budget, h.counts⟩

theorem steady_answerAmendZone (zone : Nat) (f : ZoneFields) :
    Steady s (answerAmendZone zone f s).state := by
  unfold answerAmendZone
  split
  · exact .refl s
  · split
    · exact .refl s
    · split
      · exact .refl s
      next z hz => exact steady_setZone hz rfl rfl (Zone.amend_inRange f)

theorem steady_answerDropZone (zone : Nat) : Steady s (answerDropZone zone s).state := by
  unfold answerDropZone
  split
  · exact .refl s
  · split
    · exact .refl s
    · exact steady_dropZone _

theorem steady_answerQueryZone (zone : Nat) : Steady s (answerQueryZone zone s).state := by
  unfold answerQueryZone
  split
  · exact .refl s
  · split
    · exact .refl s
    next z hz =>
      exact steady_setZone hz rfl rfl fun h => ⟨h.distinct, h.g, h.budget, h.counts⟩

theorem steady_answerCancel (tag : Nat) : Steady s (answerCancel tag s).state := by
  unfold answerCancel
  split
  · exact .refl s
  next c b _ =>
    have cancelled := steady_cancelPlanned (s := s) c b false
    split
    · exact steady_cancelQueued c tag
    iterate 2
      · split <;> next h => exact Steady.trans (by simpa only [h] using cancelled) steady_arbitrate
    all_goals exact .refl s

theorem steady_answerFlush (channel : Nat) : Steady s (answerFlush channel s).state := by
  unfold answerFlush
  split
  · exact .refl s
  · exact steady_flush _

theorem steady_answerQueryBatch (tag : Nat) : Steady s (answerQueryBatch tag s).state := by
  unfold answerQueryBatch
  split <;> exact .refl s

theorem steady_answerCollect (key : CollectKey) : Steady s (answerCollect key s).state := by
  unfold answerCollect
  split
  · split
    · exact .refl s
    · split
      · exact steady_removeBatch _ _
      · exact .refl s
  · split
    · exact .refl s
    · split
      · exact .refl s
      · exact steady_removeBatch _ _

theorem steady_context (c : ChannelNo) (x : Option Context) (pinned : Bool) :
    Steady s (s.modifyChannel c fun ch => { ch with context := x, pinned := pinned }) :=
  steady_modifyChannel rfl (.refl _)

theorem steady_answerPin (channel : Nat) : Steady s (answerPin channel s).state := by
  unfold answerPin
  split
  · exact .refl s
  · exact steady_context _ _ _

theorem steady_answerUnpin (channel : Nat) : Steady s (answerUnpin channel s).state := by
  unfold answerUnpin
  split
  · exact .refl s
  · exact steady_context _ _ _

theorem steady_answerSetHighway (rate : Nat) : Steady s (answerSetHighway rate s).state := by
  unfold answerSetHighway
  split
  · exact .refl s
  · exact steady_of_frame rfl rfl rfl rfl rfl rfl rfl

end Commands
/-! ### Rows -/

section Rows
variable {s t : State}

theorem steady_endTransaction : Steady s s.endTransaction :=
  steady_of_frame rfl rfl rfl rfl rfl rfl rfl

theorem steady_record (a : Answer) (identifier label : Byte) (taken : HubTime) :
    Steady a.state (a.record identifier label taken) := steady_of_frame rfl rfl rfl rfl rfl rfl rfl

/-- What a command's block does to the part, the port apart (08, R149). -/
theorem takeCommand_cases {identifier label : Byte} {act : State → Answer}
    (next : takeCommand identifier label s act = .next t) :
    t = s.endTransaction ∨ t = (act s.endTransaction).record identifier label s.now := by
  unfold takeCommand at next
  obtain rfl := Host.Outcome.next.inj next
  split
  · exact .inr rfl
  · exact .inl rfl

theorem takeCommand_steady {identifier label : Byte} {act : State → Answer}
    (block : ∀ x, Steady x (act x).state) (next : takeCommand identifier label s act = .next t) :
    Steady s t := by
  rcases takeCommand_cases next with rfl | rfl
  · exact steady_endTransaction
  · exact (steady_endTransaction.trans (block _)).trans (steady_record _ _ _ _)

theorem whileRunning_cases {act : State → State} (next : whileRunning s act = .next t) :
    t = s ∨ t = act s := by
  unfold whileRunning at next
  obtain rfl := Host.Outcome.next.inj next
  split
  · exact .inl rfl
  · exact .inr rfl

theorem whileRunning_steady {act : State → State} (event : ∀ x, Steady x (act x))
    (next : whileRunning s act = .next t) : Steady s t := by
  rcases whileRunning_cases next with rfl | rfl
  · exact .refl _
  · exact event s

/-- The rows that write a record or a setting of their own, and those of power-on and RESET. -/
def writesRow : Instr → Bool
  | .powerOn | .reset | .enrol _ _ _ | .setMeasurement _ _ | .defineZone _ _ _
  | .setChannel _ _ _ | .submit _ _ => true
  | _ => false

theorem exec_steady {i : Instr} (notTime : i.ofTime = false) (notWrites : writesRow i = false)
    (next : exec i s = .next t) : Steady s t := by
  cases i with
  | transactionBegin =>
    obtain rfl := Host.Outcome.next.inj next
    exact steady_of_frame rfl rfl rfl rfl rfl rfl rfl
  | resetReleased =>
    obtain rfl := Host.Outcome.next.inj next
    exact steady_of_frame rfl rfl rfl rfl rfl rfl rfl
  | responseReady =>
    simp only [exec, execResponseReady] at next
    refine whileRunning_steady (fun x => ?_) next
    split
    · exact steady_of_frame rfl rfl rfl rfl rfl rfl rfl
    · exact .refl x
  | malformedFrame identifier label => exact takeCommand_steady (fun x => .refl x) next
  | amendSite label site f => exact takeCommand_steady (fun _ => steady_answerAmendSite site f) next
  | querySite label site => exact takeCommand_steady (fun _ => steady_answerQuerySite site) next
  | retire label site => exact takeCommand_steady (fun _ => steady_answerRetire site) next
  | probe label site k => exact takeCommand_steady (fun _ => steady_answerProbe site k) next
  | amendZone label z f => exact takeCommand_steady (fun _ => steady_answerAmendZone z f) next
  | dropZone label z => exact takeCommand_steady (fun _ => steady_answerDropZone z) next
  | queryZone label z => exact takeCommand_steady (fun _ => steady_answerQueryZone z) next
  | cancel label tag => exact takeCommand_steady (fun _ => steady_answerCancel tag) next
  | flushChannel label c => exact takeCommand_steady (fun _ => steady_answerFlush c) next
  | queryBatch label tag => exact takeCommand_steady (fun _ => steady_answerQueryBatch tag) next
  | collect label key => exact takeCommand_steady (fun _ => steady_answerCollect key) next
  | pin label c => exact takeCommand_steady (fun _ => steady_answerPin c) next
  | unpin label c => exact takeCommand_steady (fun _ => steady_answerUnpin c) next
  | setHighway label rate => exact takeCommand_steady (fun _ => steady_answerSetHighway rate) next
  | readStatus label =>
    simp only [exec, execReadStatus] at next
    exact takeCommand_steady
      (fun _ => .of_eq rfl rfl rfl rfl rfl ⟨rfl, rfl, rfl, rfl⟩ fun _ => Nat.zero_le _) next
  | restart label => exact takeCommand_steady (fun _ => steady_answerRestart) next
  | cadenceExpiry n =>
    simp only [exec, execCadenceExpiry] at next
    refine whileRunning_steady (fun x => ?_) next
    split
    · exact .refl x
    next e he =>
      split
      · split
        · exact (steady_takeCadence he _).trans steady_arbitrate
        · exact .refl x
      · exact .refl x
  | lineFree =>
    simp only [exec, execLineFree] at next
    refine whileRunning_steady (fun x => ?_) next
    split
    · exact .refl x
    · split
      · refine Steady.trans ?_ steady_arbitrate
        exact steady_of_frame rfl rfl rfl rfl rfl rfl rfl
      · exact .refl x
  | echo site sequence turnaround =>
    simp only [exec, execEcho] at next
    refine whileRunning_steady (fun x => ?_) next
    split
    · exact steady_huntAgain.trans steady_discardFrame
    · exact (steady_huntAgain.trans (steady_takeEcho _ _ _ _)).trans steady_arbitrate
  | probeTimeout i =>
    simp only [exec, execProbeTimeout] at next
    refine whileRunning_steady (fun x => ?_) next
    split
    · exact .refl x
    · split
      · split
        · exact (steady_takeTimeout i _ _).trans steady_arbitrate
        · exact .refl x
      · exact .refl x
  | deafenEnd n =>
    simp only [exec, execDeafenEnd] at next
    refine whileRunning_steady (fun x => ?_) next
    split
    · exact steady_modifySite (f := fun e => { e with deafenUntil := none }) fun e =>
        .of_eq rfl rfl rfl rfl
    · exact .refl x
  | receipt site channel tag verdict turnaround =>
    simp only [exec, execReceipt] at next
    refine whileRunning_steady (fun x => ?_) next
    split
    · exact steady_huntAgain.trans (steady_takeReceipt _ _ _ _ _ _)
    · exact steady_huntAgain.trans steady_discardFrame
  | inboundFrameDiscarded reason =>
    simp only [exec, execInboundFrameDiscarded] at next
    refine whileRunning_steady (fun x => ?_) next
    cases reason <;> exact steady_huntAgain.trans steady_discardFrame
  | computePoint c =>
    simp only [exec, execComputePoint] at next
    refine whileRunning_steady (fun x => ?_) next
    split
    · split
      · exact steady_planCandidate c
      · exact .refl x
    · exact .refl x
  | release tag n =>
    simp only [exec, execRelease] at next
    refine whileRunning_steady (fun x => steady_onEntry fun c b e hb => ?_) next
    split
    · refine Steady.trans (steady_replaceBatch ?_) steady_arbitrate
      exact hb
    · exact .refl x
  | withdrawal tag n =>
    simp only [exec, execWithdrawal] at next
    refine whileRunning_steady (fun x => steady_onEntry fun c b e hb => ?_) next
    split
    · exact (steady_withdrawEntry c b n).trans steady_arbitrate
    · exact .refl x
  | airTime tag =>
    simp only [exec, execAirTime] at next
    refine whileRunning_steady (fun x => ?_) next
    split
    · exact .refl x
    · split
      · exact (steady_goOnAir _ _).trans steady_arbitrate
      · exact .refl x
  | batchEnd tag =>
    simp only [exec, execBatchEnd] at next
    refine whileRunning_steady (fun x => ?_) next
    split
    · exact .refl x
    · split
      · split
        · exact (steady_endBatch _ _ _).trans steady_arbitrate
        · exact .refl x
      · exact .refl x
  | receiptDeadline tag n =>
    simp only [exec, execReceiptDeadline] at next
    refine whileRunning_steady (fun x => steady_onEntry fun c b e hb => ?_) next
    split
    · exact steady_replaceBatch hb
    · exact .refl x
  | abortDeadline tag n =>
    simp only [exec, execAbortDeadline] at next
    refine whileRunning_steady (fun x => steady_onEntry fun c b e hb => ?_) next
    split
    · exact ((steady_aborts _).trans (steady_completeCancel c _)).trans steady_arbitrate
    · exact .refl x
  | flagFound stamp =>
    simp only [exec, execFlagFound] at next
    refine whileRunning_steady (fun x => ?_) next
    split
    · exact steady_of_frame rfl rfl rfl rfl rfl rfl rfl
    · exact .refl x
  | _ => simp [Instr.ofTime, writesRow] at notTime notWrites

/-- A row of the time scale is steady but for the time scale. -/
theorem exec_steady_time {i : Instr} (ofTime : i.ofTime = true) (notWrites : writesRow i = false)
    (next : exec i s = .next t) : Steady { s with time := t.time } t := by
  have kept : Steady { s with time := s.time } s := .refl s
  have written (x : TimeScale) : Steady { s with time := x } { s with time := x } := .refl _
  have event {act : State → State} (next : whileRunning s act = .next t)
      (acts : Steady { s with time := (act s).time } (act s)) : Steady { s with time := t.time } t := by
    rcases whileRunning_cases next with rfl | rfl
    · exact kept
    · exact acts
  have command {identifier label : Byte} {act : State → Answer}
      (next : takeCommand identifier label s act = .next t)
      (block : ∀ x, Steady { x with time := (act x).state.time } (act x).state) :
      Steady { s with time := t.time } t := by
    rcases takeCommand_cases next with rfl | rfl
    · exact steady_endTransaction
    · rw [Answer.record_time]
      have ended : Steady { s with time := (act s.endTransaction).state.time }
          { s.endTransaction with time := (act s.endTransaction).state.time } :=
        steady_of_frame rfl rfl rfl rfl rfl rfl rfl
      exact (ended.trans (block _)).trans (steady_record _ _ _ _)
  cases i with
  | timeMark label second =>
    simp only [exec, execTimeMark] at next
    exact command next fun x => .refl _
  | readTime label =>
    simp only [exec, execReadTime] at next
    exact command next fun x => .refl _
  | setTimebase label f =>
    simp only [exec, execSetTimebase] at next
    exact command next fun x => .refl _
  | referenceLost =>
    simp only [exec, execReferenceLost] at next
    refine event next ?_
    split
    · rw [State.putTime_time]; exact steady_putTime _
    · exact kept
  | referenceReturned =>
    simp only [exec, execReferenceReturned] at next
    refine event next ?_
    split
    · exact kept
    · exact .refl _
  | edgeAccepted =>
    simp only [exec, execEdgeAccepted] at next
    refine event next ?_
    split
    · split
      · exact steady_takeEdge _ _
      · exact .refl _
    all_goals exact kept
  | glitch =>
    simp only [exec, execGlitch] at next
    refine event next ?_
    split
    · exact .refl _
    all_goals exact kept
  | slewAdjustment =>
    simp only [exec, execSlewAdjustment] at next
    refine event next ?_
    split
    · rw [State.period_time]; exact steady_period _
    · exact kept
  | missDeadline =>
    simp only [exec, execMissDeadline] at next
    refine event next ?_
    split
    · rw [State.putTime_time]; exact steady_putTime _
    · exact kept
  | holdoverElapsed =>
    simp only [exec, execHoldoverElapsed] at next
    refine event next ?_
    split
    · exact .refl _
    · exact kept
  | pulseBegins =>
    simp only [exec, execPulseBegins] at next
    refine event next ?_
    split
    · exact .refl _
    all_goals exact kept
  | ppsLowSample =>
    simp only [exec, execPpsLowSample] at next
    refine event next ?_
    split
    · exact .refl _
    all_goals exact kept
  | _ => simp [Instr.ofTime, writesRow] at ofTime notWrites

/-- Every row but those that write a record or a setting of their own is steady but for the time scale. -/
theorem exec_steady_but_time {i : Instr} (notWrites : writesRow i = false)
    (next : exec i s = .next t) : Steady { s with time := t.time } t := by
  cases ofTime : i.ofTime with
  | true => exact exec_steady_time ofTime notWrites next
  | false =>
    have steady := exec_steady ofTime notWrites next
    rw [steady.time]
    exact steady

end Rows

/-! ### The rows that write a record or a setting of their own -/

section Writers
variable {s t : State}

/-- ENROL refuses, or enrols a VACANT site (02, R31). -/
theorem answerEnrol_cases (site : Nat) (f : SiteFields) (s : State) :
    (∃ r, answerEnrol site f s = refuse r s) ∨ ∃ n : SiteNo, n.val = site ∧ s.enrolled n = none ∧
      answerEnrol site f s = ⟨doneIf (siteFieldsMoved f), .empty, s.enrol n f⟩ := by
  unfold answerEnrol
  split
  · exact .inl ⟨_, rfl⟩
  next n hn =>
    split
    · exact .inl ⟨_, rfl⟩
    · split
      · exact .inl ⟨_, rfl⟩
      next vacant => exact .inr ⟨n, (siteOf_eq_some.mp hn).symm, by simpa using vacant, rfl⟩

/-- An ENROL goes on steadily from the fresh record it writes (02, R32). -/
theorem steady_enrol (n : SiteNo) (f : SiteFields) :
    Steady (s.setSite n ⟨false, 0, some (Enrolled.fresh f)⟩) (s.enrol n f) :=
  (steady_takeCadence (by simp [State.enrolled]) _).trans steady_arbitrate

/-- DEFINE ZONE refuses, or writes a fresh record of two enrolled sites whose pair is free
(04, R70, R71). -/
theorem answerDefineZone_writes (zone : Nat) (f : ZoneDefinition) (s : State) :
    Steady s (answerDefineZone zone f s).state ∨ ∃ z a b p, a ≠ b ∧ s.zonable a = true ∧
      s.zonable b = true ∧ s.pairTaken a b = false ∧
      (answerDefineZone zone f s).state = s.setZone z (some (.fresh a b f.g f.budget p)) := by
  unfold answerDefineZone
  split
  next z a b p _ _ _ _ =>
    split
    · exact .inl (.refl s)
    next distinct =>
      split
      · exact .inl (.refl s)
      · split
        · exact .inl (.refl s)
        next usable =>
          split
          · exact .inl (.refl s)
          next free =>
            obtain ⟨usableA, usableB⟩ : s.zonable a = true ∧ s.zonable b = true := by
              simpa using usable
            exact .inr ⟨z, a, b, p, distinct, usableA, usableB, by simpa using free, rfl⟩
  · exact .inl (.refl s)

/-- SET CHANNEL refuses, or writes the settings of its channel (05, R84). -/
theorem answerSetChannel_writes (channel : Nat) (f : ChannelFields) (s : State) :
    Steady s (answerSetChannel channel f s).state ∨ ∃ c, Steady (s.modifyChannel c fun ch =>
      { ch with settings := applyChannelFields f (s.channel c).settings })
      (answerSetChannel channel f s).state := by
  unfold answerSetChannel
  split
  · exact .inl (.refl s)
  next c _ =>
    split
    · exact .inl (.refl s)
    · split
      · exact .inl (.refl s)
      · refine .inr ⟨c, ?_⟩
        unfold State.setChannelSettings
        dsimp only
        split
        · exact .refl _
        · exact steady_resetComputePoint c

/-- SUBMIT refuses, or puts a record of a free tag at the tail of a queue of fewer than 8
(05, R88, R89). -/
theorem answerSubmit_writes (q : Submission) (s : State) :
    Steady s (answerSubmit q s).state ∨ ∃ c b, b.tag = q.tag ∧ s.findBatch q.tag = none ∧
      (s.channel c).queue.length < 8 ∧
      Steady (s.modifyChannel c fun ch => { ch with queue := ch.queue ++ [b] })
        (answerSubmit q s).state := by
  unfold answerSubmit
  split
  next c mode _ _ =>
    split
    · exact .inl (.refl s)
    · split
      · exact .inl (.refl s)
      next room =>
        split
        · exact .inl (.refl s)
        next free =>
          refine .inr ⟨c, .fresh q mode s.submits (batchDuration (s.channel c).settings q.spans)
            (s.channel c).tailEnd, rfl, by simpa using free, not_le.mp room, ?_⟩
          unfold State.submit
          dsimp only
          split
          · refine Steady.trans ?_ (steady_newCandidate c)
            exact steady_of_frame rfl rfl rfl rfl rfl rfl rfl
          · exact steady_of_frame rfl rfl rfl rfl rfl rfl rfl
  · exact .inl (.refl s)

/-- A law that steady changes keep, and that a command's block keeps, the command keeps. -/
theorem takeCommand_keeps {P : State → Prop} (steady : ∀ {x y}, Steady x y → P x → P y)
    {identifier label : Byte} {act : State → Answer} (block : ∀ x, P x → P (act x).state)
    (next : takeCommand identifier label s act = .next t) (h : P s) : P t := by
  rcases takeCommand_cases next with rfl | rfl
  · exact steady steady_endTransaction h
  · exact steady (steady_record _ _ _ _) (block _ (steady steady_endTransaction h))

end Writers

end Sys2Proof.Machine
end

