-- ==== Sys2Proof/Proofs/Invariants.lean ====
section
/-! PROOFS. The laws that every step keeps, each from what steady changes keep and from the few rows that
write a record or a setting of their own (01, 02, 03, 04, 05). -/

namespace Sys2Proof.Machine

/-! ### A step -/

/-- A step takes a row on the state with some rest of the queue, or a plain period passes, or RESET holds
the part (01, R2, R3). -/
theorem step_cases {s t : State} (next : step s = .next t) :
    (∃ i p n, exec i { s with pending := p, free := n } = .next t) ∨ t = s ∨ t = s.plainPeriod := by
  unfold step at next
  split at next
  next i rest _ => exact .inl ⟨i, rest, s.free, next⟩
  · unfold idle at next
    split at next
    next i s₀ due =>
      obtain ⟨n, rfl⟩ : ∃ n, s₀ = { s with free := n } := by
        unfold State.dueRow at due
        split at due
        · cases due
        · split at due <;> cases due
          · exact ⟨s.free, rfl⟩
          · exact ⟨s.free + 1, rfl⟩
      exact .inl ⟨i, s.pending, n, next⟩
    · split at next
      next i _ => exact .inl ⟨i, s.pending, s.free, next⟩
      · obtain rfl := Host.Outcome.next.inj next
        unfold State.idlePeriod
        split
        · exact .inr (.inl rfl)
        · exact .inr (.inr rfl)

/-- A law that rows and plain periods keep, and that does not read the queue of rows and the count of free
values, every step keeps. -/
theorem step_keeps {P : State → Prop} (row : ∀ {i s t}, exec i s = .next t → P s → P t)
    (queue : ∀ {s} p n, P s → P { s with pending := p, free := n })
    (period : ∀ {s}, P s → P s.plainPeriod) {s t : State} (h : P s) (next : step s = .next t) : P t := by
  rcases step_cases next with ⟨i, p, n, taken⟩ | rfl | rfl
  · exact row taken (queue p n h)
  · exact h
  · exact period h

/-! ### The time scale and the queue of rows (01, R2, R15) -/

section Clock
variable {s t : State}

/-- A law that steady changes keep, and that does not read the time scale, the rows that write no record
or setting keep. -/
theorem exec_keeps {P : State → Prop} (steady : ∀ {x y}, Steady x y → P x → P y)
    (time : ∀ {x} r, P x → P { x with time := r }) {i : Instr} (notWrites : writesRow i = false)
    (next : exec i s = .next t) (h : P s) : P t :=
  steady (exec_steady_but_time notWrites next) (time _ h)

theorem Steady.trans_clock {x : State} (h : Steady x t) (time : x.time = s.time)
    (pending : x.pending = s.pending) : t.time = s.time ∧ t.pending = s.pending :=
  ⟨h.time.trans time, h.pending.trans pending⟩

/-- The commands that write a record or a setting leave the time scale and the queue of rows. -/
theorem takeCommand_clock {identifier label : Byte} {act : State → Answer}
    (block : ∀ x, (act x).state.time = x.time ∧ (act x).state.pending = x.pending)
    (next : takeCommand identifier label s act = .next t) :
    t.time = s.time ∧ t.pending = s.pending := by
  refine takeCommand_keeps (P := fun x => x.time = s.time ∧ x.pending = s.pending)
    (fun steady h => steady.trans_clock h.1 h.2) (fun x h => ?_) next ⟨rfl, rfl⟩
  exact ⟨(block x).1.trans h.1, (block x).2.trans h.2⟩

/-- Settles O18: every row is steady but for the time scale, or writes one record or setting of its own. -/
theorem onlyTimeRowsChangeTheTimeScale : Obligations.OnlyTimeRowsChangeTheTimeScale := by
  intro i s t next
  cases notWrites : writesRow i with
  | false =>
    refine ⟨fun notTime => (exec_steady notTime notWrites next).time, ?_⟩
    exact (exec_steady_but_time notWrites next).pending
  | true =>
    cases i with
    | powerOn =>
      obtain rfl := Host.Outcome.next.inj next
      exact ⟨fun ofTime => by simp [Instr.ofTime] at ofTime, rfl⟩
    | reset =>
      obtain rfl := Host.Outcome.next.inj next
      exact ⟨fun ofTime => by simp [Instr.ofTime] at ofTime, rfl⟩
    | enrol label site f =>
      refine (takeCommand_clock (fun x => ?_) next).imp (fun h _ => h) id
      rcases answerEnrol_cases site f x with ⟨r, refused⟩ | ⟨n, -, -, enrolled⟩
      · rw [refused]; exact ⟨rfl, rfl⟩
      · rw [enrolled]; exact ⟨(steady_enrol n f).time, (steady_enrol n f).pending⟩
    | setMeasurement label f =>
      simp only [exec, execSetMeasurement] at next
      exact (takeCommand_clock (fun x => ⟨rfl, rfl⟩) next).imp (fun h _ => h) id
    | defineZone label z f =>
      refine (takeCommand_clock (fun x => ?_) next).imp (fun h _ => h) id
      rcases answerDefineZone_writes z f x with steady | ⟨z, a, b, p, -, -, -, -, wrote⟩
      · exact ⟨steady.time, steady.pending⟩
      · rw [wrote]; exact ⟨rfl, rfl⟩
    | setChannel label c f =>
      refine (takeCommand_clock (fun x => ?_) next).imp (fun h _ => h) id
      rcases answerSetChannel_writes c f x with steady | ⟨c, steady⟩
      · exact ⟨steady.time, steady.pending⟩
      · exact ⟨steady.time, steady.pending⟩
    | submit label q =>
      refine (takeCommand_clock (fun x => ?_) next).imp (fun h _ => h) id
      rcases answerSubmit_writes q x with steady | ⟨c, b, -, -, -, steady⟩
      · exact ⟨steady.time, steady.pending⟩
      · exact ⟨steady.time, steady.pending⟩
    | _ => simp [writesRow] at notWrites

end Clock

/-! ### The moves of a site record (02, R28) -/

section Moves
variable {s t : State}

/-- An enrolled record that is not RETIRING is not vacated (02, R40). -/
theorem State.enrolled_checkVacate {n : SiteNo} {e : Enrolled} (he : s.enrolled n = some e)
    (h : e.phase ≠ .retiring) (k : SiteNo) : (s.checkVacate k).enrolled n = some e := by
  rcases s.checkVacate_cases k with ⟨retiring, -, vacated⟩ | ⟨-, stays⟩
  · have other : n ≠ k := by
      rintro rfl
      simp [State.isRetiring, he, h] at retiring
    rw [vacated, State.enrolled_vacate, if_neg other, he]
  · rw [stays, he]

theorem State.enrolled_checkVacateAll {n : SiteNo} {e : Enrolled} (he : s.enrolled n = some e)
    (h : e.phase ≠ .retiring) (ks : List SiteNo) : (s.checkVacateAll ks).enrolled n = some e := by
  unfold State.checkVacateAll
  induction ks generalizing s with
  | nil => exact he
  | cons k ks ih => exact ih (State.enrolled_checkVacate he h k)

theorem State.enrolled_terminate {n : SiteNo} {e : Enrolled} (he : s.enrolled n = some e)
    (h : e.phase ≠ .retiring) (c : ChannelNo) (b : Batch) :
    (s.terminate c b).enrolled n = some e :=
  State.enrolled_checkVacateAll (s := s.modifyChannel c fun ch => ch.terminate b) he h _

theorem State.enrolled_completeCancel {n : SiteNo} {e : Enrolled} (he : s.enrolled n = some e)
    (h : e.phase ≠ .retiring) (c : ChannelNo) (b : Batch) :
    (s.completeCancel c b).enrolled n = some e := by
  rcases s.completeCancel_cases c b with ⟨-, -, -, next⟩ | ⟨-, -, -, next⟩ | ⟨-, next⟩ <;> rw [next]
  · exact he
  · exact State.enrolled_terminate he h c _
  · exact he

/-- All that a departure does to an enrolled record that is not RETIRING is to count a probe of it sent
(03, R47; 07, R132). -/
theorem State.enrolled_arbitrate {n : SiteNo} {e : Enrolled} (he : s.enrolled n = some e)
    (h : e.phase ≠ .retiring) : s.arbitrate.enrolled n = some e ∨
      ∃ burst, s.arbitrate.enrolled n = some (e.probeSent burst) := by
  rcases s.arbitrate_cases with stays | ⟨c, -, -, departs⟩
  · exact .inl (by rw [stays, he])
  rw [departs]
  cases c with
  | abort r =>
    left
    unfold State.depart State.departAbort
    dsimp only
    split
    · refine State.enrolled_completeCancel ?_ h _ _
      exact he
    · exact he
  | order r =>
    left
    have sites := (s.departOrder_frame r).2.2.1
    have same : (s.departOrder r).enrolled n = s.enrolled n := by
      simp [State.enrolled, State.site, sites]
    exact same.trans he
  | probe i =>
    change (s.departProbe i).enrolled n = some e ∨
      ∃ burst, (s.departProbe i).enrolled n = some (e.probeSent burst)
    unfold State.departProbe
    split
    next p _ =>
      dsimp only
      rw [State.enrolled_modifySite]
      split
      next hn => exact .inr ⟨p.burst, by subst hn; exact congrArg (Option.map _) he⟩
      · exact .inl he
    · exact .inl he

theorem State.enrolled_takeCadence (n k : SiteNo) (e : Enrolled) (x : HubTime) :
    (s.takeCadence n e x).enrolled k =
      if k = n then some { e with cadence := some (x + e.interval) } else s.enrolled k := by
  have written := s.enrolled_setSite n k ((s.site n).put { e with cadence := some (x + e.interval) })
  unfold State.takeCadence
  dsimp only
  split
  · exact written
  · rw [State.enrolled, State.site, State.requestProbe_sites]
    exact written

/-- The record that ENROL leaves is SETTLING (02, R32). -/
theorem State.enrol_settling (n : SiteNo) (f : SiteFields) :
    ∃ e, (s.enrol n f).enrolled n = some e ∧ e.phase = .settling := by
  have built := State.enrolled_takeCadence
    (s := s.setSite n ⟨false, 0, some (Enrolled.fresh f)⟩) n n (Enrolled.fresh f) s.now
  rw [if_pos rfl] at built
  rcases State.enrolled_arbitrate built (by simp [Enrolled.fresh]) with h | ⟨burst, h⟩
  · exact ⟨_, h, rfl⟩
  · exact ⟨_, h, rfl⟩

/-- The records of `t` come from those of `s` as R28 allows, an ENROL apart. -/
def RecordsMove (s t : State) : Prop :=
  ∀ n e', t.enrolled n = some e' →
    ∃ e, s.enrolled n = some e ∧ (e.phase = .retiring → e'.phase = .retiring)

theorem Steady.recordsMove (h : Steady s t) : RecordsMove s t := by
  intro n e' he'
  obtain ⟨e, he, moves⟩ := h.sites n e' he'
  exact ⟨e, he, moves.retiring⟩

/-- No row but ENROL gives a site a record (02, R28). -/
theorem exec_recordsMove {i : Instr} (next : exec i s = .next t)
    (notEnrol : ∀ label n f, i ≠ .enrol label n f) : RecordsMove s t := by
  cases notWrites : writesRow i with
  | false => exact (exec_steady_but_time notWrites next).recordsMove
  | true =>
    have command {identifier label : Byte} {act : State → Answer}
        (next : takeCommand identifier label s act = .next t)
        (block : ∀ x, RecordsMove x (act x).state) : RecordsMove s t := by
      rcases takeCommand_cases next with rfl | rfl
      · exact steady_endTransaction.recordsMove
      · exact block s.endTransaction
    have emptied : RecordsMove s s.powerOn := fun n e' he' => by
      simp [State.enrolled, State.site, State.powerOn, State.reset, SiteRecord.reset] at he'
    cases i with
    | powerOn =>
      obtain rfl := Host.Outcome.next.inj next
      exact emptied
    | reset =>
      obtain rfl := Host.Outcome.next.inj next
      exact emptied
    | enrol label site f => exact absurd rfl (notEnrol label site f)
    | setMeasurement label f =>
      simp only [exec, execSetMeasurement] at next
      exact command next fun x => (Steady.refl x).recordsMove
    | defineZone label z f =>
      refine command next fun x => ?_
      rcases answerDefineZone_writes z f x with steady | ⟨z, a, b, p, -, -, -, -, wrote⟩
      · exact steady.recordsMove
      · rw [wrote]; exact (Steady.refl x).recordsMove
    | setChannel label c f =>
      refine command next fun x => ?_
      rcases answerSetChannel_writes c f x with steady | ⟨c, steady⟩
      · exact steady.recordsMove
      · exact steady.recordsMove
    | submit label q =>
      refine command next fun x => ?_
      rcases answerSubmit_writes q x with steady | ⟨c, b, -, -, -, steady⟩
      · exact steady.recordsMove
      · exact steady.recordsMove
    | _ => simp [writesRow] at notWrites

/-- ENROL gives a record to the site it names alone, in SETTLING (02, R28, R31). -/
theorem exec_enrol_cases {label : Byte} {site : Nat} {f : SiteFields}
    (next : exec (.enrol label site f) s = .next t) :
    RecordsMove s t ∨ ∃ n : SiteNo, n.val = site ∧ s.enrolled n = none ∧
      (∃ e, t.enrolled n = some e ∧ e.phase = .settling) ∧
      ∀ k e', k ≠ n → t.enrolled k = some e' →
        ∃ e, s.enrolled k = some e ∧ (e.phase = .retiring → e'.phase = .retiring) := by
  rcases takeCommand_cases next with rfl | rfl
  · exact .inl steady_endTransaction.recordsMove
  rcases answerEnrol_cases site f s.endTransaction with ⟨r, refused⟩ | ⟨n, hn, vacant, enrolled⟩
  · rw [refused]
    exact .inl steady_endTransaction.recordsMove
  · rw [enrolled]
    refine .inr ⟨n, hn, vacant, State.enrol_settling n f, fun k e' other he' => ?_⟩
    obtain ⟨e, he, moves⟩ := (steady_enrol n f).sites k e' he'
    rw [State.enrolled_setSite, if_neg other] at he
    exact ⟨e, he, moves.retiring⟩

/-- Settles O25: no row but ENROL gives a site a record, and none takes one out of RETIRING. -/
theorem retiringAndVacantRecordsMoveOnlyAsStated :
    Obligations.RetiringAndVacantRecordsMoveOnlyAsStated := by
  intro i s t n next
  have of_moves (moves : ∀ e', t.enrolled n = some e' →
      ∃ e, s.enrolled n = some e ∧ (e.phase = .retiring → e'.phase = .retiring)) :
      (∀ e, s.enrolled n = some e → e.phase = .retiring →
        t.enrolled n = none ∨ ∃ e', t.enrolled n = some e' ∧ e'.phase = .retiring) ∧
      (s.enrolled n = none → t.enrolled n = none) := by
    cases ht : t.enrolled n with
    | none => exact ⟨fun _ _ _ => .inl rfl, fun _ => rfl⟩
    | some e' =>
      obtain ⟨e, he, retiring⟩ := moves e' ht
      refine ⟨fun x hx h => .inr ⟨e', rfl, retiring ?_⟩, fun vacant => ?_⟩
      · obtain rfl : e = x := by simpa [he] using hx
        exact h
      · simp [he] at vacant
  by_cases enrols : ∃ label k f, i = .enrol label k f
  · obtain ⟨label, k, f, rfl⟩ := enrols
    rcases exec_enrol_cases next with moves | ⟨m, rfl, vacant, settling, others⟩
    · obtain ⟨a, b⟩ := of_moves fun e' => moves n e'
      exact ⟨a, fun h => .inl (b h)⟩
    · by_cases same : n = m
      · subst same
        exact ⟨fun e he => by simp [vacant] at he, fun _ => .inr ⟨⟨label, f, rfl⟩, settling⟩⟩
      · obtain ⟨a, b⟩ := of_moves fun e' => others n e' same
        exact ⟨a, fun h => .inl (b h)⟩
  · push Not at enrols
    obtain ⟨a, b⟩ := of_moves fun e' => exec_recordsMove next enrols n e'
    exact ⟨a, fun h => .inl (b h)⟩

end Moves
end Sys2Proof.Machine
end

