-- ==== Sys2Proof/Proofs/Laws.lean ====
section
/-! PROOFS. The laws over the whole part that every step keeps: site records and settings in their ranges,
zones and queues lawful (02, 03, 04, 05). Each follows from what steady changes keep and from the six rows
that write something of their own. -/

namespace Sys2Proof.Machine

/-! ### Reading a whole table -/

/-- Some record of a table passes a test. -/
theorem vector_any {α : Type} {n : Nat} (v : Vector α n) (p : α → Bool) :
    v.toList.any p = true ↔ ∃ i : Fin n, p v[i] = true := by
  rw [List.any_eq_true]
  constructor
  · rintro ⟨x, hx, h⟩
    obtain ⟨i, hi, rfl⟩ := List.getElem_of_mem hx
    exact ⟨⟨i, by simpa using hi⟩, by simpa using h⟩
  · rintro ⟨i, h⟩
    exact ⟨v[i], by simp, h⟩

theorem State.pairTaken_iff (s : State) (a b : SiteNo) :
    s.pairTaken a b = true ↔ ∃ z q, s.zone z = some q ∧ q.pairs a b = true := by
  unfold State.pairTaken
  rw [vector_any]
  simp [State.zone, Option.any_eq_true]

/-- A tag is free exactly when no queue carries it (05, R87). -/
theorem State.findBatch_eq_none (s : State) (tag : Nat) :
    s.findBatch tag = none ↔ ∀ c, tag ∉ (s.channel c).queue.map Batch.tag := by
  simp [State.findBatch, Channel.find, List.findSome?_eq_none_iff]

/-! ### What a row may do to a law -/

/-- A law of the part that steady changes and the rows that write something of their own keep, and that
does not read the time scale, the queue of rows or the count of free values. -/
structure KeptByRows (P : State → Prop) : Prop where
  steady : ∀ {s t}, Steady s t → P s → P t
  time : ∀ {s} x, P s → P { s with time := x }
  queue : ∀ {s} p n, P s → P { s with pending := p, free := n }
  reset : ∀ port free pending, P { State.reset with port := port, free := free, pending := pending }
  enrol : ∀ {s n} f, s.enrolled n = none → P s →
    P (s.setSite n ⟨false, 0, some (Enrolled.fresh f)⟩)
  measure : ∀ {s} f, P s → P { s with meas := s.meas.applyFields f }
  zone : ∀ {s} z a b g budget p, a ≠ b → s.zonable a = true → s.zonable b = true →
    s.pairTaken a b = false → P s → P (s.setZone z (some (.fresh a b g budget p)))
  settings : ∀ {s} c f, P s → P (s.modifyChannel c fun ch =>
    { ch with settings := applyChannelFields f (s.channel c).settings })
  submit : ∀ {s} c b, s.findBatch b.tag = none → (s.channel c).queue.length < 8 → P s →
    P (s.modifyChannel c fun ch => { ch with queue := ch.queue ++ [b] })

namespace KeptByRows
variable {P : State → Prop}

theorem exec (law : KeptByRows P) {i : Instr} {s t : State} (next : exec i s = .next t) (h : P s) :
    P t := by
  cases notWrites : writesRow i with
  | false => exact law.steady (exec_steady_but_time notWrites next) (law.time _ h)
  | true =>
    have command {identifier label : Byte} {act : State → Answer} (block : ∀ x, P x → P (act x).state)
        (next : takeCommand identifier label s act = .next t) : P t :=
      takeCommand_keeps law.steady block next h
    cases i with
    | powerOn =>
      obtain rfl := Host.Outcome.next.inj next
      exact law.reset _ _ _
    | reset =>
      obtain rfl := Host.Outcome.next.inj next
      exact law.reset _ _ _
    | enrol label site f =>
      refine command (fun x hx => ?_) next
      rcases answerEnrol_cases site f x with ⟨r, refused⟩ | ⟨n, -, vacant, enrolled⟩
      · rw [refused]; exact hx
      · rw [enrolled]; exact law.steady (steady_enrol n f) (law.enrol f vacant hx)
    | setMeasurement label f =>
      simp only [Machine.exec, execSetMeasurement] at next
      exact command (fun x hx => law.measure f hx) next
    | defineZone label z f =>
      refine command (fun x hx => ?_) next
      rcases answerDefineZone_writes z f x with steady | ⟨z, a, b, p, distinct, ha, hb, free, wrote⟩
      · exact law.steady steady hx
      · rw [wrote]; exact law.zone z a b _ _ p distinct ha hb free hx
    | setChannel label c f =>
      refine command (fun x hx => ?_) next
      rcases answerSetChannel_writes c f x with steady | ⟨c, steady⟩
      · exact law.steady steady hx
      · exact law.steady steady (law.settings c f hx)
    | submit label q =>
      refine command (fun x hx => ?_) next
      rcases answerSubmit_writes q x with steady | ⟨c, b, tag, free, room, steady⟩
      · exact law.steady steady hx
      · exact law.steady steady (law.submit c b (tag ▸ free) room hx)
    | _ => simp [writesRow] at notWrites

theorem step (law : KeptByRows P) {s t : State} (h : P s) (next : step s = .next t) : P t :=
  step_keeps law.exec law.queue (fun h => law.steady (steady_period _) (law.time _ h)) h next

end KeptByRows

/-! ### Site records in their ranges (02, R22, R24, R25) -/

theorem SiteConfig.default_inRange : SiteConfig.default.InRange := by
  constructor <;> simp [SiteConfig.default] <;> decide

/-- A fresh record is in its ranges: its fields are clamped defaults (02, R22, R32). -/
theorem Enrolled.fresh_inRange (f : SiteFields) : (Enrolled.fresh f).InRange := by
  have config := applySiteFields_inRange f SiteConfig.default_inRange
  have floor : (applySiteFields f .default).gateFloor < 2 ^ 24 :=
    lt_of_le_of_lt config.gateFloor.2 (by decide)
  refine ⟨config, ⟨fun v hv => (config.seed v hv).2, ⟨?_, fun absent => ?_⟩, ?_, ?_, ?_, ?_⟩, ?_⟩
  · dsimp only [fresh, Estimate.fresh]
    split
    · exact floor
    · decide
  · have none : (applySiteFields f .default).seed = none := absent
    simp [fresh, Estimate.fresh, none]
  all_goals simp [fresh, Estimate.fresh]

theorem sitesInRange_kept : KeptByRows State.SitesInRange where
  steady := fun {s t} steady h => by
    rw [State.sitesInRange_iff] at h ⊢
    intro n e' he'
    obtain ⟨e, he, moves⟩ := steady.sites n e' he'
    exact moves.inRange (h n e he)
  time _ h := h
  queue _ _ h := h
  reset _ _ _ n e he := by simp [State.enrolled, State.site, State.reset, SiteRecord.reset] at he
  enrol := fun {s n} f _ h => by
    rw [State.sitesInRange_iff] at h ⊢
    intro k e he
    rw [State.enrolled_setSite] at he
    split at he
    · obtain rfl := Option.some.inj he
      exact Enrolled.fresh_inRange f
    · exact h k e he
  measure _ h := h
  zone _ _ _ _ _ _ _ _ _ _ h := h
  settings _ _ h := h
  submit _ _ _ _ h := h

/-- Settles O58. -/
theorem stepKeepsSitesInRange : Obligations.StepKeepsSitesInRange :=
  fun _ _ => sitesInRange_kept.step

/-! ### Zones lawful (04, R68, R69; 02, R29) -/

theorem Zone.fresh_inRange {a b : SiteNo} (distinct : a ≠ b) (g : Int) (budget : Nat) (p : Policy) :
    (Zone.fresh a b g budget p).InRange :=
  ⟨distinct, clampOffset_range g, budgetRange.clamp_range budget (by decide),
    Nat.zero_le _, Nat.zero_le _⟩

theorem Zone.pairs_comm (z q : Zone) : z.pairs q.siteA q.siteB = q.pairs z.siteA z.siteB := by
  simp only [Zone.pairs, Bool.beq_comm (a := q.siteA), Bool.beq_comm (a := q.siteB)]
  ac_rfl

theorem Zone.names_iff (z : Zone) (n : SiteNo) : z.names n = true ↔ z.siteA = n ∨ z.siteB = n := by
  simp [Zone.names]

theorem State.zone_setZone (s : State) (z y : ZoneNo) (r : Option Zone) :
    (s.setZone z r).zone y = if y = z then r else s.zone y := by
  split
  next h => rw [h, State.zone_setZone_self]
  next h => rw [State.zone_setZone_of_ne s r h]

theorem State.enrolled_of_zonable {s : State} {n : SiteNo} (h : s.zonable n = true) :
    (s.enrolled n).isSome = true := by
  unfold State.zonable at h
  obtain ⟨e, he, -⟩ := Option.any_eq_true _ _ |>.mp h
  simp [he]

theorem zonesLawful_kept : KeptByRows State.ZonesLawful where
  steady := fun {s t} steady h => by
    refine ⟨fun z r hr => ?_, fun z y r q hr hq pair => ?_, fun z r hr => ?_⟩
    · obtain ⟨r₀, hr₀, -, -, inRange⟩ := steady.zones z r hr
      exact inRange (h.inRange z r₀ hr₀)
    · obtain ⟨r₀, hr₀, a, b, -⟩ := steady.zones z r hr
      obtain ⟨q₀, hq₀, a', b', -⟩ := steady.zones y q hq
      exact h.pairs z y r₀ q₀ hr₀ hq₀ (by simpa only [Zone.pairs, a, b, a', b'] using pair)
    · obtain ⟨r₀, hr₀, a, b, -⟩ := steady.zones z r hr
      have enrolled := h.enrolled z r₀ hr₀
      rw [← a, ← b] at enrolled
      exact ⟨steady.named z r _ hr ((r.names_iff _).mpr (.inl rfl)) enrolled.1,
        steady.named z r _ hr ((r.names_iff _).mpr (.inr rfl)) enrolled.2⟩
  time _ h := ⟨h.inRange, h.pairs, h.enrolled⟩
  queue _ _ h := ⟨h.inRange, h.pairs, h.enrolled⟩
  reset _ _ _ := by constructor <;> intros <;> simp_all [State.zone, State.reset]
  enrol := fun {s n} f _ h => by
    have kept (k : SiteNo) (he : (s.enrolled k).isSome = true) :
        ((s.setSite n ⟨false, 0, some (Enrolled.fresh f)⟩).enrolled k).isSome = true := by
      rw [State.enrolled_setSite]
      split
      · rfl
      · exact he
    exact ⟨h.inRange, h.pairs, fun z r hr => (h.enrolled z r hr).imp (kept _) (kept _)⟩
  measure _ h := ⟨h.inRange, h.pairs, h.enrolled⟩
  zone := fun {s} z a b g budget p distinct usableA usableB free h => by
    have new (y : ZoneNo) (q : Zone) (hq : s.zone y = some q) : q.pairs a b = false := by
      rw [Bool.eq_false_iff]
      intro pair
      have taken := (s.pairTaken_iff a b).mpr ⟨y, q, hq, pair⟩
      simp [free] at taken
    refine ⟨fun y r hr => ?_, fun y w r q hr hq pair => ?_, fun y r hr => ?_⟩
    · rw [State.zone_setZone] at hr
      split at hr
      · obtain rfl := Option.some.inj hr
        exact Zone.fresh_inRange distinct g budget p
      · exact h.inRange y r hr
    · rw [State.zone_setZone] at hr hq
      split at hr <;> split at hq
      next hy hw => rw [hy, hw]
      · obtain rfl := Option.some.inj hr
        rw [Zone.pairs_comm] at pair
        simp [Zone.fresh, new w q hq] at pair
      · obtain rfl := Option.some.inj hq
        simp [Zone.fresh, new y r hr] at pair
      · exact h.pairs y w r q hr hq pair
    · rw [State.zone_setZone] at hr
      split at hr
      · obtain rfl := Option.some.inj hr
        exact ⟨State.enrolled_of_zonable usableA, State.enrolled_of_zonable usableB⟩
      · exact h.enrolled y r hr
  settings _ _ h := ⟨h.inRange, h.pairs, h.enrolled⟩
  submit _ _ _ _ h := ⟨h.inRange, h.pairs, h.enrolled⟩

/-! ### Queues lawful (05, R87, R88) -/

theorem State.tags_sublist {s t : State}
    (h : ∀ c, ((t.channel c).queue.map Batch.tag).Sublist ((s.channel c).queue.map Batch.tag)) :
    t.tags.Sublist s.tags := by
  unfold State.tags
  generalize List.finRange 4 = l
  induction l with
  | nil => exact .refl _
  | cons c l ih => exact (h c).append ih

theorem State.tags_nodup_iff (s : State) : s.tags.Nodup ↔
    (∀ c, ((s.channel c).queue.map Batch.tag).Nodup) ∧
    ∀ c d, c ≠ d → ((s.channel c).queue.map Batch.tag).Disjoint ((s.channel d).queue.map Batch.tag) := by
  unfold State.tags
  rw [List.nodup_flatMap]
  refine and_congr ⟨fun h c => h c (List.mem_finRange c), fun h c _ => h c⟩ ⟨fun h c d ne => ?_, fun h => ?_⟩
  · have sym : Std.Symm (Function.onFun List.Disjoint fun c : ChannelNo =>
        (s.channel c).queue.map Batch.tag) := ⟨fun _ _ h => h.symm⟩
    exact h.forall (List.mem_finRange c) (List.mem_finRange d) ne
  · exact (List.nodup_finRange 4).imp (h _ _)

theorem queuesLawful_kept : KeptByRows State.QueuesLawful where
  steady := fun {s t} steady h =>
    ⟨fun c => by simpa using ((steady.tags c).length_le).trans (by simpa using h.length c),
      h.tags.sublist (State.tags_sublist steady.tags)⟩
  time _ h := ⟨h.length, h.tags⟩
  queue _ _ h := ⟨h.length, h.tags⟩
  reset port free pending := by
    refine ⟨?_, (State.tags_nodup_iff _).mpr ?_⟩ <;> simp [State.channel, State.reset, Channel.reset]
  enrol _ _ h := ⟨h.length, h.tags⟩
  measure _ h := ⟨h.length, h.tags⟩
  zone _ _ _ _ _ _ _ _ _ _ h := ⟨h.length, h.tags⟩
  settings := fun {s} c f h => by
    have queue (d : ChannelNo) : ((s.modifyChannel c fun ch =>
        { ch with settings := applyChannelFields f (s.channel c).settings }).channel d).queue =
          (s.channel d).queue := by
      rw [State.channel_modifyChannel]
      split
      next h => rw [h]
      · rfl
    exact ⟨fun d => (queue d).symm ▸ h.length d,
      h.tags.sublist (State.tags_sublist fun d => by rw [queue])⟩
  submit := fun {s} c b free room h => by
    rw [State.findBatch_eq_none] at free
    obtain ⟨nodup, apart⟩ := (State.tags_nodup_iff s).mp h.tags
    refine ⟨fun d => ?_, (State.tags_nodup_iff _).mpr ⟨fun d => ?_, fun d e ne => ?_⟩⟩
    · rw [State.channel_modifyChannel]
      split
      · simpa using room
      · exact h.length d
    · rw [State.channel_modifyChannel]
      split
      · rw [List.map_append, List.nodup_append']
        exact ⟨nodup c, List.nodup_singleton _, by simpa using free c⟩
      · exact nodup d
    · rw [State.channel_modifyChannel, State.channel_modifyChannel]
      split <;> split
      next hd he => exact absurd (hd.trans he.symm) ne
      next hd he =>
        rw [List.map_append, List.disjoint_append_left]
        exact ⟨hd ▸ apart d e ne, by simpa using free e⟩
      next hd he =>
        rw [List.map_append, List.disjoint_append_right]
        exact ⟨he ▸ apart d e ne, by simpa using free d⟩
      next => exact apart d e ne

/-- Settles O59. -/
theorem stepKeepsTheTablesLawful : Obligations.StepKeepsTheTablesLawful :=
  ⟨fun _ _ => zonesLawful_kept.step, fun _ _ => queuesLawful_kept.step⟩

/-! ### Settings in their ranges (01, R20; 03, R64; 05, R84; 07, R143) -/

/-- The settings of the other blocks than the time scale, and the error count, in their ranges. -/
structure State.BlocksInRange (s : State) : Prop where
  meas : s.meas.InRange
  channels : ∀ c, (s.channel c).settings.InRange
  errors : s.highway.errors ≤ 65535

theorem applyChannelFields_inRange (f : ChannelFields) {g : ChannelSettings} (h : g.InRange) :
    (applyChannelFields f g).InRange where
  period0 := periodRange.field_range _ _ (by decide) h.period0
  period1 := periodRange.field_range _ _ (by decide) h.period1
  guardTime := guardRange.field_range _ _ (by decide) h.guardTime
  computeLead := leadRange.field_range _ _ (by decide) h.computeLead
  dispatch := dispatchRange.field_range _ _ (by decide) h.dispatch
  slipLimit := slipRange.field_range _ _ (by decide) h.slipLimit
  gridPeriod := by
    dsimp only [applyChannelFields]
    split
    · exact clampGrid_range _
    · exact h.gridPeriod
  gridOrigin := clampOrigin_range _ _

theorem Measurement.applyFields_inRange (f : MeasurementFields) {m : Measurement} (h : m.InRange) :
    (m.applyFields f).InRange where
  settleCount := settleRange.field_range _ _ (by decide) h.settleCount
  staleLimit := staleRange.field_range _ _ (by decide) h.staleLimit
  stepConfirm := stepRange.field_range _ _ (by decide) h.stepConfirm
  quietGap := quietRange.field_range _ _ (by decide) h.quietGap

theorem ChannelSettings.reset_inRange : ChannelSettings.reset.InRange := by
  constructor <;> decide

theorem Measurement.reset_inRange : Measurement.reset.InRange := by
  constructor <;> decide

theorem blocksInRange_kept : KeptByRows State.BlocksInRange where
  steady := fun {s t} steady h => by
    obtain ⟨settle, stale, confirm, gap⟩ := steady.measured
    refine ⟨⟨?_, ?_, ?_, ?_⟩, fun c => steady.settings c ▸ h.channels c, steady.errors h.errors⟩
    · rw [settle]; exact h.meas.settleCount
    · rw [stale]; exact h.meas.staleLimit
    · rw [confirm]; exact h.meas.stepConfirm
    · rw [gap]; exact h.meas.quietGap
  time _ h := ⟨h.meas, h.channels, h.errors⟩
  queue _ _ h := ⟨h.meas, h.channels, h.errors⟩
  reset _ _ _ := ⟨Measurement.reset_inRange,
    fun c => by simpa [State.channel, State.reset, Channel.reset] using ChannelSettings.reset_inRange,
    Nat.zero_le _⟩
  enrol _ _ h := ⟨h.meas, h.channels, h.errors⟩
  measure f h := ⟨Measurement.applyFields_inRange f h.meas, h.channels, h.errors⟩
  zone _ _ _ _ _ _ _ _ _ _ h := ⟨h.meas, h.channels, h.errors⟩
  settings := fun {s} c f h => by
    refine ⟨h.meas, fun d => ?_, h.errors⟩
    rw [State.channel_modifyChannel]
    split
    · exact applyChannelFields_inRange f (h.channels c)
    · exact h.channels d
  submit := fun {s} c b _ _ h => by
    refine ⟨h.meas, fun d => ?_, h.errors⟩
    rw [State.channel_modifyChannel]
    split
    · exact h.channels c
    · exact h.channels d

/-! ### The time scale lawful (01) -/

theorem edgeOffset_range (capture : HubTime) :
    -5000000 ≤ edgeOffset capture ∧ edgeOffset capture ≤ 4999999 := by
  unfold edgeOffset secondTicks
  dsimp only
  split <;> omega

/-- The shift of a step lies within half the hub time range (01, R14). -/
def PendingStep.Fits (p : PendingStep) : Prop := -(2 ^ 39) ≤ p.shift ∧ p.shift < 2 ^ 39

theorem plainStep_fits : plainStep.Fits := by unfold PendingStep.Fits; decide

theorem PendingStep.resolve_fits {p : PendingStep} (h : p.Fits) (boundary : HubTime) :
    (p.resolve boundary).Fits := by
  unfold PendingStep.resolve
  split
  next n _ => exact ⟨BitVec.le_toInt _, BitVec.toInt_lt⟩
  · exact h

namespace TimeScale
variable {t : TimeScale}

theorem reset_lawful : TimeScale.reset.Lawful := by
  constructor <;> simp [TimeScale.reset] <;> decide

/-- In LOCKED the reference is present (01, R5). -/
theorem Lawful.present_of_locked (h : t.Lawful) (locked : t.mode = .locked) : t.present = true := by
  cases present : t.present with
  | true => rfl
  | false => rcases (h.lost present).2 with mode | mode <;> simp [locked] at mode

/-- Hub time, the filter, the glitch count, the slew and the flag are free in the law. -/
theorem Lawful.moved (h : t.Lawful) {x : TimeScale} (glitches : x.glitches ≤ 65535)
    (same : x = { t with
      hub := x.hub, filter := x.filter, glitches := x.glitches, slew := x.slew, pace := x.pace
      slewFirst := x.slewFirst, holdoverPeriods := x.holdoverPeriods, flag := x.flag }) :
    x.Lawful := by
  rw [same]
  exact ⟨h.edgeFilter, h.lockWindow, h.holdoverLimit, glitches, h.offset, h.inRun, h.outRun, h.watch,
    h.shift, h.lost, h.holdover⟩

theorem Lawful.step (h : t.Lawful) {p : Option PendingStep} (fits : ∀ x, p = some x → x.Fits) :
    Lawful { t with step := p } :=
  ⟨h.edgeFilter, h.lockWindow, h.holdoverLimit, h.glitches, h.offset, h.inRun, h.outRun, h.watch,
    fits, h.lost, h.holdover⟩

/-- The step held, or the plain one (01, R8, R14). -/
theorem Lawful.orPlain_fits (h : t.Lawful) (x : PendingStep)
    (hx : (t.step <|> some plainStep) = some x) : x.Fits := by
  cases step : t.step with
  | none =>
    obtain rfl : plainStep = x := by simpa [step] using hx
    exact plainStep_fits
  | some p =>
    obtain rfl : p = x := by simpa [step] using hx
    exact h.shift p step

/-- A run of in-window edges that is counted, where the reference is present (01, R5, R8). -/
theorem Lawful.inRun_set (h : t.Lawful) {n : Nat} (le : n ≤ 2) (absent : t.present = false → n = 0) :
    Lawful { t with inRun := n } :=
  ⟨h.edgeFilter, h.lockWindow, h.holdoverLimit, h.glitches, h.offset, le, h.outRun, h.watch,
    h.shift, fun lost => ⟨absent lost, (h.lost lost).2⟩, h.holdover⟩

theorem Lawful.outRun_set (h : t.Lawful) {n : Nat} (le : n ≤ 2) : Lawful { t with outRun := n } :=
  ⟨h.edgeFilter, h.lockWindow, h.holdoverLimit, h.glitches, h.offset, h.inRun, le, h.watch, h.shift,
    h.lost, h.holdover⟩

theorem Lawful.countOut (h : t.Lawful) : t.countOut.Lawful := by
  unfold TimeScale.countOut
  split
  · exact h.outRun_set (by omega)
  · exact (h.outRun_set (Nat.zero_le 2)).step h.orPlain_fits

theorem Lawful.expectAfter (h : t.Lawful) (locked : t.mode = .locked) (boundary : HubTime) :
    (t.expectAfter boundary).Lawful :=
  ⟨h.edgeFilter, h.lockWindow, h.holdoverLimit, h.glitches, h.offset, h.inRun, h.outRun,
    by simp [TimeScale.expectAfter, locked], h.shift, h.lost, h.holdover⟩

theorem Lawful.lockedEdge (h : t.Lawful) (locked : t.mode = .locked) (capture : HubTime)
    (inWindow : Bool) : (t.lockedEdge capture inWindow).Lawful := by
  have watched := h.expectAfter locked (nearestBoundary capture)
  unfold TimeScale.lockedEdge
  dsimp only
  split
  · exact (watched.outRun_set (Nat.zero_le 2)).moved watched.glitches rfl
  · exact watched.countOut

/-- The edge that locks is the first in LOCKED (01, R8, R10, R11). -/
theorem Lawful.lock (h : t.Lawful) (present : t.present = true) (capture : HubTime) :
    (t.lock capture).Lawful := by
  refine ⟨h.edgeFilter, h.lockWindow, h.holdoverLimit, h.glitches, h.offset, Nat.zero_le 2,
    Nat.zero_le 2, ⟨rfl, rfl⟩, h.shift, fun lost => ?_, Nat.zero_le _, fun holdover => ?_⟩
  · simp [TimeScale.lock, TimeScale.lockedEdge, TimeScale.expectAfter, present] at lost
  · cases holdover

theorem Lawful.countIn (h : t.Lawful) {need : Nat} (le : need ≤ 3) (capture : HubTime) :
    (t.countIn need capture).Lawful := by
  unfold TimeScale.countIn
  split
  · exact h.inRun_set (n := 0) (Nat.zero_le 2) fun _ => rfl
  next notLost =>
    have present : t.present = true := by simpa using notLost
    split
    next few =>
      exact h.inRun_set (n := t.inRun + 1) (by omega) fun absent => by simp [present] at absent
    · exact h.lock present capture

theorem Lawful.edgeRule (h : t.Lawful) (capture : HubTime) : (t.edgeRule capture).Lawful := by
  have outside := h.inRun_set (n := 0) (Nat.zero_le 2) fun _ => rfl
  have beyond (x : TimeScale) (hx : x.Lawful) : Lawful
      (if decide (|edgeOffset capture| ≤ (x.lockWindow : Int)) = true
        then { x with outRun := 0 }.countIn 2 capture
        else { x with inRun := 0 }.countOut) := by
    split
    · exact (hx.outRun_set (Nat.zero_le 2)).countIn (by decide) capture
    · exact (hx.inRun_set (n := 0) (Nat.zero_le 2) fun _ => rfl).countOut
  unfold TimeScale.edgeRule
  dsimp only
  split
  · split
    · exact h
    · split
      · exact h.countIn le_rfl capture
      · exact outside.step fun x hx => Option.some.inj hx ▸ plainStep_fits
  next locked => exact h.lockedEdge locked capture _
  · exact beyond t h
  · exact beyond t h

theorem Lawful.applyStep (h : t.Lawful) (target : HubTime) (run : Nat) :
    (t.applyStep target run).Lawful := by
  have stepped : Lawful { t with
      hub := target + ticks (run - 1), step := none, slew := 0, inRun := 0, outRun := 0
      flag := true } :=
    (((h.step (p := none) fun x hx => by cases hx).inRun_set (n := 0) (Nat.zero_le 2)
      fun _ => rfl).outRun_set (Nat.zero_le 2)).moved h.glitches rfl
  unfold TimeScale.applyStep
  dsimp only
  split
  next locked => exact stepped.expectAfter locked target
  · exact stepped

/-- The limit check, after new settings or a new count of seconds (01, R10, R20). -/
theorem Lawful.checkLimit (h : t.Lawful) {f w l n p : Nat} (hf : edgeFilterRange.Has f)
    (hw : lockWindowRange.Has w) (hl : holdoverRange.Has l) (hn : n ≤ 65535) :
    (TimeScale.checkLimit { t with
      edgeFilter := f, lockWindow := w, holdoverLimit := l, holdover := n
      holdoverPeriods := p }).Lawful := by
  unfold TimeScale.checkLimit
  split
  next reached =>
    obtain ⟨mode, -⟩ := reached
    have watch := h.watch
    rw [show t.mode = .holdover from mode] at watch
    exact ⟨hf, hw, hl, h.glitches, h.offset, h.inRun, h.outRun, watch, h.shift,
      fun lost => ⟨(h.lost lost).1, .inr rfl⟩, hn, fun holdover => by cases holdover⟩
  next within =>
    exact ⟨hf, hw, hl, h.glitches, h.offset, h.inRun, h.outRun, h.watch, h.shift, h.lost, hn,
      fun mode => not_le.mp fun le => within ⟨mode, le⟩⟩

theorem Lawful.pass (h : t.Lawful) (advance : HubTime) : (t.pass advance).Lawful :=
  h.moved h.glitches rfl

theorem Lawful.plainPeriod (h : t.Lawful) : t.plainPeriod.Lawful :=
  (h.pass 1).moved h.glitches rfl

theorem Lawful.slewPeriod (h : t.Lawful) : t.slewPeriod.Lawful := by
  unfold TimeScale.slewPeriod
  split
  · exact (h.pass 0).moved h.glitches rfl
  · exact (h.pass 2).moved h.glitches rfl

end TimeScale

/-- An accepted edge keeps the law, whatever it does (01, R7 to R16). -/
theorem State.takeEdge_lawful {s : State} (h : s.time.Lawful) (run : Nat) (capture : HubTime) :
    (s.takeEdge run capture).time.Lawful := by
  have fits (x : PendingStep) (hx : (if s.time.mode = .acquiring ∧ s.time.lastOffset = none then
      s.time.step <|> some plainStep else s.time.step) = some x) : x.Fits := by
    split at hx
    · exact h.orPlain_fits x hx
    · exact h.shift x hx
  have edge : TimeScale.Lawful { s.time with
      filter := .awaitLow
      lastOffset := some (edgeOffset capture)
      step := if s.time.mode = .acquiring ∧ s.time.lastOffset = none then
        s.time.step <|> some plainStep else s.time.step } :=
    ⟨h.edgeFilter, h.lockWindow, h.holdoverLimit, h.glitches,
      fun x hx => Option.some.inj hx ▸ edgeOffset_range capture, h.inRun, h.outRun, h.watch, fits,
      h.lost, h.holdover⟩
  unfold State.takeEdge
  dsimp only
  split
  · rw [State.putTime_time]
    exact edge.edgeRule capture
  next p pending =>
    split
    · rw [State.putTime_time]
      exact (edge.step fun x hx => Option.some.inj hx ▸
        PendingStep.resolve_fits (fits p pending) _).edgeRule capture
    · rw [State.putTime_time]
      exact edge.applyStep _ run

/-- Every row keeps the time scale lawful (01, R5 to R20). -/
theorem exec_lawful {i : Instr} {s t : State} (next : exec i s = .next t) (h : s.time.Lawful) :
    t.time.Lawful := by
  have event {act : State → State} (next : whileRunning s act = .next t)
      (acts : (act s).time.Lawful) : t.time.Lawful := by
    rcases whileRunning_cases next with rfl | rfl
    · exact h
    · exact acts
  have command {identifier label : Byte} {act : State → Answer}
      (next : takeCommand identifier label s act = .next t)
      (block : (act s.endTransaction).state.time.Lawful) : t.time.Lawful := by
    rcases takeCommand_cases next with rfl | rfl
    · exact h
    · exact block
  cases ofTime : i.ofTime with
  | false => rw [(onlyTimeRowsChangeTheTimeScale i s t next).1 ofTime]; exact h
  | true =>
    cases i with
    | powerOn =>
      obtain rfl := Host.Outcome.next.inj next
      exact TimeScale.reset_lawful
    | reset =>
      obtain rfl := Host.Outcome.next.inj next
      exact TimeScale.reset_lawful
    | timeMark label second =>
      simp only [exec, execTimeMark] at next
      exact command next (h.step fun x hx => Option.some.inj hx ▸ plainStep_fits)
    | readTime label =>
      simp only [exec, execReadTime] at next
      exact command next (h.moved (Nat.zero_le _) rfl)
    | setTimebase label f =>
      simp only [exec, execSetTimebase] at next
      exact command next (h.checkLimit (edgeFilterRange.field_range _ _ (by decide) h.edgeFilter)
        (lockWindowRange.field_range _ _ (by decide) h.lockWindow)
        (holdoverRange.field_range _ _ (by decide) h.holdoverLimit) h.holdover.1)
    | referenceLost =>
      simp only [exec, execReferenceLost] at next
      refine event next ?_
      split
      · rw [State.putTime_time]
        exact ⟨h.edgeFilter, h.lockWindow, h.holdoverLimit, h.glitches, h.offset, Nat.zero_le 2,
          h.outRun, ⟨rfl, rfl⟩, h.shift, fun _ => ⟨rfl, .inr rfl⟩, h.holdover.1,
          fun holdover => by cases holdover⟩
      · exact h
    | referenceReturned =>
      simp only [exec, execReferenceReturned] at next
      refine event next ?_
      split
      · exact h
      · exact ⟨h.edgeFilter, h.lockWindow, h.holdoverLimit, h.glitches, h.offset, Nat.zero_le 2,
          h.outRun, h.watch, h.shift, fun lost => (Bool.noConfusion lost), h.holdover⟩
    | edgeAccepted =>
      simp only [exec, execEdgeAccepted] at next
      refine event next ?_
      split
      · split
        · exact State.takeEdge_lawful h _ _
        · exact h.moved h.glitches rfl
      all_goals exact h
    | glitch =>
      simp only [exec, execGlitch] at next
      refine event next ?_
      split
      · exact h.moved (satCount_le 65535 _ _) rfl
      all_goals exact h
    | slewAdjustment =>
      simp only [exec, execSlewAdjustment] at next
      refine event next ?_
      split
      · rw [State.period_time]; exact h.slewPeriod
      · exact h
    | missDeadline =>
      simp only [exec, execMissDeadline] at next
      refine event next ?_
      split
      next due =>
        rw [State.putTime_time]
        have present := h.present_of_locked due.1
        exact ⟨h.edgeFilter, h.lockWindow, h.holdoverLimit, h.glitches, h.offset, Nat.zero_le 2,
          h.outRun, ⟨rfl, rfl⟩, h.shift, fun lost => by simp [present] at lost,
          Nat.zero_le _, fun _ => h.holdoverLimit.1⟩
      · exact h
    | holdoverElapsed =>
      simp only [exec, execHoldoverElapsed] at next
      refine event next ?_
      split
      · exact h.checkLimit h.edgeFilter h.lockWindow h.holdoverLimit (satCount_le 65535 _ _)
      · exact h
    | pulseBegins =>
      simp only [exec, execPulseBegins] at next
      refine event next ?_
      split
      · exact h.moved h.glitches rfl
      all_goals exact h
    | ppsLowSample =>
      simp only [exec, execPpsLowSample] at next
      refine event next ?_
      split
      · exact h.moved h.glitches rfl
      all_goals exact h
    | _ => simp [Instr.ofTime] at ofTime

theorem State.settingsInRange_iff (s : State) :
    s.SettingsInRange ↔ s.time.Lawful ∧ s.BlocksInRange :=
  ⟨fun h => ⟨h.time, h.meas, h.channels, h.errors⟩, fun h => ⟨h.1, h.2.meas, h.2.channels, h.2.errors⟩⟩

/-- Settles O57: the time scale row by row, the other blocks as what steady changes keep. -/
theorem stepKeepsSettingsInRange : Obligations.StepKeepsSettingsInRange := by
  intro s t h next
  rw [State.settingsInRange_iff] at h ⊢
  refine ⟨?_, blocksInRange_kept.step h.2 next⟩
  refine step_keeps (P := fun s => s.time.Lawful) exec_lawful (fun _ _ h => h) (fun {s} h => ?_) h.1 next
  unfold State.plainPeriod
  rw [State.period_time]
  exact h.plainPeriod

/-- Settles O60: each law at its reset clause, and the time scale's reset. -/
theorem resetIsLawful : Obligations.ResetIsLawful :=
  ⟨(State.settingsInRange_iff _).mpr
      ⟨TimeScale.reset_lawful, blocksInRange_kept.reset Port.reset 0 []⟩,
    sitesInRange_kept.reset Port.reset 0 [], zonesLawful_kept.reset Port.reset 0 [],
    queuesLawful_kept.reset Port.reset 0 []⟩

/-! ### Leaving LOCKED (05, R96) -/

theorem Batch.active_iff (b : Batch) : b.active = true ↔
    b.state = .planned ∨ b.state = .armed ∨ b.state = .cancelling ∨ b.state = .onAir := by
  cases h : b.state <;> simp [Batch.active, h]

/-- Every active batch is marked (05, R96). -/
def State.AllMarked (s : State) : Prop :=
  ∀ c, ∀ b ∈ (s.channel c).queue, b.active = true → b.unverified = true

theorem State.markUnverified_allMarked (s : State) : s.markUnverified.AllMarked := by
  intro c b hb active
  simp only [State.channel, State.markUnverified, Fin.getElem_fin, Vector.getElem_map,
    List.mem_map] at hb
  obtain ⟨x, -, rfl⟩ := hb
  by_cases was : x.active = true
  · simp [was]
  · simp [was] at active

/-- A time scale written over one in LOCKED stays there or marks every active batch (05, R96). -/
theorem State.putTime_allMarked {s : State} (locked : s.time.mode = .locked) (x : TimeScale)
    (left : (s.putTime x).time.mode ≠ .locked) : (s.putTime x).AllMarked := by
  rw [State.putTime_time] at left
  unfold State.putTime
  simp only [locked, beq_self_eq_true, Bool.true_and, bne_iff_ne, ne_eq, left, not_false_eq_true,
    if_true]
  exact State.markUnverified_allMarked _

theorem TimeScale.checkLimit_mode {x : TimeScale} (locked : x.mode = .locked) :
    x.checkLimit.mode = .locked := by
  simp [TimeScale.checkLimit, locked]

theorem TimeScale.slewPeriod_mode (x : TimeScale) : x.slewPeriod.mode = x.mode := by
  unfold TimeScale.slewPeriod
  split <;> rfl

theorem State.takeEdge_allMarked {s : State} (locked : s.time.mode = .locked) (run : Nat)
    (capture : HubTime) (left : (s.takeEdge run capture).time.mode ≠ .locked) :
    (s.takeEdge run capture).AllMarked := by
  revert left
  unfold State.takeEdge
  dsimp only
  split
  · exact State.putTime_allMarked locked _
  · split
    · exact State.putTime_allMarked locked _
    · exact State.putTime_allMarked (s := s.moveStored _) locked _

/-- A row that takes the timebase out of LOCKED, power-on and RESET apart, marks every active batch
(05, R96). -/
theorem exec_allMarked {i : Instr} {s t : State} (next : exec i s = .next t) (notPower : i ≠ .powerOn)
    (notReset : i ≠ .reset) (locked : s.time.mode = .locked) (left : t.time.mode ≠ .locked) :
    t.AllMarked := by
  have stays (same : t.time.mode = .locked) : t.AllMarked := absurd same left
  have event {act : State → State} (next : whileRunning s act = .next t)
      (acts : (act s).time.mode ≠ .locked → (act s).AllMarked) : t.AllMarked := by
    rcases whileRunning_cases next with rfl | rfl
    · exact absurd locked left
    · exact acts left
  have command {identifier label : Byte} {act : State → Answer}
      (next : takeCommand identifier label s act = .next t)
      (block : (act s.endTransaction).state.time.mode = .locked) : t.AllMarked := by
    rcases takeCommand_cases next with rfl | rfl
    · exact absurd locked left
    · exact absurd block left
  cases ofTime : i.ofTime with
  | false => exact stays (by rw [(onlyTimeRowsChangeTheTimeScale i s t next).1 ofTime]; exact locked)
  | true =>
    cases i with
    | powerOn => exact absurd rfl notPower
    | reset => exact absurd rfl notReset
    | timeMark label second =>
      simp only [exec, execTimeMark] at next
      exact command next locked
    | readTime label =>
      simp only [exec, execReadTime] at next
      exact command next locked
    | setTimebase label f =>
      simp only [exec, execSetTimebase] at next
      exact command next (TimeScale.checkLimit_mode locked)
    | referenceLost =>
      simp only [exec, execReferenceLost] at next
      refine event next fun left => ?_
      split at left
      next present => rw [if_pos present]; exact State.putTime_allMarked locked _ left
      · exact absurd locked left
    | referenceReturned =>
      simp only [exec, execReferenceReturned] at next
      refine event next fun left => ?_
      split at left <;> exact absurd locked left
    | edgeAccepted =>
      simp only [exec, execEdgeAccepted] at next
      refine event next fun left => ?_
      split at left
      · split at left
        next run capture filter reached =>
          simp only [reached, if_true]
          exact State.takeEdge_allMarked locked _ _ left
        · exact absurd locked left
      all_goals exact absurd locked left
    | glitch =>
      simp only [exec, execGlitch] at next
      refine event next fun left => ?_
      split at left <;> exact absurd locked left
    | slewAdjustment =>
      simp only [exec, execSlewAdjustment] at next
      refine event next fun left => ?_
      split at left
      · rw [State.period_time, TimeScale.slewPeriod_mode] at left
        exact absurd locked left
      · exact absurd locked left
    | missDeadline =>
      simp only [exec, execMissDeadline] at next
      refine event next fun left => ?_
      split at left
      next due => rw [if_pos due]; exact State.putTime_allMarked locked _ left
      · exact absurd locked left
    | holdoverElapsed =>
      simp only [exec, execHoldoverElapsed] at next
      refine event next fun left => ?_
      split at left
      next due => simp [locked] at due
      · exact absurd locked left
    | pulseBegins =>
      simp only [exec, execPulseBegins] at next
      refine event next fun left => ?_
      split at left <;> exact absurd locked left
    | ppsLowSample =>
      simp only [exec, execPpsLowSample] at next
      refine event next fun left => ?_
      split at left <;> exact absurd locked left
    | _ => simp [Instr.ofTime] at ofTime

/-- Settles O19. -/
theorem leavingLockedMarksEveryActiveBatch : Obligations.LeavingLockedMarksEveryActiveBatch := by
  intro i s t next notPower notReset locked left c b hb active
  exact exec_allMarked next notPower notReset locked left c b hb (b.active_iff.mpr active)

end Sys2Proof.Machine
end

