-- ==== Sys2Proof/Proofs/TimeRows.lean ====
section
/-! PROOFS. The rows of the time scale: the edge filter, an accepted edge by the pending step and the state
that it meets, slewing, and the events that move the timebase state (01, R5 to R18). -/

namespace Sys2Proof.Machine

/-! ### The edge filter (R6) -/

/-- Settles O10: each row acts in its phase of the filter. -/
theorem edgeFilterRowsMoveTheFilter : Obligations.EdgeFilterRowsMoveTheFilter := by
  intro s running
  refine ⟨fun low => ?_, fun run c r high => ?_, fun waiting => ?_⟩
  · simp only [exec, execPulseBegins, whileRunning_running running, low]; rfl
  · simp only [exec, execGlitch, whileRunning_running running, high]; rfl
  · simp only [exec, execPpsLowSample, whileRunning_running running, waiting]

/-! ### The parts of the edge rule (R7 to R12) -/

/-- The boundary an edge belongs to: its capture less its offset (R7). -/
theorem nearestBoundary_eq (c : HubTime) :
    nearestBoundary c = c - BitVec.ofInt 40 (edgeOffset c) := by
  rw [nearestBoundary, tickAt, BitVec.ofInt_neg, BitVec.sub_eq_add_neg]

/-- The watch for the edge a second after a boundary (R9). -/
theorem TimeScale.expectAfter_eq (t : TimeScale) (b : HubTime) :
    t.expectAfter b = { t with
      expected := some (b + 10000000#40)
      miss := some (b + 10000000#40 + BitVec.ofNat 40 t.lockWindow) } := rfl

theorem TimeScale.countOut_few {t : TimeScale} (few : t.outRun < 2) :
    t.countOut = { t with outRun := t.outRun + 1 } := if_pos (by omega)

/-- The third out-of-window edge raises a step unless one is pending (R12). -/
theorem TimeScale.countOut_third {t : TimeScale} (third : 2 ≤ t.outRun) :
    t.countOut = { t with outRun := 0, step := t.step <|> some plainStep } := if_neg (by omega)

theorem TimeScale.countIn_lost {t : TimeScale} (lost : t.present = false) (need : Nat) (c : HubTime) :
    t.countIn need c = { t with inRun := 0 } := by simp [TimeScale.countIn, lost]

theorem TimeScale.countIn_few {t : TimeScale} (present : t.present = true) {need : Nat}
    (few : t.inRun + 1 < need) (c : HubTime) :
    t.countIn need c = { t with inRun := t.inRun + 1 } := by
  simp [TimeScale.countIn, present, few]

theorem TimeScale.countIn_enough {t : TimeScale} (present : t.present = true) {need : Nat}
    (enough : need ≤ t.inRun + 1) (c : HubTime) : t.countIn need c = t.lock c := by
  simp [TimeScale.countIn, present, not_lt.mpr enough]

/-- The edge that locks: the counts go, and it is the first in-window edge of LOCKED (R8, R13). -/
theorem TimeScale.lock_eq (t : TimeScale) (c : HubTime) :
    t.lock c = { t with
      mode := .locked, inRun := 0, holdover := 0, holdoverPeriods := 0, flag := true
      expected := some (c - BitVec.ofInt 40 (edgeOffset c) + 10000000#40)
      miss := some (c - BitVec.ofInt 40 (edgeOffset c) + 10000000#40 + BitVec.ofNat 40 t.lockWindow)
      outRun := 0, slew := t.slew + edgeOffset c, pace := 0, slewFirst := true } := by
  rw [← nearestBoundary_eq]; rfl

theorem TimeScale.edgeRule_locked {t : TimeScale} (locked : t.mode = .locked) (c : HubTime) :
    t.edgeRule c = t.lockedEdge c (decide (|edgeOffset c| ≤ t.lockWindow)) := by
  simp [TimeScale.edgeRule, locked]

theorem TimeScale.edgeRule_acquiring_pending {t : TimeScale} (mode : t.mode = .acquiring)
    (pending : t.step.isSome = true) (c : HubTime) : t.edgeRule c = t := by
  simp [TimeScale.edgeRule, mode, pending]

theorem TimeScale.edgeRule_acquiring {t : TimeScale} (mode : t.mode = .acquiring)
    (free : t.step = none) (c : HubTime) :
    t.edgeRule c = if |edgeOffset c| ≤ t.lockWindow then t.countIn 3 c
      else { t with inRun := 0, step := some plainStep } := by
  simp [TimeScale.edgeRule, mode, free]

/-- The watch moved to the second after the edge's boundary (R9). -/
def TimeScale.watched (t : TimeScale) (c : HubTime) : TimeScale :=
  { t with
    expected := some (c - BitVec.ofInt 40 (edgeOffset c) + 10000000#40)
    miss := some (c - BitVec.ofInt 40 (edgeOffset c) + 10000000#40 + BitVec.ofNat 40 t.lockWindow) }

theorem TimeScale.watched_eq (t : TimeScale) (c : HubTime) :
    t.expectAfter (nearestBoundary c) = t.watched c := by
  rw [nearestBoundary_eq]; rfl

section Rules
variable {t : TimeScale} {c : HubTime}

/-- In LOCKED an in-window edge steers the slew (R9, R13). -/
theorem TimeScale.edgeRule_locked_in (locked : t.mode = .locked)
    (inWindow : |edgeOffset c| ≤ t.lockWindow) :
    t.edgeRule c = { t.watched c with
      outRun := 0, slew := t.slew + edgeOffset c, pace := 0, slewFirst := true } := by
  rw [TimeScale.edgeRule_locked locked, decide_eq_true inWindow, ← TimeScale.watched_eq]
  rfl

theorem TimeScale.edgeRule_locked_out (locked : t.mode = .locked)
    (outside : ¬ |edgeOffset c| ≤ t.lockWindow) : t.edgeRule c = (t.watched c).countOut := by
  rw [TimeScale.edgeRule_locked locked, decide_eq_false outside, ← TimeScale.watched_eq]
  rfl

theorem TimeScale.edgeRule_locked_few (locked : t.mode = .locked)
    (outside : ¬ |edgeOffset c| ≤ t.lockWindow) (few : t.outRun < 2) :
    t.edgeRule c = { t.watched c with outRun := t.outRun + 1 } := by
  rw [TimeScale.edgeRule_locked_out locked outside]
  exact TimeScale.countOut_few (t := t.watched c) few

theorem TimeScale.edgeRule_locked_third (locked : t.mode = .locked)
    (outside : ¬ |edgeOffset c| ≤ t.lockWindow) (third : 2 ≤ t.outRun) :
    t.edgeRule c = { t.watched c with outRun := 0, step := t.step <|> some plainStep } := by
  rw [TimeScale.edgeRule_locked_out locked outside]
  exact TimeScale.countOut_third (t := t.watched c) third

/-- In HOLDOVER and FREE an in-window edge clears the out-of-window run (R10, R11). -/
theorem TimeScale.edgeRule_unlocked_in (mode : t.mode = .holdover ∨ t.mode = .free)
    (inWindow : |edgeOffset c| ≤ t.lockWindow) :
    t.edgeRule c = { t with outRun := 0 }.countIn 2 c := by
  rcases mode with mode | mode <;> simp [TimeScale.edgeRule, mode, inWindow]

theorem TimeScale.edgeRule_unlocked_out (mode : t.mode = .holdover ∨ t.mode = .free)
    (outside : ¬ |edgeOffset c| ≤ t.lockWindow) :
    t.edgeRule c = { t with inRun := 0 }.countOut := by
  rcases mode with mode | mode <;> simp [TimeScale.edgeRule, mode, outside]

theorem TimeScale.edgeRule_unlocked_few (mode : t.mode = .holdover ∨ t.mode = .free)
    (outside : ¬ |edgeOffset c| ≤ t.lockWindow) (few : t.outRun < 2) :
    t.edgeRule c = { t with inRun := 0, outRun := t.outRun + 1 } := by
  rw [TimeScale.edgeRule_unlocked_out mode outside]
  exact TimeScale.countOut_few (t := { t with inRun := 0 }) few

theorem TimeScale.edgeRule_unlocked_third (mode : t.mode = .holdover ∨ t.mode = .free)
    (outside : ¬ |edgeOffset c| ≤ t.lockWindow) (third : 2 ≤ t.outRun) :
    t.edgeRule c = { t with inRun := 0, outRun := 0, step := t.step <|> some plainStep } := by
  rw [TimeScale.edgeRule_unlocked_out mode outside]
  exact TimeScale.countOut_third (t := { t with inRun := 0 }) third

end Rules

/-! ### An accepted edge and the pending step (R7, R14, R15) -/

/-- The time scale as the edge finds it: its offset recorded, the filter waiting for the pulse to end. -/
def TimeScale.atEdge (t : TimeScale) (c : HubTime) (step : Option PendingStep) : TimeScale :=
  { t with filter := .awaitLow, lastOffset := some (edgeOffset c), step := step }

/-- A time scale written leaves the queues as they were unless the timebase leaves LOCKED. -/
theorem State.putTime_eq {s : State} {t : TimeScale} (h : s.time.mode ≠ .locked ∨ t.mode = .locked) :
    s.putTime t = { s with time := t } := by
  unfold State.putTime
  rcases h with h | h <;> simp [h]

theorem exec_edgeAccepted {s : State} (running : s.port.resetLow = false) {run : Nat} {c : HubTime}
    (filter : s.time.filter = .high run c true) (reached : s.time.edgeFilter ≤ run) :
    exec .edgeAccepted s = .next (s.takeEdge run c) := by
  simp only [exec, execEdgeAccepted, whileRunning_running running, filter, if_pos reached]

/-- The step that an edge finds pending, or that the first edge of ACQUIRING raises (R8, R14). -/
def TimeScale.stepAtEdge (t : TimeScale) : Option PendingStep :=
  if t.mode = .acquiring ∧ t.lastOffset = none then t.step <|> some plainStep else t.step

theorem State.takeEdge_free {s : State} {run : Nat} {c : HubTime} (free : s.time.stepAtEdge = none) :
    s.takeEdge run c = s.putTime ((s.time.atEdge c s.time.step).edgeRule c) := by
  have none : s.time.step = none := by
    cases step : s.time.step with
    | none => rfl
    | some p => simp [TimeScale.stepAtEdge, step] at free
  unfold State.takeEdge
  simp only [← TimeScale.stepAtEdge.eq_1, free]
  rw [TimeScale.atEdge, none]

theorem State.takeEdge_deferred {s : State} {run : Nat} {c : HubTime} {p : PendingStep}
    (pending : s.time.stepAtEdge = some p) (active : s.anyActive = true) :
    s.takeEdge run c =
      s.putTime ((s.time.atEdge c (some (p.resolve (nearestBoundary c)))).edgeRule c) := by
  unfold State.takeEdge
  simp only [← TimeScale.stepAtEdge.eq_1, pending, active, if_true]
  rfl

theorem State.takeEdge_applied {s : State} {run : Nat} {c : HubTime} {p : PendingStep}
    (pending : s.time.stepAtEdge = some p) (idle : s.anyActive = false) :
    s.takeEdge run c = (s.moveStored (p.target (nearestBoundary c) - c)).putTime
      ((s.time.atEdge c (some p)).applyStep (p.target (nearestBoundary c)) run) := by
  unfold State.takeEdge
  simp only [← TimeScale.stepAtEdge.eq_1, pending, idle, Bool.false_eq_true, if_false]
  rfl

theorem TimeScale.countOut_mode (t : TimeScale) : t.countOut.mode = t.mode := by
  unfold TimeScale.countOut
  split <;> rfl

theorem TimeScale.lockedEdge_mode (t : TimeScale) (c : HubTime) (inWindow : Bool) :
    (t.lockedEdge c inWindow).mode = t.mode := by
  unfold TimeScale.lockedEdge
  dsimp only
  split
  · rfl
  · exact TimeScale.countOut_mode _

/-- The rule of the state never takes the timebase out of LOCKED (R9). -/
theorem State.putTime_edgeRule {s : State} (step : Option PendingStep) (c : HubTime) :
    s.putTime ((s.time.atEdge c step).edgeRule c) =
      { s with time := (s.time.atEdge c step).edgeRule c } := by
  refine State.putTime_eq ?_
  by_cases locked : s.time.mode = .locked
  · right
    have mode : (s.time.atEdge c step).mode = .locked := locked
    rw [TimeScale.edgeRule_locked mode, TimeScale.lockedEdge_mode, mode]
  · exact .inl locked

section Edges
variable {s : State} {run : Nat} {c : HubTime}

/-- An edge that finds no step is acted on by the rule of the state (R7). -/
theorem exec_edge_free (running : s.port.resetLow = false) (filter : s.time.filter = .high run c true)
    (reached : s.time.edgeFilter ≤ run) (free : s.time.step = none)
    (notFirst : s.time.mode = .acquiring → s.time.lastOffset ≠ none) :
    exec .edgeAccepted s = .next { s with time := (s.time.atEdge c s.time.step).edgeRule c } := by
  have none : s.time.stepAtEdge = none := by
    rw [TimeScale.stepAtEdge, if_neg fun h => notFirst h.1 h.2, free]
  rw [exec_edgeAccepted running filter reached, State.takeEdge_free none, State.putTime_edgeRule]

/-- An edge that finds a step it cannot apply resolves its mark, and the rule of the state acts
(R14, R15). -/
theorem exec_edge_deferred (running : s.port.resetLow = false)
    (filter : s.time.filter = .high run c true) (reached : s.time.edgeFilter ≤ run)
    {p : PendingStep} (pending : s.time.stepAtEdge = some p) (active : s.anyActive = true) :
    exec .edgeAccepted s = .next { s with time :=
      (s.time.atEdge c (some (p.resolve (nearestBoundary c)))).edgeRule c } := by
  rw [exec_edgeAccepted running filter reached, State.takeEdge_deferred pending active,
    State.putTime_edgeRule]

end Edges

/-- Settles O11: the edge goes to the rule of LOCKED. -/
theorem lockedEdgeSteersTheSlew : Obligations.LockedEdgeSteersTheSlew := by
  intro s run c running filter reached locked free off hoff
  obtain rfl : off = edgeOffset c := hoff
  have mode : (s.time.atEdge c s.time.step).mode = .locked := locked
  have acts := exec_edge_free running filter reached free fun h => by simp [locked] at h
  refine ⟨fun inWindow => ?_, fun outside few => ?_, fun outside third => ?_⟩
  · rw [acts, TimeScale.edgeRule_locked_in mode inWindow]
    rfl
  · rw [acts, TimeScale.edgeRule_locked_few mode (not_le.mpr outside) few]
    rfl
  · rw [acts, TimeScale.edgeRule_locked_third mode (not_le.mpr outside) third]
    simp only [TimeScale.atEdge, TimeScale.watched, free]
    rfl

/-- Settles O12: in-window edges count toward LOCKED, the others toward a step. -/
theorem inWindowEdgesLeadToLocked : Obligations.InWindowEdgesLeadToLocked := by
  refine ⟨fun s run c running filter reached free unlocked notFirst inWindow need hneed => ?_,
    fun s run c running filter reached free notFirst outside => ?_⟩
  · obtain ⟨n, counts⟩ : ∃ n, (s.time.atEdge c s.time.step).edgeRule c =
        { s.time.atEdge c s.time.step with outRun := n }.countIn need c := by
      by_cases acquiring : s.time.mode = .acquiring
      · refine ⟨s.time.outRun, ?_⟩
        rw [hneed, if_pos acquiring]
        exact (TimeScale.edgeRule_acquiring (t := s.time.atEdge c s.time.step) acquiring free c).trans
          (if_pos inWindow)
      · refine ⟨0, ?_⟩
        rw [hneed, if_neg acquiring]
        refine TimeScale.edgeRule_unlocked_in (t := s.time.atEdge c s.time.step) ?_ inWindow
        change s.time.mode = .holdover ∨ s.time.mode = .free
        cases mode : s.time.mode <;> simp_all
    have acts := exec_edge_free running filter reached free notFirst
    rw [counts] at acts
    refine ⟨_, acts, ?_⟩
    generalize hx : ({ s.time.atEdge c s.time.step with outRun := n } : TimeScale) = x
    have lost (absent : s.time.present = false) : x.countIn need c = { x with inRun := 0 } :=
      TimeScale.countIn_lost (by rw [← hx]; exact absent) need c
    have few (present : s.time.present = true) (lt : s.time.inRun + 1 < need) :
        x.countIn need c = { x with inRun := s.time.inRun + 1 } := by
      rw [TimeScale.countIn_few (by rw [← hx]; exact present) (by rw [← hx]; exact lt), ← hx]
      rfl
    have enough (present : s.time.present = true) (le : need ≤ s.time.inRun + 1) :
        x.countIn need c = x.lock c :=
      TimeScale.countIn_enough (by rw [← hx]; exact present) (by rw [← hx]; exact le) c
    rcases Bool.eq_false_or_eq_true s.time.present with present | absent
    · rcases lt_or_ge (s.time.inRun + 1) need with lt | le
      · rw [few present lt, ← hx]
        refine ⟨rfl, rfl, rfl, rfl, rfl, rfl, rfl, rfl, rfl, fun absent => ?_,
          fun _ _ => ⟨rfl, rfl, rfl, rfl⟩, fun _ le => absurd lt (not_lt.mpr le)⟩
        simp [present] at absent
      · rw [enough present le, TimeScale.lock_eq, ← hx]
        refine ⟨rfl, rfl, rfl, rfl, rfl, rfl, rfl, rfl, rfl, fun absent => ?_,
          fun _ lt => absurd lt (not_lt.mpr le), fun _ _ => ⟨rfl, rfl, rfl, rfl, rfl, rfl, rfl, rfl⟩⟩
        simp [present] at absent
    · rw [lost absent, ← hx]
      exact ⟨rfl, rfl, rfl, rfl, rfl, rfl, rfl, rfl, rfl, fun _ => ⟨rfl, rfl, rfl⟩,
        fun present => by simp [absent] at present, fun present => by simp [absent] at present⟩
  · have acts := exec_edge_free running filter reached free notFirst
    have out : ¬ |edgeOffset c| ≤ ((s.time.atEdge c s.time.step).lockWindow : Int) :=
      not_le.mpr outside
    refine ⟨fun acquiring => ?_, fun mode => ⟨fun few => ?_, fun third => ?_⟩⟩
    · rw [acts, TimeScale.edgeRule_acquiring (t := s.time.atEdge c s.time.step) acquiring free,
        if_neg out]
      rfl
    · rw [acts, TimeScale.edgeRule_unlocked_few (t := s.time.atEdge c s.time.step) mode out few]
      rfl
    · rw [acts, TimeScale.edgeRule_unlocked_third (t := s.time.atEdge c s.time.step) mode out third]
      simp only [TimeScale.atEdge, free]
      rfl

/-! ### Steps (R14 to R16) -/

theorem TimeScale.stepAtEdge_eq {t : TimeScale} {p : PendingStep}
    (h : t.step = some p ∨
      t.step = none ∧ t.mode = .acquiring ∧ t.lastOffset = none ∧ p = ⟨none, 0⟩) :
    t.stepAtEdge = some p := by
  unfold TimeScale.stepAtEdge
  rcases h with pending | ⟨free, mode, first, rfl⟩
  · simp [pending]
  · simp [free, mode, first, plainStep]

theorem PendingStep.target_eq (p : PendingStep) (c : HubTime) :
    p.target (nearestBoundary c) = match p.mark with
      | some n => BitVec.ofNat 40 (n * 10000000)
      | none => c - BitVec.ofInt 40 (edgeOffset c) + BitVec.ofInt 40 p.shift := by
  rw [nearestBoundary_eq]; rfl

theorem PendingStep.resolve_eq (p : PendingStep) (c : HubTime) :
    p.resolve (nearestBoundary c) = match p.mark with
      | some n => ⟨none, (BitVec.ofNat 40 (n * 10000000) -
          (c - BitVec.ofInt 40 (edgeOffset c))).toInt⟩
      | none => p := by
  rw [nearestBoundary_eq]; rfl

theorem TimeScale.applyStep_mode (t : TimeScale) (x : HubTime) (run : Nat) :
    (t.applyStep x run).mode = t.mode := by
  unfold TimeScale.applyStep
  dsimp only
  split <;> rfl

/-- What an applied step leaves of the time scale, apart from the watch for the next edge (R15). -/
theorem TimeScale.applyStep_eq (t : TimeScale) (x : HubTime) (run : Nat) :
    t.applyStep x run = { t with
      hub := x + BitVec.ofNat 40 (run - 1), step := none, slew := 0, inRun := 0, outRun := 0
      flag := true
      expected := if t.mode = .locked then some (x + 10000000#40) else t.expected
      miss := if t.mode = .locked then some (x + 10000000#40 + BitVec.ofNat 40 t.lockWindow)
        else t.miss } := by
  unfold TimeScale.applyStep
  by_cases locked : t.mode = .locked
  · simp only [locked, if_true]; rfl
  · simp only [locked, if_false]; rfl

theorem State.enrolled_moveStored (s : State) (d : HubTime) (n : SiteNo) :
    (s.moveStored d).enrolled n = (s.enrolled n).map (Enrolled.move · d) := by
  simp [State.enrolled, State.site, State.moveStored]

theorem State.site_moveStored (s : State) (d : HubTime) (n : SiteNo) :
    (s.moveStored d).site n =
      { s.site n with body := (s.site n).body.map (Enrolled.move · d) } := by
  simp [State.site, State.moveStored]

theorem State.slot_moveStored (s : State) (d : HubTime) (i : SlotNo) :
    (s.moveStored d).slot i = (s.slot i).map (Slot.move · d) := by
  simp [State.slot, State.moveStored]

section Steps
variable {s : State} {run : Nat} {c : HubTime}

/-- An edge that finds a step it can apply: hub time moves to the target and every stored time by the
amount (R15, R16). -/
theorem exec_edge_applied (running : s.port.resetLow = false)
    (filter : s.time.filter = .high run c true) (reached : s.time.edgeFilter ≤ run)
    {p : PendingStep} (pending : s.time.stepAtEdge = some p) (idle : s.anyActive = false) :
    exec .edgeAccepted s = .next { s.moveStored (p.target (nearestBoundary c) - c) with
      time := (s.time.atEdge c (some p)).applyStep (p.target (nearestBoundary c)) run } := by
  rw [exec_edgeAccepted running filter reached, State.takeEdge_applied pending idle,
    State.putTime_eq]
  rw [TimeScale.applyStep_mode]
  exact (Classical.em _).symm

end Steps

/-- The rule of the state with a step pending: hub time, the offset and the step stand, and ACQUIRING
stays (R8, R14). -/
theorem TimeScale.edgeRule_keeps {t : TimeScale} (pending : t.step.isSome = true) (c : HubTime) :
    (t.edgeRule c).hub = t.hub ∧ (t.edgeRule c).lastOffset = t.lastOffset ∧
      (t.edgeRule c).step = t.step ∧ (t.mode = .acquiring → (t.edgeRule c).mode = .acquiring) := by
  obtain ⟨p, hp⟩ := Option.isSome_iff_exists.mp pending
  have out (x : TimeScale) (h : x.step = some p) : x.countOut.hub = x.hub ∧
      x.countOut.lastOffset = x.lastOffset ∧ x.countOut.step = x.step := by
    unfold TimeScale.countOut
    split
    · exact ⟨rfl, rfl, rfl⟩
    · exact ⟨rfl, rfl, by simp [h]⟩
  by_cases acquiring : t.mode = .acquiring
  · rw [TimeScale.edgeRule_acquiring_pending acquiring pending]
    exact ⟨rfl, rfl, rfl, fun h => h⟩
  · suffices rest : (t.edgeRule c).hub = t.hub ∧ (t.edgeRule c).lastOffset = t.lastOffset ∧
        (t.edgeRule c).step = t.step from
      ⟨rest.1, rest.2.1, rest.2.2, fun h => absurd h acquiring⟩
    by_cases near : |edgeOffset c| ≤ t.lockWindow
    · by_cases locked : t.mode = .locked
      · rw [TimeScale.edgeRule_locked_in locked near]
        exact ⟨rfl, rfl, rfl⟩
      · rw [TimeScale.edgeRule_unlocked_in (by cases h : t.mode <;> simp_all) near]
        unfold TimeScale.countIn
        split
        · exact ⟨rfl, rfl, rfl⟩
        · split
          · exact ⟨rfl, rfl, rfl⟩
          · rw [TimeScale.lock_eq]
            exact ⟨rfl, rfl, rfl⟩
    · by_cases locked : t.mode = .locked
      · rw [TimeScale.edgeRule_locked_out locked near]
        exact out (t.watched c) hp
      · rw [TimeScale.edgeRule_unlocked_out (by cases h : t.mode <;> simp_all) near]
        exact out { t with inRun := 0 } hp

/-- Settles O13: with no batch active the step is applied and every stored time moves; with one active
it waits, and the rule of the state acts. -/
theorem pendingStepIsAppliedOrDeferredAtAnEdge :
    Obligations.PendingStepIsAppliedOrDeferredAtAnEdge := by
  intro s run c p running filter reached step boundary target d
  have pending := TimeScale.stepAtEdge_eq step
  have hd : p.target (nearestBoundary c) - c = d := congrArg (· - c) (p.target_eq c)
  refine ⟨fun idle => ⟨_, exec_edge_applied running filter reached pending idle, ?_⟩,
    fun active => ⟨_, exec_edge_deferred running filter reached pending active, ?_⟩,
    fun active => ?_⟩
  · rw [hd, PendingStep.target_eq, TimeScale.applyStep_eq]
    refine ⟨rfl, rfl, rfl, rfl, rfl, rfl, rfl, rfl, fun locked => ⟨if_pos locked, if_pos locked⟩,
      rfl, rfl, rfl, rfl, rfl, rfl, rfl, fun f x busy => ?_, fun i q h => ?_, rfl, fun n => ?_,
      fun n e h => ⟨e.move d, ?_, rfl, rfl, rfl, rfl, rfl, fun k => ?_⟩⟩
    · change s.highway.line.move d = _
      rw [busy]; rfl
    · refine (State.slot_moveStored s d i).trans ?_
      rw [h]; rfl
    · have site := State.site_moveStored s d n
      constructor
      · change ((s.moveStored d).site n).change = _
        rw [site]
      · change ((s.moveStored d).site n).zonesRemoved = _
        rw [site]
    · refine (State.enrolled_moveStored s d n).trans ?_
      rw [h]; rfl
    · simp [Enrolled.move]
  · rw [PendingStep.resolve_eq]
    have kept := TimeScale.edgeRule_keeps
      (t := s.time.atEdge c (some (match p.mark with
        | some n => ⟨none, (BitVec.ofNat 40 (n * 10000000) - boundary).toInt⟩
        | none => p))) (by rfl) c
    obtain ⟨hub, offset, kept, mode⟩ := kept
    refine ⟨hub, offset, kept, ?_, rfl, rfl, rfl, rfl, rfl, rfl⟩
    by_cases acquiring : s.time.mode = .acquiring
    · rw [if_pos acquiring]
      exact mode acquiring
    · rw [if_neg acquiring]
  · intro off inWindow t watched gives
    have acts := exec_edge_deferred running filter reached pending active
    rw [PendingStep.resolve_eq] at acts
    have acts : gives (t.edgeRule c) := acts
    have watch : t.watched c = watched := rfl
    refine ⟨fun acquiring => ?_,
      fun locked => ⟨fun near => ?_, fun far few => ?_, fun far third => ?_⟩,
      fun mode => ⟨fun near lost => ?_, fun near present first => ?_, fun near present second => ?_,
        fun far few => ?_, fun far third => ?_⟩⟩
    · rw [TimeScale.edgeRule_acquiring_pending (t := t) acquiring rfl] at acts
      exact acts
    · rw [TimeScale.edgeRule_locked_in (t := t) locked near] at acts
      exact acts
    · rw [TimeScale.edgeRule_locked_few (t := t) locked far few] at acts
      exact acts
    · rw [TimeScale.edgeRule_locked_third (t := t) locked far third] at acts
      exact acts
    · rw [TimeScale.edgeRule_unlocked_in (t := t) mode near,
        TimeScale.countIn_lost (t := { t with outRun := 0 }) lost] at acts
      exact acts
    · rw [TimeScale.edgeRule_unlocked_in (t := t) mode near,
        TimeScale.countIn_few (t := { t with outRun := 0 }) present
          (by change s.time.inRun + 1 < 2; omega)] at acts
      rw [show t.inRun = 0 from first] at acts
      exact acts
    · rw [TimeScale.edgeRule_unlocked_in (t := t) mode near,
        TimeScale.countIn_enough (t := { t with outRun := 0 }) present
          (by change 2 ≤ s.time.inRun + 1; omega),
        TimeScale.lock_eq] at acts
      exact acts
    · rw [TimeScale.edgeRule_unlocked_few (t := t) mode far few] at acts
      exact acts
    · rw [TimeScale.edgeRule_unlocked_third (t := t) mode far third] at acts
      exact acts

/-! ### Slewing (R13) -/

theorem TimeScale.slewDue_iff (t : TimeScale) : t.slewDue = true ↔
    t.mode = .locked ∧ t.slew ≠ 0 ∧ (t.slewFirst = true ∨ 10000 ≤ t.pace + 1) := by
  simp [TimeScale.slewDue, and_assoc]

/-- A period brings the assembler what it may and leaves the rest of the highway (07, R141). -/
theorem State.period_assembler (s : State) (x : TimeScale) :
    s.highway.assembler.Passes (s.period x).highway.assembler ∧
      (s.period x).highway = { s.highway with assembler := (s.period x).highway.assembler } := by
  unfold State.period
  generalize hy : ({ s with time := x, port := s.port.pass } : State).hostPeriod = y
  have same : s.highway = y.highway := by rw [← hy, State.hostPeriod_highway]
  rw [same]
  rcases State.linePeriod_cases y with h | ⟨n, stamp, k, bytes, more, collect, short, one, h⟩
  · rw [h]
    refine ⟨?_, rfl⟩
    cases y.highway.assembler with
    | hunt => rfl
    | collect => exact .inl rfl
  · rw [h, collect]
    exact ⟨.inr ⟨short, more, one, rfl⟩, rfl⟩

theorem TimeScale.slewPeriod_keeps (t : TimeScale) :
    t.slewPeriod.pace = 0 ∧ t.slewPeriod.slewFirst = false ∧ t.slewPeriod.mode = t.mode ∧
      t.slewPeriod.step = t.step ∧ t.slewPeriod.flag = t.flag ∧
      t.slewPeriod.expected = t.expected ∧ t.slewPeriod.miss = t.miss := by
  unfold TimeScale.slewPeriod
  split <;> exact ⟨rfl, rfl, rfl, rfl, rfl, rfl, rfl⟩

/-- Settles O14: an adjustment is a period in which hub time is held or advances by 2. -/
theorem slewAdjustmentHoldsOrSkipsATick : Obligations.SlewAdjustmentHoldsOrSkipsATick := by
  intro s running
  refine ⟨TimeScale.slewDue_iff s.time, fun due => ⟨s.period s.time.slewPeriod, ?_, ?_⟩⟩
  · simp only [exec, execSlewAdjustment, whileRunning_running running, due, if_true]
  · obtain ⟨locked, left, -⟩ := (TimeScale.slewDue_iff s.time).mp due
    obtain ⟨pace, first, mode, step, flag, expected, miss⟩ := s.time.slewPeriod_keeps
    refine ⟨fun ahead => ?_, fun behind => ?_, ?_, ?_, ?_, ?_, ?_, ?_, ?_, s.period_sites _,
      s.period_meas _, s.period_zones _, s.period_channels _,
      (s.period_assembler _).2, (s.period_assembler _).1⟩
    · rw [State.period_time, TimeScale.slewPeriod, if_pos ahead]
      exact ⟨BitVec.add_zero _, rfl⟩
    · rw [State.period_time, TimeScale.slewPeriod, if_neg (by omega)]
      exact ⟨rfl, rfl⟩
    all_goals rw [State.period_time]
    · exact pace
    · exact first
    · exact mode.trans locked
    · exact step
    · exact flag
    · exact expected
    · exact miss

theorem State.dueRow_none {s : State} (nothing : s.dueRows = []) : s.dueRow = none := by
  rw [State.dueRow, nothing]
  split <;> rfl

/-- With rows due and RESET high, one of them is taken; the choice among several takes a free value. -/
theorem State.dueRow_some {s : State} (running : s.port.resetLow = false) (due : s.dueRows ≠ []) :
    ∃ i ∈ s.dueRows, ∃ n, s.dueRow = some (i, { s with free := n }) := by
  simp only [State.dueRow, running, Bool.false_eq_true, if_false]
  rcases rows : s.dueRows with _ | ⟨i, _ | ⟨j, rest⟩⟩
  · exact absurd rows due
  · exact ⟨i, List.mem_singleton_self i, s.free, rfl⟩
  · refine ⟨_, ?_, _, rfl⟩
    rw [List.getD_eq_getElem _ _ (by simpa using Nat.mod_lt _ (Nat.succ_pos _))]
    exact List.getElem_mem _

/-- Settles O2: an empty queue leaves the choice among the rows due, then a slew adjustment, then a
plain period. -/
theorem idleStepTakesADueRowOrAPeriod : Obligations.IdleStepTakesADueRowOrAPeriod := by
  intro s empty
  have idles : step s = idle s := by rw [step, empty]
  refine ⟨fun low => ?_, fun running due => ?_, fun running nothing slew => ?_,
    fun running nothing still => ⟨s.plainPeriod, ?_, ?_⟩⟩
  · rw [idles, idle]
    simp only [State.dueRow, State.clockRow, State.idlePeriod, low, if_true, Bool.not_true,
      Bool.false_and, Bool.false_eq_true, if_false]
  · obtain ⟨i, among, n, takes⟩ := State.dueRow_some running due
    exact ⟨i, among, n, by rw [idles, idle, takes]⟩
  · rw [idles, idle, State.dueRow_none nothing]
    simp only [State.clockRow, running, slew, Bool.not_false, Bool.and_true, if_true]
  · rw [idles, idle, State.dueRow_none nothing]
    simp only [State.clockRow, State.idlePeriod, running, still, Bool.and_false, Bool.false_eq_true,
      if_false]
  · unfold State.plainPeriod
    refine ⟨?_, ?_, ?_, ?_, ?_, fun run c r high => ?_, fun holdover => ?_, s.period_stored _,
      s.period_forming _, s.period_sites _, s.period_meas _, s.period_zones _, s.period_channels _,
      (s.period_assembler _).2, (s.period_assembler _).1⟩
    all_goals rw [State.period_time]
    iterate 5 exact rfl
    · simp only [TimeScale.plainPeriod, TimeScale.pass, TimeScale.sample, high]
    · exact if_pos holdover

/-! ### Events of the timebase states (R5, R9, R10) -/

theorem State.markUnverified_eq (s : State) :
    s.markUnverified = { s with channels := s.channels.map fun c => { c with
      queue := c.queue.map fun b =>
        if b.state = .planned ∨ b.state = .armed ∨ b.state = .cancelling ∨ b.state = .onAir
        then { b with unverified := true } else b } } := by
  simp only [State.markUnverified, Batch.active_iff]

/-- A time scale that leaves LOCKED marks every active batch (05, R96). -/
theorem State.putTime_left {s : State} {t : TimeScale} (locked : s.time.mode = .locked)
    (left : t.mode ≠ .locked) : s.putTime t = { s.markUnverified with time := t } := by
  simp only [State.putTime, locked, beq_self_eq_true, Bool.true_and, bne_iff_ne, ne_eq, left,
    not_false_eq_true, if_true]
  rfl

/-- The holdover limit moves HOLDOVER to FREE and leaves the rest (R10). -/
theorem TimeScale.checkLimit_keeps (t : TimeScale) :
    t.checkLimit.hub = t.hub ∧ t.checkLimit.slew = t.slew ∧ t.checkLimit.holdover = t.holdover ∧
      t.checkLimit.holdoverPeriods = t.holdoverPeriods ∧
      (t.holdover < t.holdoverLimit → t.checkLimit = t) ∧
      (t.mode = .holdover → t.holdoverLimit ≤ t.holdover →
        t.checkLimit.mode = .free ∧ t.checkLimit.flag = true) := by
  unfold TimeScale.checkLimit
  split
  next past => exact ⟨rfl, rfl, rfl, rfl, fun short => absurd past.2 (not_le.mpr short),
    fun _ _ => ⟨rfl, rfl⟩⟩
  next not => exact ⟨rfl, rfl, rfl, rfl, fun _ => rfl, fun mode long => absurd ⟨mode, long⟩ not⟩

/-- Settles O15: each event writes its state, its counts and the flag. -/
theorem timebaseEventsMoveTheState : Obligations.TimebaseEventsMoveTheState := by
  intro s running unverified
  refine ⟨fun x locked watch reached => ?_, fun holdover second => ?_, fun present => ?_,
    fun absent => ?_⟩
  · have due : s.time.mode = .locked ∧ (s.time.miss.any fun x => Machine.reached s.now x) :=
      ⟨locked, by rw [watch]; exact reached⟩
    simp only [exec, execMissDeadline, whileRunning_running running, if_pos due]
    rw [State.putTime_left locked (by simp), State.markUnverified_eq]
  · have due : s.time.mode = .holdover ∧ secondTicks ≤ s.time.holdoverPeriods := ⟨holdover, second⟩
    simp only [exec, execHoldoverElapsed, whileRunning_running running, if_pos due]
    refine ⟨_, rfl, ?_⟩
    generalize elapsed : ({ s.time with
      holdover := satCount 65535 s.time.holdover 1
      holdoverPeriods := s.time.holdoverPeriods - secondTicks } : TimeScale) = x
    obtain ⟨hub, slew, count, periods, below, limit⟩ := x.checkLimit_keeps
    subst elapsed
    refine ⟨count, periods, fun short => ?_, fun long => ?_, hub, slew, rfl, rfl, rfl, rfl, rfl, rfl⟩
    · rw [count] at short
      have stays := below short
      exact ⟨by rw [stays]; exact holdover, by rw [stays]⟩
    · rw [count] at long
      exact limit holdover long
  · simp only [exec, execReferenceLost, whileRunning_running running, present, if_true]
    by_cases locked : s.time.mode = .locked
    · rw [if_pos locked, State.putTime_left locked (by simp), State.markUnverified_eq]
    · rw [if_neg locked, State.putTime_eq (.inl locked)]
  · simp only [exec, execReferenceReturned, whileRunning_running running, absent, Bool.false_eq_true,
      if_false]

end Sys2Proof.Machine
end

