-- ==== Sys2Proof/Proofs/Settings.lean ====
section
/-! PROOFS. Values clamped to their ranges, the commands that write settings, and the channel context that
PIN and UNPIN keep (01, R20; 02, R22; 03, R64; 06, R107 to R110; 07, R140). -/

namespace Sys2Proof.Machine

/-! ### Clamping -/

theorem Range.clamp_eq_self {r : Range} (proper : r.lo ≤ r.hi) (v : Nat) :
    r.clamp v = v ↔ r.lo ≤ v ∧ v ≤ r.hi := by
  unfold Range.clamp
  omega

/-- A given value moves exactly when it is out of its range (09, value ranges). -/
theorem Range.moved_eq_false {r : Range} (proper : r.lo ≤ r.hi) (given : Option Nat) :
    r.moved given = false ↔ ∀ v, given = some v → r.lo ≤ v ∧ v ≤ r.hi := by
  cases given with
  | none => simp [Range.moved]
  | some v => simp [Range.moved, Range.clamp_eq_self proper]

theorem Range.clamp_ite {r : Range} (proper : r.lo ≤ r.hi) (v : Nat) :
    r.clamp v = if v < r.lo then r.lo else if r.hi < v then r.hi else v := by
  unfold Range.clamp
  split_ifs <;> omega

theorem movedOffset_eq_false (given : Option Int) :
    movedOffset offsetBound given = false ↔
      ∀ v, given = some v → -1048576 ≤ v ∧ v ≤ 1048575 := by
  cases given with
  | none => simp [movedOffset]
  | some v =>
    simp only [movedOffset, offsetBound, clampOffset, Option.any_some, bne_eq_false_iff_eq,
      Option.some.injEq, forall_eq']
    omega

/-- DONE_ADJUSTED says that a value moved, DONE that none did (08, R151). -/
theorem doneIf_cases {moved : Bool} {fits : Prop} (h : moved = false ↔ fits) :
    doneIf moved = .done ∧ fits ∨ doneIf moved = .doneAdjusted ∧ ¬ fits := by
  cases moved with
  | false => exact .inl ⟨rfl, h.mp rfl⟩
  | true => exact .inr ⟨rfl, fun f => Bool.noConfusion (h.mpr f)⟩

/-- Settles O20: field by field. -/
theorem siteFieldsTakeTheirRanges : Obligations.SiteFieldsTakeTheirRanges := by
  intro f c put fits
  have field (r : Range) (proper : r.lo ≤ r.hi) (given : Option Nat) (kept : Nat) :
      r.field given kept = put r.lo r.hi given kept := by
    cases given with
    | none => rfl
    | some v => exact Range.clamp_ite proper v
  have moved (r : Range) (proper : r.lo ≤ r.hi) (given : Option Nat) :
      r.moved given = false ↔ fits r.lo r.hi given := Range.moved_eq_false proper given
  refine ⟨?_, ?_⟩
  · unfold applySiteFields
    rw [field shareRange (by decide), field latencyRange (by decide), field marginRange (by decide),
      field warmUpRange (by decide), field idleRange (by decide), field ceilingRange (by decide),
      field intervalRange (by decide), field intervalRange (by decide), field gateRange (by decide),
      field gainRange (by decide)]
    congr 1
    · rcases f.steer with _ | _ | _ | _ | k <;> rfl
    · cases f.o with
      | none => rfl
      | some v =>
        simp only [fieldOffset, clampOffset, offsetBound]
        split_ifs <;> omega
    · cases f.seed with
      | none => rfl
      | some v => exact congrArg some ((Range.clamp_ite (by decide) v).trans (if_neg (Nat.not_lt_zero v)))
  · unfold siteFieldsMoved
    simp only [Bool.or_eq_false_iff, movedOffset_eq_false, moved shareRange (by decide),
      moved latencyRange (by decide), moved marginRange (by decide), moved warmUpRange (by decide),
      moved idleRange (by decide), moved ceilingRange (by decide), moved intervalRange (by decide),
      moved gateRange (by decide), moved gainRange (by decide), moved seedRange (by decide), and_assoc]
    exact Iff.rfl

/-! ### The commands -/

theorem nearestRate_kbit (r : LineRate) : nearestRate (rateKbit r) = r := by
  cases r <;> rfl

/-- An order is outstanding while some batch is PLANNED, ARMED or CANCELLING (07, R140). -/
theorem State.ordersOutstanding_iff (s : State) : s.ordersOutstanding = true ↔
    ∃ c b, b ∈ (s.channel c).queue ∧
      (b.state = .planned ∨ b.state = .armed ∨ b.state = .cancelling) := by
  unfold State.ordersOutstanding
  rw [vector_any]
  simp [State.channel, or_assoc]

/-- What SET HIGHWAY writes and answers at each rate (07, R140). -/
theorem nearestRate_spec (rate : Nat) :
    (rate = 1024 → nearestRate rate = .kbit1024 ∧
      doneIf (rateKbit (nearestRate rate) != rate) = .done) ∧
    (rate = 2048 → nearestRate rate = .kbit2048 ∧
      doneIf (rateKbit (nearestRate rate) != rate) = .done) ∧
    (rate = 4096 → nearestRate rate = .kbit4096 ∧
      doneIf (rateKbit (nearestRate rate) != rate) = .done) ∧
    (rate ≠ 1024 → rate ≠ 2048 → rate ≠ 4096 →
      doneIf (rateKbit (nearestRate rate) != rate) = .doneAdjusted ∧
      (rate ≤ 1536 → nearestRate rate = .kbit1024) ∧
      (1536 < rate → rate ≤ 3072 → nearestRate rate = .kbit2048) ∧
      (3072 < rate → nearestRate rate = .kbit4096)) := by
  refine ⟨by rintro rfl; exact ⟨rfl, rfl⟩, by rintro rfl; exact ⟨rfl, rfl⟩,
    by rintro rfl; exact ⟨rfl, rfl⟩, fun h1 h2 h4 => ⟨?_, fun h => if_pos h, fun h h' => ?_, fun h => ?_⟩⟩
  · have other : rateKbit (nearestRate rate) ≠ rate := by
      cases nearestRate rate
      · exact h1.symm
      · exact h2.symm
      · exact h4.symm
    rw [bne_iff_ne.mpr other]
    rfl
  · exact (if_neg (by omega)).trans (if_pos h')
  · exact (if_neg (by omega)).trans (if_neg (by omega))

/-- SET TIMEBASE as R10 and R20 state it. -/
theorem TimeScale.checkLimit_eq (t : TimeScale) :
    t.checkLimit = { t with
      mode := if t.mode == .holdover && decide (t.holdoverLimit ≤ t.holdover) then .free else t.mode
      flag := t.mode == .holdover && decide (t.holdoverLimit ≤ t.holdover) || t.flag } := by
  unfold TimeScale.checkLimit
  by_cases past : t.mode = .holdover ∧ t.holdoverLimit ≤ t.holdover
  · simp [past]
  · rw [if_neg past]
    have off : (t.mode == .holdover && decide (t.holdoverLimit ≤ t.holdover)) = false := by
      simpa using past
    simp only [off, Bool.false_eq_true, if_false, Bool.false_or]

/-- Settles O17: each command writes its own fields of its own block. -/
theorem settingsCommandsClampAndWrite : Obligations.SettingsCommandsClampAndWrite := by
  intro s label taken put fits
  have moved (r : Range) (proper : r.lo ≤ r.hi) (given : Option Nat) :
      r.moved given = false ↔ fits r.lo r.hi given := Range.moved_eq_false proper given
  refine ⟨fun f => ⟨doneIf (settleRange.moved f.settleCount || staleRange.moved f.staleLimit ||
      stepRange.moved f.stepConfirm || quietRange.moved f.quietGap),
      ?_, doneIf_cases ?_⟩,
    fun f => ⟨doneIf (edgeFilterRange.moved f.edgeFilter || lockWindowRange.moved f.lockWindow ||
      holdoverRange.moved f.holdoverLimit), ?_, doneIf_cases ?_⟩,
    fun rate => ⟨fun busy => ?_, fun idle free => ⟨doneIf (rateKbit (nearestRate rate) != rate),
      nearestRate rate, ?_, nearestRate_spec rate⟩⟩⟩
  · change execSetMeasurement label f s = _
    refine takeCommand_of_answer taken ?_ 6 label
    rfl
  · simp only [Bool.or_eq_false_iff, moved settleRange (by decide), moved staleRange (by decide),
      moved stepRange (by decide), moved quietRange (by decide), and_assoc]
    exact Iff.rfl
  · change execSetTimebase label f s = _
    refine takeCommand_of_answer taken ?_ 21 label
    rw [TimeScale.checkLimit_eq]
    rfl
  · simp only [Bool.or_eq_false_iff, moved edgeFilterRange (by decide),
      moved lockWindowRange (by decide), moved holdoverRange (by decide), and_assoc]
    exact Iff.rfl
  · refine takeCommand_of_answer taken (t := s) ?_ 22 label
    have refused : s.highway.line ≠ .idle ∨ s.endTransaction.ordersOutstanding = true :=
      busy.imp_right (State.ordersOutstanding_iff s).mpr
    exact if_pos refused
  · refine takeCommand_of_answer taken ?_ 22 label
    have allowed : ¬ (s.highway.line ≠ .idle ∨ s.endTransaction.ordersOutstanding = true) := by
      rintro (busy | orders)
      · exact busy idle
      · obtain ⟨c, b, hb, state⟩ := (State.ordersOutstanding_iff s).mp orders
        have not := free c b hb
        tauto
    exact if_neg allowed

/-! ### The context of a channel -/

/-- The captured entry of a site: its figures when it is a member (06, R107). -/
theorem State.capture_entry (s : State) (c : ChannelNo) (n : SiteNo) :
    (s.capture c).entries[n] =
      (s.enrolled n).bind fun e => if e.carriers[c].isSome then some e.figures else none := by
  simp [State.capture]

/-- Settles O40: PIN writes the context it finds or captures, UNPIN none. -/
theorem pinAndUnpinKeepTheContext : Obligations.PinAndUnpinKeepTheContext := by
  intro s label taken size write
  refine ⟨fun c large => ⟨?_, ?_⟩, fun c x present => ?_, fun c absent => ⟨s.capture c, rfl, fun n h => ?_,
    fun n e h => ?_, ?_⟩, fun c => ?_⟩
  · refine takeCommand_of_answer taken (t := s) ?_ 17 label
    rw [answerPin, channelOf_eq_none.mpr large]
    rfl
  · refine takeCommand_of_answer taken (t := s) ?_ 18 label
    rw [answerUnpin, channelOf_eq_none.mpr large]
    rfl
  · refine takeCommand_of_answer taken (t := write c (some x) true) ?_ 17 label
    simp only [answerPin, channelOf_val, State.channel_endTransaction, present, Option.getD_some]
    rfl
  · rw [State.capture_entry, h]
    rfl
  · rw [State.capture_entry, h]
    rfl
  · refine takeCommand_of_answer taken (t := write c (some (s.capture c)) true) ?_ 17 label
    simp only [answerPin, channelOf_val, State.channel_endTransaction, absent, Option.getD_none]
    rfl
  · refine takeCommand_of_answer taken (t := write c none false) ?_ 18 label
    simp only [answerUnpin, channelOf_val, State.channel_endTransaction]
    rfl

end Sys2Proof.Machine
end

