-- ==== Sys2Proof/Proofs/PortAndStatus.lean ====
section
/-! PROOFS. The port and what the part reports of itself: transactions and the response frame, power-on and
RESET, the attention line, READ STATUS (08, R148 to R160; 09, Response frame). -/

namespace Sys2Proof.Machine

/-! ### What the part reports (R155 to R157) -/

theorem State.heldCount_pos (s : State) :
    0 < s.heldCount ↔ ∃ c b, b ∈ (s.channel c).queue ∧
      (b.state = .done ∨ b.state = .abandoned ∨ b.state = .cancelled) := by
  have some : 0 < s.heldCount ↔ s.channels.toList.any (fun c => c.queue.any Batch.terminal) = true := by
    rw [State.heldCount, Nat.pos_iff_ne_zero, Ne, List.sum_eq_zero_iff]
    simp [Channel.held, List.filter_eq_nil_iff, -Vector.any_toList]
  rw [some, vector_any]
  simp [State.channel, Batch.terminal_iff]

theorem State.siteChange_iff (s : State) :
    s.siteChange = true ↔ ∃ n, (s.site n).change = true := by
  rw [State.siteChange, vector_any]
  rfl

theorem State.zoneFail_iff (s : State) :
    s.zoneFail = true ↔ ∃ z r, s.zone z = some r ∧ r.failFlag = true := by
  rw [State.zoneFail, vector_any]
  simp [State.zone, Option.any_eq_true]

/-- Settles O6: the causes, one by one. -/
theorem attentionFollowsItsCauses : Obligations.AttentionFollowsItsCauses := by
  intro s
  simp only [State.attn, Bool.and_eq_true, Bool.not_eq_true', Bool.or_eq_true, decide_eq_true_eq,
    State.heldCount_pos, State.siteChange_iff, State.zoneFail_iff, or_assoc]

theorem Batch.live_eq (b : Batch) : (!b.terminal) =
    (b.state == .queued || b.state == .planned || b.state == .armed || b.state == .cancelling ||
      b.state == .onAir) := by
  cases h : b.state <;> simp [Batch.terminal, h]

theorem Batch.terminal_eq (b : Batch) : b.terminal =
    (b.state == .done || b.state == .abandoned || b.state == .cancelled) := by
  cases h : b.state <;> simp [Batch.terminal, h]

theorem Channel.held_eq (c : Channel) : c.held = (c.queue.filter fun b =>
    b.state == .done || b.state == .abandoned || b.state == .cancelled).length := by
  rw [Channel.held, funext Batch.terminal_eq]

theorem State.channels_toList (s : State) : s.channels.toList = (List.finRange 4).map s.channel :=
  List.ext_getElem (by simp) fun i h _ => by simp [State.channel]

/-- Settles O8: the snapshot, then the error count alone. -/
theorem readStatusReportsAndClearsTheErrorCount :
    Obligations.ReadStatusReportsAndClearsTheErrorCount := by
  intro s label taken
  refine ⟨s.statusReport, ?_, rfl, ?_, fun n => ?_, ?_, fun z => ?_, ?_, ?_⟩
  · change execReadStatus label s = _
    refine takeCommand_of_answer taken ?_ 23 label
    rfl
  · simp only [State.statusReport, State.channels_toList, List.map_map, Function.comp_def,
      Channel.status, Channel.held_eq, ↓Batch.live_eq]
  · simp [State.statusReport]
  · exact List.Pairwise.filter (fun n : SiteNo => (s.site n).change) (List.pairwise_lt_finRange 48)
  · simp [State.statusReport, Option.any_eq_true]
  · exact List.Pairwise.filter (fun z : ZoneNo => (s.zone z).any Zone.failFlag)
      (List.pairwise_lt_finRange 192)
  · simp only [State.statusReport, List.map_map, Function.comp_def, Channel.status]
    rfl

/-! ### Power-on and RESET (R160) -/

theorem State.reset_atPowerOn (free : Nat) (pending : List Instr) (port : Port) :
    ({ State.reset with free := free, pending := pending, port := port } : State).AtPowerOn where
  hub := rfl
  lost := rfl
  mode := rfl
  filter := ⟨rfl, rfl⟩
  edges := ⟨rfl, rfl, rfl⟩
  watch := ⟨rfl, rfl⟩
  slew := ⟨rfl, rfl⟩
  step := rfl
  holdover := rfl
  flag := rfl
  timebase := ⟨rfl, rfl, rfl⟩
  sites n := by simp [State.site, State.reset, SiteRecord.reset]
  slots := ⟨fun i => by simp [State.slot, State.reset, Measurement.reset], rfl⟩
  measurement := ⟨rfl, rfl, rfl, rfl⟩
  zones z := by simp [State.zone, State.reset]
  channels c := by
    simp [State.channel, State.reset, Channel.reset, ChannelSettings.reset, ChainSummary.zero]
  highway := rfl

/-- Settles O7: power-on conditions, with the port as each event leaves it. -/
theorem powerOnAndResetGivePowerOnValues : Obligations.PowerOnAndResetGivePowerOnValues := by
  refine ⟨fun s => ⟨s.powerOn, rfl, State.reset_atPowerOn _ _ _, rfl, ?_, rfl⟩,
    fun s => ⟨_, rfl, State.reset_atPowerOn _ _ _, rfl, rfl, rfl, rfl, fun some => ?_, rfl, rfl⟩,
    fun s => rfl, State.reset_atPowerOn 0 [] Port.reset⟩
  · exact (by decide +kernel : State.reset.attn = false)
  · have in_progress := Option.isSome_iff_ne_none.mpr some
    simp [in_progress]

/-! ### Transactions and the response frame (R148 to R152) -/

/-- The big-endian bytes of a count (09, Value encodings). -/
theorem natBytes_eq (n v : Nat) :
    natBytes n v = (List.range n).map fun i => BitVec.ofNat 8 (v / 256 ^ (n - 1 - i)) := by
  induction n with
  | zero => rfl
  | succ n ih =>
    rw [natBytes, ih, List.range_succ_eq_map, List.map_cons, List.map_map]
    refine congrArg₂ List.cons rfl (List.map_congr_left fun i _ => ?_)
    simp only [Function.comp_apply]
    congr 3
    omega

theorem TimebaseState.code_eq (m : TimebaseState) : m.code = match m with
    | .acquiring => 0 | .locked => 1 | .holdover => 2 | .free => 3 := by
  cases m <;> rfl

theorem Result.code_eq (r : Result) : natBytes 1 r.code = [match r with
    | .done => 0 | .doneAdjusted => 1 | .pending => 2 | .working => 3 | .noSuch => 4
    | .exists => 5 | .inUse => 6 | .full => 7 | .invalid => 8 | .conflict => 9
    | .state => 10 | .tooLate => 11] := by
  cases r <;> rfl

/-- The bytes that the length and the check field of a response frame cover (09, Response frame). -/
def Transaction.covered (x : Transaction) : List Byte :=
  match x.presented with
  | .working => [0, 0] ++ natBytes 5 0 ++ [3] ++ x.summary.bytes
  | .initial => [0, 0] ++ natBytes 5 0 ++ [4] ++ x.summary.bytes
  | .stored r => [r.answered, r.label] ++ natBytes 5 r.taken.toNat ++ natBytes 1 r.result.code ++
      x.summary.bytes ++ r.body.bytes

theorem Transaction.frame_eq (x : Transaction) : x.frame = responseFrame x.covered := by
  unfold Transaction.frame Transaction.covered
  cases x.presented <;> rfl

theorem StatusSummary.bytes_eq (x : StatusSummary) : x.bytes = [BitVec.ofNat 8 x.held,
    BitVec.ofNat 8 ((if x.siteChange then 128 else 0) + (if x.zoneFail then 64 else 0) +
      (if x.timeFlag then 32 else 0) + x.mode.code)] := by
  obtain ⟨held, site, zone, time, mode⟩ := x
  simp only [StatusSummary.bytes, natBytes, pow_zero, Nat.div_one]
  cases site <;> cases zone <;> cases time <;> rfl

/-- Without a command or a stored response the frame has 14 bytes (09, Response frame). -/
theorem Transaction.frame_length (x : Transaction)
    (none : x.presented = .working ∨ x.presented = .initial) : x.frame.length = 14 := by
  rw [Transaction.frame_eq]
  rcases none with none | none <;>
  simp [Transaction.covered, none, responseFrame, withCheck, natBytes, StatusSummary.bytes]

/-- Settles O3: each row of the port in turn, and the frame that a transaction sends. -/
theorem portRowsActAsStated : Obligations.PortRowsActAsStated := by
  refine ⟨?_, fun s => ⟨?_, ?_⟩, fun s running => ⟨?_, fun f forming => ⟨?_, fun old => ?_⟩, ?_⟩⟩
  · intro x bytes code mode summary covered
    have spelled : bytes = natBytes := funext fun n => funext fun v => (natBytes_eq n v).symm
    have hcovered : covered = x.covered := by
      have coded (r : Result) : natBytes 1 r.code = [code r] := Result.code_eq r
      have moded : mode = x.summary.mode.code := (TimebaseState.code_eq _).symm
      have summed : x.summary.bytes = summary := by
        rw [StatusSummary.bytes_eq, ← moded]
      unfold Transaction.covered
      rw [summed, ← spelled]
      cases presented : x.presented with
      | stored r => simp only [covered, presented, ← coded, spelled]
      | _ => simp only [covered, presented]
    refine ⟨?_, x.frame_length, fun k inside => ?_, fun k beyond => ?_⟩
    · rw [hcovered, spelled, Transaction.frame_eq]
      rfl
    · rw [Transaction.pdo, List.getD_eq_getElem _ _ inside, List.getElem?_eq_getElem inside]
    · rw [Transaction.pdo, List.getD_eq_default _ _ beyond]
      rfl
  · intro idle
    rw [Port.pdo, idle]
    rfl
  · intro x busy
    rw [Port.pdo, busy]
    rfl
  · refine ⟨⟨s.port.presents, s.statusSummary, []⟩, ?_, rfl, fun forming => ?_, fun r none stored => ?_,
      fun none empty => ?_, ?_, s.siteChange_iff, s.zoneFail_iff, rfl, rfl⟩
    · simp only [exec, execTransactionBegin, running, Bool.false_eq_true, if_false]
    · simp [Port.presents, Option.isSome_iff_ne_none.mpr forming]
    · simp [Port.presents, none, stored]
    · simp [Port.presents, none, empty]
    · exact congrArg List.sum (List.map_congr_left fun c _ => c.held_eq)
  · simp only [exec, execResponseReady, whileRunning_running running, forming]
  · refine List.mem_append_right _ ?_
    simp [rowIf, forming, Forming.ready, old]
  · intro identifier label taken
    refine ⟨_, _, fun x h => ?_, fun x h => ?_, takeCommand_of_answer taken (t := s) rfl _ _⟩
    · rw [h]; rfl
    · rw [h]; rfl

end Sys2Proof.Machine
end

