-- ==== Sys2Proof/Proofs/SiteAndZoneCommands.lean ====
section
/-! PROOFS. The commands that amend and report a site record, and those of the zone table (02, R33 to R36;
04, R69 to R74). -/

namespace Sys2Proof.Machine

theorem steerOf_eq_none {v : Nat} : steerOf v = none ↔ 3 ≤ v := by
  rcases v with _ | _ | _ | v <;> simp [steerOf]

theorem policyOf_eq_none {v : Nat} : policyOf v = none ↔ 3 ≤ v := by
  rcases v with _ | _ | _ | v <;> simp [policyOf]

theorem siteFieldsInvalid_iff (f : SiteFields) : siteFieldsInvalid f = true ↔
    (∃ l c, f.members = some l ∧ c ∈ l ∧ 4 ≤ c) ∨ ∃ v, f.steer = some v ∧ 3 ≤ v := by
  simp [siteFieldsInvalid, Option.any_eq_true, steerOf_eq_none]

/-! ### AMEND SITE (R33 to R35) -/

section Amend
variable {s : State} {n : SiteNo} {f : SiteFields}

theorem answerAmendSite_invalid (h : siteFieldsInvalid f = true ∨ f.seed.isSome = true) :
    answerAmendSite n.val f s = refuse .invalid s := by
  simp [answerAmendSite, h]

theorem answerAmendSite_vacant (valid : siteFieldsInvalid f = false) (noSeed : f.seed = none)
    (vacant : s.enrolled n = none) : answerAmendSite n.val f s = refuse .noSuch s := by
  simp [answerAmendSite, valid, noSeed, vacant]

theorem answerAmendSite_enrolled (valid : siteFieldsInvalid f = false) (noSeed : f.seed = none)
    {e : Enrolled} (enrolled : s.enrolled n = some e) :
    answerAmendSite n.val f s = if e.phase = .retiring then refuse .state s
      else ⟨doneIf (siteFieldsMoved f), .empty, s.setSite n ((s.site n).put (e.amend f))⟩ := by
  simp [answerAmendSite, valid, noSeed, enrolled]

end Amend

/-- A record written back sets the change flag when its state has moved (02, R27). -/
theorem SiteRecord.put_enrolled {r : SiteRecord} {e : Enrolled} (h : r.body = some e) (x : Enrolled) :
    r.put x = ⟨r.change || (x.phase != e.phase), r.zonesRemoved, some x⟩ := by
  rw [SiteRecord.put, h, Option.map_some, bne_comm]
  rfl

/-- Settles O22: the checks in order, then the record amended. -/
theorem amendSiteChangesFieldsInPlace : Obligations.AmendSiteChangesFieldsInPlace := by
  intro s label f taken
  refine ⟨fun n large => ?_, fun n bad => ?_, fun n members steer seed => ?_⟩
  · refine takeCommand_of_answer taken (t := s) ?_ 2 label
    rw [answerAmendSite, siteOf_eq_none.mpr large]
    rfl
  · refine takeCommand_of_answer taken (t := s) (answerAmendSite_invalid ?_) 2 label
    rw [siteFieldsInvalid_iff, Option.isSome_iff_ne_none, or_assoc]
    exact bad
  · have valid : siteFieldsInvalid f = false := by
      rw [Bool.eq_false_iff, Ne, siteFieldsInvalid_iff]
      rintro (⟨l, c, some, among, large⟩ | ⟨v, some, large⟩)
      · exact absurd (members l c some among) (not_lt.mpr large)
      · exact absurd (steer v some) (not_lt.mpr large)
    refine ⟨fun vacant => ?_, fun e enrolled retiring => ?_, fun e enrolled live => ?_⟩
    · exact takeCommand_of_answer taken (t := s)
        (answerAmendSite_vacant (s := s.endTransaction) valid seed vacant) 2 label
    · exact takeCommand_of_answer taken (t := s)
        ((answerAmendSite_enrolled (s := s.endTransaction) valid seed enrolled).trans
          (if_pos retiring)) 2 label
    · intro config carriers e'
      have amended : e.amend f = e' := rfl
      refine takeCommand_of_answer taken
        ((answerAmendSite_enrolled (s := s.endTransaction) valid seed enrolled).trans ?_) 2 label
      refine (if_neg live).trans ?_
      rw [SiteRecord.put_enrolled (r := s.endTransaction.site n) enrolled, amended]
      rfl

/-! ### QUERY SITE (R36; 03, R66) -/

theorem waitPlace_eq_some {n : SiteNo} {w : WaitEntry} {back : List WaitEntry} (here : w.site = n) :
    ∀ {front : List WaitEntry}, (∀ x ∈ front, x.site ≠ n) →
      waitPlace n (front ++ w :: back) = some (front.length + 1)
  | [], _ => by simp [waitPlace, here]
  | x :: front, others => by
    have not : x.site ≠ n := others x List.mem_cons_self
    have rest := waitPlace_eq_some (back := back) here
      fun y hy => others y (List.mem_cons_of_mem x hy)
    simp [waitPlace, not, rest]

theorem waitPlace_eq_none {n : SiteNo} {wait : List WaitEntry} (none : ∀ x ∈ wait, x.site ≠ n) :
    waitPlace n wait = .none := by
  induction wait with
  | nil => rfl
  | cons x wait ih =>
    rw [List.forall_mem_cons] at none
    simp [waitPlace, none.1, ih none.2]

theorem State.holdsProbe_eq_false {s : State} {n : SiteNo} :
    s.holdsProbe n = false ↔ s.slotOf n = none ∧ ∀ w ∈ s.meas.wait, w.site ≠ n := by
  simp [State.holdsProbe]

theorem State.waitOf_eq_none {s : State} {n : SiteNo} (none : ∀ w ∈ s.meas.wait, w.site ≠ n) :
    s.waitOf n = .none := by
  simpa [State.waitOf] using none

theorem State.waitOf_eq_some {s : State} {n : SiteNo} {w : WaitEntry} {front back : List WaitEntry}
    (wait : s.meas.wait = front ++ w :: back) (here : w.site = n) (others : ∀ x ∈ front, x.site ≠ n) :
    s.waitOf n = some w := by
  rw [State.waitOf, wait, List.find?_append, List.find?_eq_none.mpr (by simpa using others)]
  simp [here]

/-- Settles O23: the report by the probe holding, then the record cleared. -/
theorem querySiteReportsAndClearsTwoFlags : Obligations.QuerySiteReportsAndClearsTwoFlags := by
  intro s label taken
  refine ⟨fun n large => ?_, fun n vacant => ?_, fun n e enrolled => ⟨s.siteReport n e, ?_, rfl, rfl, rfl,
    fun idle => ?_, fun i p slotOf slot => ?_, fun w front back noSlot wait here others => ?_⟩⟩
  · refine takeCommand_of_answer taken (t := s) ?_ 3 label
    rw [answerQuerySite, siteOf_eq_none.mpr large]
    rfl
  · refine takeCommand_of_answer taken ?_ 3 label
    simp only [answerQuerySite, siteOf_val, show s.endTransaction.enrolled n = none from vacant,
      SiteRecord.cleared, show (s.endTransaction.site n).body = none from vacant]
    rfl
  · refine takeCommand_of_answer taken ?_ 3 label
    simp only [answerQuerySite, siteOf_val, show s.endTransaction.enrolled n = some e from enrolled,
      SiteRecord.cleared, show (s.endTransaction.site n).body = some e from enrolled]
    rfl
  · obtain ⟨noSlot, noWait⟩ := State.holdsProbe_eq_false.mp idle
    simp [State.siteReport, State.holding, noSlot, waitPlace_eq_none noWait, State.waitOf_eq_none noWait]
  · refine ⟨by simp [State.siteReport, State.holding, slotOf, slot], fun live => ?_⟩
    simp [State.siteReport, slotOf, slot, live]
  · refine ⟨by simp [State.siteReport, State.holding, noSlot, wait, waitPlace_eq_some here others],
      fun live => ?_⟩
    simp [State.siteReport, noSlot, live, State.waitOf_eq_some wait here others]

/-! ### The zone table (04, R69 to R74) -/

theorem offsetClamp_eq (v : Int) : clampOffset offsetBound v = max (-1048576) (min 1048575 v) := by
  simp only [clampOffset, offsetBound]
  omega

theorem State.pairTaken_true {s : State} {a b : SiteNo} : s.pairTaken a b = true ↔
    ∃ y q, s.zone y = some q ∧ (q.siteA = a ∧ q.siteB = b ∨ q.siteA = b ∧ q.siteB = a) := by
  simp [State.pairTaken_iff, Zone.pairs]

theorem State.zonable_iff {s : State} {n : SiteNo} :
    s.zonable n = true ↔ ∃ e, s.enrolled n = some e ∧ e.phase ≠ .retiring := by
  simp [State.zonable, Option.any_eq_true]

/-- G and B move when one of them is out of its range (04, R71). -/
theorem zoneMoved_eq_false (g : Option Int) (budget : Option Nat) :
    (movedOffset offsetBound g || budgetRange.moved budget) = false ↔
      (∀ v, g = some v → -1048576 ≤ v ∧ v ≤ 1048575) ∧
      ∀ v, budget = some v → 1 ≤ v ∧ v ≤ 1048576 := by
  rw [Bool.or_eq_false_iff, movedOffset_eq_false, Range.moved_eq_false (by decide)]
  exact Iff.rfl

theorem doneIf_fits {moved : Bool} {fits : Prop} (h : moved = false ↔ fits) :
    (fits → doneIf moved = .done) ∧ (¬ fits → doneIf moved = .doneAdjusted) := by
  rcases doneIf_cases h with ⟨result, yes⟩ | ⟨result, no⟩
  · exact ⟨fun _ => result, fun no => absurd yes no⟩
  · exact ⟨fun yes => absurd yes no, fun _ => result⟩

section Define
variable {s : State} {z : ZoneNo} {a b : SiteNo} {g : Int} {budget code : Nat} {p : Policy}

theorem answerDefineZone_valid (differ : a ≠ b) (policy : policyOf code = some p) :
    answerDefineZone z.val ⟨a.val, b.val, g, budget, code⟩ s =
      if (s.zone z).isSome then refuse .exists s
      else if !(s.zonable a && s.zonable b) then refuse .noSuch s
      else if s.pairTaken a b then refuse .conflict s
      else
        ⟨doneIf (movedOffset offsetBound (some g) || budgetRange.moved (some budget)), .empty,
          s.setZone z (some (.fresh a b g budget p))⟩ := by
  simp only [answerDefineZone, zoneOf_val, siteOf_val, policy, if_neg differ]

end Define

theorem answerDefineZone_invalid {s : State} {z : Nat} {f : ZoneDefinition}
    (bad : 192 ≤ z ∨ 48 ≤ f.siteA ∨ 48 ≤ f.siteB ∨ f.siteA = f.siteB ∨ 3 ≤ f.policy) :
    answerDefineZone z f s = refuse .invalid s := by
  unfold answerDefineZone
  split
  next y a b p hy ha hb hp =>
    rw [siteOf_eq_some] at ha hb
    have same : a = b := by
      rcases bad with h | h | h | h | h
      · rw [zoneOf_eq_none.mpr h] at hy
        cases hy
      · omega
      · omega
      · exact Fin.ext (by omega)
      · rw [policyOf_eq_none.mpr h] at hp
        cases hp
    exact if_pos same
  next => rfl

/-- The sites, the policy or the number of an AMEND ZONE that it refuses (04, R72). -/
theorem answerAmendZone_invalid {s : State} {z : Nat} {f : ZoneFields}
    (bad : 192 ≤ z ∨ f.siteA ≠ none ∨ f.siteB ≠ none ∨ ∃ v, f.policy = some v ∧ 3 ≤ v) :
    answerAmendZone z f s = refuse .invalid s := by
  unfold answerAmendZone
  split
  next => rfl
  next y hy =>
    refine if_pos ?_
    rcases bad with h | h | h | ⟨v, hv, h⟩
    · rw [zoneOf_eq_none.mpr h] at hy
      cases hy
    · simp [Option.isSome_iff_ne_none.mpr h]
    · simp [Option.isSome_iff_ne_none.mpr h]
    · simp [hv, policyOf_eq_none.mpr h]

section Amend
variable {s : State} {z : ZoneNo} {f : ZoneFields}

/-- The check that AMEND ZONE makes of a policy code that is given (04, R72). -/
theorem policies_known (policy : ∀ v, f.policy = some v → v < 3) :
    (f.policy.any fun v => (policyOf v).isNone) = false := by
  rw [Bool.eq_false_iff, Ne, Option.any_eq_true]
  rintro ⟨v, hv, unknown⟩
  have large := policyOf_eq_none.mp (Option.isNone_iff_eq_none.mp unknown)
  exact absurd (policy v hv) (not_lt.mpr large)

theorem answerAmendZone_vacant (noA : f.siteA = none) (noB : f.siteB = none)
    (policy : ∀ v, f.policy = some v → v < 3) (vacant : s.zone z = none) :
    answerAmendZone z.val f s = refuse .noSuch s := by
  simp [answerAmendZone, noA, noB, policies_known policy, vacant]

theorem answerAmendZone_present (noA : f.siteA = none) (noB : f.siteB = none)
    (policy : ∀ v, f.policy = some v → v < 3) {q : Zone} (present : s.zone z = some q) :
    answerAmendZone z.val f s =
      ⟨doneIf (movedOffset offsetBound f.g || budgetRange.moved f.budget), .empty,
        s.setZone z (some (q.amend f))⟩ := by
  simp [answerAmendZone, noA, noB, policies_known policy, present]

end Amend

/-- The fields of AMEND ZONE, each kept or clamped (04, R72). -/
theorem Zone.amend_eq (q : Zone) (f : ZoneFields) : q.amend f = { q with
    g := match f.g with
      | some v => max (-1048576) (min 1048575 v)
      | none => q.g
    budget := match f.budget with
      | some v => max 1 (min 1048576 v)
      | none => q.budget
    policy := match f.policy with
      | some 0 => .warn
      | some 1 => .dropWorse
      | some 2 => .hold
      | _ => q.policy } := by
  obtain ⟨a, b, g, budget, policy⟩ := f
  rcases policy with _ | _ | _ | _ | v <;> rfl

/-- Settles O33: each command by its checks in their order. -/
theorem zoneCommandsWriteAndReportRecords : Obligations.ZoneCommandsWriteAndReportRecords := by
  intro s label taken bound fitsG fitsB write
  have written (z : ZoneNo) (o : Option Zone) :
      s.endTransaction.setZone z o = (write z o).endTransaction := rfl
  refine ⟨fun z f bad => takeCommand_of_answer taken (t := s) (answerDefineZone_invalid bad) 7 label,
    fun z a b g budget p code differ hcode => ?_,
    fun z f bad => takeCommand_of_answer taken (t := s) (answerAmendZone_invalid bad) 8 label,
    fun z f noA noB policy => ⟨fun vacant => takeCommand_of_answer taken (t := s)
      (answerAmendZone_vacant (s := s.endTransaction) noA noB policy vacant) 8 label,
      fun q present => ?_⟩,
    fun z large => ⟨?_, ?_⟩, fun z => ⟨fun vacant => ⟨?_, ?_⟩, fun q present => ⟨?_, ?_⟩⟩⟩
  · intro define usable taken' fresh
    have policy : policyOf code = some p := by
      rw [hcode]
      cases p <;> rfl
    have checked := answerDefineZone_valid (s := s.endTransaction) (z := z) (g := g) (budget := budget)
      differ policy
    have zonable (n : SiteNo) : s.endTransaction.zonable n = true ↔ usable n := State.zonable_iff
    have paired : s.endTransaction.pairTaken a b = true ↔ taken' := State.pairTaken_true
    refine ⟨fun present => ?_, fun vacant not => ?_, fun vacant useA useB pair => ?_,
      fun vacant useA useB free => ?_⟩
    · exact takeCommand_of_answer taken (t := s)
        (checked.trans (if_pos (Option.isSome_iff_ne_none.mpr present))) 7 label
    all_goals
      have empty : ¬ (s.endTransaction.zone z).isSome = true := by
        rw [show s.endTransaction.zone z = none from vacant]
        exact Bool.false_ne_true
      have checked := checked.trans (if_neg empty)
    · refine takeCommand_of_answer taken (t := s) (checked.trans (if_pos ?_)) 7 label
      rw [Bool.not_eq_true', Bool.eq_false_iff, Ne, Bool.and_eq_true, zonable, zonable]
      exact not
    all_goals
      have usable : ¬ (!(s.endTransaction.zonable a && s.endTransaction.zonable b)) = true := by
        simp [(zonable a).mpr useA, (zonable b).mpr useB]
      have checked := checked.trans (if_neg usable)
    · exact takeCommand_of_answer taken (t := s) (checked.trans (if_pos (paired.mpr pair))) 7 label
    · have checked := checked.trans (if_neg fun pair => free (paired.mp pair))
      have built : Zone.fresh a b g budget p = fresh := by
        rw [Zone.fresh, offsetClamp_eq]
        rfl
      rw [built] at checked
      have moved : (movedOffset offsetBound (some g) || budgetRange.moved (some budget)) = false ↔
          fitsG g ∧ fitsB budget := by
        simpa only [Option.some.injEq, forall_eq'] using zoneMoved_eq_false (some g) (some budget)
      obtain ⟨fit, unfit⟩ := doneIf_fits moved
      refine ⟨fun fits => ?_, fun fits => ?_⟩
      · refine takeCommand_of_answer taken (checked.trans ?_) 7 label
        rw [fit fits]
        rfl
      · refine takeCommand_of_answer taken (checked.trans ?_) 7 label
        rw [unfit fits]
        rfl
  · intro q' fits
    have amended := answerAmendZone_present (s := s.endTransaction) noA noB policy present
    have built : q.amend f = q' := q.amend_eq f
    rw [built] at amended
    obtain ⟨fit, unfit⟩ := doneIf_fits (zoneMoved_eq_false f.g f.budget)
    refine ⟨fun yes => ?_, fun no => ?_⟩
    · refine takeCommand_of_answer taken (amended.trans ?_) 8 label
      rw [fit yes]
      rfl
    · refine takeCommand_of_answer taken (amended.trans ?_) 8 label
      rw [unfit no]
      rfl
  · refine takeCommand_of_answer taken (t := s) ?_ 9 label
    rw [answerDropZone, zoneOf_eq_none.mpr large]
    rfl
  · refine takeCommand_of_answer taken (t := s) ?_ 10 label
    rw [answerQueryZone, zoneOf_eq_none.mpr large]
    rfl
  · refine takeCommand_of_answer taken (t := s) ?_ 9 label
    simp only [answerDropZone, zoneOf_val, show s.endTransaction.zone z = none from vacant,
      Option.isNone_none, if_true]
    rfl
  · refine takeCommand_of_answer taken (t := s) ?_ 10 label
    simp only [answerQueryZone, zoneOf_val, show s.endTransaction.zone z = none from vacant]
    rfl
  · refine takeCommand_of_answer taken (t := write z none) ?_ 9 label
    simp only [answerDropZone, zoneOf_val, show s.endTransaction.zone z = some q from present,
      Option.isNone_some, Bool.false_eq_true, if_false]
    rfl
  · refine takeCommand_of_answer taken (t := write z (some { q with failFlag := false })) ?_ 10 label
    simp only [answerQueryZone, zoneOf_val, show s.endTransaction.zone z = some q from present]
    rfl

end Sys2Proof.Machine
end

