-- ==== Sys2Proof/Proofs/Inbound.lean ====
section
/-! PROOFS. The inbound assembler: the frames it completes, and those that are counted and discarded (07,
R141 to R145). -/

namespace Sys2Proof.Machine

/-- A frame ends at its kind byte when that is neither kind, an echo at 8 bytes and a receipt at 11
(07, R141). -/
theorem readInboundFrame_isSome (kind : Byte) (rest : List Byte) :
    (readInboundFrame (155 :: kind :: rest)).isSome = true ↔
      kind = 129 ∧ rest.length = 6 ∨ kind = 130 ∧ rest.length = 9 ∨ kind ≠ 129 ∧ kind ≠ 130 := by
  unfold readInboundFrame
  dsimp only
  rw [if_neg (by decide), List.length_cons, List.length_cons]
  by_cases echo : kind = 129
  · rw [if_pos echo]
    by_cases size : rest.length = 6
    · rw [if_neg (by omega)]
      refine iff_of_true ?_ (.inl ⟨echo, size⟩)
      split
      · split <;> rfl
      · rfl
    · rw [if_pos (by omega)]
      simp [echo, size]
  · rw [if_neg echo]
    by_cases receipt : kind = 130
    · rw [if_pos receipt]
      by_cases size : rest.length = 9
      · rw [if_neg (by omega)]
        refine iff_of_true ?_ (.inr (.inl ⟨receipt, size⟩))
        split
        · split_ifs <;> rfl
        · rfl
      · rw [if_pos (by omega)]
        simp [receipt, size]
    · rw [if_neg receipt]
      exact iff_of_true rfl (.inr (.inr ⟨echo, receipt⟩))

/-- A receipt matches no entry when its tag is on no record, or on one of another channel, or the entry of
its site there is not SENT (07, R145). -/
theorem State.matchReceipt_eq_none {s : State} {n : SiteNo} {channel tag : Nat}
    (none : (∀ c b, b ∈ (s.channel c).queue → b.tag ≠ tag) ∨
      ∃ c b, s.findBatch tag = some (c, b) ∧
        (c.val ≠ channel ∨ ∀ e, b.entryOf n = some e → e.order ≠ .sent)) :
    s.matchReceipt n channel tag = .none := by
  rcases none with absent | ⟨c, b, found, other⟩
  · have nowhere : s.findBatch tag = .none := by
      rw [State.findBatch_eq_none]
      rintro c among
      obtain ⟨b, hb, same⟩ := List.mem_map.mp among
      exact absent c b hb same
    simp [State.matchReceipt, nowhere]
  · cases entry : b.entryOf n with
    | none => simp [State.matchReceipt, found, entry]
    | some e =>
      have not : ¬ (c.val = channel ∧ e.order = .sent) := fun h =>
        other.elim (absurd h.1) fun unsent => unsent e entry h.2
      simp [State.matchReceipt, found, entry, not]

theorem verdictOf_eq_none {v : Nat} : verdictOf v = none ↔ 3 ≤ v := by
  rcases v with _ | _ | _ | v <;> simp [verdictOf]

/-- Settles O53: what completes a frame, then each row that counts or begins one. -/
theorem inboundFramesAreCountedOrCollected : Obligations.InboundFramesAreCountedOrCollected := by
  refine ⟨readInboundFrame_isSome, fun s stamp kind bytes i collect complete => ?_, fun s running => ?_⟩
  · have row : i ∈ s.highway.assembler.complete.toList := by
      rw [collect, Assembler.complete, complete]
      exact List.mem_singleton_self i
    exact List.mem_append_left _ (List.mem_append_right _ row)
  · intro counted
    have discards : s.huntAgain.discardFrame = counted := rfl
    refine ⟨fun stamp hunt => ?_, fun stamp a k bytes collect => ?_, fun reason => ?_,
      fun site channel tag verdict turn out => ?_, fun site channel tag verdict turn unmatched => ?_⟩
    · simp only [exec, execFlagFound, whileRunning_running running, hunt]
    · simp only [exec, execFlagFound, whileRunning_running running, collect]
    · simp only [exec, execInboundFrameDiscarded, whileRunning_running running]
      cases reason <;> rw [discards]
    · simp only [exec, execReceipt, whileRunning_running running]
      split
      next n v hn hv =>
        rcases out with large | large
        · rw [siteOf_eq_none.mpr large] at hn
          cases hn
        · rw [verdictOf_eq_none.mpr large] at hv
          cases hv
      next => rw [discards]
    · simp only [exec, execReceipt, whileRunning_running running]
      split
      next n v hn hv =>
        have none : s.huntAgain.matchReceipt n channel.toNat tag.toNat = none := by
          refine State.matchReceipt_eq_none (unmatched.imp_right ?_)
          rintro ⟨c, b, found, other⟩
          exact ⟨c, b, found, other.imp_right fun unsent => unsent n (siteOf_eq_some.mp hn).symm⟩
        simp only [State.takeReceipt, none]
        rw [discards]
      next => rw [discards]

end Sys2Proof.Machine
end

