-- ==== Sys2Proof/Proofs/LaunchSums.lean ====
section
/-! PROOFS. The arithmetic of the planner: the grid ceiling and the hold of a departing order (06, R116,
R117, R121; 07, R134). -/

namespace Sys2Proof.Machine

/-- Ceiling division gives the first multiple that is not smaller (06, R121). -/
theorem ceilDiv_le_iff {d : Nat} (pos : 0 < d) (n j : Nat) : ceilDiv n d ≤ j ↔ n ≤ j * d := by
  rw [ceilDiv, Nat.div_le_iff_le_mul_add_pred pos, Nat.mul_comm]
  omega

/-- Settles O48: the ceiling counts the periods from the origin. -/
theorem gridCeilingIsTheFirstGridInstant : Obligations.GridCeilingIsTheFirstGridInstant := by
  intro period origin x
  refine ⟨if_pos rfl, fun pos => ⟨ceilDiv (x - BitVec.ofNat 40 origin).toNat period, ?_, ?_, fun j h => ?_⟩⟩
  · rw [gridCeiling, if_neg (Nat.pos_iff_ne_zero.mp pos), ticks, ticks, BitVec.ofNat_add]
  · exact (ceilDiv_le_iff pos _ _).mp le_rfl
  · exact (ceilDiv_le_iff pos _ _).mpr h

theorem fineDiv16_toNat (z : FineTime) : (fineDiv16 z).toNat = z.toNat / 16 := by
  have bound := z.isLt
  rw [fineDiv16, BitVec.toNat_ofNat, Nat.mod_eq_of_lt (by omega)]

theorem fineAt_zero (a : HubTime) : fineAt a 0 = BitVec.ofNat 44 (a.toNat * 16) := by
  simp [fineAt]

/-- Settles O50: the departure lies between release and deadline, so the hold lies between the floor and
the largest. -/
theorem departureHoldCoversTheFloor : Obligations.DepartureHoldCoversTheFloor := by
  intro z floor dep small deadline between hold
  have hz := z.isLt
  have hdep := dep.isLt
  have left : (z - fineAt dep 0).toNat = (z.toNat + (2 ^ 44 - dep.toNat * 16)) % 2 ^ 44 := by
    simp only [fineAt_zero, BitVec.toNat_sub, BitVec.toNat_ofNat]
    omega
  have release : (releaseOf z).toNat = (z.toNat + (2 ^ 44 - 2 ^ 28 + 16)) % 2 ^ 44 / 16 := by
    rw [releaseOf, fineDiv16_toNat]
    simp only [BitVec.toNat_add, BitVec.toNat_sub, BitVec.toNat_ofNat]
    omega
  have last : deadline.toNat = (z.toNat + (2 ^ 44 - floor * 16)) % 2 ^ 44 / 16 := by
    change (fineDiv16 _).toNat = _
    rw [fineDiv16_toNat]
    simp only [BitVec.toNat_sub, BitVec.toNat_ofNat]
    omega
  have hticks : hold.ticks = (z - fineAt dep 0).toNat / 16 := rfl
  have hfine : hold.fine = (z - fineAt dep 0).toNat % 16 := rfl
  rw [BitVec.toNat_sub, BitVec.toNat_sub, last, release] at between
  rw [hticks, hfine, left]
  refine ⟨by omega, by omega, by omega, BitVec.eq_of_toNat_eq ?_⟩
  rw [BitVec.toNat_ofNat]
  omega

end Sys2Proof.Machine
end

