-- ==== Sys2Proof/Proofs/DueRows.lean ====
section
/-! PROOFS. The rows that are due, and that a timed row which is not due changes nothing (01, R3). -/

namespace Sys2Proof.Machine

theorem mem_rowIf {due : Bool} {i j : Instr} : i ∈ rowIf due j ↔ due = true ∧ i = j := by
  cases due <;> simp [rowIf]

/-- While RESET is low nothing acts, and otherwise an event acts as its body says (08, R160). -/
theorem whileRunning_eq_self {s : State} {act : State → State} (h : act s = s) :
    whileRunning s act = .next s := by
  rw [whileRunning, h, ite_self]

/-! ### Where the rows of each block stand -/

section Rows
variable {s : State} {i : Instr}

theorem State.due_of_time (h : i ∈ s.time.dueRows) : i ∈ s.dueRows := by
  simp [State.dueRows, h]

theorem State.due_of_enrolled {n : SiteNo} {e : Enrolled} (enrolled : s.enrolled n = some e)
    (h : i ∈ e.dueRows s.now n) : i ∈ s.dueRows := by
  have row : i ∈ (List.finRange 48).flatMap fun n =>
      match s.enrolled n with
      | some e => e.dueRows s.now n
      | none => [] := List.mem_flatMap.mpr ⟨n, List.mem_finRange n, by rw [enrolled]; exact h⟩
  simp only [State.dueRows, List.mem_append]
  tauto

theorem State.due_of_slot {k : SlotNo} {p : Slot} (slot : s.slot k = some p)
    (h : i ∈ p.dueRows s.now k) : i ∈ s.dueRows := by
  have row : i ∈ (List.finRange 8).flatMap fun i =>
      match s.slot i with
      | some p => p.dueRows s.now i
      | none => [] := List.mem_flatMap.mpr ⟨k, List.mem_finRange k, by rw [slot]; exact h⟩
  simp only [State.dueRows, List.mem_append]
  tauto

theorem State.due_of_channel {c : ChannelNo} (h : i ∈ (s.channel c).dueRows s.now c) :
    i ∈ s.dueRows := by
  have row : i ∈ (List.finRange 4).flatMap fun c => (s.channel c).dueRows s.now c :=
    List.mem_flatMap.mpr ⟨c, List.mem_finRange c, h⟩
  simp only [State.dueRows, List.mem_append]
  tauto

theorem State.due_of_line (h : i ∈ s.highway.line.dueRows s.now) : i ∈ s.dueRows := by
  simp [State.dueRows, h]

theorem State.due_of_batch {tag : Nat} {c : ChannelNo} {b : Batch}
    (found : s.findBatch tag = some (c, b)) (h : i ∈ b.dueRows s.now) : i ∈ s.dueRows :=
  State.due_of_channel (c := c) (List.mem_append_right _
    (List.mem_flatMap.mpr ⟨b, (State.findBatch_mem found).1, h⟩))

theorem Batch.entryOf_eq_some {b : Batch} {n : SiteNo} {e : Included} (h : b.entryOf n = some e) :
    ∃ p ∈ b.plan, p.site = n ∧ p.included? = some e := by
  rw [Batch.entryOf, Option.bind_eq_some_iff] at h
  obtain ⟨p, found, included⟩ := h
  exact ⟨p, List.mem_of_find?_eq_some found, by simpa using List.find?_some found, included⟩

theorem State.due_of_entry {tag : Nat} {c : ChannelNo} {b : Batch} {n : SiteNo} {e : Included}
    (found : s.findBatch tag = some (c, b)) (active : b.active = true) (entry : b.entryOf n = some e)
    (h : i ∈ e.dueRows s.now tag n) : i ∈ s.dueRows := by
  obtain ⟨p, among, rfl, included⟩ := Batch.entryOf_eq_some entry
  refine State.due_of_batch found ?_
  rw [Batch.dueRows, if_pos active]
  refine List.mem_append_right _ (List.mem_flatMap.mpr ⟨p, among, ?_⟩)
  rw [included, (State.findBatch_mem found).2]
  exact h

end Rows

/-- An entry row that its act leaves alone changes nothing. -/
theorem State.onEntry_eq_self {s : State} {tag : Nat} {n : SiteNo}
    {act : ChannelNo → Batch → Included → State}
    (h : ∀ c b e, s.findBatch tag = some (c, b) → b.active = true → b.entryOf n = some e →
      act c b e = s) : s.onEntry tag n act = s := by
  unfold State.onEntry
  split
  · rfl
  next c b found =>
    split
    next e entry =>
      split
      next active => exact h c b e found active entry
      next => rfl
    next => rfl

/-! ### The rows one by one -/

section NotDue
variable {s : State}

theorem execEdgeAccepted_notDue (h : .edgeAccepted ∉ s.dueRows) :
    execEdgeAccepted s = .next s := by
  refine whileRunning_eq_self ?_
  split
  next run c high => exact absurd (State.due_of_time (by simp [TimeScale.dueRows, mem_rowIf, high])) h
  all_goals rfl

theorem execMissDeadline_notDue (h : .missDeadline ∉ s.dueRows) : execMissDeadline s = .next s :=
  whileRunning_eq_self (if_neg fun ⟨locked, due⟩ => h (State.due_of_time (by
    have due : (s.time.miss.any fun x => reached s.time.hub x) = true := due
    simp [TimeScale.dueRows, mem_rowIf, locked, due])))

theorem execHoldoverElapsed_notDue (h : .holdoverElapsed ∉ s.dueRows) :
    execHoldoverElapsed s = .next s :=
  whileRunning_eq_self (if_neg fun ⟨holdover, second⟩ => h (State.due_of_time (by
    simp [TimeScale.dueRows, mem_rowIf, holdover, second])))

theorem execLineFree_notDue (h : .lineFree ∉ s.dueRows) : execLineFree s = .next s := by
  refine whileRunning_eq_self ?_
  split
  · rfl
  next f x busy =>
    exact if_neg fun due => h (State.due_of_line (by simp [OutboundLine.dueRows, busy, mem_rowIf, due]))

theorem execCadenceExpiry_notDue {n : SiteNo} (h : .cadenceExpiry n ∉ s.dueRows) :
    execCadenceExpiry n s = .next s := by
  refine whileRunning_eq_self ?_
  split
  · rfl
  next e enrolled =>
    split
    next x timer =>
      exact if_neg fun due => h (State.due_of_enrolled enrolled
        (by simp [Enrolled.dueRows, mem_rowIf, timer, due]))
    next => rfl

theorem execDeafenEnd_notDue {n : SiteNo} (h : .deafenEnd n ∉ s.dueRows) :
    execDeafenEnd n s = .next s := by
  refine whileRunning_eq_self (if_neg fun due => ?_)
  obtain ⟨e, enrolled, due⟩ := (Option.any_eq_true _ _).mp due
  exact h (State.due_of_enrolled enrolled (by simp [Enrolled.dueRows, mem_rowIf, due]))

theorem execProbeTimeout_notDue {k : SlotNo} (h : .probeTimeout k ∉ s.dueRows) :
    execProbeTimeout k s = .next s := by
  refine whileRunning_eq_self ?_
  split
  · rfl
  next p slot =>
    split
    next f flight =>
      exact if_neg fun due => h (State.due_of_slot slot
        (by simp [Slot.dueRows, mem_rowIf, flight, due]))
    next => rfl

theorem execComputePoint_notDue {c : ChannelNo} (h : .computePoint c ∉ s.dueRows) :
    execComputePoint c s = .next s := by
  refine whileRunning_eq_self ?_
  split
  next x timer =>
    exact if_neg fun due => h (State.due_of_channel (c := c)
      (by simp [Channel.dueRows, mem_rowIf, timer, due]))
  next => rfl

theorem execAirTime_notDue {tag : Nat} (h : .airTime tag ∉ s.dueRows) :
    execAirTime tag s = .next s := by
  refine whileRunning_eq_self ?_
  split
  · rfl
  next c b found =>
    refine if_neg fun ⟨active, off, due⟩ => h (State.due_of_batch found ?_)
    simp [Batch.dueRows, active, mem_rowIf, (State.findBatch_mem found).2, off, due]

theorem execBatchEnd_notDue {tag : Nat} (h : .batchEnd tag ∉ s.dueRows) :
    execBatchEnd tag s = .next s := by
  refine whileRunning_eq_self ?_
  split
  · rfl
  next c b found =>
    split
    next x ends =>
      refine if_neg fun ⟨onAir, due⟩ => h (State.due_of_batch found ?_)
      have active : b.active = true := by simp [Batch.active, onAir]
      simp [Batch.dueRows, active, mem_rowIf, (State.findBatch_mem found).2, onAir, ends, due]
    next => rfl

theorem execWithdrawal_notDue {tag : Nat} {n : SiteNo} (h : .withdrawal tag n ∉ s.dueRows) :
    execWithdrawal tag n s = .next s :=
  whileRunning_eq_self (State.onEntry_eq_self fun _ _ _ found active entry =>
    if_neg fun ⟨waiting, due⟩ => h (State.due_of_entry found active entry
      (by simp [Included.dueRows, mem_rowIf, waiting, due])))

theorem execReceiptDeadline_notDue {tag : Nat} {n : SiteNo}
    (h : .receiptDeadline tag n ∉ s.dueRows) : execReceiptDeadline tag n s = .next s :=
  whileRunning_eq_self (State.onEntry_eq_self fun _ _ _ found active entry =>
    if_neg fun ⟨sent, due⟩ => h (State.due_of_entry found active entry
      (by simp [Included.dueRows, mem_rowIf, sent, due])))

theorem execAbortDeadline_notDue {tag : Nat} {n : SiteNo} (h : .abortDeadline tag n ∉ s.dueRows) :
    execAbortDeadline tag n s = .next s :=
  whileRunning_eq_self (State.onEntry_eq_self fun _ _ _ found active entry =>
    if_neg fun ⟨aborting, due⟩ => h (State.due_of_entry found active entry
      (by simp [Included.dueRows, mem_rowIf, aborting, due])))

end NotDue

/-- Settles O41: row by row. -/
theorem timedRowsActOnlyWhenDue : Obligations.TimedRowsActOnlyWhenDue := by
  refine ⟨fun i s notDue timed => ?_, fun s tag n still => ?_, fun s still => ?_⟩
  · rcases timed with rfl | rfl | rfl | rfl | ⟨n, rfl | rfl⟩ | ⟨k, rfl⟩ | ⟨c, rfl⟩ | ⟨tag, rfl | rfl⟩ |
      ⟨tag, n, rfl | rfl | rfl⟩
    · exact execEdgeAccepted_notDue notDue
    · exact execMissDeadline_notDue notDue
    · exact execHoldoverElapsed_notDue notDue
    · exact execLineFree_notDue notDue
    · exact execCadenceExpiry_notDue notDue
    · exact execDeafenEnd_notDue notDue
    · exact execProbeTimeout_notDue notDue
    · exact execComputePoint_notDue notDue
    · exact execAirTime_notDue notDue
    · exact execBatchEnd_notDue notDue
    · exact execWithdrawal_notDue notDue
    · exact execReceiptDeadline_notDue notDue
    · exact execAbortDeadline_notDue notDue
  · change execRelease tag n s = _
    refine whileRunning_eq_self (State.onEntry_eq_self fun c b e found active entry => if_neg ?_)
    rintro ⟨waiting, due⟩
    rcases still c b e found active entry with moved | early
    · exact moved waiting
    · exact Bool.false_ne_true (early.symm.trans due)
  · change execSlewAdjustment s = _
    refine whileRunning_eq_self (if_neg ?_)
    rw [still]
    exact Bool.false_ne_true

end Sys2Proof.Machine
end

