-- ==== Sys2Proof/Proofs/Probes.lean ====
section
/-! PROOFS. The measurement engine event by event: the claim of a slot, a burst, a cadence expiry, an echo
and its classes, a timeout, a receipt's sample (03, R43 to R55). -/

namespace Sys2Proof.Machine

/-! ### Slots and records -/

section Slots
variable {s : State}

theorem State.freeSlot_lowest {i : SlotNo} (free : s.slot i = none) (held : ∀ j < i, s.slot j ≠ none) :
    s.freeSlot = some i := by
  cases found : s.freeSlot with
  | none =>
    have all := List.find?_eq_none.mp found i (List.mem_finRange i)
    simp [free] at all
  | some j =>
    obtain ⟨free', held'⟩ := State.freeSlot_spec found
    rcases lt_trichotomy i j with lt | eq | gt
    · exact absurd free (held' i lt)
    · rw [eq]
    · exact absurd free' (held j gt)

theorem State.freeSlot_none (full : ∀ i, s.slot i ≠ none) : s.freeSlot = none := by
  rw [State.freeSlot, List.find?_eq_none]
  intro i _
  simp [full i]

/-- A request with a slot free claims the lowest (R45). -/
theorem State.requestProbe_slot {i : SlotNo} (free : s.slot i = none) (held : ∀ j < i, s.slot j ≠ none)
    (w : WaitEntry) : s.requestProbe w = { s with meas := { s.meas with
      slots := s.meas.slots.set i (some ⟨w.site, s.now, w.burst, w.further, none⟩) } } := by
  rw [State.requestProbe, State.freeSlot_lowest free held]
  rfl

/-- A request with no slot free joins the tail of the wait list (R45). -/
theorem State.requestProbe_wait (full : ∀ i, s.slot i ≠ none) (w : WaitEntry) :
    s.requestProbe w = { s with meas := { s.meas with wait := s.meas.wait ++ [w] } } := by
  rw [State.requestProbe, State.freeSlot_none full]

theorem State.freeProbe_eq (s : State) (i : SlotNo) :
    s.freeProbe i = { s with meas := s.handedOn i } := by
  rcases s.freeProbe_cases i with ⟨empty, h⟩ | ⟨w, rest, wait, h⟩
  · have head : s.meas.wait.head? = none := by rw [empty, List.head?_nil]
    have tail : s.meas.wait.tail = s.meas.wait := by rw [empty, List.tail_nil]
    rw [h, State.handedOn, head, tail]
    rfl
  · rw [h, State.handedOn, wait]
    rfl

theorem State.nextProbe_eq (s : State) (i : SlotNo) (p : Slot) :
    s.nextProbe i p = { s with meas := s.decided i p } := by
  unfold State.nextProbe State.decided
  by_cases more : p.burst = true ∧ 0 < p.further
  · rw [if_pos (by simpa using more), if_pos more]
    rfl
  · rw [if_neg (by simpa using more), if_neg more, State.freeProbe_eq]

/-- A record whose state stands is written back without its change flag (02, R27). -/
theorem SiteRecord.put_same {r : SiteRecord} {e x : Enrolled} (body : r.body = some e)
    (same : x.phase = e.phase) : r.put x = { r with body := some x } := by
  rw [SiteRecord.put_enrolled body, same, bne_self_eq_false, Bool.or_false]

theorem State.modifySite_same {n : SiteNo} {e : Enrolled} (enrolled : s.enrolled n = some e)
    {f : Enrolled → Enrolled} (same : (f e).phase = e.phase) :
    s.modifySite n f = { s with sites := s.sites.set n { s.site n with body := some (f e) } } := by
  rw [State.modifySite, enrolled]
  exact congrArg (s.setSite n) (SiteRecord.put_same enrolled same)

theorem Enrolled.interval_eq (e : Enrolled) : e.interval =
    BitVec.ofNat 40 ((if e.phase = .tracking then e.config.slow else e.config.fast) * 10000) := by
  unfold Enrolled.interval
  cases e.phase <;> rfl

end Slots

/-- Settles O27: the timer reloads, and the request is made when the site holds no probe. -/
theorem cadenceExpiryAsksAndReloads : Obligations.CadenceExpiryAsksAndReloads := by
  intro s n e x running busy enrolled timer due interval u
  have acts : exec (.cadenceExpiry n) s = .next (s.takeCadence n e x) := by
    simp only [exec, execCadenceExpiry, whileRunning_running running, enrolled, timer, due, if_true]
    rw [State.arbitrate_busy]
    unfold State.takeCadence
    dsimp only
    split
    · exact busy
    · rw [State.requestProbe_highway]
      exact busy
  have reloaded : s.setSite n ((s.site n).put { e with cadence := some (x + e.interval) }) = u := by
    rw [SiteRecord.put_same enrolled (by rfl), Enrolled.interval_eq]
    rfl
  have takes : s.takeCadence n e x = if s.holdsProbe n then u else u.requestProbe ⟨n, 0, false⟩ := by
    rw [State.takeCadence, reloaded]
    rfl
  refine ⟨fun holds => ?_, fun i idle free held => ?_, fun idle full => ?_⟩
  · rw [acts, takes, if_pos holds]
  · rw [acts, takes, idle, if_neg Bool.false_ne_true, State.requestProbe_slot (s := u) free held]
    rfl
  · rw [acts, takes, idle, if_neg Bool.false_ne_true, State.requestProbe_wait (s := u) full]

/-! ### PROBE (R48) -/

section Burst
variable {s : State} {n : SiteNo} {k : Nat}

theorem answerProbe_state {e : Enrolled} (enrolled : s.enrolled n = some e)
    (not : e.phase = .retiring ∨ s.holdsProbe n = true) :
    answerProbe n.val k s = refuse .state s := by
  simp only [answerProbe, siteOf_val, enrolled, if_pos not]

theorem answerProbe_starts {e : Enrolled} (enrolled : s.enrolled n = some e)
    (live : e.phase ≠ .retiring) (idle : s.holdsProbe n = false) :
    answerProbe n.val k s = ⟨if 15 < k then .doneAdjusted else .done, .empty,
      s.startBurst n (min 15 k)⟩ := by
  have clamped : probeRange.clamp k = min 15 k := by
    simp only [Range.clamp, probeRange]
    omega
  have moved : doneIf (probeRange.moved (some k)) = if 15 < k then .doneAdjusted else .done := by
    simp only [doneIf, Range.moved, Option.any_some, clamped, bne_iff_ne, ne_eq]
    exact if_congr (by omega) rfl rfl
  simp only [answerProbe, siteOf_val, enrolled, live, idle, Bool.false_eq_true, or_self, if_false,
    clamped, moved]

end Burst

/-- Settles O26: the checks in order, then the record and the request. -/
theorem probeStartsABurst : Obligations.ProbeStartsABurst := by
  intro s label k taken
  refine ⟨fun n large => ?_, fun n vacant => ?_, fun n e enrolled not => ?_,
    fun n e enrolled live idle busy => ?_⟩
  · refine takeCommand_of_answer taken (t := s) ?_ 5 label
    rw [answerProbe, siteOf_eq_none.mpr large]
    rfl
  · refine takeCommand_of_answer taken (t := s) ?_ 5 label
    simp only [answerProbe, siteOf_val, show s.endTransaction.enrolled n = none from vacant]
    rfl
  · exact takeCommand_of_answer taken (t := s)
      (answerProbe_state (s := s.endTransaction) enrolled not) 5 label
  · intro interval e' sites r
    have starts := answerProbe_starts (s := s.endTransaction) (k := k) enrolled live idle
    let u : State := { s with sites := sites }
    have burst : s.endTransaction.startBurst n (min 15 k) =
        (u.endTransaction.requestProbe ⟨n, min 15 k, true⟩).arbitrate := by
      rw [State.startBurst, State.modifySite_same (s := s.endTransaction) enrolled (by rfl)]
      simp only [Enrolled.restartCadence, Enrolled.interval_eq]
      rfl
    have waits : (u.endTransaction.requestProbe ⟨n, min 15 k, true⟩).arbitrate =
        u.endTransaction.requestProbe ⟨n, min 15 k, true⟩ :=
      State.arbitrate_busy (by rw [State.requestProbe_highway]; exact busy)
    refine ⟨fun i free held => ?_, fun full => ?_⟩
    · refine takeCommand_of_answer taken (starts.trans ?_) 5 label
      rw [burst, waits, State.requestProbe_slot (s := u.endTransaction) free held]
      rfl
    · refine takeCommand_of_answer taken (starts.trans ?_) 5 label
      rw [burst, waits, State.requestProbe_wait (s := u.endTransaction) full]
      rfl

/-! ### Echoes that answer no current probe (R50 to R53) -/

section Echoes
variable {s : State} {n : SiteNo}

theorem State.slotOf_spec {i : SlotNo} (h : s.slotOf n = some i) :
    ∃ p, s.slot i = some p ∧ p.site = n := by
  simpa [Option.any_eq_true] using List.find?_some h

/-- No departed probe of the site carries the sequence number (R50). -/
theorem State.matchingSlot_none {sq : Nat} (unmatched : ∀ i p f, s.slot i = some p → p.site = n →
    p.flight = some f → f.sequence ≠ sq) : s.matchingSlot n sq = none := by
  unfold State.matchingSlot
  cases slotOf : s.slotOf n with
  | none => rfl
  | some i =>
    obtain ⟨p, slot, site⟩ := State.slotOf_spec slotOf
    cases flight : p.flight with
    | none => simp [slot, flight]
    | some f => simp [slot, flight, unmatched i p f slot site flight]

theorem State.matchingSlot_some {sq : Nat} {i : SlotNo} {p : Slot} {f : Flight}
    (slotOf : s.slotOf n = some i) (slot : s.slot i = some p) (flight : p.flight = some f)
    (sequence : f.sequence = sq) : s.matchingSlot n sq = some (i, p, f) := by
  simp [State.matchingSlot, slotOf, slot, flight, sequence]

/-- An echo of a site of the part, with the line BUSY. -/
theorem exec_echo_busy (running : s.port.resetLow = false) (busy : s.lineBusy) {site : Byte}
    (number : n.val = site.toNat) (sq : Byte) (turn : BitVec 16) :
    exec (.echo site sq turn) s =
      .next (s.huntAgain.takeEcho n sq.toNat s.arrival turn.toNat) := by
  refine (execEcho_handed running number sq turn).trans (congrArg _ (State.arbitrate_busy ?_))
  rw [State.takeEcho_highway]
  exact busy

/-- The deafen gap runs from the later of the two ends, and the stray count rises (R53). -/
theorem Enrolled.deafen_eq (e : Enrolled) (gap : HubTime) : e.deafen gap = { e with
    deafenUntil := some (match e.deafenUntil with
      | some x => if later gap x then gap else x
      | none => gap)
    est := { e.est with totals := { e.est.totals with
      stray := min 65535 (e.est.totals.stray + 1) } } } := by
  unfold Enrolled.deafen
  cases e.deafenUntil with
  | none => rfl
  | some x =>
    dsimp only
    split <;> rfl

theorem Enrolled.countLate_eq (e : Enrolled) : e.countLate = { e with est := { e.est with
    totals := { e.est.totals with late := min 65535 (e.est.totals.late + 1) } } } := rfl

end Echoes

/-- Settles O28: the tests of R50 in their order. -/
theorem echoesAreClassedInOrder : Obligations.EchoesAreClassedInOrder := by
  intro s site sq t running busy hunt gap
  refine ⟨fun large => ?_, fun n number vacant => ?_, fun n e number enrolled => ?_⟩
  · simp only [exec, execEcho, whileRunning_running running, siteOf_eq_none.mpr large]
    rfl
  · rw [exec_echo_busy running busy number, State.takeEcho]
    simp only [show s.huntAgain.enrolled n = none from vacant]
    rfl
  · intro stray unmatched
    have enrolled' : s.huntAgain.enrolled n = some e := enrolled
    have noSlot (h : unmatched) : s.huntAgain.matchingSlot n sq.toNat = none := State.matchingSlot_none h
    have deafens : s.huntAgain.modifySite n (Enrolled.deafen · gap) = stray := by
      rw [State.modifySite_same enrolled' (by rfl), Enrolled.deafen_eq]
      rfl
    have acts := exec_echo_busy running busy number sq t
    rw [State.takeEcho] at acts
    simp only [enrolled'] at acts
    refine ⟨fun retiring h => ?_, fun live deaf => ?_, fun live hears h late => ?_,
      fun live hears h other => ?_⟩
    · rw [acts, if_pos retiring, noSlot h]
      rfl
    all_goals rw [acts, if_neg live]
    · rw [if_pos (Option.isSome_iff_ne_none.mpr deaf)]
      exact congrArg _ deafens
    all_goals rw [if_neg (by simp [hears]), noSlot h]
    · dsimp only
      rw [if_pos late, State.modifySite_same (f := Enrolled.countLate) enrolled' rfl,
        Enrolled.countLate_eq]
      rfl
    · exact congrArg _ ((if_neg other).trans deafens)

/-! ### The end of a probe (R46, R49, R51; 02, R39 to R41) -/

section Retiring
variable {s : State} {i : SlotNo} {n : SiteNo}

theorem State.referenced_iff : s.referenced n = true ↔
    (∃ c b, b ∈ (s.channel c).queue ∧ b.active = true ∧ n ∈ b.includedSites) ∨
      ∃ j q, s.slot j = some q ∧ q.site = n ∧ q.flight ≠ none := by
  rw [State.referenced, Bool.or_eq_true, vector_any, vector_any]
  simp [State.channel, State.slot, Option.any_eq_true, Option.isSome_iff_ne_none]

theorem State.slot_handedOn (j : SlotNo) {q : Slot}
    (h : ({ s with meas := s.handedOn i } : State).slot j = some q) :
    j = i ∧ q.flight = none ∨ j ≠ i ∧ s.slot j = some q := by
  by_cases same : j = i
  · subst same
    have h : (s.meas.wait.head?.map fun w : WaitEntry =>
        (⟨w.site, s.now, w.burst, w.further, none⟩ : Slot)) = some q := by
      simpa [State.slot, State.handedOn] using h
    obtain ⟨w, -, rfl⟩ := Option.map_eq_some_iff.mp h
    exact .inl ⟨rfl, rfl⟩
  · have differ : i.val ≠ j.val := fun h => same (Fin.ext h.symm)
    exact .inr ⟨same, by simpa [State.slot, State.handedOn, differ] using h⟩

/-- The probe of a RETIRING site that a batch still references frees its slot alone (02, R39). -/
theorem State.endRetiringProbe_referenced {c : ChannelNo} {b : Batch} (among : b ∈ (s.channel c).queue)
    (active : b.active = true) (included : n ∈ b.includedSites) :
    s.endRetiringProbe i n = { s with meas := s.handedOn i } := by
  have referenced : ({ s with meas := s.handedOn i } : State).referenced n = true :=
    State.referenced_iff.mpr (.inl ⟨c, b, among, active, included⟩)
  rw [State.endRetiringProbe, State.freeProbe_eq, State.checkVacate, referenced]
  simp

/-- With its last reference a RETIRING site becomes VACANT (02, R40, R41). -/
theorem State.endRetiringProbe_last (retiring : s.isRetiring n = true)
    (noBatch : ∀ c b, b ∈ (s.channel c).queue → b.active = true → n ∉ b.includedSites)
    (noProbe : ∀ j q, j ≠ i → s.slot j = some q → q.site = n → q.flight = none) :
    s.endRetiringProbe i n = ({ s with meas := s.handedOn i } : State).vacate n := by
  have free : ({ s with meas := s.handedOn i } : State).referenced n = false := by
    rw [Bool.eq_false_iff, Ne, State.referenced_iff]
    rintro (⟨c, b, among, active, included⟩ | ⟨j, q, slot, site, flight⟩)
    · exact noBatch c b among active included
    · rcases State.slot_handedOn j slot with ⟨-, none⟩ | ⟨other, slot⟩
      · exact flight none
      · exact flight (noProbe j q other slot site)
  have retiring : ({ s with meas := s.handedOn i } : State).isRetiring n = true := retiring
  rw [State.endRetiringProbe, State.freeProbe_eq, State.checkVacate, free, retiring]
  rfl

theorem State.endRetiringProbe_keeps : (s.endRetiringProbe i n).meas = s.handedOn i ∧
    (s.endRetiringProbe i n).time = s.time ∧ (s.endRetiringProbe i n).port = s.port ∧
    (s.endRetiringProbe i n).highway = s.highway := by
  rw [State.endRetiringProbe, State.freeProbe_eq, State.checkVacate_meas, State.checkVacate_time,
    State.checkVacate_port, State.checkVacate_highway]
  exact ⟨rfl, rfl, rfl, rfl⟩

theorem State.isRetiring_of {e : Enrolled} (enrolled : s.enrolled n = some e)
    (retiring : e.phase = .retiring) : s.isRetiring n = true := by
  simp [State.isRetiring, enrolled, retiring]

end Retiring

/-- What an echo's verdict or a timeout enters in the burst summary (R49). -/
theorem Enrolled.enterOutcome_eq (e : Enrolled) (burst : Bool) (o : ProbeOutcome) :
    e.enterOutcome burst o = { e with est := { e.est with
      burst := if burst = false then e.est.burst else e.est.burst.enter o } } := by
  unfold Enrolled.enterOutcome
  cases burst <;> rfl

/-- Settles O29: a MATCHED echo goes to the estimator, or ends the probe of a RETIRING site. -/
theorem matchedEchoIsFoldedAndFreesItsSlot : Obligations.MatchedEchoIsFoldedAndFreesItsSlot := by
  intro s site sq turn n e i p f running busy number enrolled slotOf slot flight sequence
  have matched : s.huntAgain.matchingSlot n sq.toNat = some (i, p, f) :=
    State.matchingSlot_some (s := s.huntAgain) slotOf slot flight sequence
  have acts := exec_echo_busy running busy number sq turn
  rw [State.takeEcho] at acts
  simp only [show s.huntAgain.enrolled n = some e from enrolled] at acts
  refine ⟨fun live hears folded accepted fold => ?_, fun retiring =>
    ⟨s.huntAgain.endRetiringProbe i n, ?_, ?_⟩⟩
  · intro b e'
    rw [acts, if_neg live, if_neg (by simp [hears]), matched]
    have entered : folded.enterOutcome p.burst (if accepted then .accepted else .rejected) = e' := by
      rw [Enrolled.enterOutcome_eq]
      cases accepted <;> rfl
    have fold' : e.foldSample s.huntAgain.meas s.arrival f.departure turn.toNat = (folded, accepted) :=
      fold
    simp only [State.matchEcho, fold', entered]
    rw [State.nextProbe_eq, SiteRecord.put_enrolled (r := s.huntAgain.site n) enrolled]
    rfl
  · rw [acts, if_pos retiring, matched]
  · obtain ⟨meas, time, port, highway⟩ := State.endRetiringProbe_keeps (s := s.huntAgain) (i := i) (n := n)
    refine ⟨meas, time, port, highway, ?_, fun noBatch noProbe => ?_⟩
    · rintro ⟨c, b, among, active, included⟩
      rw [State.endRetiringProbe_referenced (s := s.huntAgain) among active included]
      exact ⟨rfl, rfl, rfl⟩
    · rw [State.endRetiringProbe_last (s := s.huntAgain)
        (State.isRetiring_of (s := s.huntAgain) enrolled retiring) noBatch noProbe]
      exact ⟨rfl, rfl, rfl⟩

/-- A timeout's failure and the turn to STALE (R51). -/
theorem Enrolled.timeOut_eq {e : Enrolled} (live : e.phase ≠ .retiring) (limit sequence : Nat)
    (burst : Bool) :
    let failures := min 255 (e.est.failures + 1)
    let stale := e.phase ≠ .stale ∧ limit ≤ failures
    e.timeOut limit sequence burst = { e with
      phase := if stale then .stale else e.phase
      est := { e.est with
        failures := failures
        lastTimedOut := some sequence
        acceptedCount := if stale then 0 else e.est.acceptedCount
        totals := { e.est.totals with timedOut := min 65535 (e.est.totals.timedOut + 1) }
        burst := if burst = false then e.est.burst
          else { e.est.burst with timedOut := min 16 (e.est.burst.timedOut + 1), fault := true } } } := by
  intro failures stale
  have turns : ((e.phase == .settling || e.phase == .tracking) &&
      decide (limit ≤ satCount 255 e.est.failures 1)) = decide stale := by
    rw [Bool.eq_iff_iff, decide_eq_true_eq, Bool.and_eq_true, decide_eq_true_eq]
    refine and_congr ?_ Iff.rfl
    revert live
    cases e.phase <;> simp
  unfold Enrolled.timeOut
  dsimp only
  rw [turns, Enrolled.enterOutcome_eq]
  simp only [decide_eq_true_eq]
  rfl

/-- Settles O30: a timeout of a probe, and the end of a deafen gap. -/
theorem probeTimeoutCountsAFailure : Obligations.ProbeTimeoutCountsAFailure := by
  refine ⟨fun s i p f e running busy slot flight due enrolled => ?_,
    fun s n e x running enrolled deaf due => ?_⟩
  · have acts : exec (.probeTimeout i) s = .next (s.takeTimeout i p f).arbitrate := by
      simp only [exec, execProbeTimeout, whileRunning_running running, slot, flight, due, if_true]
    refine ⟨fun live => ?_, fun retiring => ⟨s.endRetiringProbe i p.site, ?_, ?_⟩⟩
    · intro failures stale b e'
      have timed : e.timeOut s.meas.staleLimit f.sequence p.burst = e' := Enrolled.timeOut_eq live _ _ _
      rw [acts, State.takeTimeout]
      simp only [enrolled, if_neg live, timed]
      rw [State.nextProbe_eq, State.arbitrate_busy (by exact busy),
        SiteRecord.put_enrolled enrolled]
      rfl
    · rw [acts, State.takeTimeout]
      simp only [enrolled, if_pos retiring]
      rw [State.arbitrate_busy]
      rw [State.endRetiringProbe_keeps.2.2.2]
      exact busy
    · obtain ⟨meas, time, port, highway⟩ := State.endRetiringProbe_keeps (s := s) (i := i) (n := p.site)
      refine ⟨meas, time, port, highway, ?_, fun noBatch noProbe => ?_⟩
      · rintro ⟨c, b, among, active, included⟩
        rw [State.endRetiringProbe_referenced among active included]
        exact ⟨rfl, rfl, rfl⟩
      · rw [State.endRetiringProbe_last (State.isRetiring_of enrolled retiring) noBatch noProbe]
        rfl
  · have deafened : ((s.enrolled n).any fun e => e.deafenUntil.any fun x => reached s.now x) = true := by
      simp [enrolled, deaf, due]
    simp only [exec, execDeafenEnd, whileRunning_running running, deafened, if_true]
    rw [State.modifySite_same enrolled rfl]

/-! ### Receipt samples (R55) -/

theorem Enrolled.foldSample_config (e : Enrolled) (meas : Measurement) (arr dep : HubTime) (t : Nat) :
    (e.foldSample meas arr dep t).1.config = e.config := by
  rcases e.foldSample_cases meas arr dep t with
    ⟨-, h⟩ | ⟨-, -, ⟨-, h⟩ | ⟨d, -, ⟨-, h⟩ | ⟨-, -, h⟩ | ⟨-, -, -, h⟩ | ⟨-, -, -, h⟩⟩⟩ <;>
  rw [h] <;> rfl

/-- Settles O54: the entry takes the verdict, and the sample goes to the estimator. -/
theorem matchedReceiptActsOnItsEntry : Obligations.MatchedReceiptActsOnItsEntry := by
  intro s site channel tag verdict turn n c b e dep v q running number chan found entry sent departed
    enrolled spelled w u
  have acts : exec (.receipt site channel tag verdict turn) s =
      .next (u.foldReceipt n s.arrival dep turn.toNat) := by
    have known : verdictOf verdict.toNat = some v := by
      rw [spelled]
      cases v <;> rfl
    have matched : s.huntAgain.matchReceipt n channel.toNat tag.toNat = some (c, b, e) := by
      simp [State.matchReceipt, show s.huntAgain.findBatch tag.toNat = some (c, b) from found, entry,
        chan, sent]
    have received : b.modifyEntry n (Included.receive · v) = w := by
      have same : (Included.receive · v) = fun y : Included => { y with
          order := if v = .accept then .receipted else .refused
          verdict := some v } := by
        cases v <;> rfl
      rw [same]
    simp only [exec, execReceipt, whileRunning_running running, siteOf_eq_some.mpr number.symm, known,
      State.takeReceipt, matched, departed, Option.getD_some, received]
    rw [State.modifyBatch_const, (State.findBatch_mem found).2]
    rfl
  rw [State.foldReceipt] at acts
  simp only [show u.enrolled n = some q from enrolled] at acts
  refine ⟨fun retiring => ?_, fun folded accepted live fold => ?_⟩
  · rw [acts, if_pos retiring]
  · intro interval q'
    have restarted : (if accepted then folded.restartCadence u.now else folded) = q' := by
      have config : folded.config = q.config := by
        have same := Enrolled.foldSample_config q s.meas s.arrival dep turn.toNat
        rwa [fold] at same
      have reload : folded.interval = BitVec.ofNat 40 (interval * 10000) := by
        rw [Enrolled.interval_eq, config]
      rw [Enrolled.restartCadence, reload]
      rfl
    rw [acts, if_neg live]
    simp only [show q.foldSample u.meas s.arrival dep turn.toNat = (folded, accepted) from fold,
      restarted]
    rw [SiteRecord.put_enrolled (r := u.site n) enrolled]
    rfl

end Sys2Proof.Machine
end

