-- ==== Sys2Proof/Proofs/TerminalRecords.lean ====
section
/-! PROOFS. A batch record at its end: its place in the queue, what it becomes, the sites it frees, and the
ends it confirms (02, R26, R40; 05, R94 to R99). -/

namespace Sys2Proof.Machine

/-! ### The place of a record in its queue -/

section Queue
variable {b : Batch} {tag : Nat} {front rest : List Batch}

theorem map_replace_split (here : b.tag = tag) (others : ∀ x ∈ front ++ rest, x.tag ≠ tag)
    (w : Batch → Batch) : ((front ++ b :: rest).map fun x => if x.tag == tag then w x else x) =
      front ++ w b :: rest := by
  rw [List.forall_mem_append] at others
  have same (l : List Batch) (h : ∀ x ∈ l, x.tag ≠ tag) :
      (l.map fun x => if x.tag == tag then w x else x) = l := by
    refine (List.map_congr_left fun x hx => ?_).trans (List.map_id l)
    simp [h x hx]
  rw [List.map_append, List.map_cons, same front others.1, same rest others.2]
  simp [here]

theorem filter_tag_split (here : b.tag = tag) (others : ∀ x ∈ front ++ rest, x.tag ≠ tag) :
    ((front ++ b :: rest).filter fun x => x.tag != tag) = front ++ rest := by
  rw [List.forall_mem_append] at others
  have same (l : List Batch) (h : ∀ x ∈ l, x.tag ≠ tag) : (l.filter fun x => x.tag != tag) = l :=
    List.filter_eq_self.mpr fun x hx => by simp [h x hx]
  rw [List.filter_append, same front others.1, List.filter_cons_of_neg (by simp [here]),
    same rest others.2]

/-- The successor of a record is the one behind it (05, R99). -/
theorem successorOf_split (here : b.tag = tag) (others : ∀ x ∈ front, x.tag ≠ tag) :
    successorOf tag (front ++ b :: rest) = rest.head? := by
  induction front with
  | nil => simp [successorOf, here]
  | cons x front ih =>
    rw [List.forall_mem_cons] at others
    simp [successorOf, others.1, ih others.2]

end Queue

/-- The record that becomes terminal, in its place or out of the queue (05, R97 to R99). -/
theorem Channel.terminate_split {c : Channel} {b w : Batch} {front rest : List Batch}
    (queue : c.queue = front ++ b :: rest) (here : b.tag = w.tag)
    (others : ∀ x ∈ front ++ rest, x.tag ≠ w.tag) :
    (c.holds { w with counts := some w.tally } = true → c.terminate w = { c with
      queue := front ++ { w with
        counts := some w.tally, summary := some (c.summary.withRecord w.state w.tally) } :: rest
      summary := .zero }) ∧
    (c.holds { w with counts := some w.tally } = false → c.terminate w = { c with
      queue := front ++ rest, summary := c.summary.withRecord w.state w.tally }) := by
  have cases := c.terminate_cases w
  dsimp only at cases
  rw [ChainSummary.add_eq, Batch.entryCounts_eq, queue] at cases
  rcases cases with ⟨holds, ends⟩ | ⟨reaped, ends⟩
  · refine ⟨fun _ => ?_, fun h => absurd holds (Bool.eq_false_iff.mp h)⟩
    rw [ends, map_replace_split here others fun _ => _]
  · refine ⟨fun h => absurd h (Bool.eq_false_iff.mp reaped), fun _ => ?_⟩
    rw [ends, filter_tag_split here others]

theorem Channel.mem_terminate_split {c : Channel} {b w : Batch} {front rest : List Batch}
    (queue : c.queue = front ++ b :: rest) (here : b.tag = w.tag)
    (others : ∀ x ∈ front ++ rest, x.tag ≠ w.tag) {y : Batch} (among : y ∈ (c.terminate w).queue) :
    y ∈ front ++ rest ∨ y.state = w.state := by
  obtain ⟨held, reaped⟩ := Channel.terminate_split queue here others
  cases holds : c.holds { w with counts := some w.tally } with
  | true =>
    rw [held holds, List.mem_append, List.mem_cons] at among
    rcases among with h | rfl | h
    · exact .inl (List.mem_append_left rest h)
    · exact .inr rfl
    · exact .inl (List.mem_append_right front h)
  | false =>
    rw [reaped holds] at among
    exact .inl among

/-! ### Sites freed of their references (02, R40) -/

section Vacating
variable {s : State} {ns : List SiteNo} {n : SiteNo}

theorem State.channel_checkVacate (s : State) (k : SiteNo) (d : ChannelNo) :
    ∃ x, (s.checkVacate k).channel d = { s.channel d with context := x } := by
  rcases s.checkVacate_cases k with ⟨-, -, h⟩ | ⟨-, h⟩ <;> rw [h]
  · exact ⟨_, State.channel_vacate s k d⟩
  · exact ⟨_, rfl⟩

/-- Vacating takes nothing from a channel but entries of its context (02, R41). -/
theorem State.channel_checkVacateAll (s : State) (ns : List SiteNo) (d : ChannelNo) :
    ∃ x, (s.checkVacateAll ns).channel d = { s.channel d with context := x } := by
  unfold State.checkVacateAll
  induction ns generalizing s with
  | nil => exact ⟨_, rfl⟩
  | cons k ns ih =>
    obtain ⟨x, first⟩ := State.channel_checkVacate s k d
    obtain ⟨y, rest⟩ := ih (s.checkVacate k)
    exact ⟨y, by rw [List.foldl_cons, rest, first]⟩

/-- The channels after a record becomes terminal: its own takes the end, the others stand. -/
theorem State.channel_terminate (s : State) (c d : ChannelNo) (w : Batch) :
    ∃ x, (s.terminate c w).channel d =
      { (if d = c then (s.channel c).terminate w else s.channel d) with context := x } := by
  obtain ⟨x, h⟩ := State.channel_checkVacateAll (s.modifyChannel c fun ch => ch.terminate w)
    w.includedSites d
  rw [State.channel_modifyChannel] at h
  exact ⟨x, h⟩

theorem State.site_checkVacate_of_ne (s : State) {k : SiteNo} (other : n ≠ k) :
    (s.checkVacate k).site n = s.site n := by
  rcases s.checkVacate_cases k with ⟨-, -, h⟩ | ⟨-, h⟩ <;> rw [h]
  rw [State.site_vacate, if_neg other]

theorem State.isRetiring_congr {s t : State} (h : t.site n = s.site n) :
    t.isRetiring n = s.isRetiring n := by
  simp only [State.isRetiring, State.enrolled, h]

theorem State.referenced_checkVacate (s : State) (k n : SiteNo) :
    (s.checkVacate k).referenced n = s.referenced n := by
  have queues : ∀ d, ((s.checkVacate k).channel d).queue = (s.channel d).queue := fun d => by
    obtain ⟨x, h⟩ := State.channel_checkVacate s k d
    rw [h]
  have slots : ∀ i, (s.checkVacate k).slot i = s.slot i := fun i => by
    rw [State.slot, State.checkVacate_meas]
    rfl
  rw [Bool.eq_iff_iff, State.referenced_iff, State.referenced_iff]
  simp only [queues, slots]

/-- A site that is not RETIRING, or is referenced, keeps its record (02, R40). -/
theorem State.site_checkVacateAll (kept : s.isRetiring n = false ∨ s.referenced n = true) :
    (s.checkVacateAll ns).site n = s.site n := by
  unfold State.checkVacateAll
  induction ns generalizing s with
  | nil => rfl
  | cons k ns ih =>
    have first : (s.checkVacate k).site n = s.site n := by
      by_cases same : n = k
      · rcases s.checkVacate_cases k with ⟨retiring, free, -⟩ | ⟨-, h⟩
        · rw [← same] at retiring free
          simp [retiring, free] at kept
        · rw [h]
      · exact State.site_checkVacate_of_ne s same
    rw [List.foldl_cons, ih, first]
    rwa [State.isRetiring_congr first, State.referenced_checkVacate]

theorem State.referenced_checkVacateAll : (s.checkVacateAll ns).referenced n = s.referenced n := by
  unfold State.checkVacateAll
  induction ns generalizing s with
  | nil => rfl
  | cons k ns ih => rw [List.foldl_cons, ih, State.referenced_checkVacate]

/-- A change flag that is set stays set when sites become VACANT (02, R27). -/
theorem State.change_checkVacateAll (h : (s.site n).change = true) :
    ((s.checkVacateAll ns).site n).change = true := by
  unfold State.checkVacateAll
  induction ns generalizing s with
  | nil => exact h
  | cons k ns ih =>
    refine ih ?_
    rcases s.checkVacate_cases k with ⟨-, -, vacated⟩ | ⟨-, stays⟩
    · rw [vacated, State.site_vacate]
      split
      · rfl
      · exact h
    · rwa [stays]

/-- A RETIRING site without a reference becomes VACANT when it is checked (02, R40). -/
theorem State.site_checkVacateAll_vacant (among : n ∈ ns) (retiring : s.isRetiring n = true)
    (free : s.referenced n = false) :
    (s.checkVacateAll ns).enrolled n = none ∧ ((s.checkVacateAll ns).site n).change = true := by
  induction ns generalizing s with
  | nil => simp at among
  | cons k ns ih =>
    change ((s.checkVacate k).checkVacateAll ns).enrolled n = none ∧
      (((s.checkVacate k).checkVacateAll ns).site n).change = true
    by_cases same : n = k
    · have vacated : (s.checkVacate k).site n = ⟨true, s.zonesNaming n, none⟩ := by
        rw [State.checkVacate, ← same, retiring, free]
        exact (State.site_vacate s n n).trans (if_pos rfl)
      have gone : (s.checkVacate k).isRetiring n = false := by
        simp [State.isRetiring, State.enrolled, vacated]
      rw [State.enrolled, State.site_checkVacateAll (.inl gone), vacated]
      exact ⟨rfl, rfl⟩
    · have stays := State.site_checkVacate_of_ne s same
      exact ih ((List.mem_cons.mp among).resolve_left same)
        ((State.isRetiring_congr stays).trans retiring)
        ((State.referenced_checkVacate s k n).trans free)

end Vacating

/-! ### Confirmed ends (02, R26) -/

theorem State.site_modifySite {s : State} {f : Enrolled → Enrolled} (same : ∀ e, (f e).phase = e.phase)
    (n k : SiteNo) : (s.modifySite n f).site k =
      { s.site k with body := (s.site k).body.map fun e => if k = n then f e else e } := by
  cases enrolled : s.enrolled n with
  | none =>
    simp only [State.modifySite, enrolled]
    by_cases h : k = n
    · have vacant : (s.site k).body = none := by rw [h]; exact enrolled
      rw [vacant, Option.map_none, ← vacant]
    · simp [h]
  | some e =>
    simp only [State.modifySite, enrolled, SiteRecord.put_same enrolled (same e)]
    by_cases h : k = n
    · rw [h, State.site_setSite_self, show (s.site n).body = some e from enrolled]
      simp
    · rw [State.site_setSite_of_ne _ _ h]
      simp [h]

theorem Enrolled.confirmEnd_phase (e : Enrolled) (c : ChannelNo) (x : HubTime) :
    (e.confirmEnd c x).phase = e.phase := by
  unfold Enrolled.confirmEnd
  split
  · rfl
  · split <;> rfl

/-- What a confirmed end changes: the carrier entry of its channel (02, R26). -/
theorem Enrolled.confirmEnd_eq (e : Enrolled) (c : ChannelNo) (x : HubTime) :
    ∃ carriers, e.confirmEnd c x = { e with carriers := carriers } ∧
      (∀ d : ChannelNo, d ≠ c → carriers[d] = e.carriers[d]) ∧
      (e.carriers[c] = none → carriers[c] = none) ∧
      ∀ y, e.carriers[c] = some y → carriers[c] =
        if ∃ old, y.confirmedEnd = some old ∧ later x old = false then some y else some ⟨some x⟩ := by
  cases carrier : e.carriers[c] with
  | none =>
    refine ⟨e.carriers, ?_, fun _ _ => rfl, fun _ => carrier, fun y hy => by cases hy⟩
    rw [Enrolled.confirmEnd, carrier]
  | some y =>
    by_cases newer : (y.confirmedEnd.all fun old => later x old) = true
    · refine ⟨e.carriers.set c (some ⟨some x⟩), ?_, fun d hd => ?_, by simp, fun z hz => ?_⟩
      · rw [Enrolled.confirmEnd, carrier]
        exact if_pos newer
      · have differ : c.val ≠ d.val := fun h => hd (Fin.ext h.symm)
        simp [differ]
      · cases hz
        rw [if_neg]
        · simp
        · rintro ⟨old, some, no⟩
          simp [some, no] at newer
    · refine ⟨e.carriers, ?_, fun _ _ => rfl, by simp, fun z hz => ?_⟩
      · rw [Enrolled.confirmEnd, carrier]
        exact if_neg newer
      · cases hz
        rw [carrier, if_pos]
        cases old : y.confirmedEnd with
        | none => simp [old] at newer
        | some x' => exact ⟨x', rfl, by simpa [old] using newer⟩

theorem Enrolled.confirmEnd_twice (e : Enrolled) (c : ChannelNo) (x : HubTime) :
    (e.confirmEnd c x).confirmEnd c x = e.confirmEnd c x := by
  cases carrier : e.carriers[c] with
  | none => simp [Enrolled.confirmEnd, carrier]
  | some y =>
    by_cases newer : (y.confirmedEnd.all fun old => later x old) = true
    · simp [Enrolled.confirmEnd, carrier, newer]
    · simp [Enrolled.confirmEnd, carrier, newer]

/-- The entries of a site that is deemed to have keyed (05, R95). -/
def Batch.keyed (b : Batch) (n : SiteNo) : Prop :=
  ∃ p ∈ b.plan, p.site = n ∧ (p.included?.any fun e => e.order.keyed) = true

/-- The ends that a batch confirms, site by site (02, R26; 05, R95). -/
theorem State.site_confirmEnds (s : State) (c : ChannelNo) (b : Batch) (x : HubTime) (n : SiteNo) :
    (b.keyed n → (s.confirmEnds c b x).site n =
      { s.site n with body := (s.site n).body.map (Enrolled.confirmEnd · c x) }) ∧
    (¬ b.keyed n → (s.confirmEnds c b x).site n = s.site n) := by
  unfold State.confirmEnds Batch.keyed
  induction b.plan generalizing s with
  | nil => simp
  | cons p plan ih =>
    rw [List.foldl_cons]
    by_cases keys : (p.included?.any fun e => e.order.keyed) = true
    · simp only [keys, if_true]
      have first := State.site_modifySite (s := s) (f := (Enrolled.confirmEnd · c x))
        (fun e => e.confirmEnd_phase c x) p.site n
      obtain ⟨yes, no⟩ := ih (s.modifySite p.site (Enrolled.confirmEnd · c x))
      by_cases here : p.site = n
      · have first : (s.modifySite p.site (Enrolled.confirmEnd · c x)).site n =
            { s.site n with body := (s.site n).body.map (Enrolled.confirmEnd · c x) } := by
          rw [first]
          simp only [here, if_true]
        refine ⟨fun _ => ?_, fun h => absurd ⟨p, List.mem_cons_self, here, keys⟩ h⟩
        by_cases again : ∃ q ∈ plan, q.site = n ∧ (q.included?.any fun e => e.order.keyed) = true
        · rw [yes again, first]
          simp [Option.map_map, Function.comp_def, Enrolled.confirmEnd_twice]
        · rw [no again, first]
      · have first : (s.modifySite p.site (Enrolled.confirmEnd · c x)).site n = s.site n := by
          rw [first]
          simp [Ne.symm here]
        rw [first] at yes no
        refine ⟨fun h => yes ?_, fun h => no fun ⟨q, hq, rest⟩ => h ⟨q, List.mem_cons_of_mem p hq, rest⟩⟩
        obtain ⟨q, hq, site, key⟩ := h
        rcases List.mem_cons.mp hq with rfl | hq
        · exact absurd site here
        · exact ⟨q, hq, site, key⟩
    · have later (h : ∃ q ∈ p :: plan, q.site = n ∧ (q.included?.any fun e => e.order.keyed) = true) :
          ∃ q ∈ plan, q.site = n ∧ (q.included?.any fun e => e.order.keyed) = true := by
        obtain ⟨q, hq, site, yes⟩ := h
        rcases List.mem_cons.mp hq with rfl | hq
        · exact absurd yes keys
        · exact ⟨q, hq, site, yes⟩
      rw [if_neg keys]
      obtain ⟨yes, no⟩ := ih s
      refine ⟨fun h => yes (later h), fun h => no fun ⟨q, hq, rest⟩ => h ⟨q, List.mem_cons_of_mem p hq, rest⟩⟩

end Sys2Proof.Machine
end

