-- ==== Sys2Proof/Proofs/BatchEvents.lean ====
section
/-! PROOFS. The timed events of an active batch and of its entries: its air time and its end, a release, a
withdrawal, a receipt deadline, an abort deadline (05, R94 to R99, R102; 07, R133 to R138, R146). -/

namespace Sys2Proof.Machine

/-! ### Entries of a plan -/

section Entries
variable {b : Batch} {n : SiteNo}

theorem PlanEntry.included?_eq_some {p : PlanEntry} {e : Included} :
    p.included? = some e ↔ p.disp = .included e := by
  unfold PlanEntry.included?
  split
  next x h => simp [h]
  next h => simp [h]

theorem Batch.mem_included {e : Included} :
    e ∈ b.included ↔ ∃ p ∈ b.plan, p.disp = .included e := by
  simp [Batch.included, PlanEntry.included?_eq_some]

theorem Batch.anyIn_iff (o : OrderState) :
    b.anyIn o = true ↔ ∃ p x, p ∈ b.plan ∧ p.disp = .included x ∧ x.order = o := by
  simp only [Batch.anyIn, List.any_eq_true, Batch.mem_included, beq_iff_eq]
  constructor
  · rintro ⟨x, ⟨p, hp, disp⟩, order⟩
    exact ⟨p, x, hp, disp, order⟩
  · rintro ⟨p, x, hp, disp, order⟩
    exact ⟨x, ⟨p, hp, disp⟩, order⟩

theorem Batch.noneLive_iff : b.noneLive = true ↔
    ∀ p x, p ∈ b.plan → p.disp = .included x → x.order = .withdrawn ∨ x.order = .aborted := by
  simp only [Batch.noneLive, List.all_eq_true, Batch.mem_included, Bool.or_eq_true, beq_iff_eq]
  constructor
  · intro h p x hp disp
    exact h x ⟨p, hp, disp⟩
  · rintro h x ⟨p, hp, disp⟩
    exact h p x hp disp

theorem PlanEntry.modify_site (f : Included → Included) (p : PlanEntry) : (p.modify f).site = p.site := by
  unfold PlanEntry.modify
  split <;> rfl

theorem PlanEntry.modify_isSome (f : Included → Included) (p : PlanEntry) :
    (p.modify f).included?.isSome = p.included?.isSome := by
  obtain ⟨site, disp⟩ := p
  cases disp <;> rfl

/-- Changed entries stay those of their sites. -/
theorem includedSites_congr {b w : Batch} {g : PlanEntry → PlanEntry} (plan : w.plan = b.plan.map g)
    (site : ∀ p, (g p).site = p.site) (some : ∀ p, (g p).included?.isSome = p.included?.isSome) :
    w.includedSites = b.includedSites := by
  simp only [Batch.includedSites, plan, List.filter_map, List.map_map, Function.comp_def, site, some]

theorem Batch.modifyEntry_includedSites (f : Included → Included) :
    (b.modifyEntry n f).includedSites = b.includedSites := by
  refine includedSites_congr rfl (fun p => ?_) fun p => ?_
  · split
    · exact p.modify_site f
    · rfl
  · split
    · exact p.modify_isSome f
    · rfl

theorem Batch.modifyEntries_includedSites (f : Included → Included) :
    (b.modifyEntries f).includedSites = b.includedSites :=
  includedSites_congr rfl (PlanEntry.modify_site f) (PlanEntry.modify_isSome f)

theorem Included.missAbort_eq : Included.missAbort = fun e =>
    if e.order = .aborting then { e with order := .abortMissed } else e := by
  funext e
  simp [Included.missAbort]

theorem Included.withdraw_eq : Included.withdraw = fun e =>
    if e.order = .waiting then { e with order := .withdrawn } else e := by
  funext e
  simp [Included.withdraw]

end Entries

section Events
variable {s : State} {tag : Nat} {c : ChannelNo} {b : Batch}

theorem State.modifyBatch_found (found : s.findBatch tag = some (c, b)) (w : Batch) :
    (s.modifyBatch c b.tag fun _ => w) = s.replaceBatch c tag w := by
  rw [(State.findBatch_mem found).2]
  rfl

theorem State.onEntry_eq {n : SiteNo} {e : Included} (found : s.findBatch tag = some (c, b))
    (active : b.active = true) (entry : b.entryOf n = some e)
    (act : ChannelNo → Batch → Included → State) : s.onEntry tag n act = act c b e := by
  simp only [State.onEntry, found, entry, active, if_true]

end Events

/-- Settles O42: the batch goes ON_AIR, from CANCELLING with its aborts missed. -/
theorem airTimePutsTheBatchOnAir : Obligations.AirTimePutsTheBatchOnAir := by
  intro s tag c b a running busy found air due
  have acts (active : b.active = true) (off : b.state ≠ .onAir) :
      exec (.airTime tag) s = .next (s.goOnAir c b).arbitrate := by
    have dueNow : b.active = true ∧ b.state ≠ .onAir ∧ (b.air.any fun a => reached s.now a) = true :=
      ⟨active, off, by rw [air]; exact due⟩
    simp only [exec, execAirTime, whileRunning_running running, found, if_pos dueNow]
  refine ⟨fun state => ?_, fun cancelling => ?_⟩
  · have active : b.active = true := (Batch.active_iff b).mpr (by tauto)
    have off : b.state ≠ .onAir := by rcases state with h | h <;> simp [h]
    have other : b.state ≠ .cancelling := by rcases state with h | h <;> simp [h]
    rw [acts active off, State.goOnAir, if_neg other, State.modifyBatch_found found,
      State.arbitrate_busy (by exact busy)]
  · intro plan
    have active : b.active = true := (Batch.active_iff b).mpr (by tauto)
    have missed : b.plan.map (PlanEntry.modify Included.missAbort) = plan := by
      rw [Included.missAbort_eq]
      rfl
    rw [acts active (by simp [cancelling]), State.goOnAir, if_pos cancelling]
    simp only [Batch.modifyEntries, missed]
    rw [State.modifyBatch_found found, State.arbitrate_busy (by exact busy)]
    rw [Highway.dropAborts, (State.findBatch_mem found).2]
    rfl

/-! ### The end of a batch (05, R95, R97 to R99) -/

theorem Included.settleAtEnd_eq : Included.settleAtEnd = fun e => { e with
    order := match e.order with
      | .waiting => .withdrawn
      | .sent => .unconfirmed
      | _ => e.order } := by
  funext e
  unfold Included.settleAtEnd
  obtain ⟨_, _, _, _, order, _, _, _, _, _, _, _⟩ := e
  cases order <;> rfl

theorem Batch.keyed_iff {b : Batch} {n : SiteNo} : b.keyed n ↔
    ∃ p e, p ∈ b.plan ∧ p.site = n ∧ p.disp = .included e ∧
      (e.order = .receipted ∨ e.order = .unconfirmed ∨ e.order = .abortMissed) := by
  have keys (o : OrderState) :
      o.keyed = true ↔ o = .receipted ∨ o = .unconfirmed ∨ o = .abortMissed := by
    cases o <;> simp [OrderState.keyed]
  simp only [Batch.keyed, Option.any_eq_true, PlanEntry.included?_eq_some, keys]
  constructor
  · rintro ⟨p, hp, site, e, disp, order⟩
    exact ⟨p, e, hp, site, disp, order⟩
  · rintro ⟨p, e, hp, site, disp, order⟩
    exact ⟨p, hp, site, e, disp, order⟩

/-- Ends are confirmed in the site table alone (02, R26). -/
theorem State.confirmEnds_frame (s : State) (c : ChannelNo) (b : Batch) (x : HubTime) :
    ∃ sites, s.confirmEnds c b x = { s with sites := sites } := by
  unfold State.confirmEnds
  induction b.plan generalizing s with
  | nil => exact ⟨s.sites, rfl⟩
  | cons p plan ih =>
    rw [List.foldl_cons]
    obtain ⟨first, h⟩ : ∃ first, (if p.included?.any fun e => e.order.keyed then
        s.modifySite p.site (Enrolled.confirmEnd · c x) else s) = { s with sites := first } := by
      split
      · unfold State.modifySite
        split
        · exact ⟨_, rfl⟩
        · exact ⟨s.sites, rfl⟩
      · exact ⟨s.sites, rfl⟩
    rw [h]
    obtain ⟨sites, rest⟩ := ih { s with sites := first }
    exact ⟨sites, rest⟩

theorem State.isRetiring_confirmEnds (s : State) (c : ChannelNo) (b : Batch) (x : HubTime)
    (n : SiteNo) : (s.confirmEnds c b x).isRetiring n = s.isRetiring n := by
  obtain ⟨yes, no⟩ := s.site_confirmEnds c b x n
  by_cases key : b.keyed n
  · simp only [State.isRetiring, State.enrolled, yes key, Option.any_map,
      Enrolled.confirmEnd_phase]
  · exact State.isRetiring_congr (no key)

/-- A DONE record is held for its notice, for the mark of a cancel, or as the last of its chain (05, R98). -/
theorem Channel.holds_done {c : Channel} {b w : Batch} {front rest : List Batch}
    (queue : c.queue = front ++ b :: rest) (here : b.tag = w.tag) (others : ∀ x ∈ front, x.tag ≠ w.tag)
    (done : w.state = .done) : c.holds w = true ↔
      w.notice = true ∨ c.settings.notice = .each ∨ w.partialMark = true ∨
        ∀ x, rest.head? = some x → x.mode ≠ .follow := by
  have last : c.lastOfChain w.tag = true ↔ ∀ x, rest.head? = some x → x.mode ≠ .follow := by
    rw [Channel.lastOfChain, queue, successorOf_split here others]
    cases rest.head? <;> simp
  simp [Channel.holds, done, last, or_assoc]

/-- Settles O43: the entries are settled, the ends confirmed, and the record terminates as DONE. -/
theorem batchEndSettlesAndConfirms : Obligations.BatchEndSettlesAndConfirms := by
  intro s tag c b a front rest running busy found onAir air finish due queue others settle plan entries
    number counts g total keyed holds
  have htag : b.tag = tag := (State.findBatch_mem found).2
  have others' : ∀ x ∈ front ++ rest, x.tag ≠ b.tag := fun x hx => htag ▸ others x hx
  have settled : b.modifyEntries Included.settleAtEnd = { b with plan := plan } := by
    rw [Batch.modifyEntries, Included.settleAtEnd_eq]
    rfl
  obtain ⟨sites, confirms⟩ := s.confirmEnds_frame c { b with plan := plan } finish
  let u : State := { s with sites := sites }
  let w : Batch := { b with plan := plan, state := .done }
  let v : State := u.modifyChannel c fun ch => ch.terminate w
  have ended : s.endBatch c b finish = v.checkVacateAll w.includedSites := by
    rw [State.endBatch, settled]
    dsimp only
    rw [confirms]
    rfl
  have highway : (v.checkVacateAll w.includedSites).highway = s.highway := State.checkVacateAll_highway v _
  have acts : exec (.batchEnd tag) s = .next (v.checkVacateAll w.includedSites) := by
    have ends : b.endTime = some finish := by rw [Batch.endTime, air]; rfl
    have dueNow : b.state = .onAir ∧ reached s.now finish = true := ⟨onAir, due⟩
    simp only [exec, execBatchEnd, whileRunning_running running, found, ends, if_pos dueNow]
    rw [ended, State.arbitrate_busy (by rw [highway]; exact busy)]
  have record : w.tally = counts := rfl
  have summed : g.withRecord w.state w.tally = total := rfl
  obtain ⟨held, reaped⟩ := Channel.terminate_split (c := s.channel c) (w := w) queue rfl others'
  have holds_iff := Channel.holds_done (c := s.channel c) (w := { w with counts := some counts })
    queue rfl (fun x hx => others' x (List.mem_append_left rest hx)) rfl
  have keyed_iff (n : SiteNo) : ({ b with plan := plan } : Batch).keyed n ↔ keyed n := Batch.keyed_iff
  have confirmed (n : SiteNo) := s.site_confirmEnds c { b with plan := plan } finish n
  simp only [confirms, keyed_iff] at confirmed
  have retiring_iff (n : SiteNo) : v.isRetiring n = s.isRetiring n := by
    rw [← s.isRetiring_confirmEnds c { b with plan := plan } finish n, confirms]
    rfl
  have channel (d : ChannelNo) : ∃ x, (v.checkVacateAll w.includedSites).channel d =
      { (if d = c then (s.channel c).terminate w else s.channel d) with context := x } :=
    u.channel_terminate c d w
  refine ⟨_, acts, State.checkVacateAll_time v _, State.checkVacateAll_meas v _, highway,
    State.checkVacateAll_port v _, fun holding => ?_, fun reaping => ?_, fun d other => ?_,
    fun n e enrolled live => ?_, fun n among retiring alone noProbe => ?_⟩
  · obtain ⟨x, h⟩ := channel c
    rw [h, if_pos rfl, held (holds_iff.mpr holding)]
    exact ⟨rfl, rfl⟩
  · obtain ⟨x, h⟩ := channel c
    rw [h, if_pos rfl, reaped (Bool.eq_false_iff.mpr fun h => reaping (holds_iff.mp h))]
    exact ⟨rfl, rfl⟩
  · obtain ⟨x, h⟩ := channel d
    rw [h, if_neg other]
    exact ⟨rfl, rfl⟩
  · have site : (v.checkVacateAll w.includedSites).site n = u.site n :=
      State.site_checkVacateAll (.inl ((retiring_iff n).trans live))
    rw [site]
    by_cases key : keyed n
    · obtain ⟨carriers, confirm, rest, none, some⟩ := e.confirmEnd_eq c finish
      refine ⟨carriers, ?_, rest, fun _ => some, fun h => ?_⟩
      · rw [(confirmed n).1 key, show (s.site n).body = _ from enrolled, Option.map_some, confirm]
      · have absent := h.resolve_left (not_not.mpr key)
        rw [absent, none absent]
    · refine ⟨e.carriers, ?_, fun _ _ => rfl, fun h => absurd h key, fun _ => rfl⟩
      rw [(confirmed n).2 key, ← show (s.site n).body = _ from enrolled]
  · have listed : n ∈ w.includedSites := by
      have same := b.modifyEntries_includedSites Included.settleAtEnd
      rw [settled] at same
      exact same.symm ▸ among
    refine State.site_checkVacateAll_vacant listed ((retiring_iff n).trans retiring) ?_
    rw [Bool.eq_false_iff, Ne, State.referenced_iff]
    rintro (⟨d, y, hy, active, included⟩ | ⟨i, p, slot, site, flight⟩)
    · rw [State.channel_modifyChannel u c d] at hy
      have old : y ∈ (s.channel d).queue ∧ y.tag ≠ tag ∨ d ≠ c ∧ y ∈ (s.channel d).queue := by
        by_cases same : d = c
        · rw [if_pos same] at hy
          rcases Channel.mem_terminate_split (c := s.channel c) (w := w) queue rfl others' hy with h | h
          · rw [same, queue]
            refine .inl ⟨?_, others y h⟩
            rcases List.mem_append.mp h with h | h
            · exact List.mem_append_left _ h
            · exact List.mem_append_right _ (List.mem_cons_of_mem b h)
          · have gone : y.active = false := by simp [Batch.active, h, w]
            exact absurd active (Bool.eq_false_iff.mp gone)
        · rw [if_neg same] at hy
          exact .inr ⟨same, hy⟩
      rcases old with ⟨hy, off⟩ | ⟨off, hy⟩
      · exact off (alone d y hy active included).2
      · exact off (alone d y hy active included).1
    · exact flight (noProbe i p slot site)

/-! ### The deadlines of an entry (07, R133 to R138, R146) -/

section Deadlines
variable {s : State} {tag : Nat} {n : SiteNo} {c : ChannelNo} {b : Batch} {e : Included}

theorem exec_release (running : s.port.resetLow = false) (busy : s.lineBusy)
    (found : s.findBatch tag = some (c, b)) (active : b.active = true) (entry : b.entryOf n = some e)
    (waiting : e.order = .waiting) (due : reached s.now e.release = true) :
    exec (.release tag n) s =
      .next (s.replaceBatch c tag (b.modifyEntry n fun e => { e with released := true })) := by
  simp only [exec, execRelease, whileRunning_running running, State.onEntry_eq found active entry,
    waiting, due, and_self, if_true]
  exact congrArg _ (State.arbitrate_busy (s := s.replaceBatch c tag _) busy)

theorem exec_withdrawal (running : s.port.resetLow = false) (busy : s.lineBusy)
    (found : s.findBatch tag = some (c, b)) (active : b.active = true) (entry : b.entryOf n = some e)
    (waiting : e.order = .waiting) (due : reached s.now e.deadline = true) :
    exec (.withdrawal tag n) s = .next (s.withdrawEntry c b n) := by
  simp only [exec, execWithdrawal, whileRunning_running running, State.onEntry_eq found active entry,
    waiting, due, and_self, if_true]
  exact congrArg _ (State.arbitrate_busy (by rw [State.withdrawEntry_highway]; exact busy))

theorem exec_receiptDeadline (running : s.port.resetLow = false)
    (found : s.findBatch tag = some (c, b)) (active : b.active = true) (entry : b.entryOf n = some e)
    {x : HubTime} (sent : e.order = .sent) (deadline : e.receiptDeadline = some x)
    (due : reached s.now x = true) : exec (.receiptDeadline tag n) s =
      .next (s.replaceBatch c tag (b.modifyEntry n fun e => { e with order := .unconfirmed })) := by
  simp only [exec, execReceiptDeadline, whileRunning_running running,
    State.onEntry_eq found active entry, sent, deadline, Option.any_some, due, and_self, if_true]
  rfl

theorem exec_abortDeadline (running : s.port.resetLow = false) (busy : s.lineBusy)
    (found : s.findBatch tag = some (c, b)) (active : b.active = true) (entry : b.entryOf n = some e)
    {x : HubTime} (aborting : e.order = .aborting) (deadline : e.abortDeadline = some x)
    (due : reached s.now x = true) : exec (.abortDeadline tag n) s =
      .next (({ s with highway := { s.highway with aborts := s.highway.aborts.filter fun r =>
          !(r.channel == c && r.tag == tag && r.site == n) } } : State).completeCancel c
        (b.modifyEntry n Included.missAbort)) := by
  simp only [exec, execAbortDeadline, whileRunning_running running,
    State.onEntry_eq found active entry, aborting, deadline, Option.any_some, due, and_self, if_true]
  refine congrArg _ (State.arbitrate_busy ?_)
  rw [State.completeCancel_highway]
  exact busy

/-- A withdrawal from a batch that is ON_AIR or CANCELLING leaves its state (07, R135). -/
theorem State.withdrawEntry_late (late : b.state = .onAir ∨ b.state = .cancelling) :
    s.withdrawEntry c b n = s.modifyBatch c b.tag fun _ => b.modifyEntry n Included.withdraw := by
  rcases s.withdrawEntry_cases c b n with ⟨⟨early, -⟩, -⟩ | ⟨-, h⟩
  · rw [Batch.modifyEntry_state] at early
    rcases late with late | late <;> simp [late] at early
  · rw [h, Batch.armIfReady, if_neg]
    rw [Batch.modifyEntry_state]
    rcases late with late | late <;> simp [late]

/-- A PLANNED batch stays PLANNED while an entry is WAITING (05, R93). -/
theorem State.withdrawEntry_open (live : (b.modifyEntry n Included.withdraw).noneLive = false)
    (waiting : (b.modifyEntry n Included.withdraw).anyIn .waiting = true) :
    s.withdrawEntry c b n = s.modifyBatch c b.tag fun _ => b.modifyEntry n Included.withdraw := by
  rcases s.withdrawEntry_cases c b n with ⟨⟨-, dead⟩, -⟩ | ⟨-, h⟩
  · rw [live] at dead
    cases dead
  · rw [h, Batch.armIfReady, waiting]
    simp

/-- A PLANNED batch with a live entry and none WAITING becomes ARMED (05, R93). -/
theorem State.withdrawEntry_armed (planned : b.state = .planned)
    (live : (b.modifyEntry n Included.withdraw).noneLive = false)
    (none : (b.modifyEntry n Included.withdraw).anyIn .waiting = false) :
    s.withdrawEntry c b n = s.modifyBatch c b.tag fun _ =>
      { b.modifyEntry n Included.withdraw with state := .armed } := by
  rcases s.withdrawEntry_cases c b n with ⟨⟨-, dead⟩, -⟩ | ⟨-, h⟩
  · rw [live] at dead
    cases dead
  · rw [h, Batch.armIfReady, none, Batch.modifyEntry_state, planned]
    simp

/-- An ABANDONED record is held, whatever the notice (05, R98). -/
theorem Channel.holds_abandoned {ch : Channel} {w : Batch} (abandoned : w.state = .abandoned) :
    ch.holds w = true := by
  simp [Channel.holds, abandoned]

/-- A batch that becomes ABANDONED is held with its counts and the summary (05, R97 to R99). -/
theorem Channel.terminate_abandoned {ch : Channel} {w : Batch} (abandoned : w.state = .abandoned) :
    ch.terminate w = { ch with
      queue := ch.queue.map fun x => if x.tag == w.tag then { w with
        counts := some w.tally
        summary := some (ch.summary.withRecord .abandoned w.tally) } else x
      summary := .zero } := by
  have cases := ch.terminate_cases w
  dsimp only at cases
  have total : ch.summary.withRecord w.state w.tally = ch.summary.withRecord .abandoned w.tally := by
    rw [abandoned]
  rw [ChainSummary.add_eq, Batch.entryCounts_eq, total] at cases
  rcases cases with ⟨-, h⟩ | ⟨not, -⟩
  · exact h
  · have held := Channel.holds_abandoned (ch := ch) (w := { w with counts := some w.tally }) abandoned
    exact absurd held (Bool.eq_false_iff.mp not)

/-- Without a live entry the batch is ABANDONED for NO_SITES (07, R136). -/
theorem State.withdrawEntry_dead (early : b.state = .planned ∨ b.state = .armed)
    (dead : (b.modifyEntry n Included.withdraw).noneLive = true) :
    s.withdrawEntry c b n = s.terminate c { b.modifyEntry n Included.withdraw with
      state := .abandoned, reason := some .noSites } := by
  rcases s.withdrawEntry_cases c b n with ⟨-, h⟩ | ⟨not, -⟩
  · exact h
  · exact absurd ⟨early, dead⟩ not

/-- The entry whose abort is missed is in ABORT_MISSED (07, R138). -/
theorem Batch.missAbort_anyIn (entry : b.entryOf n = some e) (aborting : e.order = .aborting) :
    (b.modifyEntry n Included.missAbort).anyIn .abortMissed = true := by
  obtain ⟨p, hp, site, disp⟩ := Batch.entryOf_eq_some entry
  rw [PlanEntry.included?_eq_some] at disp
  refine (Batch.anyIn_iff _).mpr ⟨p.modify Included.missAbort, e.missAbort,
    List.mem_map.mpr ⟨p, hp, by simp [site]⟩, ?_, ?_⟩
  · simp [PlanEntry.modify, disp]
  · simp [Included.missAbort, aborting]

end Deadlines

end Sys2Proof.Machine
end

