-- ==== Sys2Proof/Proofs/Retire.lean ====
section
/-! PROOFS. RETIRE: what it stops, what it withdraws, and when the record is VACANT (02, R37 to R41; 07,
R135, R136). -/

namespace Sys2Proof.Machine

/-! ### What RETIRE stops (R37) -/

section Stop
variable {s : State} {n : SiteNo} {e : Enrolled} {m : Measurement}

/-- The measurement engine once the site's timer, its wait-list entry, and a probe of it that has not
departed are gone, as R37 states it. -/
def State.StopsAt (s : State) (n : SiteNo) (m : Measurement) : Prop :=
  let wait := s.meas.wait.filter fun w => w.site != n
  (∀ i p, s.slotOf n = some i → s.slot i = some p → p.flight ≠ none) ∧
      m = { s.meas with wait := wait } ∨
    (∃ i p, s.slotOf n = some i ∧ s.slot i = some p ∧ p.flight = none ∧
      m = { s.meas with
        slots := s.meas.slots.set i
          (wait.head?.map fun w => ⟨w.site, s.now, w.burst, w.further, none⟩)
        wait := wait.tail })

theorem State.stopMeasuring_eq (enrolled : s.enrolled n = some e) (stops : s.StopsAt n m) :
    s.stopMeasuring n = { s with
      sites := s.sites.set n { s.site n with body := some { e with cadence := none } }
      meas := m } := by
  let u : State := { s with
    sites := s.sites.set n { s.site n with body := some { e with cadence := none } }
    meas := { s.meas with wait := s.meas.wait.filter fun w => w.site != n } }
  have stopped : s.stopMeasuring n = match u.slotOf n with
      | some i => if (u.slot i).any fun p => p.flight.isNone then u.freeProbe i else u
      | none => u := by
    unfold State.stopMeasuring
    rw [State.modifySite_same (f := fun e => { e with cadence := none }) enrolled rfl] <;> rfl
  rw [stopped, show u.slotOf n = s.slotOf n from rfl]
  rcases stops with ⟨departed, rfl⟩ | ⟨i, p, slotOf, slot, waits, rfl⟩
  · cases slotOf : s.slotOf n with
    | none => rfl
    | some i =>
      refine if_neg fun early => ?_
      obtain ⟨p, slot, none⟩ := (Option.any_eq_true _ _).mp early
      exact departed i p slotOf slot (Option.isNone_iff_eq_none.mp none)
  · rw [slotOf]
    refine (if_pos ?_).trans (State.freeProbe_eq u i)
    exact (Option.any_eq_true _ _).mpr ⟨p, slot, by rw [waits]; rfl⟩

theorem State.slot_of_meas (s : State) (m : Measurement) (sites : Vector SiteRecord 48) (j : SlotNo) :
    ({ s with sites := sites, meas := m } : State).slot j = m.slots[j] := rfl

/-- A site's references outlast RETIRE: only a probe that has not departed goes (R37). -/
theorem State.referenced_stopped (stops : s.StopsAt n m) (sites : Vector SiteRecord 48) :
    ({ s with sites := sites, meas := m } : State).referenced n = s.referenced n := by
  have departed : (∃ j q, ({ s with sites := sites, meas := m } : State).slot j = some q ∧ q.site = n ∧
      q.flight ≠ none) ↔ ∃ j q, s.slot j = some q ∧ q.site = n ∧ q.flight ≠ none := by
    rcases stops with ⟨-, rfl⟩ | ⟨i, p, -, slot, waits, rfl⟩
    · rfl
    · refine exists_congr fun j => exists_congr fun q => and_congr_left fun departs => ?_
      obtain ⟨-, flight⟩ := departs
      rw [State.slot_of_meas]
      by_cases same : j = i
      · subst same
        refine iff_of_false (fun h => ?_) fun h => ?_
        · simp only [Fin.getElem_fin, Vector.getElem_set_self, Option.map_eq_some_iff] at h
          obtain ⟨w, -, rfl⟩ := h
          exact flight rfl
        · rw [slot] at h
          cases h
          exact flight waits
      · have differ : i.val ≠ j.val := fun h => same (Fin.ext h.symm)
        simp [State.slot, differ]
  rw [Bool.eq_iff_iff, State.referenced_iff, State.referenced_iff, departed]
  rfl

end Stop

/-! ### One withdrawal (07, R135, R136) -/

/-- What the withdrawal of a site's order leaves of a record, with the chain summary at the time. -/
def Batch.withdrawn (n : SiteNo) (g : ChainSummary) (b : Batch) : Batch :=
  if (b.state = .planned ∨ b.state = .armed) ∧
      (b.modifyEntry n Included.withdraw).noneLive = true then
    { b.modifyEntry n Included.withdraw with
      state := .abandoned, reason := some .noSites
      counts := some (b.modifyEntry n Included.withdraw).tally
      summary := some (g.withRecord .abandoned (b.modifyEntry n Included.withdraw).tally) }
  else (b.modifyEntry n Included.withdraw).armIfReady

theorem Batch.withdrawn_tag (n : SiteNo) (g : ChainSummary) (b : Batch) :
    (b.withdrawn n g).tag = b.tag := by
  unfold Batch.withdrawn
  split
  · rfl
  · exact Batch.armIfReady_tag _

theorem Batch.withdrawn_plan (n : SiteNo) (g : ChainSummary) (b : Batch) :
    (b.withdrawn n g).plan = (b.modifyEntry n Included.withdraw).plan := by
  unfold Batch.withdrawn
  split
  · rfl
  · exact Batch.armIfReady_plan _

section Step
variable {s : State} {n : SiteNo} {c : ChannelNo} {b : Batch}

/-- A withdrawal touches its own record, and takes the chain summary when the batch is ABANDONED. -/
theorem State.channel_withdrawEntry (s : State) (n : SiteNo) (c : ChannelNo) (b : Batch) :
    (((s.withdrawEntry c b n).channel c).queue = (s.channel c).queue.map fun x =>
        if x.tag == b.tag then b.withdrawn n (s.channel c).summary else x) ∧
      (((s.withdrawEntry c b n).channel c).summary = (s.channel c).summary ∨
        ((s.withdrawEntry c b n).channel c).summary = .zero) ∧
      ∀ d ≠ c, ((s.withdrawEntry c b n).channel d).queue = (s.channel d).queue ∧
        ((s.withdrawEntry c b n).channel d).summary = (s.channel d).summary := by
  rcases s.withdrawEntry_cases c b n with ⟨dead, h⟩ | ⟨live, h⟩
  · have image : b.withdrawn n (s.channel c).summary = _ := if_pos dead
    rw [h, State.terminate, image]
    have each (d : ChannelNo) := State.channel_checkVacateAll (s.modifyChannel c fun ch =>
      ch.terminate { b.modifyEntry n Included.withdraw with
        state := .abandoned, reason := some .noSites })
      (b.modifyEntry n Included.withdraw).includedSites d
    simp only [State.channel_modifyChannel] at each
    refine ⟨?_, ?_, fun d other => ?_⟩
    · obtain ⟨x, own⟩ := each c
      rw [if_pos rfl, Channel.terminate_abandoned rfl] at own
      exact congrArg Channel.queue own
    · obtain ⟨x, own⟩ := each c
      rw [if_pos rfl, Channel.terminate_abandoned rfl] at own
      exact .inr (congrArg Channel.summary own)
    · obtain ⟨x, own⟩ := each d
      rw [if_neg other] at own
      have queue := congrArg Channel.queue own
      have summary := congrArg Channel.summary own
      exact ⟨queue, summary⟩
  · have image : b.withdrawn n (s.channel c).summary = _ := if_neg live
    rw [h, image]
    unfold State.modifyBatch
    refine ⟨?_, .inl ?_, fun d other => ?_⟩
    · rw [State.channel_modifyChannel, if_pos rfl]
      rfl
    · rw [State.channel_modifyChannel, if_pos rfl]
      rfl
    · rw [State.channel_modifyChannel, if_neg other]
      exact ⟨rfl, rfl⟩

/-- A withdrawal from the record found by its tag, which may be none. -/
def State.withdrawAt (n : SiteNo) (s : State) (p : ChannelNo × Nat) : State :=
  match (s.channel p.1).find p.2 with
  | some b => s.withdrawEntry p.1 b n
  | none => s

theorem Channel.find_mem {ch : Channel} {tag : Nat} {b : Batch} (h : ch.find tag = some b) :
    b ∈ ch.queue ∧ b.tag = tag :=
  ⟨List.mem_of_find?_eq_some h, by simpa using List.find?_some h⟩

/-- A tag that no other record of the queue carries finds its record (05, R87). -/
theorem Channel.find_of_mem {ch : Channel} (tags : (ch.queue.map Batch.tag).Nodup) {b : Batch}
    (among : b ∈ ch.queue) : ch.find b.tag = some b := by
  cases found : ch.find b.tag with
  | none => exact absurd (List.find?_eq_none.mp found b among) (by simp)
  | some x =>
    obtain ⟨hx, tag⟩ := Channel.find_mem found
    rw [List.inj_on_of_nodup_map tags hx among tag]

/-- The tags of the queues outlast a withdrawal (05, R87). -/
theorem State.tags_withdrawAt (s : State) (n : SiteNo) (p : ChannelNo × Nat) (d : ChannelNo) :
    ((s.withdrawAt n p).channel d).queue.map Batch.tag = (s.channel d).queue.map Batch.tag := by
  unfold State.withdrawAt
  split
  next b found =>
    obtain ⟨own, -, others⟩ := s.channel_withdrawEntry n p.1 b
    by_cases same : d = p.1
    · rw [same, own]
      exact Channel.modifyBatch_tags (s.channel p.1) b.tag _ fun _ _ _ => b.withdrawn_tag n _
    · rw [(others d same).1]
  next => rfl

end Step

/-! ### All the withdrawals of a site (02, R38) -/

section Fold
variable {n : SiteNo}

/-- Each listed record is withdrawn from once, with the chain summary of its channel or, after an
ABANDONED one took it, with an empty one; the records not listed stand. -/
theorem withdrawAt_foldl (l : List (ChannelNo × Nat)) (distinct : l.Nodup) (s : State)
    (tags : ∀ d, ((s.channel d).queue.map Batch.tag).Nodup) {c : ChannelNo} {b : Batch}
    (among : b ∈ (s.channel c).queue) :
    ((c, b.tag) ∉ l → b ∈ ((l.foldl (State.withdrawAt n) s).channel c).queue) ∧
    ((c, b.tag) ∈ l → ∃ g, (g = (s.channel c).summary ∨ g = .zero) ∧
      ((∀ tag, (c, tag) ∈ l → tag = b.tag) → g = (s.channel c).summary) ∧
      b.withdrawn n g ∈ ((l.foldl (State.withdrawAt n) s).channel c).queue) := by
  induction l generalizing s b with
  | nil => exact ⟨fun _ => among, fun h => absurd h List.not_mem_nil⟩
  | cons p l ih =>
    obtain ⟨fresh, rest⟩ := List.nodup_cons.mp distinct
    have tags' : ∀ d, (((s.withdrawAt n p).channel d).queue.map Batch.tag).Nodup := fun d => by
      rw [State.tags_withdrawAt]
      exact tags d
    rw [List.foldl_cons]
    by_cases here : p = (c, b.tag)
    · subst here
      have found : (s.channel c).find b.tag = some b := Channel.find_of_mem (tags c) among
      have step : s.withdrawAt n (c, b.tag) = s.withdrawEntry c b n := by
        simp only [State.withdrawAt, found]
      refine ⟨fun h => absurd List.mem_cons_self h, fun _ => ⟨_, .inl rfl, fun _ => rfl, ?_⟩⟩
      have image : b.withdrawn n (s.channel c).summary ∈
          ((s.withdrawAt n (c, b.tag)).channel c).queue := by
        rw [step, (s.channel_withdrawEntry n c b).1]
        exact List.mem_map.mpr ⟨b, among, by simp⟩
      refine (ih rest _ tags' image).1 ?_
      rw [Batch.withdrawn_tag]
      exact fresh
    · have kept : b ∈ ((s.withdrawAt n p).channel c).queue ∧
          (((s.withdrawAt n p).channel c).summary = (s.channel c).summary ∨
            p.1 = c ∧ ((s.withdrawAt n p).channel c).summary = .zero) := by
        unfold State.withdrawAt
        split
        next x found =>
          obtain ⟨own, summary, others⟩ := s.channel_withdrawEntry n p.1 x
          by_cases same : c = p.1
          · have off : b.tag ≠ x.tag := fun tag =>
              here (Prod.ext same.symm ((Channel.find_mem found).2.symm.trans tag.symm))
            rw [same] at among ⊢
            rw [own]
            exact ⟨List.mem_map.mpr ⟨b, among, by simp [off]⟩, summary.imp_right fun h => ⟨rfl, h⟩⟩
          · rw [(others c same).1, (others c same).2]
            exact ⟨among, .inl rfl⟩
        next => exact ⟨among, .inl rfl⟩
      obtain ⟨stays, changes⟩ := ih rest _ tags' kept.1
      refine ⟨fun h => stays fun later => h (List.mem_cons_of_mem p later), fun h => ?_⟩
      obtain ⟨g, origin, alone, image⟩ :=
        changes ((List.mem_cons.mp h).resolve_left fun eq => here eq.symm)
      refine ⟨g, ?_, fun only => ?_, image⟩
      · rcases kept.2 with same | ⟨-, zero⟩
        · rwa [same] at origin
        · rw [zero, or_self] at origin
          exact .inr origin
      · rcases kept.2 with same | ⟨chan, -⟩
        · rw [← same]
          exact alone fun tag later => only tag (List.mem_cons_of_mem p later)
        · have first := only p.2 (by rw [← chan]; exact List.mem_cons_self)
          exact absurd (Prod.ext chan first) here

theorem Batch.withdrawn_includedSites (g : ChainSummary) (b : Batch) :
    (b.withdrawn n g).includedSites = b.includedSites := by
  rw [Batch.includedSites, Batch.withdrawn_plan]
  exact b.modifyEntry_includedSites Included.withdraw

theorem Batch.armIfReady_active (b : Batch) : b.armIfReady.active = b.active := by
  unfold Batch.armIfReady
  split
  next planned =>
    have state : b.state = .planned := by simpa using (Bool.and_eq_true_iff.mp planned).1
    simp [Batch.active, state]
  next => rfl

/-- The withdrawal of an order leaves the batch active unless it is ABANDONED. -/
theorem Batch.withdrawn_active (g : ChainSummary) (b : Batch) :
    (b.withdrawn n g).active = true → b.active = true := by
  unfold Batch.withdrawn
  split
  · intro h
    cases h
  · rw [Batch.armIfReady_active]
    exact id

theorem State.mem_withdrawEntry {s : State} {c d : ChannelNo} {b y : Batch}
    (h : y ∈ ((s.withdrawEntry c b n).channel d).queue) :
    y ∈ (s.channel d).queue ∨ d = c ∧ y = b.withdrawn n (s.channel c).summary := by
  obtain ⟨own, -, others⟩ := s.channel_withdrawEntry n c b
  by_cases same : d = c
  · rw [same, own, List.mem_map] at h
    obtain ⟨x, hx, rfl⟩ := h
    split
    · exact .inr ⟨same, rfl⟩
    · exact .inl (same ▸ hx)
  · rw [(others d same).1] at h
    exact .inl h

/-- A withdrawal makes no reference (02, R37). -/
theorem State.referenced_withdrawEntry {s : State} {c : ChannelNo} {b : Batch} {k : SiteNo}
    (among : b ∈ (s.channel c).queue) (h : (s.withdrawEntry c b n).referenced k = true) :
    s.referenced k = true := by
  rw [State.referenced_iff] at h ⊢
  refine h.imp ?_ ?_
  · rintro ⟨d, y, hy, active, included⟩
    rcases State.mem_withdrawEntry hy with old | ⟨-, rfl⟩
    · exact ⟨d, y, old, active, included⟩
    · exact ⟨c, b, among, b.withdrawn_active _ active, b.withdrawn_includedSites _ ▸ included⟩
  · rintro ⟨j, q, slot, rest⟩
    have same : (s.withdrawEntry c b n).slot j = s.slot j := by
      rw [State.slot, State.withdrawEntry_meas]
      rfl
    exact ⟨j, q, same ▸ slot, rest⟩

/-- A RETIRING record stands exactly while it is referenced (02, R40). -/
def State.Settled (s : State) (n : SiteNo) (r : Enrolled) : Prop :=
  s.enrolled n = some r ∧ s.referenced n = true ∨ s.enrolled n = none ∧ s.referenced n = false

theorem State.settled_withdrawEntry {s : State} {c : ChannelNo} {b : Batch} {r : Enrolled}
    (settled : s.Settled n r) (retiring : r.phase = .retiring) (among : b ∈ (s.channel c).queue)
    (included : n ∈ b.includedSites) (active : b.active = true) :
    (s.withdrawEntry c b n).Settled n r := by
  have makesNone := State.referenced_withdrawEntry (n := n) (k := n) among
  rcases s.withdrawEntry_cases c b n with ⟨-, h⟩ | ⟨live, h⟩
  · rw [h] at makesNone ⊢
    rw [State.terminate] at makesNone ⊢
    generalize hv : (s.modifyChannel c fun ch => ch.terminate { b.modifyEntry n Included.withdraw with
      state := .abandoned, reason := some .noSites }) = v at makesNone ⊢
    have site : v.site n = s.site n := by rw [← hv]; rfl
    have listed : n ∈ ({ b.modifyEntry n Included.withdraw with
        state := .abandoned, reason := some .noSites } : Batch).includedSites := by
      have same := b.modifyEntry_includedSites (n := n) Included.withdraw
      exact same.symm ▸ included
    rw [State.referenced_checkVacateAll] at makesNone
    unfold State.Settled
    rw [State.referenced_checkVacateAll]
    cases ref : v.referenced n with
    | true =>
      have was := makesNone ref
      obtain ⟨enrolled, -⟩ : s.enrolled n = some r ∧ s.referenced n = true :=
        settled.resolve_right fun h => by simp [h.2] at was
      refine .inl ⟨?_, rfl⟩
      rw [State.enrolled, State.site_checkVacateAll (.inr ref), site]
      exact enrolled
    | false =>
      refine .inr ⟨?_, rfl⟩
      rcases settled with ⟨enrolled, -⟩ | ⟨vacant, -⟩
      · have isRetiring : v.isRetiring n = true :=
          (State.isRetiring_congr site).trans (State.isRetiring_of enrolled retiring)
        exact (State.site_checkVacateAll_vacant listed isRetiring ref).1
      · have not : v.isRetiring n = false := by
          rw [State.isRetiring_congr site, State.isRetiring, vacant]
          rfl
        rw [State.enrolled, State.site_checkVacateAll (.inl not), site]
        exact vacant
  · have enrolled : (s.withdrawEntry c b n).enrolled n = s.enrolled n := by rw [h]; rfl
    have still : (s.withdrawEntry c b n).referenced n = true := by
      refine State.referenced_iff.mpr (.inl ⟨c, b.withdrawn n (s.channel c).summary, ?_, ?_, ?_⟩)
      · rw [(s.channel_withdrawEntry n c b).1]
        exact List.mem_map.mpr ⟨b, among, by simp⟩
      · have image : b.withdrawn n (s.channel c).summary = _ := if_neg live
        rw [image, Batch.armIfReady_active]
        exact active
      · rw [Batch.withdrawn_includedSites]
        exact included
    have was := makesNone still
    unfold State.Settled
    rw [enrolled, still]
    exact settled.imp (fun h => ⟨h.1, rfl⟩) fun h => by simp [h.2] at was

/-- The records that a list of withdrawals is about are active with an entry of the site. -/
def State.Listed (s : State) (n : SiteNo) (l : List (ChannelNo × Nat)) : Prop :=
  ∀ p ∈ l, ∀ b ∈ (s.channel p.1).queue, b.tag = p.2 → b.active = true ∧ n ∈ b.includedSites

/-- What the withdrawals of a site keep: the time and the port, the slots, the change flag of the site, and
that it stands while it is referenced (02, R38, R40). -/
theorem withdrawAt_foldl_keeps {r : Enrolled} (retiring : r.phase = .retiring)
    (l : List (ChannelNo × Nat)) (distinct : l.Nodup) (s : State) (listed : s.Listed n l)
    (settled : s.Settled n r) : (l.foldl (State.withdrawAt n) s).Settled n r := by
  induction l generalizing s with
  | nil => exact settled
  | cons p l ih =>
    obtain ⟨fresh, rest⟩ := List.nodup_cons.mp distinct
    refine ih rest _ ?_ ?_
    · intro q hq b hb tag
      unfold State.withdrawAt at hb
      split at hb
      next x found =>
        rcases State.mem_withdrawEntry hb with old | ⟨chan, rfl⟩
        · exact listed q (List.mem_cons_of_mem p hq) b old tag
        · rw [Batch.withdrawn_tag, (Channel.find_mem found).2] at tag
          exact absurd (Prod.ext chan tag.symm : q = p) fun same => fresh (same ▸ hq)
      next => exact listed q (List.mem_cons_of_mem p hq) b hb tag
    · unfold State.withdrawAt
      split
      next b found =>
        obtain ⟨among, tag⟩ := Channel.find_mem found
        obtain ⟨active, included⟩ := listed p List.mem_cons_self b among tag
        exact State.settled_withdrawEntry settled retiring among included active
      next => exact settled

/-- What the withdrawals leave as it was. -/
theorem withdrawAt_foldl_frame (l : List (ChannelNo × Nat)) (s : State) :
    (l.foldl (State.withdrawAt n) s).time = s.time ∧ (l.foldl (State.withdrawAt n) s).meas = s.meas ∧
    (l.foldl (State.withdrawAt n) s).highway = s.highway ∧
    (l.foldl (State.withdrawAt n) s).port = s.port ∧ (l.foldl (State.withdrawAt n) s).free = s.free ∧
    ((s.site n).change = true → ((l.foldl (State.withdrawAt n) s).site n).change = true) := by
  induction l generalizing s with
  | nil => exact ⟨rfl, rfl, rfl, rfl, rfl, id⟩
  | cons p l ih =>
    obtain ⟨time, meas, highway, port, free, change⟩ := ih (s.withdrawAt n p)
    rw [List.foldl_cons, time, meas, highway, port, free]
    unfold State.withdrawAt at change ⊢
    split
    next b found =>
      rw [State.withdrawEntry_time, State.withdrawEntry_meas, State.withdrawEntry_highway,
        State.withdrawEntry_port, State.withdrawEntry_free]
      refine ⟨rfl, rfl, rfl, rfl, rfl, fun h => ?_⟩
      simp only [found] at change
      refine change ?_
      rcases s.withdrawEntry_cases p.1 b n with ⟨-, next⟩ | ⟨-, next⟩ <;> rw [next]
      · exact State.change_checkVacateAll (s := s.modifyChannel p.1 _) h
      · exact h
    next none =>
      simp only [none] at change
      exact ⟨rfl, rfl, rfl, rfl, rfl, change⟩

end Fold

/-! ### The command (02, R37, R38) -/

/-- The answered state of a taken command whose block leaves the port alone (08, R149). -/
theorem takeCommand_of_port {s u : State} {act : State → Answer} {r : Result} {body : Body}
    (taken : s.takes = true) (answer : act s.endTransaction = ⟨r, body, u⟩)
    (port : u.port = s.endTransaction.port) (identifier label : Byte) :
    takeCommand identifier label s act = .next (u.answered identifier label s.now r body) := by
  rw [takeCommand_taken taken, answer,
    Answer.record_eq _ _ _ _ (by rw [port]; rfl) (by rw [port]; rfl)]

/-- A batch with a WAITING order of the site (02, R38). -/
def Batch.Waits (b : Batch) (n : SiteNo) : Prop :=
  b.active = true ∧ ∃ y, b.entryOf n = some y ∧ y.order = .waiting

section Command
variable {s : State} {n : SiteNo} {e : Enrolled} {m : Measurement}

theorem Batch.included_of_entry {b : Batch} {y : Included} (entry : b.entryOf n = some y) :
    n ∈ b.includedSites := by
  obtain ⟨p, hp, site, some⟩ := Batch.entryOf_eq_some entry
  exact List.mem_map.mpr ⟨p, List.mem_filter.mpr ⟨hp, by rw [some]; rfl⟩, site⟩

theorem State.mem_waitingBatches {c : ChannelNo} {tag : Nat} :
    (c, tag) ∈ s.waitingBatches n ↔ ∃ b ∈ (s.channel c).queue, b.Waits n ∧ b.tag = tag := by
  simp only [State.waitingBatches, List.mem_flatMap, List.mem_finRange, true_and, List.mem_map,
    List.mem_filter, Bool.and_eq_true, Option.any_eq_true, beq_iff_eq, Prod.mk.injEq, Batch.Waits]
  constructor
  · rintro ⟨d, b, ⟨hb, active, y, entry, waiting⟩, rfl, tag⟩
    exact ⟨b, hb, ⟨active, y, entry, waiting⟩, tag⟩
  · rintro ⟨b, hb, ⟨active, y, entry, waiting⟩, tag⟩
    exact ⟨c, b, ⟨hb, active, y, entry, waiting⟩, rfl, tag⟩

theorem State.QueuesLawful.nodup (lawful : s.QueuesLawful) (c : ChannelNo) :
    ((s.channel c).queue.map Batch.tag).Nodup := ((State.tags_nodup_iff s).mp lawful.tags).1 c

theorem Batch.eq_of_tag {l : List Batch} (tags : (l.map Batch.tag).Nodup) {b x : Batch} (hb : b ∈ l)
    (hx : x ∈ l) (tag : x.tag = b.tag) : x = b := List.inj_on_of_nodup_map tags hx hb tag

theorem State.waitingBatches_nodup (lawful : s.QueuesLawful) : (s.waitingBatches n).Nodup := by
  unfold State.waitingBatches
  refine List.nodup_flatMap.mpr ⟨fun c _ => ?_, (List.nodup_finRange 4).imp fun {c d} ne => ?_⟩
  · refine List.Nodup.of_map Prod.snd ?_
    rw [List.map_map]
    exact (List.filter_sublist.map Batch.tag).nodup (lawful.nodup c)
  · rw [Function.onFun, List.disjoint_left]
    intro p hc hd
    obtain ⟨b, -, rfl⟩ := List.mem_map.mp hc
    obtain ⟨x, -, same⟩ := List.mem_map.mp hd
    exact ne (congrArg Prod.fst same).symm

/-- A batch waits exactly when it is listed, its tag being its own. -/
theorem State.listed_iff (lawful : s.QueuesLawful) {c : ChannelNo} {b : Batch}
    (among : b ∈ (s.channel c).queue) : (c, b.tag) ∈ s.waitingBatches n ↔ b.Waits n := by
  rw [State.mem_waitingBatches]
  constructor
  · rintro ⟨x, hx, waits, tag⟩
    rwa [Batch.eq_of_tag (lawful.nodup c) among hx tag] at waits
  · exact fun waits => ⟨b, among, waits, rfl⟩

/-- The part with the record RETIRING, before its orders are withdrawn (02, R38). -/
def State.retiring (s : State) (n : SiteNo) (e : Enrolled) (m : Measurement) : State :=
  { s with
    sites := s.sites.set n
      ⟨true, (s.site n).zonesRemoved, some { e with phase := .retiring, cadence := none }⟩
    meas := m }

theorem State.retire_unreferenced (enrolled : s.enrolled n = some e) (stops : s.StopsAt n m)
    (free : s.referenced n = false) (busy : s.lineBusy) : s.retire n = (.done, { s with
      sites := s.sites.set n ⟨true, s.zonesNaming n, none⟩
      meas := m
      zones := s.zones.map fun o => o.filter fun z => !(z.siteA == n || z.siteB == n)
      channels := s.channels.map fun c => { c with
        context := c.context.map fun x => { x with entries := x.entries.set n none } } }) := by
  unfold State.retire
  rw [State.stopMeasuring_eq enrolled stops]
  dsimp only
  rw [State.referenced_stopped stops, free, if_neg Bool.false_ne_true, State.vacate_eq,
    State.arbitrate_busy (by exact busy)]
  simp only [Vector.set_set]
  rfl

theorem State.retire_referenced (enrolled : s.enrolled n = some e) (live : e.phase ≠ .retiring)
    (stops : s.StopsAt n m) (referenced : s.referenced n = true) (busy : s.lineBusy) :
    s.retire n =
      (.pending, (s.waitingBatches n).foldl (State.withdrawAt n) (s.retiring n e m)) := by
  unfold State.retire
  rw [State.stopMeasuring_eq enrolled stops]
  dsimp only
  rw [State.referenced_stopped stops, referenced, if_pos rfl]
  have turned : ({ s with
      sites := s.sites.set n { s.site n with body := some { e with cadence := none } }
      meas := m } : State).modifySite n (fun e => { e with phase := .retiring }) = s.retiring n e m := by
    generalize hv : ({ s with
      sites := s.sites.set n { s.site n with body := some { e with cadence := none } }
      meas := m } : State) = v
    have site : v.site n = { s.site n with body := some { e with cadence := none } } := by
      rw [← hv]
      exact State.site_setSite_self s n _
    have enrolled : v.enrolled n = some { e with cadence := none } := congrArg SiteRecord.body site
    have changes : (SitePhase.retiring != e.phase) = true := bne_iff_ne.mpr (Ne.symm live)
    rw [State.modifySite, enrolled]
    dsimp only
    rw [SiteRecord.put_enrolled enrolled, site, ← hv]
    simp only [State.setSite, Vector.set_set, changes, Bool.or_true]
    rfl
  rw [turned]
  have folded : (s.retiring n e m).withdrawSite n =
      (s.waitingBatches n).foldl (State.withdrawAt n) (s.retiring n e m) := rfl
  rw [folded, State.arbitrate_busy]
  rw [(withdrawAt_foldl_frame (n := n) _ _).2.2.1]
  exact busy

theorem answerRetire_live (enrolled : s.enrolled n = some e) (live : e.phase ≠ .retiring) :
    answerRetire n.val s = ⟨(s.retire n).1, .empty, (s.retire n).2⟩ := by
  simp only [answerRetire, siteOf_val, enrolled, if_neg live]

/-- There is always what R37 stops. -/
theorem State.stopsAt_exists (s : State) (n : SiteNo) : ∃ m, s.StopsAt n m := by
  by_cases waits : ∃ i p, s.slotOf n = some i ∧ s.slot i = some p ∧ p.flight = none
  · obtain ⟨i, p, slotOf, slot, flight⟩ := waits
    exact ⟨_, .inr ⟨i, p, slotOf, slot, flight, rfl⟩⟩
  · refine ⟨_, .inl ⟨fun i p slotOf slot flight => waits ⟨i, p, slotOf, slot, flight⟩, rfl⟩⟩

/-- In the end the RETIRING record stands exactly while it is referenced (02, R40). -/
theorem State.retiring_settled (lawful : s.QueuesLawful) (stops : s.StopsAt n m)
    (referenced : s.referenced n = true) :
    ((s.waitingBatches n).foldl (State.withdrawAt n) (s.retiring n e m)).Settled n
      { e with phase := .retiring, cadence := none } := by
  refine withdrawAt_foldl_keeps rfl _ (State.waitingBatches_nodup lawful) _ ?_ (.inl ⟨?_, ?_⟩)
  · rintro ⟨c, tag⟩ listed b hb rfl
    obtain ⟨active, y, entry, -⟩ := (State.listed_iff lawful hb).mp listed
    exact ⟨active, Batch.included_of_entry entry⟩
  · exact congrArg SiteRecord.body (State.site_setSite_self s n _)
  · exact (State.referenced_stopped stops _).trans referenced

/-- In the end each record that waited has its order withdrawn, and no other has changed. -/
theorem State.retiring_queue (lawful : s.QueuesLawful) {c : ChannelNo} {b : Batch}
    (among : b ∈ (s.channel c).queue) :
    (¬ b.Waits n → b ∈ (((s.waitingBatches n).foldl (State.withdrawAt n)
      (s.retiring n e m)).channel c).queue) ∧
    (b.Waits n → ∃ g, (g = (s.channel c).summary ∨ g = .zero) ∧
      ((∀ x ∈ (s.channel c).queue, x.Waits n → x = b) → g = (s.channel c).summary) ∧
      b.withdrawn n g ∈ (((s.waitingBatches n).foldl (State.withdrawAt n)
        (s.retiring n e m)).channel c).queue) := by
  obtain ⟨stays, image⟩ := withdrawAt_foldl (n := n) (s.waitingBatches n)
    (State.waitingBatches_nodup lawful) (s.retiring n e m) lawful.nodup among
  rw [State.listed_iff lawful among] at stays image
  refine ⟨stays, fun waits => ?_⟩
  obtain ⟨g, origin, alone, image⟩ := image waits
  refine ⟨g, origin, fun only => alone fun tag listed => ?_, image⟩
  obtain ⟨x, hx, waits, rfl⟩ := State.mem_waitingBatches.mp listed
  rw [only x hx waits]

end Command

/-- Settles O24: the checks in order, then the record VACANT, or RETIRING with each WAITING order of it
withdrawn. -/
theorem retireVacatesOrRetires : Obligations.RetireVacatesOrRetires := by
  intro s label taken
  refine ⟨fun n large => ?_, fun n vacant => ?_, fun n e enrolled retiring => ?_,
    fun n e m enrolled live busy => ?_⟩
  · refine takeCommand_of_answer taken (t := s) ?_ 4 label
    rw [answerRetire, siteOf_eq_none.mpr large]
    rfl
  · refine takeCommand_of_answer taken (t := s) ?_ 4 label
    simp only [answerRetire, siteOf_val, show s.endTransaction.enrolled n = none from vacant]
    rfl
  · refine takeCommand_of_answer taken (t := s) ?_ 4 label
    simp only [answerRetire, siteOf_val, show s.endTransaction.enrolled n = some e from enrolled,
      if_pos retiring]
    rfl
  · intro wait stops
    have stops : s.endTransaction.StopsAt n m := stops
    have answer := answerRetire_live (s := s.endTransaction) enrolled live
    have vacates (free : s.referenced n = false) : exec (.retire label n.val) s = .next (({ s with
        sites := s.sites.set n ⟨true, s.zonesNaming n, none⟩
        meas := m
        zones := s.zones.map fun o => o.filter fun z => !(z.siteA == n || z.siteB == n)
        channels := s.channels.map fun c => { c with
          context := c.context.map fun x => { x with entries := x.entries.set n none } } } :
            State).answered 4 label s.now .done .empty) := by
      rw [State.retire_unreferenced (s := s.endTransaction) enrolled stops free busy] at answer
      exact takeCommand_of_answer taken answer 4 label
    have retires (referenced : s.referenced n = true) : exec (.retire label n.val) s =
        .next (State.answered ((s.waitingBatches n).foldl (State.withdrawAt n)
          (s.endTransaction.retiring n e m)) 4 label s.now .pending .empty) := by
      rw [State.retire_referenced (s := s.endTransaction) enrolled live stops referenced busy] at answer
      refine takeCommand_of_port taken answer ?_ 4 label
      exact (withdrawAt_foldl_frame (n := n) _ _).2.2.2.1
    refine ⟨vacates, fun referenced nothing => ?_, ?_⟩
    · rw [retires referenced, nothing]
      rfl
    · cases referenced : s.referenced n with
      | false =>
        refine ⟨_, vacates referenced, rfl, rfl, rfl, ?_, fun h => by cases h⟩
        exact congrArg SiteRecord.change (State.site_setSite_self s n _)
      | true =>
        obtain ⟨time, meas, highway, port, free, change⟩ := withdrawAt_foldl_frame (n := n)
          (s.waitingBatches n) (s.endTransaction.retiring n e m)
        have site : (s.endTransaction.retiring n e m).site n = ⟨true, (s.site n).zonesRemoved,
          some { e with phase := .retiring, cadence := none }⟩ := State.site_setSite_self s n _
        refine ⟨_, retires referenced, meas, time, highway, change (by rw [site]), fun _ => ⟨?_, ?_, ?_, ?_⟩⟩
        · exact congrArg (fun k => some (⟨⟨4, label, s.now, .pending, .empty⟩, 0, k⟩ : Forming)) free
        all_goals
          intro lawful
          have lawful : s.endTransaction.QueuesLawful := ⟨lawful.length, lawful.tags⟩
        · intro still
          exact (State.retiring_settled (s := s.endTransaction) lawful stops referenced).resolve_right
            (fun h => Bool.false_ne_true (h.2.symm.trans still)) |>.1
        · intro gone
          exact (State.retiring_settled (s := s.endTransaction) lawful stops referenced).resolve_left
            (fun h => Bool.false_ne_true (gone.symm.trans h.2)) |>.1
        · intro c b among waits w dead open' g
          have hw : w = b.modifyEntry n Included.withdraw := by rw [Included.withdraw_eq]
          have dead_iff : (b.modifyEntry n Included.withdraw).noneLive = true ↔ dead := by
            rw [Batch.noneLive_iff, ← hw]
          have open_iff : (b.modifyEntry n Included.withdraw).anyIn .waiting = true ↔ open' := by
            rw [Batch.anyIn_iff, ← hw]
          obtain ⟨stays, image⟩ := State.retiring_queue (s := s.endTransaction) (e := e) (m := m) lawful among
          have plain (yes : b.Waits n) (not : ¬ ((b.state = .planned ∨ b.state = .armed) ∧ dead)) :
              w.armIfReady ∈ (((s.waitingBatches n).foldl (State.withdrawAt n)
                (s.endTransaction.retiring n e m)).channel c).queue := by
            obtain ⟨g, -, -, image⟩ := image yes
            rwa [Batch.withdrawn, if_neg (by rwa [dead_iff]), ← hw] at image
          have unarmed (not : b.state = .planned → open') : w.armIfReady = w := by
            refine if_neg fun h => ?_
            obtain ⟨planned, ready⟩ := Bool.and_eq_true_iff.mp h
            rw [hw, Bool.not_eq_true', Bool.eq_false_iff, Ne, open_iff] at ready
            exact ready (not (by simpa [hw] using planned))
          refine ⟨stays, fun yes early nothing => ?_, fun yes planned live none => ?_,
            fun yes planned some => ?_, fun yes armed live => ?_, fun yes late => ?_⟩
          · obtain ⟨g', origin, alone, image⟩ := image yes
            refine ⟨g'.withRecord .abandoned w.tally, ?_, fun only => ?_, ?_⟩
            · rcases origin with rfl | rfl
              · exact .inl rfl
              · exact .inr rfl
            · rw [alone only]
              rfl
            · rwa [Batch.withdrawn, if_pos ⟨early, dead_iff.mpr nothing⟩, ← hw] at image
          · have image := plain yes fun h => live h.2
            have arms : w.armIfReady = { w with state := .armed } := by
              refine if_pos ?_
              have ready : w.anyIn .waiting = false := by
                rw [Bool.eq_false_iff, Ne, hw, open_iff]
                exact none
              rw [ready]
              simp [hw, planned]
            rwa [arms] at image
          · have image := plain yes fun h => ?_
            · rwa [unarmed fun _ => some] at image
            · obtain ⟨p, y, hp, disp, waiting⟩ := some
              have settled := h.2 p y hp disp
              simp [waiting] at settled
          · have image := plain yes fun h => live h.2
            rwa [unarmed fun planned => by simp [armed] at planned] at image
          · have image := plain yes fun h => by rcases late with late | late <;> simp [late] at h
            rwa [unarmed fun planned => by rcases late with late | late <;> simp [late] at planned] at image

/-! ### The deadlines of entries, and RETIRE (07, R133 to R138; 02, R38) -/

theorem PlanEntry.modify_included? (f : Included → Included) (p : PlanEntry) :
    (p.modify f).included? = p.included?.map f := by
  obtain ⟨site, disp⟩ := p
  cases disp <;> rfl

theorem Batch.entryOf_modifyEntry (b : Batch) (n : SiteNo) (f : Included → Included) :
    (b.modifyEntry n f).entryOf n = (b.entryOf n).map f := by
  simp only [Batch.entryOf, Batch.modifyEntry, List.find?_map]
  have site : ((fun p : PlanEntry => p.site == n) ∘ fun p => if p.site == n then p.modify f else p) =
      fun p => p.site == n := by
    funext p
    simp only [Function.comp_apply]
    split
    · rw [PlanEntry.modify_site]
    · rfl
  rw [site]
  cases found : b.plan.find? fun p => p.site == n with
  | none => rfl
  | some p =>
    have here : p.site = n := by simpa using List.find?_some found
    simp [here, PlanEntry.modify_included?]

/-- No order of the site waits in a record once it has been withdrawn (02, R38). -/
theorem Batch.withdrawn_entry {b : Batch} {n : SiteNo} {g : ChainSummary} {x : Included}
    (entry : (b.withdrawn n g).entryOf n = some x) : x.order ≠ .waiting := by
  have entry : (b.modifyEntry n Included.withdraw).entryOf n = some x := by
    rwa [Batch.entryOf, Batch.withdrawn_plan] at entry
  rw [Batch.entryOf_modifyEntry, Option.map_eq_some_iff] at entry
  obtain ⟨y, -, rfl⟩ := entry
  rw [Included.withdraw_order]
  split
  · simp
  next moved => exact moved

theorem tags_withdrawAt_foldl (n : SiteNo) (l : List (ChannelNo × Nat)) (s : State) (d : ChannelNo) :
    ((l.foldl (State.withdrawAt n) s).channel d).queue.map Batch.tag =
      (s.channel d).queue.map Batch.tag := by
  induction l generalizing s with
  | nil => rfl
  | cons p l ih => rw [List.foldl_cons, ih, State.tags_withdrawAt]

/-- RETIRE leaves no WAITING order of its site in an active batch (02, R38). -/
theorem State.retiring_waits {s : State} {n : SiteNo} {e : Enrolled} {m : Measurement}
    (lawful : s.QueuesLawful) {c : ChannelNo} {y : Batch}
    (among : y ∈ (((s.waitingBatches n).foldl (State.withdrawAt n) (s.retiring n e m)).channel c).queue) :
    ¬ y.Waits n := by
  have tags := tags_withdrawAt_foldl n (s.waitingBatches n) (s.retiring n e m) c
  have distinct : ((((s.waitingBatches n).foldl (State.withdrawAt n)
      (s.retiring n e m)).channel c).queue.map Batch.tag).Nodup := by
    rw [tags]
    exact lawful.nodup c
  have tag : y.tag ∈ (s.channel c).queue.map Batch.tag := tags ▸ List.mem_map.mpr ⟨y, among, rfl⟩
  obtain ⟨b, hb, same⟩ := List.mem_map.mp tag
  obtain ⟨stays, image⟩ := State.retiring_queue (n := n) (e := e) (m := m) lawful hb
  by_cases waits : b.Waits n
  · obtain ⟨g, -, -, image⟩ := image waits
    rw [Batch.eq_of_tag distinct image among (same.symm.trans (b.withdrawn_tag n g).symm)]
    rintro ⟨-, x, entry, waiting⟩
    exact Batch.withdrawn_entry entry waiting
  · rwa [Batch.eq_of_tag distinct (stays waits) among same.symm]

theorem exec_retire_waits {s t : State} {label : Byte} {n : SiteNo} {e : Enrolled}
    (taken : s.takes = true) (busy : s.lineBusy) (lawful : s.QueuesLawful)
    (enrolled : s.enrolled n = some e) (live : e.phase ≠ .retiring)
    (next : exec (.retire label n.val) s = .next t) {c : ChannelNo} {b : Batch}
    (among : b ∈ (t.channel c).queue) : ¬ b.Waits n := by
  have lawful : s.endTransaction.QueuesLawful := ⟨lawful.length, lawful.tags⟩
  obtain ⟨m, stops⟩ := s.endTransaction.stopsAt_exists n
  have answer := answerRetire_live (s := s.endTransaction) enrolled live
  cases referenced : s.referenced n with
  | false =>
    rw [State.retire_unreferenced (s := s.endTransaction) enrolled stops referenced busy] at answer
    have acts := (takeCommand_of_port taken answer rfl 4 label).symm.trans next
    obtain rfl := Host.Outcome.next.inj acts
    rintro ⟨active, y, entry, -⟩
    have old : b ∈ (s.channel c).queue := by
      simpa [State.channel, State.answered] using among
    have held := State.referenced_iff.mpr (.inl ⟨c, b, old, active, Batch.included_of_entry entry⟩)
    exact Bool.false_ne_true (referenced.symm.trans held)
  | true =>
    rw [State.retire_referenced (s := s.endTransaction) enrolled live stops referenced busy] at answer
    have port := (withdrawAt_foldl_frame (n := n) (s.endTransaction.waitingBatches n)
      (s.endTransaction.retiring n e m)).2.2.2.1
    have acts := (takeCommand_of_port taken answer port 4 label).symm.trans next
    obtain rfl := Host.Outcome.next.inj acts
    exact State.retiring_waits lawful among

/-- Settles O44: each deadline by the rule of its entry, and RETIRE by its withdrawals. -/
theorem entryDeadlinesMoveTheirEntries : Obligations.EntryDeadlinesMoveTheirEntries := by
  refine ⟨fun s tag n c b e running busy found active entry => ⟨fun waiting due => ?_,
    fun waiting due => ?_, fun x sent deadline due => ?_, fun x aborting deadline due cancelling => ?_⟩,
    fun s t label n e taken busy lawful enrolled live next c b x among active entry waiting => ?_⟩
  · exact exec_release running busy found active entry waiting due
  · intro w dead open'
    have acts := exec_withdrawal running busy found active entry waiting due
    have hw : w = b.modifyEntry n Included.withdraw := by rw [Included.withdraw_eq]
    have dead_iff : (b.modifyEntry n Included.withdraw).noneLive = true ↔ dead := by
      rw [Batch.noneLive_iff, ← hw]
    have open_iff : (b.modifyEntry n Included.withdraw).anyIn .waiting = true ↔ open' := by
      rw [Batch.anyIn_iff, ← hw]
    refine ⟨fun late => ?_, fun planned live waits => ?_, fun planned live none => ?_,
      fun planned nothing others => ?_⟩
    · rw [acts, State.withdrawEntry_late late, State.modifyBatch_found found, hw]
    · rw [acts, State.withdrawEntry_open (Bool.eq_false_iff.mpr fun h => live (dead_iff.mp h))
        (open_iff.mpr waits), State.modifyBatch_found found, hw]
    · rw [acts, State.withdrawEntry_armed planned
        (Bool.eq_false_iff.mpr fun h => live (dead_iff.mp h))
        (Bool.eq_false_iff.mpr fun h => none (open_iff.mp h)), State.modifyBatch_found found, hw]
    · rw [acts, State.withdrawEntry_dead (.inl planned) (dead_iff.mpr nothing), State.terminate]
      have kept := b.modifyEntry_includedSites (n := n) Included.withdraw
      rw [State.checkVacateAll_none]
      · rw [State.modifyChannel, Channel.terminate_abandoned rfl, hw]
        dsimp only
        rw [Batch.modifyEntry_tag, (State.findBatch_mem found).2]
        rfl
      · intro k hk
        exact others k (kept ▸ hk)
  · exact exec_receiptDeadline running found active entry sent deadline due
  · intro w rest more
    have hw : w = b.modifyEntry n Included.missAbort := by rw [Included.missAbort_eq]
    have acts := exec_abortDeadline running busy found active entry aborting deadline due
    have more_iff : (b.modifyEntry n Included.missAbort).anyIn .aborting = true ↔ more := by
      rw [Batch.anyIn_iff, ← hw]
    have missed := Batch.missAbort_anyIn entry aborting
    have found : rest.findBatch tag = some (c, b) := found
    refine ⟨fun yes => ?_, fun no => ?_⟩
    · rcases rest.completeCancel_cases c (b.modifyEntry n Included.missAbort) with
        ⟨-, none, -⟩ | ⟨-, none, -⟩ | ⟨-, h⟩
      · exact absurd (more_iff.mpr yes) (Bool.eq_false_iff.mp none)
      · exact absurd (more_iff.mpr yes) (Bool.eq_false_iff.mp none)
      · rw [acts, h, hw]
        exact congrArg _ (State.modifyBatch_found found _)
    · rcases rest.completeCancel_cases c (b.modifyEntry n Included.missAbort) with
        ⟨-, -, -, h⟩ | ⟨-, -, none, -⟩ | ⟨some, -⟩
      · rw [acts, h, hw]
        exact congrArg _ (State.modifyBatch_found found _)
      · exact absurd missed (Bool.eq_false_iff.mp none)
      · exact absurd (more_iff.mp (some.resolve_left (not_not.mpr cancelling))) no
  · exact exec_retire_waits taken busy lawful enrolled live next among ⟨active, x, entry, waiting⟩

end Sys2Proof.Machine
end

