-- ==== Sys2Proof/Proofs/Arbiter.lean ====
section
/-! PROOFS. The arbiter: what it chooses, and what the chosen frame does as it departs (07, R130 to R139). -/

namespace Sys2Proof.Machine

/-! ### The choice (R131, R132) -/

/-- The first of a list by a strict test is the least, and on a tie the one that stands first. -/
theorem firstBy_least {α : Type} {before : α → α → Bool} {le R : α → α → Prop} {P : α → Prop}
    (refl : ∀ x, le x x) (trans : ∀ x y z, le x y → le y z → le x z)
    (yes : ∀ x y, P x → P y → before x y = true → le x y)
    (no : ∀ x y, P x → P y → R x y → before y x = false → le x y) {l : List α} (all : ∀ x ∈ l, P x)
    (sorted : l.Pairwise R) {m : α} (h : firstBy before l = some m) : ∀ x ∈ l, le m x := by
  have key : ∀ (as : List α) (best : α), (∀ x ∈ best :: as, P x) → (best :: as).Pairwise R →
      ∀ x ∈ best :: as, le (as.foldl (fun best y => if before y best then y else best) best) x := by
    intro as
    induction as with
    | nil => intro best _ _ x hx; rw [List.mem_singleton.mp hx]; exact refl best
    | cons b bs ih =>
      intro best all sorted
      have hbest : P best := all best List.mem_cons_self
      have hb : P b := all b (by simp)
      have hR : R best b := List.rel_of_pairwise_cons sorted List.mem_cons_self
      rw [List.foldl_cons]
      cases test : before b best with
      | true =>
        have rest := ih b (fun x hx => all x (List.mem_cons_of_mem best hx)) sorted.of_cons
        rw [if_pos rfl]
        intro x hx
        rcases List.mem_cons.mp hx with rfl | hx
        · exact trans _ _ _ (rest b List.mem_cons_self) (yes b x hb hbest test)
        · exact rest x hx
      | false =>
        have shorter : (best :: bs).Sublist (best :: b :: bs) :=
          List.Sublist.cons_cons best (List.sublist_cons_self b bs)
        have rest := ih best (fun x hx => all x (shorter.subset hx)) (sorted.sublist shorter)
        rw [if_neg Bool.false_ne_true]
        intro x hx
        rcases List.mem_cons.mp hx with rfl | hx
        · exact rest x List.mem_cons_self
        · rcases List.mem_cons.mp hx with rfl | hx
          · exact trans _ _ _ (rest best List.mem_cons_self) (no best x hbest hb hR test)
          · exact rest x (List.mem_cons_of_mem best hx)
  cases l with
  | nil => cases h
  | cons a as =>
    obtain rfl := Option.some.inj h
    exact key as a all sorted

theorem firstBy_eq_none {α : Type} {before : α → α → Bool} {l : List α} :
    firstBy before l = none ↔ l = [] := by
  cases l <;> simp [firstBy]

/-- Within half the hub time range after a base, later-than is the order of the distances (00, R1). -/
theorem later_window {base x y : HubTime} (hx : (x - base).toNat < 2 ^ 39)
    (hy : (y - base).toNat < 2 ^ 39) : later x y = true ↔ (y - base).toNat < (x - base).toNat := by
  have split : (x - y).toNat = ((x - base) - (y - base)).toNat := by
    congr 1
    bv_omega
  rw [later_iff, split, BitVec.toNat_sub]
  omega

theorem earlier_window {base x y : HubTime} (hx : (x - base).toNat < 2 ^ 39)
    (hy : (y - base).toNat < 2 ^ 39) : earlier x y = true ↔ (x - base).toNat < (y - base).toNat :=
  later_window hy hx

/-- Times at the same distance from a base are the same. -/
theorem eq_of_distance {base x y : HubTime} (h : (x - base).toNat = (y - base).toNat) : x = y := by
  have same := BitVec.eq_of_toNat_eq h
  bv_omega

/-- The order of launch orders: by deadline, by age of the batch, by site (R132). -/
def OrderRef.NotAfter (base : HubTime) (r x : OrderRef) : Prop :=
  (r.deadline - base).toNat < (x.deadline - base).toNat ∨
    r.deadline = x.deadline ∧ (r.serial < x.serial ∨ r.serial = x.serial ∧ r.site ≤ x.site)

section Orders
variable {base : HubTime} {x y z : OrderRef}

theorem OrderRef.NotAfter.refl (base : HubTime) (x : OrderRef) : x.NotAfter base x :=
  .inr ⟨rfl, .inr ⟨rfl, le_rfl⟩⟩

theorem OrderRef.NotAfter.trans (hxy : x.NotAfter base y) (hyz : y.NotAfter base z) :
    x.NotAfter base z := by
  rcases hxy with lt | ⟨eq, rest⟩
  · rcases hyz with lt' | ⟨eq', -⟩
    · exact .inl (lt.trans lt')
    · exact .inl (eq' ▸ lt)
  · rcases hyz with lt' | ⟨eq', rest'⟩
    · exact .inl (eq ▸ lt')
    · refine .inr ⟨eq.trans eq', ?_⟩
      rcases rest with lt | ⟨same, le⟩
      · exact .inl (by omega)
      · exact rest'.imp (fun lt => by omega) fun ⟨same', le'⟩ => ⟨same.trans same', le.trans le'⟩

theorem OrderRef.notAfter_of_before (hx : (x.deadline - base).toNat < 2 ^ 39)
    (hy : (y.deadline - base).toNat < 2 ^ 39) (h : x.before y = true) : x.NotAfter base y := by
  simp only [OrderRef.before, Bool.or_eq_true, earlier_window hx hy, Bool.and_eq_true, beq_iff_eq,
    decide_eq_true_eq] at h
  exact h.imp_right fun ⟨eq, rest⟩ => ⟨eq, rest.imp_right fun ⟨serial, site⟩ => ⟨serial, site.le⟩⟩

theorem OrderRef.notAfter_of_not_before (hx : (x.deadline - base).toNat < 2 ^ 39)
    (hy : (y.deadline - base).toNat < 2 ^ 39) (h : y.before x = false) : x.NotAfter base y := by
  rw [Bool.eq_false_iff] at h
  simp only [OrderRef.before, ne_eq, Bool.or_eq_true, earlier_window hy hx, Bool.and_eq_true,
    beq_iff_eq, decide_eq_true_eq, not_or, not_and, not_lt] at h
  obtain ⟨le, tie⟩ := h
  rcases lt_or_eq_of_le le with lt | eq
  · exact .inl lt
  · have same := eq_of_distance eq
    obtain ⟨serial, site⟩ := tie same.symm
    refine .inr ⟨same, ?_⟩
    rcases lt_or_eq_of_le serial with lt | eq
    · exact .inl lt
    · exact .inr ⟨eq, site eq.symm⟩

end Orders

/-- The order of QUEUED slots: by queue order, then by number (R132). -/
def QueuedNotAfter (base : HubTime) (x y : SlotNo × HubTime) : Prop :=
  (x.2 - base).toNat < (y.2 - base).toNat ∨ x.2 = y.2 ∧ x.1 ≤ y.1

section Queued
variable {base : HubTime} {x y z : SlotNo × HubTime}

theorem QueuedNotAfter.refl (base : HubTime) (x : SlotNo × HubTime) : QueuedNotAfter base x x :=
  .inr ⟨rfl, le_rfl⟩

theorem QueuedNotAfter.trans (hxy : QueuedNotAfter base x y) (hyz : QueuedNotAfter base y z) :
    QueuedNotAfter base x z := by
  rcases hxy with lt | ⟨eq, le⟩
  · rcases hyz with lt' | ⟨eq', -⟩
    · exact .inl (lt.trans lt')
    · exact .inl (eq' ▸ lt)
  · rcases hyz with lt' | ⟨eq', le'⟩
    · exact .inl (eq ▸ lt')
    · exact .inr ⟨eq.trans eq', le.trans le'⟩

theorem queuedNotAfter_of_earlier (hx : (x.2 - base).toNat < 2 ^ 39) (hy : (y.2 - base).toNat < 2 ^ 39)
    (h : earlier x.2 y.2 = true) : QueuedNotAfter base x y :=
  .inl ((earlier_window hx hy).mp h)

theorem queuedNotAfter_of_not_earlier (hx : (x.2 - base).toNat < 2 ^ 39)
    (hy : (y.2 - base).toNat < 2 ^ 39) (first : x.1 < y.1) (h : earlier y.2 x.2 = false) :
    QueuedNotAfter base x y := by
  rw [Bool.eq_false_iff, Ne, earlier_window hy hx, not_lt] at h
  rcases lt_or_eq_of_le h with lt | eq
  · exact .inl lt
  · exact .inr ⟨eq_of_distance eq, first.le⟩

end Queued

theorem State.offers_eq_false {s : State} {r : AbortRef} : s.offers r = false ↔
    ∃ b e x, (s.channel r.channel).find r.tag = some b ∧ b.entryOf r.site = some e ∧
      e.abortDeadline = some x ∧ later s.now x = true := by
  unfold State.offers
  cases found : (s.channel r.channel).find r.tag with
  | none => simp
  | some b =>
    cases entry : b.entryOf r.site with
    | none => simp [entry]
    | some e => simp [entry, Option.any_eq_true]

/-- The released orders on the part (R132, R134). -/
theorem State.mem_orders {s : State} {x : OrderRef} : x ∈ s.orders ↔
    ∃ b p e, b ∈ (s.channel x.channel).queue ∧ p ∈ b.plan ∧
      (b.state = .planned ∨ b.state = .onAir) ∧ p.disp = .included e ∧ e.order = .waiting ∧
      e.released = true ∧ later s.now e.deadline = false ∧
      x = ⟨x.channel, b.tag, b.serial, p.site, e.deadline⟩ := by
  simp only [State.orders, List.mem_flatMap, List.mem_finRange, true_and, Batch.orders]
  constructor
  · rintro ⟨c, b, hb, hx⟩
    split at hx
    next state =>
      obtain ⟨p, hp, hx⟩ := List.mem_filterMap.mp hx
      obtain ⟨e, included, hx⟩ := Option.bind_eq_some_iff.mp hx
      split at hx
      next open' =>
        cases hx
        simp only [Bool.and_eq_true, Bool.not_eq_true', beq_iff_eq] at open'
        obtain ⟨⟨waiting, released⟩, early⟩ := open'
        exact ⟨b, p, e, hb, hp, by simpa using state, PlanEntry.included?_eq_some.mp included, waiting,
          released, early, rfl⟩
      next => cases hx
    next => cases hx
  · rintro ⟨b, p, e, hb, hp, state, disp, waiting, released, early, hx⟩
    refine ⟨x.channel, b, hb, ?_⟩
    rw [if_pos (by simpa using state)]
    refine List.mem_filterMap.mpr ⟨p, hp, ?_⟩
    rw [PlanEntry.included?_eq_some.mpr disp, Option.bind_some, waiting, released, early]
    exact congrArg some hx.symm

theorem State.mem_queuedSlots {s : State} {i : SlotNo} {x : HubTime} : (i, x) ∈ s.queuedSlots ↔
    ∃ p, s.slot i = some p ∧ p.flight = none ∧ p.queueOrder = x := by
  simp only [State.queuedSlots, List.mem_filterMap, List.mem_finRange, true_and,
    Option.bind_eq_some_iff]
  constructor
  · rintro ⟨j, p, slot, h⟩
    split at h
    next queued =>
      cases h
      exact ⟨p, slot, Option.isNone_iff_eq_none.mp queued, rfl⟩
    next => cases h
  · rintro ⟨p, slot, queued, rfl⟩
    exact ⟨i, p, slot, by simp [queued]⟩

theorem State.queuedSlots_sorted (s : State) : s.queuedSlots.Pairwise fun x y => x.1 < y.1 := by
  unfold State.queuedSlots
  refine (List.pairwise_lt_finRange 8).filterMap _ fun i j lt x hx y hy => ?_
  have number {i : SlotNo} {x : SlotNo × HubTime} (h : x ∈ (s.slot i).bind fun p =>
      if p.flight.isNone then some (i, p.queueOrder) else none) : x.1 = i := by
    obtain ⟨p, -, h⟩ := Option.bind_eq_some_iff.mp h
    split at h
    · cases h
      rfl
    · cases h
  rw [number hx, number hy]
  exact lt

/-- Settles O52: the oldest abort that is offered, else the first order, else the first QUEUED probe. -/
theorem arbiterTakesAbortsThenOrdersThenProbes : Obligations.ArbiterTakesAbortsThenOrdersThenProbes := by
  intro s passed
  have offers_iff (r : AbortRef) : s.offers r = false ↔ passed r := State.offers_eq_false
  have noAbort (h : ∀ r ∈ s.highway.aborts, passed r) : s.highway.aborts.find? s.offers = none :=
    List.find?_eq_none.mpr fun r hr => by rw [(offers_iff r).mpr (h r hr)]; exact Bool.false_ne_true
  refine ⟨fun x => State.mem_orders, fun r front rest aborts gone offered => ?_,
    fun base aborts some window => ?_, fun base aborts none window i p slot queued => ?_,
    fun aborts none flights => ?_⟩
  · have first : s.highway.aborts.find? s.offers = Option.some r := by
      rw [aborts, List.find?_append, List.find?_eq_none.mpr fun q hq => by
        rw [(offers_iff q).mpr (gone q hq)]; exact Bool.false_ne_true]
      have yes : s.offers r = true := by
        rw [← Bool.not_eq_false, offers_iff]
        exact offered
      simp [yes]
    rw [State.choose, first]
  · cases chosen : firstBy OrderRef.before s.orders with
    | none => exact absurd (firstBy_eq_none.mp chosen) some
    | some r =>
      refine ⟨r, firstBy_mem _ chosen, ?_, ?_⟩
      · rw [State.choose, noAbort aborts, chosen]
      · exact firstBy_least (le := OrderRef.NotAfter base) (R := fun _ _ => True)
          (OrderRef.NotAfter.refl base) (fun _ _ _ => OrderRef.NotAfter.trans)
          (fun _ _ => OrderRef.notAfter_of_before) (fun _ _ hx hy _ => OrderRef.notAfter_of_not_before hx hy)
          window (List.pairwise_of_forall fun _ _ => trivial) chosen
  · cases chosen : firstBy (fun x y => earlier x.2 y.2) s.queuedSlots with
    | none =>
      have here := State.mem_queuedSlots.mpr ⟨p, slot, queued, rfl⟩
      rw [firstBy_eq_none.mp chosen] at here
      cases here
    | some m =>
      obtain ⟨j, y⟩ := m
      obtain ⟨q, slotq, queuedq, rfl⟩ := State.mem_queuedSlots.mp (firstBy_mem _ chosen)
      refine ⟨j, q, slotq, queuedq, ?_, ?_⟩
      · rw [State.choose, noAbort aborts, none, chosen]
        rfl
      · refine firstBy_least (le := QueuedNotAfter base) (QueuedNotAfter.refl base)
          (fun _ _ _ => QueuedNotAfter.trans) (fun _ _ => queuedNotAfter_of_earlier)
          (fun _ _ => queuedNotAfter_of_not_earlier) ?_ s.queuedSlots_sorted chosen (i, p.queueOrder)
          (State.mem_queuedSlots.mpr ⟨p, slot, queued, rfl⟩)
        rintro ⟨k, z⟩ hz
        obtain ⟨w, slotw, queuedw, rfl⟩ := State.mem_queuedSlots.mp hz
        exact window k w slotw queuedw
  · rw [State.choose, noAbort aborts, none]
    have empty : s.queuedSlots = [] := by
      rw [List.eq_nil_iff_forall_not_mem]
      rintro ⟨i, x⟩ h
      obtain ⟨p, slot, queued, -⟩ := State.mem_queuedSlots.mp h
      exact flights i p slot queued
    rw [empty]
    rfl

/-! ### The departure (R130, R134, R137, R139) -/

/-- The part with its line IDLE. -/
def State.idleLine (s : State) : State := { s with highway := { s.highway with line := .idle } }

/-- A frame of `bytes` bytes holds the line, the time rounded up to a tick (R130). -/
def State.onLine (s : State) (g : HighwayFrame) (bytes : Nat) : State :=
  { s with highway := { s.highway with
      line := .busy g (s.now + BitVec.ofNat 40
        ((bytes * 80000000 + (rateKbit s.highway.rate * 1000 - 1)) /
          (rateKbit s.highway.rate * 1000))) } }

section Departure
variable {s : State}

theorem State.transmit_idleLine (g : HighwayFrame) :
    s.idleLine.transmit g = s.onLine g g.size := by
  have round : transmissionTicks g.size s.highway.rate =
      (g.size * 80000000 + (rateKbit s.highway.rate * 1000 - 1)) / (rateKbit s.highway.rate * 1000) := by
    have pos : 1 ≤ rateKbit s.highway.rate * 1000 := by cases s.highway.rate <;> decide
    rw [transmissionTicks, ceilDiv, Nat.add_sub_assoc pos]
  rw [State.transmit, State.onLine, ← round]
  rfl

theorem exec_lineFree (running : s.port.resetLow = false) {f : HighwayFrame} {x : HubTime}
    (line : s.highway.line = .busy f x) (due : reached s.now x = true) :
    exec .lineFree s = .next s.idleLine.arbitrate := by
  simp only [exec, execLineFree, whileRunning_running running, line, due, if_true]
  rfl

theorem State.arbitrate_chosen {c : Choice} (chosen : s.choose = some c) :
    s.idleLine.arbitrate = s.idleLine.depart c := by
  have chosen : s.idleLine.choose = some c := chosen
  simp only [State.arbitrate, chosen]
  rfl

theorem State.arbitrate_nothing (none : s.choose = none) : s.idleLine.arbitrate = s.idleLine := by
  have none : s.idleLine.choose = .none := none
  simp only [State.arbitrate, none]
  rfl

/-- A departing abort leaves the list, and its entry is ABORTED (R137). -/
theorem State.departAbort_eq {r : AbortRef} {b : Batch}
    (found : (s.channel r.channel).find r.tag = some b) :
    s.idleLine.departAbort r =
      ({ s.onLine (.abort r.site r.channel r.tag) 8 with highway :=
        { (s.onLine (.abort r.site r.channel r.tag) 8).highway with
          aborts := s.highway.aborts.erase r } } : State).completeCancel r.channel
        (b.modifyEntry r.site fun e => { e with order := .aborted }) := by
  rw [State.departAbort, State.transmit_idleLine]
  simp only [HighwayFrame.size]
  change (match (s.channel r.channel).find r.tag with
    | some b => State.completeCancel _ r.channel (b.modifyEntry r.site fun e => { e with order := .aborted })
    | none => _) = _
  rw [found]
  rfl

/-- A departing order is SENT with its stamp, and the batch is ARMED when none waits (R134, R93). -/
theorem State.departOrder_eq {r : OrderRef} {b : Batch} {e : Included} {q : Enrolled}
    (found : (s.channel r.channel).find r.tag = some b) (entry : b.entryOf r.site = some e)
    (enrolled : s.enrolled r.site = some q) : s.departOrder r =
      (s.transmit (.order r.site r.channel r.tag (holdAt e.target s.now) e.preKey
        (sentSpans b.spans))).modifyBatch r.channel r.tag fun b =>
          (b.modifyEntry r.site fun e => e.depart s.now q.config.ceiling).armIfReady := by
  simp only [State.departOrder, found, entry, enrolled, Option.map_some, Option.getD_some]
  rfl

end Departure

/-- A CANCELLED record is reaped when it was flushed, and otherwise held for its notice or as the last of
its chain (05, R98, R103). -/
theorem Channel.holds_cancelled {c : Channel} {b w : Batch} {front rest : List Batch}
    (queue : c.queue = front ++ b :: rest) (here : b.tag = w.tag) (others : ∀ x ∈ front, x.tag ≠ w.tag)
    (cancelled : w.state = .cancelled) : c.holds w = true ↔ w.flushed = false ∧
      (w.notice = true ∨ c.settings.notice = .each ∨ ∀ x, rest.head? = some x → x.mode ≠ .follow) := by
  have last : c.lastOfChain w.tag = true ↔ ∀ x, rest.head? = some x → x.mode ≠ .follow := by
    rw [Channel.lastOfChain, queue, successorOf_split here others]
    cases rest.head? <;> simp
  simp [Channel.holds, cancelled, last, or_assoc]

/-- Whatever stays of a tag whose record becomes terminal is in the terminal state (05, R97). -/
theorem Channel.terminate_state {c : Channel} {w y : Batch} (among : y ∈ (c.terminate w).queue)
    (tag : y.tag = w.tag) : y.state = w.state := by
  have cases := c.terminate_cases w
  dsimp only at cases
  rcases cases with ⟨-, h⟩ | ⟨-, h⟩ <;> rw [h] at among
  · obtain ⟨x, -, rfl⟩ := List.mem_map.mp among
    by_cases same : x.tag = w.tag
    · simp [same]
    · simp [same] at tag
  · simp [tag] at among

/-- Settles O51: the line is IDLE, and the arbiter's choice departs. -/
theorem lineFreeLetsTheChosenFrameDepart : Obligations.LineFreeLetsTheChosenFrameDepart := by
  intro s f x running line due kbit after onLine
  have acts := exec_lineFree running line due
  have hkbit : kbit = rateKbit s.highway.rate := by
    cases h : s.highway.rate <;> simp [kbit, h, rateKbit]
  have onLine_eq (g : HighwayFrame) (bytes : Nat) : onLine g bytes = s.onLine g bytes := by
    rw [State.onLine, ← hkbit]
  refine ⟨fun none => ?_, fun r b chosen found cancelling => ?_, fun r b e q chosen found entry enrolled => ?_,
    fun i p e chosen slot enrolled => ?_⟩
  · rw [acts, State.arbitrate_nothing none]
    rfl
  · intro w busy sent has
    have htag : b.tag = r.tag := (Channel.find_mem found).2
    have any_iff (o : OrderState) : w.anyIn o = true ↔ has o := Batch.anyIn_iff o
    have departs : exec .lineFree s = .next (sent.completeCancel r.channel w) := by
      rw [acts, State.arbitrate_chosen chosen]
      change Host.Outcome.next (s.idleLine.departAbort r) = _
      rw [State.departAbort_eq found, ← onLine_eq]
    have replaced (y : Batch) : (sent.modifyBatch r.channel w.tag fun _ => y) =
        sent.replaceBatch r.channel r.tag y := by
      rw [show w.tag = r.tag from htag]
      rfl
    have cases := sent.completeCancel_cases r.channel w
    refine ⟨fun aborting => ?_, fun none missed => ?_, fun none clean => ?_⟩
    · rcases cases with ⟨-, none, -⟩ | ⟨-, none, -⟩ | ⟨-, next⟩
      · exact absurd ((any_iff _).mpr aborting) (Bool.eq_false_iff.mp none)
      · exact absurd ((any_iff _).mpr aborting) (Bool.eq_false_iff.mp none)
      · rw [departs, next, replaced]
    · rcases cases with ⟨-, -, -, next⟩ | ⟨-, -, clean, -⟩ | ⟨other, -⟩
      · rw [departs, next, replaced]
      · exact absurd ((any_iff _).mpr missed) (Bool.eq_false_iff.mp clean)
      · exact absurd ((any_iff _).mp (other.resolve_left (not_not.mpr cancelling))) none
    · rcases cases with ⟨-, -, missed, -⟩ | ⟨-, -, -, next⟩ | ⟨other, -⟩
      · exact absurd ((any_iff _).mp missed) clean
      · rw [next] at departs
        have channel := fun d => sent.channel_terminate r.channel d { w with state := .cancelled }
        refine ⟨_, departs, State.terminate_highway sent _ _, State.terminate_time sent _ _,
          State.terminate_meas sent _ _, State.terminate_port sent _ _, fun y hy tag => ?_,
          fun d other => ?_, fun front rest queue others => ?_, fun quiet => ?_⟩
        · obtain ⟨ctx, h⟩ := channel r.channel
          rw [h, if_pos rfl] at hy
          exact Channel.terminate_state (w := { w with state := .cancelled }) hy (tag.trans htag.symm)
        · obtain ⟨ctx, h⟩ := channel d
          rw [h, if_neg other]
          exact ⟨rfl, rfl⟩
        · intro total holds
          obtain ⟨ctx, h⟩ := channel r.channel
          have others' : ∀ x ∈ front ++ rest, x.tag ≠ b.tag := fun x hx => htag ▸ others x hx
          obtain ⟨held, reaped⟩ := Channel.terminate_split (c := s.channel r.channel)
            (w := { w with state := .cancelled }) queue rfl others'
          have holds_iff := Channel.holds_cancelled (c := s.channel r.channel)
            (w := { w with state := .cancelled, counts := some w.tally }) queue rfl
            (fun x hx => others' x (List.mem_append_left rest hx)) rfl
          rw [h, if_pos rfl]
          refine ⟨fun yes => ?_, fun no => ?_⟩
          · have own : (sent.channel r.channel).terminate { w with state := .cancelled } = _ :=
              held (holds_iff.mpr yes)
            rw [own]
            exact ⟨rfl, rfl⟩
          · have own : (sent.channel r.channel).terminate { w with state := .cancelled } = _ :=
              reaped (Bool.eq_false_iff.mpr fun h => no (holds_iff.mp h))
            rw [own]
            exact ⟨rfl, rfl⟩
        · have kept := b.modifyEntry_includedSites (n := r.site) fun e => { e with order := .aborted }
          rw [State.terminate, State.checkVacateAll_none]
          · exact ⟨rfl, rfl⟩
          · intro k hk
            exact quiet k (kept ▸ hk)
      · exact absurd ((any_iff _).mp (other.resolve_left (not_not.mpr cancelling))) none
  · intro spans hold w waits sent alone
    have departs : exec .lineFree s = .next (sent.replaceBatch r.channel r.tag w.armIfReady) := by
      have spelled : s.idleLine.transmit (.order r.site r.channel r.tag hold e.preKey spans) = sent := by
        rw [State.transmit_idleLine, ← onLine_eq]
        rfl
      rw [acts, State.arbitrate_chosen chosen]
      change Host.Outcome.next (s.idleLine.departOrder r) = _
      rw [State.departOrder_eq (s := s.idleLine) found entry enrolled]
      refine (congrArg (fun u : State => Host.Outcome.next (u.modifyBatch r.channel r.tag fun b =>
        (b.modifyEntry r.site fun e => e.depart s.now q.config.ceiling).armIfReady)) spelled).trans ?_
      have queue : ((s.channel r.channel).queue.map fun y => if y.tag == r.tag then
          (y.modifyEntry r.site fun e => e.depart s.now q.config.ceiling).armIfReady else y) =
          (s.channel r.channel).queue.map fun y => if y.tag == r.tag then w.armIfReady else y :=
        List.map_congr_left fun y hy => by
          by_cases same : y.tag = r.tag
          · rw [alone y hy same]
            rfl
          · simp [same]
      exact congrArg (fun queue => Host.Outcome.next
        (sent.setChannel r.channel { sent.channel r.channel with queue := queue })) queue
    have none_iff : w.anyIn .waiting = true ↔ waits := Batch.anyIn_iff _
    refine ⟨fun planned ready => ?_, fun not => ?_⟩
    · rw [departs, Batch.armIfReady, if_pos]
      have none : w.anyIn .waiting = false := by
        rw [Bool.eq_false_iff, Ne, none_iff]
        exact ready
      have state : w.state = .planned := planned
      simp [none, state]
    · rw [departs, Batch.armIfReady, if_neg]
      rw [Bool.and_eq_true, Bool.not_eq_true', Bool.eq_false_iff, Ne, none_iff, beq_iff_eq]
      rintro ⟨planned, ready⟩
      exact not.elim (absurd planned) ready
  · intro sent flight
    have spelled : s.idleLine.transmit (.probe p.site e.est.sequence) = sent := by
      rw [State.transmit_idleLine, ← onLine_eq]
      rfl
    rw [acts, State.arbitrate_chosen chosen]
    change Host.Outcome.next (s.idleLine.departProbe i) = _
    have slot : s.idleLine.slot i = some p := slot
    have enrolled' : s.idleLine.enrolled p.site = some e := enrolled
    simp only [State.departProbe, slot, enrolled', Option.map_some, Option.getD_some, spelled]
    rw [State.modifySite_same (s := sent.setSlot i _) (f := fun x => x.probeSent p.burst) (e := e)
      enrolled rfl]
    rfl

end Sys2Proof.Machine
end

