-- ==== Sys2Proof/Proofs/Enrolment.lean ====
section
/-! PROOFS. ENROL: its checks, the fresh record and its first probe (02, R31, R32; 03, R43, R45). -/

namespace Sys2Proof.Machine

section Departures
variable {s : State} {n : SiteNo} {e : Enrolled}

/-- An abort's departure leaves the record of a site that is not RETIRING (07, R137; 02, R40). -/
theorem State.site_completeCancel (live : s.isRetiring n = false) (c : ChannelNo) (b : Batch) :
    (s.completeCancel c b).site n = s.site n := by
  rcases s.completeCancel_cases c b with ⟨-, -, -, next⟩ | ⟨-, -, -, next⟩ | ⟨-, next⟩ <;> rw [next]
  · rfl
  · exact State.site_checkVacateAll (.inl live)
  · rfl

theorem State.isRetiring_eq_false (enrolled : s.enrolled n = some e) (live : e.phase ≠ .retiring) :
    s.isRetiring n = false := by
  simp [State.isRetiring, enrolled, live]

/-- All that a departure does to the record of a site with no burst under way is to move its sequence
number on (03, R47; 07, R132). -/
theorem State.site_arbitrate (enrolled : s.enrolled n = some e) (live : e.phase ≠ .retiring)
    (quiet : ∀ i p, s.slot i = some p → p.site = n → p.burst = false) :
    ∃ k, s.arbitrate.site n =
      { s.site n with body := some { e with est := { e.est with sequence := k } } } := by
  have stands {t : State} (same : t.site n = s.site n) :
      ∃ k, t.site n = { s.site n with body := some { e with est := { e.est with sequence := k } } } :=
    ⟨e.est.sequence, by rw [same, ← show (s.site n).body = some e from enrolled]⟩
  rcases s.arbitrate_cases with stays | ⟨c, -, -, departs⟩
  · exact stands (by rw [stays])
  rw [departs]
  cases c with
  | abort r =>
    refine stands ?_
    unfold State.depart State.departAbort
    dsimp only
    split
    · refine (State.site_completeCancel ?_ _ _).trans rfl
      exact State.isRetiring_eq_false (s := s) enrolled live
    · rfl
  | order r =>
    exact stands (congrArg (fun sites : Vector SiteRecord 48 => sites[n]) (s.departOrder_frame r).2.2.1)
  | probe i =>
    cases slot : s.slot i with
    | none => exact stands (by simp only [State.depart, State.departProbe, slot])
    | some p =>
      have departed : (s.departProbe i).site n = { s.site n with
          body := some (if n = p.site then e.probeSent p.burst else e) } := by
        simp only [State.departProbe, slot]
        refine (State.site_modifySite (f := fun x => x.probeSent p.burst) (fun _ => rfl) _ _).trans ?_
        change SiteRecord.mk _ _ ((s.site n).body.map _) = _
        rw [show (s.site n).body = some e from enrolled]
        rfl
      by_cases same : n = p.site
      · refine ⟨(e.est.sequence + 1) % 256, departed.trans ?_⟩
        rw [if_pos same, quiet i p slot same.symm]
        rfl
      · exact ⟨e.est.sequence, departed.trans (by rw [if_neg same])⟩

/-- A request is the only probe of a site that held none, and no burst (03, R45). -/
theorem State.requestProbe_quiet (idle : s.holdsProbe n = false) (w : WaitEntry) (single : w.burst = false)
    (i : SlotNo) (p : Slot) (slot : (s.requestProbe w).slot i = some p) (site : p.site = n) :
    p.burst = false := by
  have before (old : s.slot i = some p) : False := by
    have none := List.find?_eq_none.mp (State.holdsProbe_eq_false.mp idle).1 i (List.mem_finRange i)
    simp [old, site] at none
  rcases s.requestProbe_cases w with ⟨j, -, next⟩ | ⟨-, next⟩ <;> rw [next] at slot
  · by_cases same : i = j
    · rw [same, State.slot_setSlot_self] at slot
      rw [← Option.some.inj slot]
      exact single
    · rw [State.slot_setSlot_of_ne _ _ same] at slot
      exact (before slot).elim
  · exact (before slot).elim

end Departures

section Enrol
variable {s : State} {n : SiteNo} {f : SiteFields}

theorem answerEnrol_invalid (invalid : siteFieldsInvalid f = true) :
    answerEnrol n.val f s = refuse .invalid s := by
  simp [answerEnrol, invalid]

theorem answerEnrol_enrolled (valid : siteFieldsInvalid f = false) (enrolled : s.enrolled n ≠ none) :
    answerEnrol n.val f s = refuse .exists s := by
  simp [answerEnrol, valid, Option.isSome_iff_ne_none, enrolled]

theorem answerEnrol_vacant (valid : siteFieldsInvalid f = false) (vacant : s.enrolled n = none) :
    answerEnrol n.val f s = ⟨doneIf (siteFieldsMoved f), .empty, s.enrol n f⟩ := by
  simp [answerEnrol, valid, vacant]

/-- The channels of a fresh record are those its members name, without a confirmed end (02, R32). -/
theorem applyMembers_fresh (members : Option (List Nat)) :
    applyMembers members (Vector.replicate 4 none) = Vector.ofFn fun c : Fin 4 =>
      if (members.getD []).contains c.val then some ⟨none⟩ else none := by
  cases members with
  | none =>
    refine Vector.ext fun i hi => ?_
    simp [applyMembers]
  | some l =>
    refine Vector.ext fun i hi => ?_
    simp [applyMembers]

/-- The record that ENROL writes and then asks a probe for (02, R32; 03, R43). -/
def State.enrolling (s : State) (n : SiteNo) (f : SiteFields) : State :=
  s.setSite n ⟨false, 0, some { Enrolled.fresh f with
    cadence := some (s.now + (Enrolled.fresh f).interval) }⟩

theorem State.enrol_eq (idle : s.holdsProbe n = false) :
    s.enrol n f = ((s.enrolling n f).requestProbe ⟨n, 0, false⟩).arbitrate := by
  have written : (s.setSite n ⟨false, 0, some (Enrolled.fresh f)⟩).setSite n
      (((s.setSite n ⟨false, 0, some (Enrolled.fresh f)⟩).site n).put
        { Enrolled.fresh f with cadence := some (s.now + (Enrolled.fresh f).interval) }) =
      s.enrolling n f := by
    rw [State.site_setSite_self]
    have put := SiteRecord.put_same (r := ⟨false, 0, some (Enrolled.fresh f)⟩)
      (x := { Enrolled.fresh f with cadence := some (s.now + (Enrolled.fresh f).interval) }) rfl rfl
    rw [put]
    simp [State.setSite, State.enrolling]
  rw [State.enrol, State.takeCadence, State.enrolling]
  rw [written]
  exact congrArg State.arbitrate ((if_neg (by rw [show (s.enrolling n f).holdsProbe n = _ from idle]; simp)))

end Enrol

/-- Settles O21: the checks in order, then the fresh record and the request for its probe. -/
theorem enrolBuildsAFreshRecord : Obligations.EnrolBuildsAFreshRecord := by
  intro s label f taken
  refine ⟨fun n large => ?_, fun n bad => ?_, fun n members steer => ?_⟩
  · refine takeCommand_of_answer taken (t := s) ?_ 1 label
    rw [answerEnrol, siteOf_eq_none.mpr large]
    rfl
  · refine takeCommand_of_answer taken (t := s) (answerEnrol_invalid ?_) 1 label
    rwa [siteFieldsInvalid_iff]
  · have valid : siteFieldsInvalid f = false := by
      rw [Bool.eq_false_iff, Ne, siteFieldsInvalid_iff]
      rintro (⟨l, c, some, among, large⟩ | ⟨v, some, large⟩)
      · exact absurd (members l c some among) (not_lt.mpr large)
      · exact absurd (steer v some) (not_lt.mpr large)
    refine ⟨fun enrolled => ?_, fun vacant => ?_⟩
    · exact takeCommand_of_answer taken (t := s)
        (answerEnrol_enrolled (s := s.endTransaction) valid enrolled) 1 label
    intro config r e
    have answer := answerEnrol_vacant (s := s.endTransaction) valid vacant
    have built : { Enrolled.fresh f with
        cadence := some (s.now + (Enrolled.fresh f).interval) } = e := by
      simp only [Enrolled.fresh, applyMembers_fresh]
      rfl
    let u : State := { s with sites := s.sites.set n ⟨false, 0, some e⟩ }
    have writes : s.endTransaction.enrolling n f = u.endTransaction :=
      congrArg (fun x => s.endTransaction.setSite n ⟨false, 0, some x⟩) built
    have enrols (idle : s.holdsProbe n = false) : s.endTransaction.enrol n f =
        (u.endTransaction.requestProbe ⟨n, 0, false⟩).arbitrate := by
      rw [State.enrol_eq (s := s.endTransaction) idle, writes]
    have waits (busy : s.lineBusy) : (u.endTransaction.requestProbe ⟨n, 0, false⟩).arbitrate =
        u.endTransaction.requestProbe ⟨n, 0, false⟩ :=
      State.arbitrate_busy (by rw [State.requestProbe_highway]; exact busy)
    refine ⟨fun idle => ?_, fun i busy idle free held => ?_, fun busy idle full => ?_⟩
    · have record : (u.endTransaction.requestProbe ⟨n, 0, false⟩).site n = ⟨false, 0, some e⟩ := by
        rw [State.site, State.requestProbe_sites]
        exact State.site_setSite_self s n _
      obtain ⟨k, site⟩ := State.site_arbitrate (s := u.endTransaction.requestProbe ⟨n, 0, false⟩) (n := n)
        (e := e) (congrArg SiteRecord.body record) (by rw [← built]; simp [Enrolled.fresh])
        (State.requestProbe_quiet (s := u.endTransaction) idle ⟨n, 0, false⟩ rfl)
      refine ⟨_, k, takeCommand_of_port taken answer ?_ 1 label, ?_, ?_⟩
      · rw [enrols idle, State.arbitrate_port, State.requestProbe_port]
        rfl
      · rw [record] at site
        rw [← site, ← enrols idle]
        rfl
      · rw [enrols idle]
        change some (Forming.mk _ 0 (State.free _)) = _
        rw [State.arbitrate_free, State.requestProbe_free]
        rfl
    · refine takeCommand_of_answer taken (answer.trans ?_) 1 label
      rw [enrols idle, waits busy, State.requestProbe_slot (s := u.endTransaction) free held]
      rfl
    · refine takeCommand_of_answer taken (answer.trans ?_) 1 label
      rw [enrols idle, waits busy, State.requestProbe_wait (s := u.endTransaction) full]
      rfl

end Sys2Proof.Machine
end

