-- ==== Sys2Proof/Proofs/PlanningApart.lean ====
section
/-! PROOFS. The outbound line and the planner neither read nor write the transaction in progress: what they
do after it has ended is what they do before, with the transaction ended (08, R149). -/

namespace Sys2Proof.Machine

/-! ### One planning, by what its stages answer (06, R127, R128) -/

section Planning
variable (s : State) (c : ChannelNo) (b : Batch)

/-- The timing mode a record is planned by (05, R92). -/
def Batch.planMode (b : Batch) (acts : Bool) : TimingMode :=
  if b.mode = .follow ∧ (acts ∨ b.predEnd = none) then .earliest else b.mode

/-- The part with what every planning writes: the zone records, the context read and the tallies. -/
def State.written (s : State) (c : ChannelNo) (ctx : Context) (r : PlanResult) : State :=
  (({ s with zones := r.zones } : State).modifyChannel c fun ch =>
    { ch with context := some ctx, timer := none }).tallyRanges r.plan

/-- The part as a planning that answered `r` leaves it. -/
def State.planned (s : State) (c : ChannelNo) (b : Batch) (ctx : Context) (r : PlanResult) : State :=
  match r.air with
  | some (air, slip) =>
    let p := b.withPlan r (s.written c ctx r).now air slip (s.time.mode != .locked)
    (s.written c ctx r).modifyChannel c fun ch =>
      { ch with queue := passEnd p.tag p.endTime ((ch.modifyBatch p.tag fun _ => p).queue) }
  | none =>
    ((s.written c ctx r).modifyChannel c fun ch => { ch with
      queue := passEnd b.tag b.predEnd ch.queue }).terminate c (b.withoutPlan r (s.time.mode != .locked))

theorem State.written_time (ctx : Context) (r : PlanResult) : (s.written c ctx r).time = s.time :=
  (State.tallyRanges_frame _ _).1

theorem State.planBatch_eq (acts : Bool) : s.planBatch c b acts =
    s.planned c b (s.contextFor c (b.planMode acts == .follow))
      (s.runPlanning c b (b.planMode acts) (s.contextFor c (b.planMode acts == .follow))) := rfl

theorem State.planned_chosen (ctx : Context) {r : PlanResult} {x : HubTime × Nat} (air : r.air = some x) :
    s.planned c b ctx r = (s.written c ctx r).modifyChannel c fun ch => { ch with
      queue := passEnd b.tag (some (x.1 + ticks b.duration)) (ch.modifyBatch b.tag fun _ =>
        b.withPlan r s.now x.1 x.2 (s.time.mode != .locked)).queue } := by
  have now : (s.written c ctx r).now = s.now := congrArg TimeScale.hub (s.written_time c ctx r)
  rw [State.planned, air, now]
  rfl

theorem State.planned_abandoned (ctx : Context) {r : PlanResult} (air : r.air = none) :
    s.planned c b ctx r = ((s.written c ctx r).modifyChannel c fun ch => { ch with
      queue := passEnd b.tag b.predEnd ch.queue }).terminate c
        (b.withoutPlan r (s.time.mode != .locked)) := by
  rw [State.planned, air]

end Planning

/-! ### The transaction in progress -/

section Transaction
variable (s : State)

theorem State.setTimer_endTransaction (c : ChannelNo) (x : Option HubTime) :
    s.endTransaction.setTimer c x = (s.setTimer c x).endTransaction := rfl

theorem State.modifySite_endTransaction (n : SiteNo) (f : Enrolled → Enrolled) :
    s.endTransaction.modifySite n f = (s.modifySite n f).endTransaction := by
  simp only [State.modifySite, show s.endTransaction.enrolled n = s.enrolled n from rfl]
  cases s.enrolled n <;> rfl

theorem State.checkVacate_endTransaction (n : SiteNo) :
    s.endTransaction.checkVacate n = (s.checkVacate n).endTransaction := by
  unfold State.checkVacate
  rw [apply_ite State.endTransaction]
  rfl

theorem State.checkVacateAll_endTransaction (ns : List SiteNo) :
    s.endTransaction.checkVacateAll ns = (s.checkVacateAll ns).endTransaction := by
  unfold State.checkVacateAll
  induction ns generalizing s with
  | nil => rfl
  | cons n ns ih => rw [List.foldl_cons, List.foldl_cons, State.checkVacate_endTransaction, ih]

theorem State.terminate_endTransaction (c : ChannelNo) (b : Batch) :
    s.endTransaction.terminate c b = (s.terminate c b).endTransaction :=
  State.checkVacateAll_endTransaction (s.modifyChannel c fun ch => ch.terminate b) _

theorem State.completeCancel_endTransaction (c : ChannelNo) (b : Batch) :
    s.endTransaction.completeCancel c b = (s.completeCancel c b).endTransaction := by
  simp only [State.completeCancel, State.terminate_endTransaction]
  split
  · split <;> rfl
  · rfl

theorem State.departAbort_endTransaction (r : AbortRef) :
    s.endTransaction.departAbort r = (s.departAbort r).endTransaction := by
  let t : State := { s.transmit (.abort r.site r.channel r.tag) with
    highway := { (s.transmit (.abort r.site r.channel r.tag)).highway with
      aborts := s.highway.aborts.erase r } }
  unfold State.departAbort
  change (match (t.channel r.channel).find r.tag with | some b => _ | none => _) =
    State.endTransaction (match (t.channel r.channel).find r.tag with | some b => _ | none => _)
  cases (t.channel r.channel).find r.tag with
  | none => rfl
  | some b => exact t.completeCancel_endTransaction _ _

theorem State.departOrder_endTransaction (r : OrderRef) :
    s.endTransaction.departOrder r = (s.departOrder r).endTransaction := by
  simp only [State.departOrder, State.channel_endTransaction]
  cases (s.channel r.channel).find r.tag with
  | none => rfl
  | some b =>
    dsimp only
    cases b.entryOf r.site <;> rfl

theorem State.departProbe_endTransaction (i : SlotNo) :
    s.endTransaction.departProbe i = (s.departProbe i).endTransaction := by
  simp only [State.departProbe, show s.endTransaction.slot i = s.slot i from rfl]
  cases s.slot i with
  | none => rfl
  | some p => exact ((s.transmit _).setSlot i _).modifySite_endTransaction p.site (·.probeSent p.burst)

theorem State.arbitrate_endTransaction : s.endTransaction.arbitrate = s.arbitrate.endTransaction := by
  simp only [State.arbitrate, State.endTransaction_highway,
    show s.endTransaction.choose = s.choose from rfl]
  cases s.highway.line with
  | busy f x => rfl
  | idle =>
    cases s.choose with
    | none => rfl
    | some choice =>
      cases choice with
      | abort r => exact s.departAbort_endTransaction r
      | order r => exact s.departOrder_endTransaction r
      | probe i => exact s.departProbe_endTransaction i

/-! ### The stages of a planning (06, R111) -/

variable (c : ChannelNo)

theorem State.earliestPasses_endTransaction (tag : Nat) (ready : HubTime) (fuel : Nat) (air : HubTime)
    (w : Working) : s.endTransaction.earliestPasses c tag ready fuel air w =
      s.earliestPasses c tag ready fuel air w := by
  induction fuel generalizing air w with
  | zero => rfl
  | succ fuel ih =>
    simp only [State.earliestPasses, ih]
    rfl

theorem State.slipPasses_endTransaction (tag : Nat) (ready air : HubTime) (fuel : Nat)
    (proposed : HubTime) (w : Working) : s.endTransaction.slipPasses c tag ready air fuel proposed w =
      s.slipPasses c tag ready air fuel proposed w := by
  induction fuel generalizing proposed w with
  | zero => rfl
  | succ fuel ih =>
    simp only [State.slipPasses, ih]
    rfl

theorem State.lateness_endTransaction (tag : Nat) (ready air : HubTime) (w : Working) :
    s.endTransaction.lateness c tag ready air w = s.lateness c tag ready air w := by
  simp only [State.lateness, State.slipPasses_endTransaction]
  rfl

theorem State.airStage_endTransaction (b : Batch) (mode : TimingMode) (w : Working) :
    s.endTransaction.airStage c b mode w = s.airStage c b mode w := by
  simp only [State.airStage, State.earliest, State.lateness_endTransaction,
    State.earliestPasses_endTransaction]
  rfl

theorem State.runPlanning_endTransaction (b : Batch) (mode : TimingMode) (ctx : Context) :
    s.endTransaction.runPlanning c b mode ctx = s.runPlanning c b mode ctx := by
  simp only [State.runPlanning, State.airStage_endTransaction]
  rfl

theorem State.tallyRanges_endTransaction (plan : List PlanEntry) :
    s.endTransaction.tallyRanges plan = (s.tallyRanges plan).endTransaction := by
  unfold State.tallyRanges
  induction plan generalizing s with
  | nil => rfl
  | cons p plan ih =>
    rw [List.foldl_cons, List.foldl_cons, State.modifySite_endTransaction, ← ih]
    split <;> rfl

theorem State.written_endTransaction (ctx : Context) (r : PlanResult) :
    s.endTransaction.written c ctx r = (s.written c ctx r).endTransaction :=
  State.tallyRanges_endTransaction (({ s with zones := r.zones } : State).modifyChannel c fun ch =>
    { ch with context := some ctx, timer := none }) r.plan

theorem State.planBatch_endTransaction (b : Batch) (acts : Bool) :
    s.endTransaction.planBatch c b acts = (s.planBatch c b acts).endTransaction := by
  rw [State.planBatch_eq, State.planBatch_eq, State.runPlanning_endTransaction]
  generalize same : s.runPlanning c b (b.planMode acts) (s.contextFor c (b.planMode acts == .follow)) = r
  change s.endTransaction.planned c b _ (s.runPlanning c b (b.planMode acts)
    (s.contextFor c (b.planMode acts == .follow))) = _
  rw [same]
  rw [show s.endTransaction.contextFor c (b.planMode acts == .follow) =
    s.contextFor c (b.planMode acts == .follow) from rfl]
  generalize s.contextFor c (b.planMode acts == .follow) = ctx
  cases air : r.air with
  | some x =>
    rw [State.planned_chosen _ _ _ _ air, State.planned_chosen _ _ _ _ air, State.written_endTransaction]
    rfl
  | none =>
    rw [State.planned_abandoned _ _ _ _ air, State.planned_abandoned _ _ _ _ air,
      State.written_endTransaction]
    exact ((s.written c ctx r).modifyChannel c fun ch => { ch with
      queue := passEnd b.tag b.predEnd ch.queue }).terminate_endTransaction c _

theorem State.advance_endTransaction (fuel : Nat) :
    State.advance c fuel s.endTransaction = (State.advance c fuel s).endTransaction := by
  induction fuel generalizing s with
  | zero => rfl
  | succ fuel ih =>
    simp only [State.advance, State.channel_endTransaction]
    cases (s.channel c).candidate with
    | none => rfl
    | some found =>
      dsimp only
      rw [State.planBatch_endTransaction, State.arbitrate_endTransaction, ih]
      rw [apply_ite State.endTransaction]
      rfl

theorem State.newCandidate_endTransaction :
    s.endTransaction.newCandidate c = (s.newCandidate c).endTransaction :=
  State.advance_endTransaction s c _

theorem State.planCandidate_endTransaction :
    s.endTransaction.planCandidate c = (s.planCandidate c).endTransaction := by
  simp only [State.planCandidate, State.channel_endTransaction]
  cases (s.channel c).candidate with
  | none => rfl
  | some found =>
    dsimp only
    rw [State.planBatch_endTransaction, State.arbitrate_endTransaction,
      State.newCandidate_endTransaction]

end Transaction

end Sys2Proof.Machine
end

