-- ==== Sys2Proof/Proofs/ChannelCommands.lean ====
section
/-! PROOFS. The commands of a channel queue: SET CHANNEL, SUBMIT, CANCEL and FLUSH CHANNEL (05, R84 to R92,
R100 to R103). -/

namespace Sys2Proof.Machine

/-! ### The candidate (R91) -/

theorem oldestQueued_eq_none {ahead : Option Batch} {queue : List Batch} :
    oldestQueued ahead queue = none ↔ ∀ b ∈ queue, b.state ≠ .queued := by
  induction queue generalizing ahead with
  | nil => simp [oldestQueued]
  | cons b queue ih =>
    rw [oldestQueued, List.forall_mem_cons]
    by_cases queued : b.state = .queued
    · simp [queued]
    · simp [queued, ih]

theorem Channel.candidate_eq_none {c : Channel} :
    c.candidate = none ↔ ∀ b ∈ c.queue, b.state ≠ .queued := oldestQueued_eq_none

/-! ### SET CHANNEL (R84, R85) -/

theorem noticeOf_eq_none {v : Nat} : noticeOf v = none ↔ 2 ≤ v := by
  rcases v with _ | _ | v <;> simp [noticeOf]

theorem Channel.anyActive_iff (c : Channel) : c.anyActive = true ↔ ∃ b ∈ c.queue,
    b.state = .planned ∨ b.state = .armed ∨ b.state = .cancelling ∨ b.state = .onAir := by
  simp only [Channel.anyActive, List.any_eq_true, Batch.active_iff]

theorem clampGrid_eq_self {v : Nat} :
    clampGrid v = v ↔ v = 0 ∨ 100000 ≤ v ∧ v ≤ 4294967296 := by
  unfold clampGrid
  split <;> omega

theorem gridPeriod_eq (given : Option Nat) (kept : Nat) :
    (match given with | some v => clampGrid v | none => kept) =
      match given with
      | some 0 => 0
      | some v => max 100000 (min 4294967296 v)
      | none => kept := by
  rcases given with _ | _ | v <;> rfl

theorem notice_eq (given : Option Nat) (kept : NoticeMode) : (given.bind noticeOf).getD kept =
    match given with
    | some 0 => .each
    | some 1 => .chainEnd
    | _ => kept := by
  rcases given with _ | _ | _ | v <;> rfl

/-- No value of SET CHANNEL moves when each fits and the grid origin stays (R84). -/
theorem channelFieldsMoved_eq_false (f : ChannelFields) (g : ChannelSettings) :
    channelFieldsMoved f g = false ↔
      (∀ v, f.period0 = some v → 1000 ≤ v ∧ v ≤ 100000) ∧
      (∀ v, f.period1 = some v → 1000 ≤ v ∧ v ≤ 100000) ∧
      (∀ v, f.guardTime = some v → 0 ≤ v ∧ v ≤ 10000000) ∧
      (∀ v, f.computeLead = some v → 100 ≤ v ∧ v ≤ 10000) ∧
      (∀ v, f.dispatch = some v → 0 ≤ v ∧ v ≤ 1000000) ∧
      (∀ v, f.slipLimit = some v → 0 ≤ v ∧ v ≤ 5000) ∧
      (∀ v, f.gridPeriod = some v → v = 0 ∨ 100000 ≤ v ∧ v ≤ 4294967296) ∧
      (applyChannelFields f g).gridOrigin = f.gridOrigin.getD g.gridOrigin := by
  simp only [channelFieldsMoved, Bool.or_eq_false_iff, bne_eq_false_iff_eq, and_assoc,
    Range.moved_eq_false (r := periodRange) (by decide), Range.moved_eq_false (r := guardRange) (by decide),
    Range.moved_eq_false (r := leadRange) (by decide),
    Range.moved_eq_false (r := dispatchRange) (by decide),
    Range.moved_eq_false (r := slipRange) (by decide)]
  have grid : (f.gridPeriod.any fun v => clampGrid v != v) = false ↔
      ∀ v, f.gridPeriod = some v → v = 0 ∨ 100000 ≤ v ∧ v ≤ 4294967296 := by
    cases f.gridPeriod <;> simp [clampGrid_eq_self]
  rw [grid]
  exact Iff.rfl

/-- A channel written is read back as written. -/
theorem State.channel_modifyChannel_self (s : State) (c : ChannelNo) (f : Channel → Channel) :
    (s.modifyChannel c f).channel c = f (s.channel c) := State.channel_setChannel_self s c _

theorem State.setChannel_setChannel (s : State) (c : ChannelNo) (x y : Channel) :
    (s.setChannel c x).setChannel c y = s.setChannel c y := by
  simp [State.setChannel]

section SetChannel
variable {s : State} {c : ChannelNo} {f : ChannelFields} {g : ChannelSettings}

/-- The part with the settings of a channel written and its compute timer as given. -/
def State.withSettings (s : State) (c : ChannelNo) (g : ChannelSettings) (timer : Option HubTime) : State :=
  s.setChannel c { s.channel c with settings := g, timer := timer }

theorem State.setChannelSettings_same
    (same : g.guardTime = (s.channel c).settings.guardTime ∧
      g.computeLead = (s.channel c).settings.computeLead ∨ ∀ b ∈ (s.channel c).queue, b.state ≠ .queued) :
    s.setChannelSettings c g = s.withSettings c g (s.channel c).timer := by
  rw [State.setChannelSettings]
  split
  · rfl
  next moved =>
    have none : ((s.modifyChannel c fun ch => { ch with settings := g }).channel c).candidate = none := by
      rw [State.channel_modifyChannel_self]
      exact Channel.candidate_eq_none.mpr (same.resolve_left moved)
    rw [State.resetComputePoint, none]
    rfl

theorem State.setChannelSettings_moved {ahead : Option Batch} {b : Batch}
    (moved : g.guardTime ≠ (s.channel c).settings.guardTime ∨
      g.computeLead ≠ (s.channel c).settings.computeLead)
    (candidate : (s.channel c).candidate = some (ahead, b)) :
    s.setChannelSettings c g = if later (computePointOf g s.now false b) s.now then
        s.withSettings c g (some (computePointOf g s.now false b))
      else (s.withSettings c g (s.channel c).timer).planCandidate c := by
  have same : ((s.modifyChannel c fun ch => { ch with settings := g }).channel c).candidate =
      some (ahead, b) := by
    rw [State.channel_modifyChannel_self]
    exact candidate
  have settings : ((s.modifyChannel c fun ch => { ch with settings := g }).channel c).settings = g := by
    rw [State.channel_modifyChannel_self]
  rw [State.setChannelSettings, if_neg (by tauto), State.resetComputePoint, same]
  simp only [settings]
  refine if_congr Iff.rfl ?_ rfl
  rw [State.setTimer, State.modifyChannel, State.channel_modifyChannel_self]
  exact State.setChannel_setChannel s c _ _

theorem answerSetChannel_invalid (invalid : (f.notice.any fun v => (noticeOf v).isNone) = true) :
    answerSetChannel c.val f s = refuse .invalid s := by
  simp [answerSetChannel, invalid]

theorem answerSetChannel_valid (valid : (f.notice.any fun v => (noticeOf v).isNone) = false) :
    answerSetChannel c.val f s = if (s.channel c).anyActive then refuse .conflict s else
      ⟨doneIf (channelFieldsMoved f (s.channel c).settings), .empty,
        s.setChannelSettings c (applyChannelFields f (s.channel c).settings)⟩ := by
  simp only [answerSetChannel, channelOf_val, valid, Bool.false_eq_true, if_false]

end SetChannel

/-- Settles O35: the settings field by field, then the compute point by the candidate. -/
theorem setChannelClampsAndWrites : Obligations.SetChannelClampsAndWrites := by
  intro s label f taken put fits
  have field (r : Range) (given : Option Nat) (kept : Nat) : r.field given kept =
      put r.lo r.hi given kept := by cases given <;> rfl
  refine ⟨fun c large => ?_, fun c bad => ?_, fun c notices => ⟨fun active => ?_, fun quiet => ?_⟩⟩
  · refine takeCommand_of_answer taken (t := s) ?_ 11 label
    rw [answerSetChannel, channelOf_eq_none.mpr large]
    rfl
  · refine takeCommand_of_answer taken (t := s) (answerSetChannel_invalid ?_) 11 label
    obtain ⟨v, some, large⟩ := bad
    simp [some, noticeOf_eq_none, large]
  all_goals
    have valid : (f.notice.any fun v => (noticeOf v).isNone) = false := by
      cases given : f.notice with
      | none => rfl
      | some v =>
      have fits := mt noticeOf_eq_none.mp (not_le.mpr (notices v given))
      simpa [Option.isSome_iff_ne_none] using fits
  · refine takeCommand_of_answer taken (t := s)
      ((answerSetChannel_valid (s := s.endTransaction) valid).trans (if_pos ?_)) 11 label
    exact (Channel.anyActive_iff _).mpr active
  intro g period origin g' fit write
  have applied : applyChannelFields f g = g' := by
    have periods : (applyChannelFields f g).gridPeriod = period := gridPeriod_eq _ _
    have noted : (applyChannelFields f g).notice = g'.notice := notice_eq _ _
    have origins : (applyChannelFields f g).gridOrigin = g'.gridOrigin :=
      congrArg (fun p => clampOrigin p (f.gridOrigin.getD g.gridOrigin)) periods
    exact (ChannelSettings.mk.injEq ..).mpr ⟨field _ _ _, field _ _ _, field _ _ _, field _ _ _,
      field _ _ _, field _ _ _, periods, origins, noted⟩
  have answer : answerSetChannel c.val f s.endTransaction = ⟨doneIf (channelFieldsMoved f g), .empty,
      s.endTransaction.setChannelSettings c g'⟩ := by
    refine ((answerSetChannel_valid (s := s.endTransaction) valid).trans (if_neg ?_)).trans ?_
    · rw [Channel.anyActive_iff]
      rintro ⟨b, among, active⟩
      have not := quiet b among
      tauto
    · exact congrArg (fun x => Answer.mk _ _ (State.setChannelSettings _ c x)) applied
  have moves := channelFieldsMoved_eq_false f g
  rw [applied] at moves
  have result := doneIf_cases moves
  refine ⟨doneIf (channelFieldsMoved f g), fun h => ?_, fun h => ?_, fun same => ?_,
    fun ahead b point moved candidate at_point => ?_⟩
  · exact (result.resolve_right fun no => no.2 h).1
  · exact (result.resolve_left fun yes => h yes.2).1
  · refine takeCommand_of_answer taken (answer.trans ?_) 11 label
    rw [State.setChannelSettings_same (s := s.endTransaction) same]
    rfl
  · have computed : computePointOf g' s.now false b = point := by
      rcases at_point with ⟨a, mode, rfl⟩ | ⟨x, mode, predEnd, rfl⟩
      · rw [computePointOf, mode]
        rfl
      · simp only [computePointOf, mode, predEnd]
        rfl
    have settles := State.setChannelSettings_moved (s := s.endTransaction) moved candidate
    rw [show s.endTransaction.now = s.now from rfl, computed] at settles
    refine ⟨fun ahead => ?_, fun due => ?_⟩
    · refine takeCommand_of_answer taken (answer.trans ?_) 11 label
      rw [settles, if_pos ahead]
      rfl
    · refine takeCommand_of_answer taken (answer.trans ?_) 11 label
      rw [settles, if_neg (by simp [due])]
      exact congrArg (Answer.mk _ _) (State.planCandidate_endTransaction (write _) c)

end Sys2Proof.Machine
end

