-- ==== Sys2Proof/Proofs/PlannedRecords.lean ====
section
/-! PROOFS. What one planning writes: the record, its successor, the context and the clamp tallies
(05, R90, R91; 06, R107, R108, R127, R128). -/

namespace Sys2Proof.Machine

/-! ### The plan list -/

theorem planList_sites (ns : List SiteNo) (entries : List (SiteNo × Included))
    (removed : List (SiteNo × ExclusionReason)) :
    ((planList ns entries removed).map PlanEntry.site).Sublist ns := by
  induction ns with
  | nil => exact .refl _
  | cons n ns ih =>
    unfold planList at ih ⊢
    rw [List.filterMap_cons]
    split
    · exact ih.cons n
    next p entry =>
      have site : p.site = n := by
        split at entry
        · rw [← Option.some.inj entry]
        · obtain ⟨_, -, rfl⟩ := Option.map_eq_some_iff.mp entry
          rfl
      rw [List.map_cons, site]
      exact ih.cons_cons n

theorem planList_nil_excluded {ns : List SiteNo} {removed : List (SiteNo × ExclusionReason)}
    {p : PlanEntry} (among : p ∈ planList ns [] removed) : p.included? = none := by
  obtain ⟨n, -, entry⟩ := List.mem_filterMap.mp among
  obtain ⟨_, -, rfl⟩ := Option.map_eq_some_iff.mp entry
  rfl

section Plan
variable {s : State} {c : ChannelNo} {b : Batch} {mode : TimingMode} {ctx : Context}

/-- The candidates stand once each (06, R113). -/
theorem State.candidates_nodup (listed : ∀ l, b.sites = some l → l.Nodup) :
    (s.candidates c b.sites).Nodup := by
  unfold State.candidates
  split
  next l h => exact listed l h
  · exact (List.nodup_finRange 48).filter _

theorem State.planResult_plan (ns : List SiteNo) (air : HubTime) (slip : Nat) (w : Working) :
    ∃ entries removed, (s.planResult ns air slip w).plan = planList ns entries removed ∧
      ((s.planResult ns air slip w).air = none → entries = []) := by
  unfold State.planResult
  generalize s.zonePass w.eligible = p
  dsimp only
  split
  · exact ⟨[], _, rfl, fun _ => rfl⟩
  · split
    · exact ⟨[], _, rfl, fun _ => rfl⟩
    · exact ⟨_, _, rfl, fun none => nomatch none⟩

/-- A plan lists candidates, and one that abandons its batch includes none (06, R127, R128). -/
theorem State.runPlanning_plan : ∃ entries removed,
    (s.runPlanning c b mode ctx).plan = planList (s.candidates c b.sites) entries removed ∧
    ((s.runPlanning c b mode ctx).air = none → entries = []) := by
  unfold State.runPlanning
  dsimp only
  split
  · exact ⟨[], _, rfl, fun _ => rfl⟩
  · exact ⟨[], _, rfl, fun _ => rfl⟩
  · exact State.planResult_plan _ _ _ _

theorem State.runPlanning_sites (listed : ∀ l, b.sites = some l → l.Nodup) :
    ((s.runPlanning c b mode ctx).plan.map PlanEntry.site).Nodup := by
  obtain ⟨entries, removed, plan, -⟩ := State.runPlanning_plan (s := s) (c := c) (b := b) (mode := mode)
    (ctx := ctx)
  rw [plan]
  exact (State.candidates_nodup listed).sublist (planList_sites _ _ _)

theorem State.runPlanning_abandoned (abandons : (s.runPlanning c b mode ctx).air = none)
    (unverified : Bool) : (b.withoutPlan (s.runPlanning c b mode ctx) unverified).includedSites = [] := by
  obtain ⟨entries, removed, plan, none⟩ := State.runPlanning_plan (s := s) (c := c) (b := b) (mode := mode)
    (ctx := ctx)
  rw [none abandons] at plan
  simp only [Batch.includedSites, Batch.withoutPlan, List.map_eq_nil_iff, List.filter_eq_nil_iff]
  intro p among
  rw [plan] at among
  simp [planList_nil_excluded among]

end Plan

/-! ### What stands written whatever the planning answers -/

section Written
variable {s : State} {c : ChannelNo} {ctx : Context} {r : PlanResult}

theorem State.channel_written (d : ChannelNo) : (s.written c ctx r).channel d =
    if d = c then { s.channel c with context := some ctx, timer := none } else s.channel d := by
  have channels := (State.tallyRanges_frame (({ s with zones := r.zones } : State).modifyChannel c fun ch =>
    { ch with context := some ctx, timer := none }) r.plan).2.2.2.1
  have same : (s.written c ctx r).channel d = (({ s with zones := r.zones } : State).modifyChannel c
    fun ch => { ch with context := some ctx, timer := none }).channel d :=
      congrArg (fun v : Vector Channel 4 => v[d]) channels
  rw [same, State.channel_modifyChannel]
  rfl

/-- The clamp tally of each site written EXCLUDED RANGE moves by 1 (06, R116). -/
theorem State.site_tallyRanges {plan : List PlanEntry} (once : (plan.map PlanEntry.site).Nodup) (s : State)
    (n : SiteNo) : (s.tallyRanges plan).site n = { s.site n with
      body := (s.site n).body.map fun e =>
        if ⟨n, .excluded .range⟩ ∈ plan then e.tallyClamp else e } := by
  unfold State.tallyRanges
  induction plan generalizing s with
  | nil => simp
  | cons p plan ih =>
    rw [List.map_cons, List.nodup_cons] at once
    rw [List.foldl_cons, ih once.2]
    have here (among : (⟨n, .excluded .range⟩ : PlanEntry) ∈ plan) : p.site ≠ n := fun same =>
      once.1 (List.mem_map.mpr ⟨_, among, same.symm⟩)
    by_cases range : p.disp = .excluded .range
    · rw [if_pos range, State.site_modifySite (f := Enrolled.tallyClamp) (fun _ => rfl), Option.map_map]
      by_cases same : n = p.site
      · subst same
        have member : (⟨p.site, .excluded .range⟩ : PlanEntry) ∈ p :: plan := by
          rw [← range]
          exact List.mem_cons_self
        have not : (⟨p.site, .excluded .range⟩ : PlanEntry) ∉ plan := fun among => here among rfl
        simp [member, not, Function.comp_def]
      · have member : (⟨n, .excluded .range⟩ : PlanEntry) ∈ p :: plan ↔ ⟨n, .excluded .range⟩ ∈ plan := by
          rw [List.mem_cons, or_iff_right]
          rintro rfl
          exact same rfl
        simp only [member, same, if_false, Function.comp_def]
    · have member : (⟨n, .excluded .range⟩ : PlanEntry) ∈ p :: plan ↔ ⟨n, .excluded .range⟩ ∈ plan := by
        rw [List.mem_cons, or_iff_right]
        rintro rfl
        exact range rfl
      simp only [if_neg range, member]

end Written

/-! ### The record and its successor -/

/-- The records behind a planned one: the first takes the end as its predecessor end (05, R90). -/
def passedTo (x : Option HubTime) : List Batch → List Batch
  | [] => []
  | n :: more => { n with predEnd := x } :: more

theorem passEnd_split {tag : Nat} {x : Option HubTime} {b : Batch} {rest : List Batch} (here : b.tag = tag) :
    ∀ {front : List Batch}, (∀ y ∈ front, y.tag ≠ tag) →
      passEnd tag x (front ++ b :: rest) = front ++ b :: passedTo x rest
  | [], _ => by cases rest <;> simp [passEnd, passedTo, here]
  | [y], others => by
    have not := others y List.mem_cons_self
    have tail := passEnd_split (x := x) (rest := rest) here (front := []) (by simp)
    simp only [List.nil_append] at tail
    simp [passEnd, not, tail]
  | y :: z :: front, others => by
    have not := others y List.mem_cons_self
    have tail := passEnd_split (x := x) (rest := rest) here (front := z :: front)
      fun w hw => others w (List.mem_cons_of_mem y hw)
    simp only [List.cons_append] at tail
    simp [passEnd, not, tail]

theorem passedTo_tags {x : Option HubTime} {rest : List Batch} {tag : Nat} (others : ∀ y ∈ rest, y.tag ≠ tag) :
    ∀ y ∈ passedTo x rest, y.tag ≠ tag := by
  cases rest with
  | nil => simp [passedTo]
  | cons n more => simpa [passedTo] using others

section Planned
variable {s : State} {c : ChannelNo} {b : Batch} {ctx : Context} {r : PlanResult} {front rest : List Batch}

theorem Channel.modifyBatch_split {ch : Channel} {w : Batch} (queue : ch.queue = front ++ b :: rest)
    (others : ∀ x ∈ front ++ rest, x.tag ≠ b.tag) :
    (ch.modifyBatch b.tag fun _ => w).queue = front ++ w :: rest := by
  rw [Channel.modifyBatch, queue]
  exact map_replace_split rfl others fun _ => w

/-- The channel of a record planned at an air time (06, R127). -/
theorem State.channel_planned_chosen {x : HubTime × Nat} (air : r.air = some x)
    (queue : (s.channel c).queue = front ++ b :: rest) (others : ∀ y ∈ front ++ rest, y.tag ≠ b.tag) :
    (s.planned c b ctx r).channel c = { s.channel c with
      context := some ctx, timer := none
      queue := front ++ b.withPlan r s.now x.1 x.2 (s.time.mode != .locked) ::
        passedTo (some (x.1 + ticks b.duration)) rest } := by
  rw [State.planned_chosen _ _ _ _ air, State.channel_modifyChannel_self, State.channel_written, if_pos rfl,
    Channel.modifyBatch_split (ch := { s.channel c with context := some ctx, timer := none }) queue others]
  have tag : (b.withPlan r s.now x.1 x.2 (s.time.mode != .locked)).tag = b.tag := rfl
  rw [passEnd_split tag fun y hy => others y (List.mem_append_left rest hy)]

/-- A planning that includes no site leaves its end to the queue alone (06, R128). -/
theorem State.planned_abandoned_eq (air : r.air = none)
    (empty : (b.withoutPlan r (s.time.mode != .locked)).includedSites = []) :
    s.planned c b ctx r = (s.written c ctx r).modifyChannel c fun ch =>
      ({ ch with queue := passEnd b.tag b.predEnd ch.queue } : Channel).terminate
        (b.withoutPlan r (s.time.mode != .locked)) := by
  rw [State.planned_abandoned _ _ _ _ air, State.terminate, empty, State.modifyChannel,
    State.channel_modifyChannel_self]
  exact State.setChannel_setChannel _ c _ _

/-- The channel of a record that its planning abandons (06, R128; 05, R97 to R99). -/
theorem State.channel_planned_abandoned (air : r.air = none)
    (empty : (b.withoutPlan r (s.time.mode != .locked)).includedSites = [])
    (queue : (s.channel c).queue = front ++ b :: rest) (others : ∀ y ∈ front ++ rest, y.tag ≠ b.tag) :
    let w := b.withoutPlan r (s.time.mode != .locked)
    (s.planned c b ctx r).channel c = { s.channel c with
      context := some ctx, timer := none, summary := .zero
      queue := front ++ { w with
        counts := some w.tally
        summary := some ((s.channel c).summary.withRecord .abandoned w.tally) } ::
          passedTo b.predEnd rest } := by
  intro w
  have tags : ∀ y ∈ front ++ passedTo b.predEnd rest, y.tag ≠ b.tag := by
    rw [List.forall_mem_append] at others ⊢
    exact ⟨others.1, passedTo_tags others.2⟩
  rw [State.planned_abandoned_eq air empty, State.channel_modifyChannel_self, State.channel_written,
    if_pos rfl, Channel.terminate_abandoned (by rfl)]
  have passed : passEnd b.tag b.predEnd (s.channel c).queue = front ++ b :: passedTo b.predEnd rest := by
    rw [queue]
    exact passEnd_split rfl fun y hy => others y (List.mem_append_left rest hy)
  simp only [passed]
  rw [show w.tag = b.tag from rfl, map_replace_split rfl tags fun _ => _]

/-- A planning touches no other channel, and no site or zone beyond what it writes (06, R111). -/
theorem State.planned_elsewhere (empty : r.air = none →
    (b.withoutPlan r (s.time.mode != .locked)).includedSites = []) :
    (s.planned c b ctx r).zones = r.zones ∧ (s.planned c b ctx r).sites = (s.written c ctx r).sites ∧
    ∀ d, d ≠ c → (s.planned c b ctx r).channel d = s.channel d := by
  have zones : (s.written c ctx r).zones = r.zones := (State.tallyRanges_frame _ r.plan).2.2.1
  have others (f : Channel → Channel) (d : ChannelNo) (h : d ≠ c) :
      ((s.written c ctx r).modifyChannel c f).channel d = s.channel d := by
    rw [State.channel_modifyChannel, if_neg h, State.channel_written, if_neg h]
  cases air : r.air with
  | none =>
    rw [State.planned_abandoned_eq air (empty air)]
    exact ⟨zones, rfl, others _⟩
  | some x =>
    rw [State.planned_chosen _ _ _ _ air]
    exact ⟨zones, rfl, others _⟩

end Planned

theorem State.contextFor_held {s : State} {c : ChannelNo} {x : Context} {follower : Bool}
    (present : (s.channel c).context = some x) (holds : (s.channel c).pinned = true ∨ follower = true) :
    s.contextFor c follower = x := by
  simp only [State.contextFor, present, Bool.or_eq_true, holds, if_true]

theorem State.contextFor_captured {s : State} {c : ChannelNo} {follower : Bool}
    (absent : (s.channel c).context = none ∨ (s.channel c).pinned = false ∧ follower = false) :
    s.contextFor c follower = s.capture c := by
  unfold State.contextFor
  split
  next x present =>
    obtain ⟨pinned, follows⟩ := absent.resolve_left (by simp [present])
    simp [pinned, follows]
  · rfl

/-- Settles O45: the compute point, then one planning by what its stages answer. -/
theorem planningWritesTheRecordAndItsSuccessor : Obligations.PlanningWritesTheRecordAndItsSuccessor := by
  refine ⟨fun s c x running timer due => ⟨fun none => ?_, fun ahead b candidate => ?_⟩,
    fun s c b acts front rest queue others queued listed => ?_⟩
  · simp only [exec, execComputePoint, whileRunning_running running, timer, due, if_true,
      State.planCandidate, Channel.candidate_eq_none.mpr none]
    rfl
  · simp only [exec, execComputePoint, whileRunning_running running, timer, due, if_true,
      State.planCandidate, candidate]
  · intro early mode t
    obtain ⟨time, meas, highway, port, -, -, -⟩ := s.planBatch_frame c b acts
    let ctx := s.contextFor c (mode == .follow)
    have planned : t = s.planned c b ctx (s.runPlanning c b mode ctx) := s.planBatch_eq c b acts
    have empty (abandons : (s.runPlanning c b mode ctx).air = none) :=
      State.runPlanning_abandoned abandons (s.time.mode != .locked)
    obtain ⟨zones, sites, elsewhere⟩ := State.planned_elsewhere (ctx := ctx) empty
    have once := State.runPlanning_sites (s := s) (c := c) (mode := mode) (ctx := ctx) listed
    have unverified : (s.time.mode != .locked) = decide (s.time.mode ≠ .locked) := by
      simp [bne, BEq.beq]
    have chosen (x : HubTime × Nat) (air : (s.runPlanning c b mode ctx).air = some x) :=
      State.channel_planned_chosen (ctx := ctx) air queue others
    have abandoned (air : (s.runPlanning c b mode ctx).air = none) :=
      State.channel_planned_abandoned (ctx := ctx) air (empty air) queue others
    have kept : ∃ q sum, t.channel c = { s.channel c with
        context := some ctx, timer := none, queue := q, summary := sum } := by
      rw [planned]
      cases air : (s.runPlanning c b mode ctx).air with
      | none => exact ⟨_, _, abandoned air⟩
      | some x => exact ⟨_, _, chosen x air⟩
    obtain ⟨q, sum, own⟩ := kept
    refine ⟨ctx, fun x present holds => ?_, fun absent => ?_, by rw [own], by rw [own], by rw [own],
      by rw [own], time, meas, highway, port, fun d other => ?_, ?_⟩
    · exact State.contextFor_held present (holds.imp_right fun follow => by simp [follow])
    · exact State.contextFor_captured (absent.imp_right fun not => ⟨not.1, by simpa using not.2⟩)
    · rw [planned]
      exact elsewhere d other
    intro r passed
    refine ⟨?_, fun n e enrolled => ?_, fun air slip chose => ?_, fun abandons => ?_⟩
    · rw [planned]
      exact zones
    · have same : t.site n = (s.written c ctx r).site n := by
        rw [planned]
        exact congrArg (fun v : Vector SiteRecord 48 => v[n]) sites
      refine same.trans ((State.site_tallyRanges once _ n).trans ?_)
      change SiteRecord.mk _ _ ((s.site n).body.map _) = _
      rw [show (s.site n).body = some e from enrolled, Option.map_some]
      split
      · rfl
      · have body : some e = (s.site n).body := enrolled.symm
        exact congrArg (fun x => { s.site n with body := x }) body
    · rw [planned, chosen (air, slip) chose, unverified]
      exact ⟨rfl, rfl⟩
    · rw [planned, abandoned abandons, unverified]
      exact ⟨rfl, rfl⟩

end Sys2Proof.Machine
end

