-- ==== Sys2Proof/Proofs/Submission.lean ====
section
/-! PROOFS. SUBMIT: its checks, the record it builds, and the candidate that record may become
(05, R86, R88 to R92). -/

namespace Sys2Proof.Machine

/-! ### A queue without QUEUED records stays without them as frames depart -/

/-- No record of the channel is QUEUED. -/
def State.Unqueued (s : State) (c : ChannelNo) : Prop := ∀ b ∈ (s.channel c).queue, b.state ≠ .queued

section Unqueued
variable {s : State} {c d : ChannelNo}

theorem State.Unqueued.modifyChannel (h : s.Unqueued c) {f : Channel → Channel}
    (keeps : d = c → ∀ b ∈ (f (s.channel c)).queue, b.state ≠ .queued) :
    (s.modifyChannel d f).Unqueued c := by
  intro b among
  rw [State.channel_modifyChannel] at among
  split at among
  next same => exact keeps same.symm b (same ▸ among)
  · exact h b among

theorem State.Unqueued.modifyBatch (h : s.Unqueued c) {tag : Nat} {f : Batch → Batch}
    (keeps : d = c → ∀ b ∈ (s.channel c).queue, (f b).state ≠ .queued) :
    (s.modifyBatch d tag f).Unqueued c := by
  refine h.modifyChannel fun same b among => ?_
  obtain ⟨x, old, rfl⟩ := List.mem_map.mp among
  split
  · exact keeps same x old
  · exact h x old

theorem Channel.mem_terminate {ch : Channel} {w y : Batch} (among : y ∈ (ch.terminate w).queue) :
    y ∈ ch.queue ∨ y.state = w.state := by
  have cases := ch.terminate_cases w
  dsimp only at cases
  rcases cases with ⟨-, ends⟩ | ⟨-, ends⟩ <;> rw [ends] at among
  · obtain ⟨x, old, rfl⟩ := List.mem_map.mp among
    split
    · exact .inr rfl
    · exact .inl old
  · exact .inl (List.mem_filter.mp among).1

theorem State.Unqueued.terminate (h : s.Unqueued c) {w : Batch} (ended : w.state ≠ .queued) :
    (s.terminate d w).Unqueued c := by
  intro b among
  obtain ⟨x, ends⟩ := s.channel_terminate d c w
  rw [ends] at among
  change b ∈ (if c = d then (s.channel d).terminate w else s.channel c).queue at among
  split at among
  next same =>
    rcases Channel.mem_terminate among with old | state
    · exact h b (same ▸ old)
    · rw [state]
      exact ended
  · exact h b among

theorem State.Unqueued.completeCancel (h : s.Unqueued c) {b : Batch}
    (live : d = c → b.state ≠ .queued) : (s.completeCancel d b).Unqueued c := by
  rcases s.completeCancel_cases d b with ⟨-, -, -, next⟩ | ⟨-, -, -, next⟩ | ⟨-, next⟩ <;> rw [next]
  · exact h.modifyBatch fun same _ _ => live same
  · exact h.terminate (by simp)
  · exact h.modifyBatch fun same _ _ => live same

theorem Batch.armIfReady_queued {b : Batch} (h : b.state ≠ .queued) : b.armIfReady.state ≠ .queued := by
  unfold Batch.armIfReady
  split
  · simp
  · exact h

/-- A departure makes no record QUEUED (07, R132). -/
theorem State.Unqueued.arbitrate (h : s.Unqueued c) : s.arbitrate.Unqueued c := by
  rcases s.arbitrate_cases with stays | ⟨choice, -, -, departs⟩
  · rwa [stays]
  rw [departs]
  cases choice with
  | abort r =>
    unfold State.depart State.departAbort
    dsimp only
    split
    next b found =>
      refine State.Unqueued.completeCancel ?_ fun same => ?_
      · exact h
      · subst same
        exact h b (Channel.find_mem found).1
    · exact h
  | order r =>
    unfold State.depart State.departOrder
    dsimp only
    split
    · split
      · refine State.Unqueued.modifyBatch ?_ fun _ b old => Batch.armIfReady_queued ?_
        · exact h
        · exact h b old
      · exact h
    · exact h
  | probe i =>
    change (s.departProbe i).Unqueued c
    unfold State.departProbe
    split
    · intro b among
      rw [State.channel, State.modifySite_channels] at among
      exact h b among
    · exact h

end Unqueued

/-! ### The checks (R88) -/

section Checks
variable {s : State} {c : ChannelNo} {q : Submission}

theorem timingOf_eq_some {m : Nat} {air : Option HubTime} {mode : TimingMode} :
    timingOf m air = some mode ↔ (∃ a, m = 0 ∧ air = some a ∧ mode = .absolute a) ∨
      (m = 1 ∧ mode = .follow) ∨ (m = 2 ∧ mode = .earliest) := by
  rcases m with _ | _ | _ | m <;> rcases air with _ | a <;> simp [timingOf, eq_comm]

theorem timingOf_eq_none {m : Nat} {air : Option HubTime} :
    timingOf m air = none ↔ 3 ≤ m ∨ m = 0 ∧ air = none := by
  rcases m with _ | _ | _ | m <;> rcases air with _ | a <;> simp [timingOf]

theorem State.listable_eq_false {k : Nat} :
    s.listable c k = false ↔ ∀ n : SiteNo, n.val = k → s.isMember n c = false := by
  unfold State.listable
  cases found : siteOf k with
  | none =>
    refine ⟨fun _ n same => ?_, fun _ => rfl⟩
    exact absurd (siteOf_eq_none.mp found) (not_le.mpr (same ▸ n.isLt))
  | some n =>
    have same := siteOf_eq_some.mp found
    refine ⟨fun h m hm => ?_, fun h => h n same.symm⟩
    rwa [Fin.ext (hm.trans same)]

theorem State.submitInvalid_iff : s.submitInvalid c q = true ↔
    q.spans = [] ∨ 7 < q.spans.length ∨ (∀ p ∈ q.spans, p.symbols = 0) ∨
      4294967296 < batchDuration (s.channel c).settings q.spans ∨ q.sites = some [] ∨
      ∃ l k, q.sites = some l ∧ k ∈ l ∧ ∀ n : SiteNo, n.val = k → s.isMember n c = false := by
  have sites : (q.sites.any fun l => l.isEmpty || l.any fun n => !s.listable c n) = true ↔
      q.sites = some [] ∨
        ∃ l k, q.sites = some l ∧ k ∈ l ∧ ∀ n : SiteNo, n.val = k → s.isMember n c = false := by
    simp only [Option.any_eq_true, Bool.or_eq_true, List.isEmpty_iff, List.any_eq_true,
      Bool.not_eq_true', State.listable_eq_false]
    constructor
    · rintro ⟨l, some, rfl | ⟨k, among, not⟩⟩
      · exact .inl some
      · exact .inr ⟨l, k, some, among, not⟩
    · rintro (some | ⟨l, k, some, among, not⟩)
      · exact ⟨[], some, .inl rfl⟩
      · exact ⟨l, some, .inr ⟨k, among, not⟩⟩
  simp only [State.submitInvalid, Bool.or_eq_true, sites, List.isEmpty_iff, decide_eq_true_eq,
    List.all_eq_true, beq_iff_eq, or_assoc, Nat.reducePow]

theorem State.findBatch_isSome {tag : Nat} :
    (s.findBatch tag).isSome = true ↔ ∃ d x, x ∈ (s.channel d).queue ∧ x.tag = tag := by
  rw [← not_iff_not, Bool.not_eq_true, Option.isSome_eq_false_iff, Option.isNone_iff_eq_none,
    State.findBatch_eq_none]
  simp

variable {mode : TimingMode}

theorem answerSubmit_malformed (h : channelOf q.channel = none ∨ timingOf q.mode q.air = none) :
    answerSubmit q s = refuse .invalid s := by
  unfold answerSubmit
  rcases h with h | h
  · simp [h]
  · rw [h]
    split <;> simp_all

theorem answerSubmit_checks (channel : q.channel = c.val) (timing : timingOf q.mode q.air = some mode) :
    answerSubmit q s = if s.submitInvalid c q then refuse .invalid s
      else if 8 ≤ (s.channel c).queue.length then refuse .full s
      else if (s.findBatch q.tag).isSome then refuse .inUse s
      else ⟨.done, .empty, s.submit c q mode⟩ := by
  simp only [answerSubmit, channel, channelOf_val, timing]

end Checks

/-! ### The record and its place (R89 to R92) -/

section Joining
variable {s : State} {c : ChannelNo} {q : Submission} {mode : TimingMode}

theorem Batch.fresh_eq : Batch.fresh q mode s.submits (batchDuration (s.channel c).settings q.spans)
    (s.channel c).tailEnd = s.submitted c q mode := by
  have ends : (s.channel c).tailEnd = (s.submitted c q mode).predEnd := by
    unfold Channel.tailEnd
    refine congrArg _ (funext fun b => ?_)
    unfold Batch.hasPlan Batch.endTime
    cases b.air <;> rfl
  rw [ends]
  rfl

theorem State.submit_eq : s.submit c q mode =
    if (s.channel c).candidate.isNone then
      (s.joined c (s.submitted c q mode) (s.channel c).timer).newCandidate c
    else s.joined c (s.submitted c q mode) (s.channel c).timer := by
  rw [State.submit, Batch.fresh_eq]
  rfl

theorem oldestQueued_tail {queue : List Batch} {b : Batch} (none : ∀ x ∈ queue, x.state ≠ .queued)
    (queued : b.state = .queued) : ∀ ahead, oldestQueued ahead (queue ++ [b]) =
      some (queue.getLast?.or ahead, b) := by
  induction queue with
  | nil => simp [oldestQueued, queued]
  | cons x queue ih =>
    rw [List.forall_mem_cons] at none
    intro ahead
    rw [List.cons_append, oldestQueued, if_neg (by simpa using none.1), ih none.2, List.getLast?_cons]
    cases queue.getLast? <;> rfl

/-- A record planned leaves its queue without a QUEUED one when it was the last (05, R91). -/
theorem State.planBatch_unqueued {b : Batch} {front : List Batch} (acts : Bool)
    (queue : (s.channel c).queue = front ++ [b]) (others : ∀ x ∈ front, x.tag ≠ b.tag)
    (none : ∀ x ∈ front, x.state ≠ .queued) : (s.planBatch c b acts).Unqueued c := by
  have apart : ∀ y ∈ front ++ [], y.tag ≠ b.tag := by simpa using others
  have members {w : Batch} {x : Option HubTime} (ended : w.state ≠ .queued) :
      ∀ y ∈ front ++ w :: passedTo x [], y.state ≠ .queued := by
    intro y among
    rcases List.mem_append.mp among with old | new
    · exact none y old
    · rw [passedTo, List.mem_singleton] at new
      rw [new]
      exact ended
  rw [State.Unqueued, State.planBatch_eq]
  set ctx := s.contextFor c (b.planMode acts == .follow)
  cases air : (s.runPlanning c b (b.planMode acts) ctx).air with
  | some x =>
    rw [State.channel_planned_chosen air queue apart]
    refine members ?_
    simp only [Batch.withPlan]
    split <;> simp
  | none =>
    rw [State.channel_planned_abandoned air (State.runPlanning_abandoned air _) queue apart]
    exact members (by simp [Batch.withoutPlan])

/-- The one candidate of a channel, due as it becomes it, is planned, and no other follows (05, R91). -/
theorem State.newCandidate_planned {b : Batch} {front : List Batch}
    (queue : (s.channel c).queue = front ++ [b]) (others : ∀ x ∈ front, x.tag ≠ b.tag)
    (none : ∀ x ∈ front, x.state ≠ .queued) (queued : b.state = .queued)
    (due : later (computePointOf (s.channel c).settings s.now (actsEarliest front.getLast? b) b) s.now =
      false) :
    s.newCandidate c = (s.planBatch c b (actsEarliest front.getLast? b)).arbitrate.setTimer c .none := by
  have candidate : (s.channel c).candidate = some (front.getLast?, b) := by
    rw [Channel.candidate, queue, oldestQueued_tail none queued, Option.or_none]
  have after := (State.planBatch_unqueued (actsEarliest front.getLast? b) queue others none).arbitrate
  have length : (s.channel c).queue.length + 1 = front.length + 1 + 1 := by simp [queue]
  rw [State.newCandidate, length, State.advance, candidate]
  dsimp only
  rw [if_neg (by simp [due]), State.advance, Channel.candidate_eq_none.mpr after]

theorem actsEarliest_iff {ahead : Option Batch} {b : Batch} : actsEarliest ahead b = true ↔
    b.mode = .follow ∧ (b.predEnd = none ∨
      ∃ x, ahead = some x ∧ x.state = .abandoned ∧ x.air = none) := by
  simp [actsEarliest, Option.any_eq_true, Batch.hasPlan]

end Joining

/-- Settles O36: the checks in order, then the record at the tail by the candidate it may become. -/
theorem submitBuildsARecordAtTheTail : Obligations.SubmitBuildsARecordAtTheTail := by
  intro s label q taken
  refine ⟨fun malformed => ?_, fun c mode channel timing b hb g hg queue hq => ?_⟩
  · refine takeCommand_of_answer taken (t := s) (answerSubmit_malformed ?_) 12 label
    rw [channelOf_eq_none, timingOf_eq_none]
    exact malformed
  intro bad inUse
  subst hb hg hq
  have checks := answerSubmit_checks (s := s.endTransaction) channel (timingOf_eq_some.mpr timing)
  have invalid : s.endTransaction.submitInvalid c q = true ↔ bad := State.submitInvalid_iff
  have used : (s.endTransaction.findBatch q.tag).isSome = true ↔ inUse := State.findBatch_isSome
  refine ⟨fun h => ?_, fun fine full => ?_, fun fine room taken' => ?_, fun fine room free => ?_⟩
  · exact takeCommand_of_answer taken (t := s) (checks.trans (if_pos (invalid.mpr h))) 12 label
  · refine takeCommand_of_answer taken (t := s) (checks.trans ?_) 12 label
    rw [if_neg (mt invalid.mp fine)]
    exact if_pos full
  · refine takeCommand_of_answer taken (t := s) (checks.trans ?_) 12 label
    rw [if_neg (mt invalid.mp fine), if_pos (used.mpr taken')]
    exact if_neg (not_le.mpr room)
  intro acts point planned
  set b := s.submitted c q mode with hb
  let joined := s.joined c b (s.channel c).timer
  have answer : answerSubmit q s.endTransaction = ⟨.done, .empty,
      (if (s.channel c).candidate.isNone then joined.newCandidate c else joined).endTransaction⟩ := by
    rw [checks, if_neg (mt invalid.mp fine), if_neg (mt used.mp free), apply_ite State.endTransaction,
      ← State.newCandidate_endTransaction, State.submit_eq]
    exact if_neg (not_le.mpr room)
  have others : ∀ x ∈ (s.channel c).queue, x.tag ≠ b.tag := fun x among same => free ⟨c, x, among, same⟩
  have own : joined.channel c = { s.channel c with queue := (s.channel c).queue ++ [b] } :=
    State.channel_setChannel_self s c _
  have alone (none : ∀ y ∈ (s.channel c).queue, y.state ≠ .queued) : answerSubmit q s.endTransaction =
      ⟨.done, .empty, (joined.newCandidate c).endTransaction⟩ := by
    rw [answer, Channel.candidate_eq_none.mpr none]
    rfl
  have plans (none : ∀ y ∈ (s.channel c).queue, y.state ≠ .queued)
      (due : later (computePointOf (s.channel c).settings s.now
        (actsEarliest (s.channel c).queue.getLast? b) b) s.now = false) :
      answerSubmit q s.endTransaction = ⟨.done, .empty,
        (planned (actsEarliest (s.channel c).queue.getLast? b)).endTransaction⟩ := by
    rw [alone none, State.newCandidate_planned (s := joined) (b := b) (by rw [own]) others none rfl]
    rw [own]
    exact due
  have early : actsEarliest (s.channel c).queue.getLast? b = true ↔ acts := actsEarliest_iff
  have computed (x : HubTime) (h : point x) : computePointOf (s.channel c).settings s.now
      (actsEarliest (s.channel c).queue.getLast? b) b = x ∧
        actsEarliest (s.channel c).queue.getLast? b = false := by
    rcases h with ⟨a, absolute, rfl⟩ | ⟨follow, not, y, predEnd, rfl⟩
    · have mode : b.mode = .absolute a := absolute
      have late : ¬ acts := fun h => by cases absolute.symm.trans h.1
      refine ⟨?_, Bool.eq_false_iff.mpr (mt early.mp late)⟩
      rw [computePointOf, mode]
      rfl
    · have mode : b.mode = .follow := follow
      have late := Bool.eq_false_iff.mpr (mt early.mp not)
      have predEnd : b.predEnd = some y := predEnd
      refine ⟨?_, late⟩
      simp only [computePointOf, mode, late, predEnd]
      rfl
  refine ⟨fun ⟨x, among, queued⟩ => ?_, fun x none at_point ahead => ?_, fun x none at_point due => ?_,
    fun none earliest => ?_, fun none follows => ?_⟩
  · refine takeCommand_of_answer taken (answer.trans ?_) 12 label
    rw [if_neg]
    rw [Option.isNone_iff_eq_none, Channel.candidate_eq_none]
    exact fun none => none x among queued
  · refine takeCommand_of_answer taken ((alone none).trans ?_) 12 label
    have candidate : (joined.channel c).candidate = some ((s.channel c).queue.getLast?, b) := by
      rw [own, Channel.candidate, oldestQueued_tail none rfl, Option.or_none]
    have waits := State.newCandidate_waits joined c _ b candidate
    rw [own, show joined.now = s.now from rfl, (computed x at_point).1] at waits
    rw [waits ahead, State.setTimer, State.modifyChannel, own]
    exact congrArg (fun u : State => Answer.mk .done .empty u.endTransaction)
      (State.setChannel_setChannel { s with submits := s.submits + 1 } c _ _)
  · obtain ⟨at_x, late⟩ := computed x at_point
    have answers := plans none (by rw [at_x]; exact due)
    rw [late] at answers
    exact takeCommand_of_answer taken answers 12 label
  · have mode : b.mode = .earliest := earliest
    have late : actsEarliest (s.channel c).queue.getLast? b = false := by simp [actsEarliest, mode]
    have answers := plans none (by simp [computePointOf, mode])
    rw [late] at answers
    exact takeCommand_of_answer taken answers 12 label
  · have mode : b.mode = .follow := follows.1
    have acting := early.mpr follows
    have answers := plans none (by simp [computePointOf, mode, acting])
    rw [acting] at answers
    exact takeCommand_of_answer taken answers 12 label

end Sys2Proof.Machine
end

