-- ==== Sys2Proof/Proofs/Cancelling.lean ====
section
/-! PROOFS. CANCEL: what it does by the state of the record (05, R100 to R102; 07, R137). -/

namespace Sys2Proof.Machine

/-! ### The entries of a cancelled batch -/

section Entries
variable {b : Batch}

/-- An entry as a cancel leaves it, with its abort deadline written out (05, R101). -/
def Included.stopped (now : HubTime) (e : Included) : Included :=
  let limit := e.departure.getD 0 + BitVec.ofNat 40 ((e.hold.map Hold.ticks).getD 0) -
    BitVec.ofNat 40 e.armMargin
  match e.order with
  | .waiting => { e with order := .aborted }
  | .sent | .receipted | .unconfirmed =>
    if later limit now then { e with order := .aborting, abortDeadline := some limit }
    else { e with order := .abortMissed, abortDeadline := some limit }
  | _ => e

theorem Included.cancel_eq (now : HubTime) : Included.cancel now = Included.stopped now := by
  funext e
  obtain ⟨limit, same⟩ : ∃ limit, limit = e.abortTime := ⟨_, rfl⟩
  have same' : e.departure.getD 0 + BitVec.ofNat 40 ((e.hold.map Hold.ticks).getD 0) -
    BitVec.ofNat 40 e.armMargin = limit := same.symm
  unfold Included.cancel Included.stopped
  rw [← same, same']
  cases e.order <;> dsimp only <;> split <;> rfl

/-- The abort frame of an entry that is ABORTING (07, R137). -/
def PlanEntry.abortRef (c : ChannelNo) (tag : Nat) (p : PlanEntry) : Option AbortRef :=
  match p.disp with
  | .included e => if e.order = .aborting then some ⟨c, tag, p.site⟩ else none
  | .excluded _ => none

theorem Batch.abortRefs_eq (c : ChannelNo) :
    b.abortRefs c = b.plan.filterMap (PlanEntry.abortRef c b.tag) := by
  unfold Batch.abortRefs
  induction b.plan with
  | nil => rfl
  | cons p plan ih =>
    obtain ⟨site, disp⟩ := p
    rw [List.filter_cons, List.filterMap_cons, ← ih]
    cases disp with
    | excluded reason => rfl
    | included e =>
      by_cases aborting : e.order = .aborting <;>
        simp [PlanEntry.included?, PlanEntry.abortRef, aborting]

/-- Some entry is ABORTING exactly when a frame goes on the abort list (05, R101; 07, R137). -/
theorem Batch.abortRefs_eq_nil (c : ChannelNo) : b.abortRefs c = [] ↔ b.anyIn .aborting = false := by
  rw [Bool.eq_false_iff, Ne, Batch.anyIn_iff]
  simp only [Batch.abortRefs, List.map_eq_nil_iff, List.filter_eq_nil_iff, Option.any_eq_true, beq_iff_eq,
    not_exists, not_and, PlanEntry.included?_eq_some]
  exact ⟨fun h p e hp => h p hp e, fun h p hp e => h p e hp⟩

end Entries

/-! ### A PLANNED or ARMED batch is cancelled (R101, R102) -/

section Cancel
variable {s : State} {c : ChannelNo} {b : Batch} {flush : Bool}

/-- The record with its entries cancelled. -/
def Batch.stopped (b : Batch) (now : HubTime) : Batch := b.modifyEntries (Included.cancel now)

theorem State.cancelPlanned_aborting (h : (b.stopped s.now).anyIn .aborting = true) :
    s.cancelPlanned c b flush = ({ s.modifyBatch c b.tag fun _ =>
      { b.stopped s.now with state := .cancelling, flushed := flush } with
        highway := { s.highway with aborts := s.highway.aborts ++ (b.stopped s.now).abortRefs c } },
      .aborting) := by
  rw [Batch.stopped] at h
  simp only [State.cancelPlanned, h, if_true]
  rfl

theorem State.cancelPlanned_missed (h : (b.stopped s.now).anyIn .aborting = false)
    (missed : (b.stopped s.now).anyIn .abortMissed = true) :
    s.cancelPlanned c b flush = (s.modifyBatch c b.tag fun _ =>
      { b.stopped s.now with state := .cancelling, flushed := flush, partialMark := true }, .missed) := by
  rw [Batch.stopped] at h missed
  simp only [State.cancelPlanned, h, missed, Bool.false_eq_true, if_false, if_true]
  rfl

theorem State.cancelPlanned_removed (h : (b.stopped s.now).anyIn .aborting = false)
    (missed : (b.stopped s.now).anyIn .abortMissed = false) :
    s.cancelPlanned c b flush =
      ((s.modifyChannel c fun ch => ch.removeBatch b.tag).checkVacateAll b.includedSites, .removed) := by
  rw [Batch.stopped] at h missed
  simp only [State.cancelPlanned, h, missed, Bool.false_eq_true, if_false,
    Batch.modifyEntries_includedSites]
  rfl

variable {tag : Nat}

theorem answerCancel_planned (found : s.findBatch tag = some (c, b))
    (early : b.state = .planned ∨ b.state = .armed) : answerCancel tag s =
      ⟨if (s.cancelPlanned c b false).2 = .aborting then .pending else .done, .empty,
        (s.cancelPlanned c b false).1.arbitrate⟩ := by
  rcases early with state | state
  all_goals
    simp only [answerCancel, found, state]
    generalize s.cancelPlanned c b false = out
    obtain ⟨u, k⟩ := out
    cases k <;> rfl

end Cancel

/-! ### A QUEUED record is removed (R100) -/

section Queued
variable {tag : Nat} {b : Batch} {front rest : List Batch}

theorem removeQueued_split (here : b.tag = tag) (others : ∀ x ∈ front, x.tag ≠ tag) :
    removeQueued tag (front ++ b :: rest) = front ++ passedTo b.predEnd rest := by
  induction front with
  | nil => cases rest <;> simp [removeQueued, passedTo, here]
  | cons x front ih =>
    rw [List.forall_mem_cons] at others
    simp [removeQueued, others.1, ih others.2]

theorem oldestQueued_front {ahead : Option Batch} (queued : ∃ x ∈ front, x.state = .queued) :
    ∃ p x, oldestQueued ahead (front ++ rest) = some (p, x) ∧ x ∈ front := by
  induction front generalizing ahead with
  | nil => simp at queued
  | cons y front ih =>
    rw [List.cons_append, oldestQueued]
    by_cases first : y.state = .queued
    · exact ⟨ahead, y, if_pos (by simp [first]), List.mem_cons_self⟩
    · rw [if_neg (by simp [first])]
      obtain ⟨p, x, found, among⟩ := ih (ahead := some y) (by simpa [first] using queued)
      exact ⟨p, x, found, List.mem_cons_of_mem y among⟩

theorem oldestQueued_split (none : ∀ x ∈ front, x.state ≠ .queued) (queued : b.state = .queued) :
    ∀ {ahead : Option Batch}, ∃ p, oldestQueued ahead (front ++ b :: rest) = some (p, b) := by
  induction front with
  | nil => simp [oldestQueued, queued]
  | cons y front ih =>
    rw [List.forall_mem_cons] at none
    intro ahead
    rw [List.cons_append, oldestQueued, if_neg (by simp [none.1])]
    exact ih none.2

theorem Channel.isCandidate_iff {ch : Channel} (queue : ch.queue = front ++ b :: rest) (here : b.tag = tag)
    (others : ∀ x ∈ front, x.tag ≠ tag) (queued : b.state = .queued) :
    ch.isCandidate tag = true ↔ ∀ x ∈ front, x.state ≠ .queued := by
  unfold Channel.isCandidate Channel.candidate
  rw [queue]
  by_cases none : ∀ x ∈ front, x.state ≠ .queued
  · obtain ⟨p, found⟩ := oldestQueued_split (rest := rest) none queued (ahead := .none)
    simpa [found, here] using none
  · obtain ⟨p, x, found, among⟩ := oldestQueued_front (ahead := .none) (rest := b :: rest)
      (by simpa using none)
    simp [found, others x among, none]

end Queued

/-- Settles O37: by the state of the record, and for a batch cancelled by what its entries became. -/
theorem cancelActsByTheState : Obligations.CancelActsByTheState := by
  intro s label tag taken
  have answered {r : Result} {u : State} (answer : answerCancel tag s.endTransaction =
      ⟨r, .empty, u.endTransaction⟩) :
      exec (.cancel label tag) s = .next (u.answered 13 label s.now r .empty) :=
    takeCommand_of_answer taken answer 13 label
  refine ⟨fun missing => answered (u := s) ?_, fun c b found => ?_⟩
  · simp only [answerCancel, State.findBatch_endTransaction, missing]
    rfl
  have held : s.endTransaction.findBatch tag = some (c, b) := found
  refine ⟨fun state => answered (u := s) ?_, fun state => answered (u := s) ?_,
    fun state => answered (u := s) ?_, fun front rest state queue others => ?_, fun early busy => ?_⟩
  · simp only [answerCancel, held, state]
  · simp only [answerCancel, held, state]
    rfl
  · rcases state with state | state | state <;> (simp only [answerCancel, held, state]; rfl)
  · intro u
    have here : b.tag = tag := (State.findBatch_mem found).2
    have dropped : s.endTransaction.cancelQueued c tag = if ∀ x ∈ front, x.state ≠ .queued then
        u.endTransaction.newCandidate c else u.endTransaction := by
      have queues : removeQueued tag (s.channel c).queue = front ++ passedTo b.predEnd rest := by
        rw [queue]
        exact removeQueued_split here others
      have drops : (s.endTransaction.modifyChannel c fun ch => ch.dropQueued tag) = u.endTransaction :=
        congrArg (fun q => ({ s with channels := s.channels.set c { s.channel c with queue := q } } :
          State).endTransaction) queues
      rw [State.cancelQueued]
      simp only [drops]
      exact if_congr (Channel.isCandidate_iff queue here others state) rfl rfl
    refine ⟨fun ⟨x, among, queued⟩ => answered ?_, fun none => answered ?_⟩
    · simp only [answerCancel, held, state, dropped]
      rw [if_neg fun none => none x among queued]
    · simp only [answerCancel, held, state, dropped]
      rw [if_pos none, State.newCandidate_endTransaction]
  · intro entry plan has
    have answer := answerCancel_planned held early
    have stopped : b.stopped s.endTransaction.now = { b with plan := plan } := by
      rw [Batch.stopped, Included.cancel_eq]
      rfl
    have any (o : OrderState) : (b.stopped s.endTransaction.now).anyIn o = true ↔ has o := by
      rw [stopped]
      exact Batch.anyIn_iff o
    have tags : b.tag = tag := (State.findBatch_mem found).2
    refine ⟨fun noAbort noMiss quiet => answered ?_, fun noAbort missed => answered ?_,
      fun aborts => answered ?_⟩
    · have removed := State.cancelPlanned_removed (s := s.endTransaction) (c := c) (flush := false)
        (Bool.eq_false_iff.mpr (mt (any _).mp noAbort)) (Bool.eq_false_iff.mpr (mt (any _).mp noMiss))
      rw [State.checkVacateAll_none _ _ (by exact quiet), tags] at removed
      rw [answer, removed, State.arbitrate_busy (by exact busy)]
      rfl
    · have misses := State.cancelPlanned_missed (s := s.endTransaction) (c := c) (flush := false)
        (Bool.eq_false_iff.mpr (mt (any _).mp noAbort)) ((any _).mpr missed)
      rw [answer, misses, State.arbitrate_busy (by exact busy), stopped, State.modifyBatch_found held]
      rfl
    · have aborting := State.cancelPlanned_aborting (s := s.endTransaction) (c := c) (flush := false)
        ((any _).mpr aborts)
      rw [answer, aborting, State.arbitrate_busy (by exact busy), Batch.abortRefs_eq, stopped,
        State.modifyBatch_found held, ← tags]
      rfl

end Sys2Proof.Machine
end

