-- ==== Sys2Proof/Proofs/Flushing.lean ====
section
/-! PROOFS. FLUSH CHANNEL, record by record: what each leaves in the queue and on the abort list, the
predecessor ends that move, and the counts (05, R103). -/

namespace Sys2Proof.Machine

/-! ### One record flushed -/

/-- The record is PLANNED or ARMED. -/
def Batch.early (b : Batch) : Bool := b.state == .planned || b.state == .armed

/-- What a flush leaves of a PLANNED or ARMED record (05, R101 to R103). -/
def Batch.flushedTo (b : Batch) (now : HubTime) : List Batch :=
  let w := { b.stopped now with state := .cancelling, flushed := true }
  if w.anyIn .aborting then [w] else if w.anyIn .abortMissed then [{ w with partialMark := true }] else []

/-- What a flush leaves of a record (05, R103). -/
def Batch.stays (b : Batch) (now : HubTime) : List Batch :=
  if b.state = .queued then [] else if b.early then b.flushedTo now else [b]

/-- The abort frames that a record flushed puts on the list (07, R137). -/
def Batch.frames (b : Batch) (c : ChannelNo) (now : HubTime) : List AbortRef :=
  if b.early then (b.stopped now).abortRefs c else []

/-- A record whose predecessor end may have moved as a QUEUED one ahead was removed (05, R100). -/
def Batch.carry (p : Option (Option HubTime)) (b : Batch) : Batch :=
  match p with
  | none => b
  | some x => { b with predEnd := x }

/-- The records behind the one flushed last. -/
def carried (p : Option (Option HubTime)) : List Batch → List Batch
  | [] => []
  | b :: rest => b.carry p :: rest

/-- The records that a flush leaves, in their order (05, R103). -/
def flushed (now : HubTime) : Option (Option HubTime) → List Batch → List Batch
  | _, [] => []
  | p, b :: rest =>
    if b.state = .queued then flushed now (some (b.carry p).predEnd) rest
    else (b.stays now).map (Batch.carry p) ++ flushed now none rest

section Records
variable {now : HubTime} {b : Batch} {p : Option (Option HubTime)}

theorem Batch.carry_eq (p : Option (Option HubTime)) (b : Batch) :
    b.carry p = { b with predEnd := (b.carry p).predEnd } := by cases p <;> rfl

@[simp] theorem Batch.carry_tag : (b.carry p).tag = b.tag := by cases p <;> rfl

@[simp] theorem Batch.carry_state : (b.carry p).state = b.state := by cases p <;> rfl

theorem Batch.carry_includedSites : (b.carry p).includedSites = b.includedSites := by cases p <;> rfl

theorem Batch.carry_frames (c : ChannelNo) : (b.carry p).frames c now = b.frames c now := by
  cases p <;> rfl

theorem Batch.carry_flushedTo : (b.carry p).flushedTo now = (b.flushedTo now).map (Batch.carry p) := by
  cases p with
  | none => exact (List.map_id _).symm
  | some x =>
    simp only [Batch.flushedTo, apply_ite (List.map _)]
    rfl

theorem Batch.carry_stays : (b.carry p).stays now = (b.stays now).map (Batch.carry p) := by
  have early : (b.carry p).early = b.early := by cases p <;> rfl
  unfold Batch.stays
  rw [Batch.carry_state, early, Batch.carry_flushedTo]
  split_ifs <;> rfl

theorem carried_none (l : List Batch) : carried none l = l := by cases l <;> rfl

theorem carried_some (x : Option HubTime) (l : List Batch) : carried (some x) l = passedTo x l := by
  cases l <;> rfl

theorem carried_tags (l : List Batch) : (carried p l).map Batch.tag = l.map Batch.tag := by
  cases l <;> simp [carried]

/-- A record left CANCELLING keeps its tag and is flushed. -/
theorem Batch.mem_flushedTo {y : Batch} (among : y ∈ b.flushedTo now) :
    y.tag = b.tag ∧ y.state = .cancelling ∧ y.flushed = true := by
  unfold Batch.flushedTo at among
  dsimp only at among
  split_ifs at among <;> simp at among <;> subst among <;> exact ⟨rfl, rfl, rfl⟩

/-- A record that stays was cancelled, or was past cancelling and is as it was (05, R103). -/
theorem Batch.mem_stays {y : Batch} (among : y ∈ b.stays now) : y.tag = b.tag ∧ b.state ≠ .queued ∧
    (b.early = true ∧ y.state = .cancelling ∧ y.flushed = true ∨ b.early = false ∧ y = b) := by
  unfold Batch.stays at among
  split_ifs at among with queued early
  · simp at among
  · obtain ⟨tag, state, flushed⟩ := Batch.mem_flushedTo among
    exact ⟨tag, queued, .inl ⟨early, state, flushed⟩⟩
  · rw [List.mem_singleton] at among
    exact ⟨congrArg Batch.tag among, queued, .inr ⟨Bool.eq_false_iff.mpr early, among⟩⟩

theorem Batch.stays_length : (b.stays now).length ≤ 1 := by
  unfold Batch.stays Batch.flushedTo
  dsimp only
  split_ifs <;> simp

theorem Batch.stays_tags : ((b.stays now).map Batch.tag).Sublist [b.tag] := by
  have one : ∀ t ∈ (b.stays now).map Batch.tag, t = b.tag := by
    intro t among
    obtain ⟨y, old, rfl⟩ := List.mem_map.mp among
    exact (Batch.mem_stays old).1
  have short : ((b.stays now).map Batch.tag).length ≤ 1 := by
    rw [List.length_map]
    exact Batch.stays_length
  match h : (b.stays now).map Batch.tag with
  | [] => exact List.nil_sublist _
  | [t] =>
    rw [one t (by simp [h])]
  | _ :: _ :: _ => simp [h] at short

theorem Batch.stays_queued (queued : b.state = .queued) : b.stays now = [] := if_pos queued

end Records

/-! ### The records a flush leaves -/

section Left
variable {now : HubTime}

/-- But for predecessor ends, a flush leaves what each record leaves (05, R103). -/
theorem flushed_map {f : Batch → Batch} (blind : ∀ p b, f (b.carry p) = f b) (l : List Batch) :
    ∀ p, (flushed now p l).map f = (l.flatMap (Batch.stays · now)).map f := by
  induction l with
  | nil => exact fun _ => rfl
  | cons b l ih =>
    intro p
    rw [flushed, List.flatMap_cons]
    split
    next queued => rw [Batch.stays_queued queued, List.nil_append, ih]
    · rw [List.map_append, List.map_append, ih, List.map_map]
      exact congrArg (· ++ _) (List.map_congr_left fun y _ => blind p y)

theorem flushed_all_queued {l : List Batch} (all : ∀ y ∈ l, y.state = .queued) :
    ∀ p, flushed now p l = [] := by
  induction l with
  | nil => exact fun _ => rfl
  | cons b l ih =>
    rw [List.forall_mem_cons] at all
    intro p
    rw [flushed, if_pos all.1, ih all.2]

/-- With QUEUED records only behind a QUEUED one, no predecessor end moves (05, R100). -/
theorem flushed_exact {l : List Batch}
    (last : ∀ front x rest, l = front ++ x :: rest → x.state = .queued → ∀ y ∈ rest, y.state = .queued) :
    flushed now none l = l.flatMap (Batch.stays · now) := by
  induction l with
  | nil => rfl
  | cons b l ih =>
    rw [flushed, List.flatMap_cons]
    split
    next queued =>
      have all := last [] b l rfl queued
      have nothing : l.flatMap (Batch.stays · now) = [] := by
        rw [List.flatMap_eq_nil_iff]
        exact fun y among => Batch.stays_queued (all y among)
      rw [flushed_all_queued all, nothing, Batch.stays_queued queued, List.append_nil]
    · have behind := ih fun front x rest h => last (b :: front) x rest (by rw [h]; rfl)
      have stands : (b.stays now).map (Batch.carry none) = b.stays now := List.map_id _
      rw [behind, stands]

theorem mem_flushed {l : List Batch} {y : Batch} : ∀ {p}, y ∈ flushed now p l →
    ∃ x ∈ l, ∃ q, ∃ z ∈ x.stays now, y = z.carry q := by
  induction l with
  | nil => simp [flushed]
  | cons b l ih =>
    intro p among
    rw [flushed] at among
    split at among
    · obtain ⟨x, old, h⟩ := ih among
      exact ⟨x, List.mem_cons_of_mem b old, h⟩
    · rcases List.mem_append.mp among with here | behind
      · obtain ⟨z, stays, rfl⟩ := List.mem_map.mp here
        exact ⟨b, List.mem_cons_self, p, z, stays, rfl⟩
      · obtain ⟨x, old, h⟩ := ih behind
        exact ⟨x, List.mem_cons_of_mem b old, h⟩

/-- The records left and those removed are all that were there (05, R103). -/
theorem flushed_length (l : List Batch) (p : Option (Option HubTime)) :
    (flushed now p l).length + l.countP (fun b => (b.stays now).isEmpty) = l.length := by
  have same : (flushed now p l).length = (l.flatMap (Batch.stays · now)).length := by
    have maps := congrArg List.length (flushed_map (now := now) (f := fun b => { b with predEnd := none })
      (fun p b => by cases p <;> rfl) l p)
    simpa using maps
  rw [same]
  clear same
  induction l with
  | nil => rfl
  | cons b l ih =>
    have one := Batch.stays_length (b := b) (now := now)
    rw [List.flatMap_cons, List.length_append, List.countP_cons, List.length_cons, ← ih]
    cases h : b.stays now with
    | nil => simp; omega
    | cons y rest => simp_all; omega

end Left

/-! ### What flushing a record keeps -/

/-- What flushing records of a channel keeps of the part. -/
structure FlushKeeps (c : ChannelNo) (s t : State) : Prop where
  time : t.time = s.time
  meas : t.meas = s.meas
  port : t.port = s.port
  free : t.free = s.free
  highway : t.highway = { s.highway with aborts := t.highway.aborts }
  own : ∃ x, t.channel c = { s.channel c with queue := (t.channel c).queue, context := x }
  others : ∀ d, d ≠ c → ∃ x, t.channel d = { s.channel d with context := x }

/-- What it keeps besides where no site of the records is RETIRING. -/
structure FlushQuiet (c : ChannelNo) (s t : State) : Prop where
  sites : t.sites = s.sites
  zones : t.zones = s.zones
  others : ∀ d, d ≠ c → t.channel d = s.channel d

section Step
variable {c : ChannelNo} {s t u : State}

theorem FlushKeeps.refl : FlushKeeps c s s :=
  ⟨rfl, rfl, rfl, rfl, rfl, ⟨_, rfl⟩, fun _ _ => ⟨_, rfl⟩⟩

theorem FlushKeeps.trans (h : FlushKeeps c s t) (h' : FlushKeeps c t u) : FlushKeeps c s u where
  time := h'.time.trans h.time
  meas := h'.meas.trans h.meas
  port := h'.port.trans h.port
  free := h'.free.trans h.free
  highway := by rw [h'.highway, h.highway]
  own := by
    obtain ⟨x, own⟩ := h.own
    obtain ⟨y, own'⟩ := h'.own
    exact ⟨y, by rw [own', own]⟩
  others d other := by
    obtain ⟨x, first⟩ := h.others d other
    obtain ⟨y, second⟩ := h'.others d other
    exact ⟨y, by rw [second, first]⟩

theorem FlushQuiet.refl : FlushQuiet c s s := ⟨rfl, rfl, fun _ _ => rfl⟩

theorem FlushQuiet.trans (h : FlushQuiet c s t) (h' : FlushQuiet c t u) : FlushQuiet c s u :=
  ⟨h'.sites.trans h.sites, h'.zones.trans h.zones, fun d other =>
    (h'.others d other).trans (h.others d other)⟩

theorem FlushKeeps.modifyChannel {f : Channel → Channel}
    (queue : ∀ ch, ∃ q, f ch = { ch with queue := q }) : FlushKeeps c s (s.modifyChannel c f) where
  time := rfl
  meas := rfl
  port := rfl
  free := rfl
  highway := rfl
  own := by
    obtain ⟨q, h⟩ := queue (s.channel c)
    exact ⟨(s.channel c).context, by rw [State.channel_modifyChannel_self, h]⟩
  others d other := ⟨(s.channel d).context, by rw [State.channel_modifyChannel, if_neg other]⟩

theorem FlushQuiet.modifyChannel {f : Channel → Channel} : FlushQuiet c s (s.modifyChannel c f) :=
  ⟨rfl, rfl, fun d other => by rw [State.channel_modifyChannel, if_neg other]⟩

variable {b : Batch} {front rest : List Batch}

theorem Channel.find_split {ch : Channel} (queue : ch.queue = front ++ b :: rest)
    (others : ∀ x ∈ front ++ rest, x.tag ≠ b.tag) : ch.find b.tag = some b := by
  have before : front.find? (fun x => x.tag == b.tag) = none := by
    rw [List.find?_eq_none]
    intro x among
    simpa using others x (List.mem_append_left rest among)
  rw [Channel.find, queue, List.find?_append, before]
  simp

/-- The channel of a record cancelled is as the cancel leaves it in its place (05, R101, R102). -/
theorem State.cancelPlanned_flushes (queue : (u.channel c).queue = front ++ b :: rest)
    (others : ∀ x ∈ front ++ rest, x.tag ≠ b.tag) : ∃ t k, u.cancelPlanned c b true = (t, k) ∧
      (k = .removed ↔ b.flushedTo u.now = []) ∧ FlushKeeps c u t ∧
      (t.channel c).queue = front ++ (b.flushedTo u.now ++ rest) ∧
      t.highway.aborts = u.highway.aborts ++ (b.stopped u.now).abortRefs c ∧
      ((∀ n ∈ b.includedSites, u.isRetiring n = false) → FlushQuiet c u t) := by
  have replaced (w : Batch) : ((u.modifyBatch c b.tag fun _ => w).channel c).queue = front ++ w :: rest := by
    rw [State.modifyBatch, State.channel_modifyChannel_self, Channel.modifyBatch, queue]
    exact map_replace_split rfl others fun _ => w
  have keeps (w : Batch) : FlushKeeps c u (u.modifyBatch c b.tag fun _ => w) :=
    FlushKeeps.modifyChannel fun ch => ⟨_, rfl⟩
  cases aborting : (b.stopped u.now).anyIn .aborting with
  | true =>
    have left : b.flushedTo u.now = [{ b.stopped u.now with state := .cancelling, flushed := true }] :=
      if_pos aborting
    refine ⟨_, _, State.cancelPlanned_aborting aborting, by simp [left], ?_, ?_, rfl, fun _ => ?_⟩
    · obtain ⟨time, meas, port, free, highway, own, elsewhere⟩ := keeps
        { b.stopped u.now with state := .cancelling, flushed := true }
      exact ⟨time, meas, port, free, rfl, own, elsewhere⟩
    · rw [left]
      exact replaced _
    · obtain ⟨sites, zones, elsewhere⟩ := FlushQuiet.modifyChannel (c := c) (s := u)
        (f := fun ch => ch.modifyBatch b.tag fun _ =>
          { b.stopped u.now with state := .cancelling, flushed := true })
      exact ⟨sites, zones, elsewhere⟩
  | false =>
    have noFrame : (b.stopped u.now).abortRefs c = [] := (Batch.abortRefs_eq_nil c).mpr aborting
    cases missed : (b.stopped u.now).anyIn .abortMissed with
    | true =>
      have left : b.flushedTo u.now = [{ b.stopped u.now with
          state := .cancelling, flushed := true, partialMark := true }] :=
        (if_neg (Bool.eq_false_iff.mp aborting)).trans (if_pos missed)
      refine ⟨_, _, State.cancelPlanned_missed aborting missed, by simp [left], keeps _, ?_, ?_,
        fun _ => FlushQuiet.modifyChannel⟩
      · rw [left]
        exact replaced _
      · rw [noFrame, List.append_nil]
        rfl
    | false =>
      have left : b.flushedTo u.now = [] :=
        (if_neg (Bool.eq_false_iff.mp aborting)).trans (if_neg (Bool.eq_false_iff.mp missed))
      let v := u.modifyChannel c fun ch => ch.removeBatch b.tag
      have removed : (v.channel c).queue = front ++ rest := by
        rw [State.channel_modifyChannel_self, Channel.removeBatch, queue]
        exact filter_tag_split rfl others
      have first : FlushKeeps c u v := FlushKeeps.modifyChannel fun ch => ⟨_, rfl⟩
      have second : FlushKeeps c v (v.checkVacateAll b.includedSites) := by
        refine ⟨by simp, by simp, by simp, by simp, by simp, ?_, fun d _ => v.channel_checkVacateAll _ d⟩
        obtain ⟨x, own⟩ := v.channel_checkVacateAll b.includedSites c
        exact ⟨x, by rw [own]⟩
      refine ⟨_, _, State.cancelPlanned_removed aborting missed, by simp [left], first.trans second, ?_, ?_,
        fun quiet => ?_⟩
      · obtain ⟨x, own⟩ := v.channel_checkVacateAll b.includedSites c
        rw [own, left]
        exact removed
      · rw [noFrame, List.append_nil, State.checkVacateAll_highway]
        rfl
      · rw [State.checkVacateAll_none _ _ (by exact quiet)]
        exact FlushQuiet.modifyChannel

/-- One record flushed: what it leaves in its place, its frames and its count (05, R103). -/
theorem State.flushBatch_step (queue : (u.channel c).queue = front ++ b :: rest)
    (others : ∀ x ∈ front ++ rest, x.tag ≠ b.tag) (removed left : Nat) :
    ∃ t, State.flushBatch c (u, removed, left) b.tag =
        (t, removed + (if (b.stays u.now).isEmpty then 1 else 0),
          left + if b.early && !(b.stays u.now).isEmpty then 1 else 0) ∧
      FlushKeeps c u t ∧
      (t.channel c).queue = front ++ (if b.state = .queued then passedTo b.predEnd rest
        else b.stays u.now ++ rest) ∧
      t.highway.aborts = u.highway.aborts ++ b.frames c u.now ∧
      ((∀ n ∈ b.includedSites, u.isRetiring n = false) → FlushQuiet c u t) := by
  have found := Channel.find_split queue others
  by_cases queued : b.state = .queued
  · have early : b.early = false := by simp [Batch.early, queued]
    refine ⟨u.modifyChannel c fun ch => ch.dropQueued b.tag, ?_, FlushKeeps.modifyChannel fun ch => ⟨_, rfl⟩,
      ?_, ?_, fun _ => FlushQuiet.modifyChannel⟩
    · simp [State.flushBatch, found, queued, Batch.stays_queued queued, early]
    · rw [State.channel_modifyChannel_self, Channel.dropQueued, queue, if_pos queued]
      exact removeQueued_split rfl fun x among => others x (List.mem_append_left rest among)
    · simp [Batch.frames, early]
  · cases early : b.early with
    | true =>
      obtain ⟨t, k, cancels, kept, keeps, own, aborts, quiet⟩ := State.cancelPlanned_flushes queue others
      have stays : b.stays u.now = b.flushedTo u.now := (if_neg queued).trans (if_pos early)
      have state : b.state = .planned ∨ b.state = .armed := by
        simpa [Batch.early] using early
      refine ⟨t, ?_, keeps, ?_, ?_, quiet⟩
      · rw [stays]
        rcases state with state | state
        all_goals
          simp only [State.flushBatch, found, state, cancels]
          cases k <;> simp_all
      · rw [own, if_neg queued, stays]
      · rw [aborts, Batch.frames, if_pos early]
    | false =>
      have stays : b.stays u.now = [b] :=
        (if_neg queued).trans (if_neg (Bool.eq_false_iff.mp early))
      have acts : State.flushBatch c (u, removed, left) b.tag = (u, removed, left) := by
        have notPlanned : b.state ≠ .planned ∧ b.state ≠ .armed := by simpa [Batch.early] using early
        simp only [State.flushBatch, found]
        split <;> simp_all
      refine ⟨u, ?_, .refl, ?_, ?_, fun _ => .refl⟩
      · simp [acts, stays]
      · rw [queue, if_neg queued, stays]
        rfl
      · simp [Batch.frames, early]

/-- The records of a channel flushed in their order (05, R103). -/
theorem State.flushBatch_foldl (l : List Batch) : ∀ (p : Option (Option HubTime)) (front : List Batch)
    (u : State) (removed left : Nat), (u.channel c).queue = front ++ carried p l →
    ((front ++ l).map Batch.tag).Nodup →
    ∃ t, (l.map Batch.tag).foldl (State.flushBatch c) (u, removed, left) =
        (t, removed + l.countP (fun b => (b.stays u.now).isEmpty),
          left + l.countP fun b => b.early && !(b.stays u.now).isEmpty) ∧
      FlushKeeps c u t ∧
      (t.channel c).queue = front ++ flushed u.now p l ∧
      t.highway.aborts = u.highway.aborts ++ l.flatMap (Batch.frames · c u.now) ∧
      ((∀ b ∈ l, ∀ n ∈ b.includedSites, u.isRetiring n = false) → FlushQuiet c u t) := by
  induction l with
  | nil =>
    intro p front u removed left queue tags
    exact ⟨u, rfl, .refl, queue, (List.append_nil _).symm, fun _ => .refl⟩
  | cons b l ih =>
    intro p front u removed left queue tags
    have apart : ∀ x ∈ front ++ l, x.tag ≠ b.tag := by
      have moved : ((b :: (front ++ l)).map Batch.tag).Nodup :=
        (List.perm_middle.map Batch.tag).nodup_iff.mp tags
      rw [List.map_cons, List.nodup_cons] at moved
      exact fun x among same => moved.1 (List.mem_map.mpr ⟨x, among, same⟩)
    obtain ⟨t, acts, keeps, own, aborts, quiet⟩ := State.flushBatch_step (b := b.carry p) queue
      (by simpa using apart) removed left
    have now : t.now = u.now := congrArg TimeScale.hub keeps.time
    have rest : ∃ p' front', (t.channel c).queue = front' ++ carried p' l ∧
        ((front' ++ l).map Batch.tag).Nodup ∧
        front' ++ flushed u.now p' l = front ++ flushed u.now p (b :: l) := by
      by_cases queued : b.state = .queued
      · refine ⟨some (b.carry p).predEnd, front, ?_, ?_, ?_⟩
        · rw [own, if_pos (by simpa using queued), carried_some]
        · exact tags.sublist (((List.sublist_cons_self b l).append_left front).map Batch.tag)
        · rw [flushed, if_pos queued]
      · refine ⟨none, front ++ (b.stays u.now).map (Batch.carry p), ?_, ?_, ?_⟩
        · rw [own, if_neg (by simpa using queued), carried_none, Batch.carry_stays, List.append_assoc]
        · have kept : (((b.stays u.now).map (Batch.carry p)).map Batch.tag).Sublist [b.tag] := by
            rw [List.map_map]
            simpa [Function.comp_def] using Batch.stays_tags (b := b) (now := u.now)
          have shrinks := ((kept.append_right (l.map Batch.tag)).append_left (front.map Batch.tag))
          refine tags.sublist ?_
          simpa using shrinks
        · rw [flushed, if_neg queued, List.append_assoc]
    obtain ⟨p', front', queue', tags', same⟩ := rest
    obtain ⟨v, folds, keeps', own', aborts', quiet'⟩ := ih p' front' t _ _ queue' tags'
    rw [now] at folds own' aborts'
    have empty : ((b.carry p).stays u.now).isEmpty = (b.stays u.now).isEmpty := by
      rw [Batch.carry_stays, List.isEmpty_map]
    have early : (b.carry p).early = b.early := by cases p <;> rfl
    refine ⟨v, ?_, keeps.trans keeps', own'.trans same, ?_, fun none => ?_⟩
    · rw [Batch.carry_tag, empty, early] at acts
      rw [List.map_cons, List.foldl_cons, acts, folds, List.countP_cons, List.countP_cons]
      simp only [Nat.add_assoc, Nat.add_comm]
    · rw [aborts', aborts, Batch.carry_frames, List.flatMap_cons, List.append_assoc]
    · rw [List.forall_mem_cons] at none
      have first := quiet (by rw [Batch.carry_includedSites]; exact none.1)
      refine first.trans (quiet' fun x among n hn => ?_)
      have site : t.site n = u.site n := congrArg (fun v : Vector SiteRecord 48 => v[n]) first.sites
      rw [State.isRetiring_congr site]
      exact none.2 x among n hn

end Step

/-! ### The counts -/

section Counts
variable {now : HubTime}

theorem frames_flatMap {c : ChannelNo} (l : List Batch) : l.flatMap (Batch.frames · c now) =
    (l.filter Batch.early).flatMap fun b => (b.stopped now).abortRefs c := by
  induction l with
  | nil => rfl
  | cons b l ih =>
    rw [List.flatMap_cons, ih, List.filter_cons, Batch.frames]
    split <;> rfl

/-- The records removed and those left CANCELLING are those that were not yet on air (05, R103). -/
theorem flushed_counts (l : List Batch) : l.countP (fun b => (b.stays now).isEmpty) +
    l.countP (fun b => b.early && !(b.stays now).isEmpty) =
      l.countP fun b => b.state == .queued || b.state == .planned || b.state == .armed := by
  induction l with
  | nil => rfl
  | cons b l ih =>
    rw [List.countP_cons, List.countP_cons, List.countP_cons, ← ih]
    have one : (if (b.stays now).isEmpty then 1 else 0) +
        (if b.early && !(b.stays now).isEmpty then 1 else 0) =
          if b.state == .queued || b.state == .planned || b.state == .armed then 1 else 0 := by
      rw [Bool.or_assoc]
      change _ = if b.state == .queued || b.early then 1 else 0
      by_cases queued : b.state = .queued
      · simp [Batch.stays_queued queued, queued]
      · cases early : b.early with
        | true => cases (b.stays now).isEmpty <;> simp
        | false => simp [Batch.stays, queued, early]
    omega

end Counts

/-! ### The command -/

section Command
variable {s : State} {c : ChannelNo}

/-- FLUSH CHANNEL with the line BUSY: its records one by one, then what goes with the channel (05, R103). -/
theorem State.flush_eq (busy : s.lineBusy) (tags : ((s.channel c).queue.map Batch.tag).Nodup) :
    let queue := (s.channel c).queue
    ∃ t removed left, s.flush c = (t, removed, left) ∧
      removed = queue.countP (fun b => (b.stays s.now).isEmpty) ∧
      left = queue.countP (fun b => b.early && !(b.stays s.now).isEmpty) ∧
      t.channel c = { s.channel c with
        queue := flushed s.now none queue, timer := none, context := none, pinned := false } ∧
      t.highway = { s.highway with
        aborts := s.highway.aborts ++ queue.flatMap (Batch.frames · c s.now) } ∧
      t.time = s.time ∧ t.meas = s.meas ∧ t.port = s.port ∧ t.free = s.free ∧
      (∀ d, d ≠ c → ∃ x, t.channel d = { s.channel d with context := x }) ∧
      ((∀ b ∈ queue, ∀ n ∈ b.includedSites, s.isRetiring n = false) → FlushQuiet c s t) := by
  intro queue
  obtain ⟨u, folds, keeps, own, aborts, quiet⟩ := State.flushBatch_foldl (c := c) (s.channel c).queue
    none [] s 0 0
    (by rw [carried_none]; rfl) tags
  let t := u.modifyChannel c fun ch => { ch with timer := none, context := none, pinned := false }
  have line : t.arbitrate = t := State.arbitrate_busy (by
    rw [State.modifyChannel_highway, keeps.highway]
    exact busy)
  obtain ⟨x, channel⟩ := keeps.own
  refine ⟨t, _, _, ?_, rfl, rfl, ?_, ?_, keeps.time, keeps.meas, keeps.port, keeps.free,
    fun d other => ?_, fun none => (quiet none).trans .modifyChannel⟩
  · rw [State.flush, folds, Nat.zero_add, Nat.zero_add]
    exact congrArg (fun v => (v, _, _)) line
  · rw [State.channel_modifyChannel_self, channel, own]
    rfl
  · rw [State.modifyChannel_highway, keeps.highway, aborts]
  · obtain ⟨y, elsewhere⟩ := keeps.others d other
    exact ⟨y, by rw [State.channel_modifyChannel, if_neg other, elsewhere]⟩

end Command

/-- Settles O38: the record of each, then the queue they leave and the counts. -/
theorem flushChannelCancelsAndCounts : Obligations.FlushChannelCancelsAndCounts := by
  intro s label taken
  refine ⟨fun c large => ?_, fun c lawful busy => ?_⟩
  · refine takeCommand_of_answer taken (t := s) ?_ 14 label
    rw [answerFlush, channelOf_eq_none.mpr large]
    rfl
  intro entry plan frames missed planned cancelled stays queue same
  have tags : ((s.channel c).queue.map Batch.tag).Nodup := lawful.nodup c
  obtain ⟨t, removed, left, flushes, hremoved, hleft, own, highway, time, meas, port, free, others, quiet⟩ :=
    State.flush_eq (s := s.endTransaction) (c := c) busy tags
  have stopped (b : Batch) : b.stopped s.now = { b with plan := plan b } := by
    rw [Batch.stopped, Included.cancel_eq]
    rfl
  have framed (b : Batch) : (b.stopped s.now).abortRefs c = frames b := by
    rw [Batch.abortRefs_eq, stopped]
    rfl
  have misses (b : Batch) : (b.stopped s.now).anyIn .abortMissed = missed b := by
    rw [stopped, Batch.anyIn, Batch.included, List.any_filterMap]
    refine congrArg (fun f => (plan b).any f) (funext fun p => ?_)
    obtain ⟨site, disp⟩ := p
    cases disp <;> rfl
  have aborts (b : Batch) : (b.stopped s.now).anyIn .aborting = true ↔ frames b ≠ [] := by
    rw [← framed, Ne, Batch.abortRefs_eq_nil, Bool.not_eq_false]
  have stay (b : Batch) : b.stays s.now = stays b := by
    refine if_congr Iff.rfl rfl (if_congr Iff.rfl (if_congr (aborts b) ?_ (if_congr ?_ ?_ rfl)) rfl)
    · rw [stopped]
    · exact Iff.of_eq (congrArg (· = true) (misses b))
    · rw [stopped]
  have stays_eq : (fun b : Batch => b.stays s.now) = stays := funext stay
  have leaves : (t.channel c).queue = flushed s.now none queue := by rw [own]; rfl
  have counted (q : Batch → Bool) : queue.countP q = (queue.filter q).length := List.countP_eq_length_filter
  have answer : answerFlush c.val s.endTransaction = ⟨if left = 0 then .done else .pending,
      .flush removed left ((s.channel c).queue.filter fun b => b.state == .onAir).length, t⟩ := by
    simp only [answerFlush, channelOf_val, flushes]
    rfl
  have blind (p : Option (Option HubTime)) (b : Batch) : same (b.carry p) = same b := by cases p <;> rfl
  refine ⟨_, removed, left, takeCommand_of_port taken answer port 14 label, ?_, fun last => ?_, ?_, ?_, ?_,
    fun none => ?_, ?_, ?_, ?_, ?_, ?_, ?_, ?_, ?_, fun b among => ?_, fun d other => ?_, time, meas⟩
  · exact (congrArg (List.map same) leaves).trans
      ((flushed_map blind queue none).trans (by rw [stays_eq]))
  · exact leaves.trans ((flushed_exact last).trans (by rw [stays_eq]))
  · refine highway.trans ?_
    rw [frames_flatMap]
    refine congrArg (fun a => { s.highway with aborts := s.highway.aborts ++ a }) ?_
    exact congrArg (fun f => (queue.filter planned).flatMap f) (funext framed)
  · rw [hremoved, ← counted, ← stays_eq]
    rfl
  · rw [hleft, ← counted, ← stays_eq]
    rfl
  · obtain ⟨sites, zones, elsewhere⟩ := quiet none
    exact ⟨sites, zones, elsewhere⟩
  · change some (Forming.mk _ 0 t.free) = _
    rw [free]
    rfl
  · rw [hremoved, hleft]
    exact (flushed_counts queue).trans (counted _)
  · rw [hremoved]
    exact (congrArg (·.length + _) leaves).trans (flushed_length queue none)
  · exact (congrArg Channel.timer own).trans rfl
  · exact (congrArg Channel.context own).trans rfl
  · exact (congrArg Channel.pinned own).trans rfl
  · exact (congrArg Channel.settings own).trans rfl
  · exact (congrArg Channel.summary own).trans rfl
  · have left : b ∈ flushed s.now none queue := leaves ▸ among
    obtain ⟨x, old, q, z, stayed, rfl⟩ := mem_flushed left
    obtain ⟨tag, queued, fate⟩ := Batch.mem_stays stayed
    have early : x.early = true ↔ x.state = .planned ∨ x.state = .armed := by simp [Batch.early]
    rw [Batch.carry_state, Batch.carry_tag]
    rcases fate with ⟨was, cancelling, flush⟩ | ⟨was, rfl⟩
    · have flush : (z.carry q).flushed = true := by cases q <;> exact flush
      rw [cancelling]
      refine ⟨by simp, by simp, by simp, x, old, tag.symm, fun _ => ⟨rfl, flush⟩, fun no no' => ?_⟩
      exact absurd (early.mp was) (not_or.mpr ⟨no, no'⟩)
    · have not : ¬ (z.state = .planned ∨ z.state = .armed) := by rw [← early, was]; simp
      obtain ⟨no, no'⟩ := not_or.mp not
      exact ⟨queued, no, no', z, old, rfl, fun h => absurd h not, fun _ _ => z.carry_eq q⟩
  · obtain ⟨x, h⟩ := others d other
    have stands {α : Type} (f : Channel → α) := congrArg f h
    exact ⟨stands Channel.queue, stands Channel.timer, stands Channel.pinned, stands Channel.summary,
      stands Channel.settings⟩

end Sys2Proof.Machine
end

