-- ==== Sys2Proof/Proofs/Restarting.lean ====
section
/-! PROOFS. RESTART as one event: the work cleared, the RETIRING sites made VACANT, and the probes that the
sites left ask for (08, R158). -/

namespace Sys2Proof.Machine

/-! ### The RETIRING sites become VACANT (R158, step 5) -/

section Vacating
variable {s : State}

theorem State.zone_vacate (s : State) (n : SiteNo) (z : ZoneNo) :
    (s.vacate n).zone z = (s.zone z).filter fun r => !r.names n := by
  simp [State.zone, State.vacate]

/-- The part but for its sites and zones. -/
structure SameWork (s t : State) : Prop where
  time : t.time = s.time
  meas : t.meas = s.meas
  highway : t.highway = s.highway
  channels : t.channels = s.channels
  port : t.port = s.port
  submits : t.submits = s.submits
  free : t.free = s.free
  pending : t.pending = s.pending

/-- Sites vacated in turn where no channel has a context (02, R41, R42). -/
theorem State.vacate_foldl (ns : List SiteNo) : ∀ s : State, (∀ c, (s.channel c).context = none) →
    SameWork s (ns.foldl State.vacate s) ∧
    (∀ k ∉ ns, (ns.foldl State.vacate s).site k = s.site k) ∧
    (∀ k ∈ ns, ((ns.foldl State.vacate s).site k).change = true ∧
      (ns.foldl State.vacate s).enrolled k = none) ∧
    ∀ z, (ns.foldl State.vacate s).zone z = (s.zone z).filter fun r => ns.all fun n => !r.names n := by
  induction ns with
  | nil =>
    intro s _
    exact ⟨⟨rfl, rfl, rfl, rfl, rfl, rfl, rfl, rfl⟩, fun _ _ => rfl, fun _ h => absurd h List.not_mem_nil,
      fun z => by cases h : s.zone z <;> simp [h, Option.filter]⟩
  | cons n ns ih =>
    intro s contexts
    have channels : (s.vacate n).channels = s.channels := by
      refine Vector.ext fun i hi => ?_
      have none : s.channels[i].context = none := contexts ⟨i, hi⟩
      simp [State.vacate, none]
      rw [← none]
    obtain ⟨⟨time, meas, highway, channels', port, submits, free, pending⟩, others, among, zones⟩ :=
      ih (s.vacate n) fun c => by
        rw [State.channel, channels]
        exact contexts c
    refine ⟨⟨time, meas, highway, channels'.trans channels, port, submits, free, pending⟩, fun k hk => ?_,
      fun k hk => ?_, fun z => ?_⟩
    · rw [List.mem_cons, not_or] at hk
      rw [List.foldl_cons, others k hk.2, State.site_vacate, if_neg hk.1]
    · rw [List.foldl_cons]
      by_cases later : k ∈ ns
      · exact among k later
      · have here : k = n := (List.mem_cons.mp hk).resolve_right later
        rw [State.enrolled, others k later, State.site_vacate, if_pos here]
        exact ⟨rfl, rfl⟩
    · rw [List.foldl_cons, zones, State.zone_vacate, Option.filter_filter]
      refine congrArg (fun f => (s.zone z).filter f) (funext fun r => ?_)
      simp

theorem countP_filterSome {α : Type} (p : α → Bool) (l : List (Option α)) :
    l.countP Option.isSome = (l.map (Option.filter p)).countP Option.isSome +
      l.countP fun o => o.any fun x => !p x := by
  induction l with
  | nil => rfl
  | cons o l ih =>
    rw [List.map_cons, List.countP_cons, List.countP_cons, List.countP_cons, ih]
    cases o with
    | none => simp
    | some x => cases kept : p x <;> simp [kept] <;> omega

/-- The zone records that go are those that the filter does not keep (08, R158). -/
theorem State.zoneCount_filter {s t : State} {p : Zone → Bool}
    (zones : ∀ z, t.zone z = (s.zone z).filter p) :
    s.zoneCount - t.zoneCount = (s.zones.toList.filter fun o => o.any fun r => !p r).length := by
  have same : t.zones.toList = s.zones.toList.map (Option.filter p) := by
    have maps : t.zones = s.zones.map (Option.filter p) :=
      Vector.ext fun i hi => by
        rw [Vector.getElem_map]
        exact zones ⟨i, hi⟩
    rw [maps, Vector.toList_map]
  rw [State.zoneCount, State.zoneCount, same, ← List.countP_eq_length_filter, ← List.countP_eq_length_filter,
    ← List.countP_eq_length_filter, countP_filterSome p, Nat.add_sub_cancel_left]

end Vacating

/-! ### The sites left ask for a probe each (R158, step 6; 03, R44) -/

section Probing
variable {s : State}

/-- The enrolled sites of a list. -/
def State.enrolledOf (s : State) (ns : List SiteNo) : List SiteNo :=
  ns.filter fun n => (s.enrolled n).isSome

/-- The record of a site whose cadence timer has just been loaded (03, R43). -/
def SiteRecord.reloaded (r : SiteRecord) (now : HubTime) : SiteRecord :=
  { r with body := r.body.map fun e => { e with cadence := some (now + e.interval) } }

/-- The part whose sites `ns` have asked for a probe, in that order, with none asked for before. -/
structure Asked (s t : State) (ns : List SiteNo) : Prop where
  time : t.time = s.time
  highway : t.highway = s.highway
  channels : t.channels = s.channels
  zones : t.zones = s.zones
  port : t.port = s.port
  submits : t.submits = s.submits
  free : t.free = s.free
  pending : t.pending = s.pending
  settings : (t.meas.settleCount, t.meas.staleLimit, t.meas.stepConfirm, t.meas.quietGap) =
    (s.meas.settleCount, s.meas.staleLimit, s.meas.stepConfirm, s.meas.quietGap)
  site : ∀ n, t.site n = if n ∈ ns then (s.site n).reloaded s.now else s.site n
  slot : ∀ i : SlotNo, t.slot i = ((s.enrolledOf ns)[i.val]?).map fun n => ⟨n, s.now, false, 0, none⟩
  wait : t.meas.wait = ((s.enrolledOf ns).drop 8).map fun n => ⟨n, 0, false⟩

theorem Asked.enrolled {t : State} {ns : List SiteNo} (h : Asked s t ns) {n : SiteNo} (new : n ∉ ns) :
    t.enrolled n = s.enrolled n := by
  rw [State.enrolled, h.site, if_neg new]
  rfl

/-- A site that has not asked holds no probe. -/
theorem Asked.holdsProbe {t : State} {ns : List SiteNo} (h : Asked s t ns) {n : SiteNo} (new : n ∉ ns) :
    t.holdsProbe n = false := by
  rw [State.holdsProbe_eq_false]
  have outside {k : SiteNo} (among : k ∈ s.enrolledOf ns) : k ≠ n := by
    rintro rfl
    exact new (List.mem_filter.mp among).1
  constructor
  · rw [State.slotOf, List.find?_eq_none]
    intro i _
    rw [h.slot]
    cases at_i : (s.enrolledOf ns)[i.val]? with
    | none => simp
    | some k => simpa using outside (List.mem_of_getElem? at_i)
  · rw [h.wait]
    intro w among
    obtain ⟨k, old, rfl⟩ := List.mem_map.mp among
    exact outside (List.mem_of_mem_drop old)

/-- One more site asks (03, R45). -/
theorem Asked.next {t : State} {ns : List SiteNo} (h : Asked s t ns) {n : SiteNo} (new : n ∉ ns) {e : Enrolled}
    (enrolled : s.enrolled n = some e) : Asked s (t.takeCadence n e t.now) (ns ++ [n]) := by
  have now : t.now = s.now := congrArg TimeScale.hub h.time
  have site : t.site n = s.site n := (h.site n).trans (if_neg new)
  have body : (t.site n).body = some e := by rw [site]; exact enrolled
  let u := t.setSite n ((s.site n).reloaded s.now)
  have written : t.setSite n ((t.site n).put { e with cadence := some (t.now + e.interval) }) = u := by
    rw [SiteRecord.put_same body (by rfl), now, site]
    refine congrArg (t.setSite n) ?_
    have own : (s.site n).body = some e := enrolled
    rw [SiteRecord.reloaded, own]
    rfl
  have takes : t.takeCadence n e t.now = u.requestProbe ⟨n, 0, false⟩ := by
    rw [State.takeCadence, written]
    exact if_neg (by rw [show u.holdsProbe n = t.holdsProbe n from rfl, h.holdsProbe new]; simp)
  have all : s.enrolledOf (ns ++ [n]) = s.enrolledOf ns ++ [n] := by
    simp [State.enrolledOf, enrolled]
  have sites (k : SiteNo) : u.site k = if k ∈ ns ++ [n] then (s.site k).reloaded s.now else s.site k := by
    by_cases same : k = n
    · rw [same, State.site_setSite_self, if_pos (by simp)]
    · rw [State.site_setSite_of_ne _ _ same, h.site]
      simp [same]
  have now' : u.now = s.now := now
  rw [takes]
  by_cases room : (s.enrolledOf ns).length < 8
  · let i : SlotNo := ⟨(s.enrolledOf ns).length, room⟩
    have free : u.slot i = none := by
      refine (h.slot i).trans ?_
      rw [List.getElem?_eq_none (le_refl _)]
      rfl
    have held : ∀ j < i, u.slot j ≠ none := by
      intro j before
      have slot : u.slot j = _ := h.slot j
      rw [slot, List.getElem?_eq_getElem (by exact before)]
      simp
    rw [State.requestProbe_slot free held]
    refine ⟨h.time, h.highway, h.channels, h.zones, h.port, h.submits, h.free, h.pending, h.settings, sites,
      fun j => ?_, ?_⟩
    · rw [all]
      by_cases same : j = i
      · subst same
        refine (State.slot_setSlot_self u i _).trans ?_
        rw [List.getElem?_concat_length, now']
        rfl
      · refine (State.slot_setSlot_of_ne u _ same).trans ((h.slot j).trans ?_)
        have apart : j.val ≠ (s.enrolledOf ns).length := fun h => same (Fin.ext h)
        rcases Nat.lt_or_gt_of_ne apart with lt | gt
        · rw [List.getElem?_append_left lt]
        · rw [List.getElem?_eq_none (by omega), List.getElem?_eq_none (by simp; omega)]
    · refine h.wait.trans ?_
      rw [all, List.drop_eq_nil_of_le (by omega), List.drop_eq_nil_of_le (by simp; omega)]
  · have full : ∀ j, u.slot j ≠ none := by
      intro j
      have slot : u.slot j = _ := h.slot j
      rw [slot, List.getElem?_eq_getElem (by omega)]
      simp
    rw [State.requestProbe_wait full]
    refine ⟨h.time, h.highway, h.channels, h.zones, h.port, h.submits, h.free, h.pending, h.settings, sites,
      fun j => ?_, ?_⟩
    · refine (h.slot j).trans ?_
      rw [all, List.getElem?_append_left (by omega)]
    · change t.meas.wait ++ _ = _
      rw [h.wait, all, List.drop_append_of_le_length (by omega)]
      simp

/-- A VACANT site asks for nothing. -/
theorem Asked.skip {t : State} {ns : List SiteNo} (h : Asked s t ns) {n : SiteNo}
    (vacant : s.enrolled n = none) : Asked s t (ns ++ [n]) := by
  have all : s.enrolledOf (ns ++ [n]) = s.enrolledOf ns := by simp [State.enrolledOf, vacant]
  have stands : (s.site n).reloaded s.now = s.site n := by
    have body : (s.site n).body = none := vacant
    rw [SiteRecord.reloaded, body, Option.map_none, ← body]
  refine ⟨h.time, h.highway, h.channels, h.zones, h.port, h.submits, h.free, h.pending, h.settings, fun k => ?_,
    fun i => by rw [h.slot, all], by rw [h.wait, all]⟩
  rw [h.site]
  by_cases same : k = n
  · rw [same, stands, ite_self, ite_self]
  · simp [same]

theorem Asked.foldl (l : List SiteNo) : ∀ {t : State} {ns : List SiteNo}, Asked s t ns → (ns ++ l).Nodup →
    Asked s (l.foldl (fun s n => match s.enrolled n with
      | some e => s.takeCadence n e s.now
      | none => s) t) (ns ++ l) := by
  induction l with
  | nil =>
    intro t ns h _
    rwa [List.append_nil]
  | cons n l ih =>
    intro t ns h once
    have new : n ∉ ns := fun old => (List.nodup_append.mp once).2.2 n old n List.mem_cons_self rfl
    have first : Asked s (match t.enrolled n with
        | some e => t.takeCadence n e t.now
        | none => t) (ns ++ [n]) := by
      rw [h.enrolled new]
      cases enrolled : s.enrolled n with
      | none => exact h.skip enrolled
      | some e => exact h.next new enrolled
    rw [List.append_cons] at once ⊢
    exact ih first once

/-- Every enrolled site asks for a probe where none is held (03, R44). -/
theorem State.asked_restartCadences (slots : ∀ i, s.slot i = none) (wait : s.meas.wait = []) :
    Asked s s.restartCadences (List.finRange 48) := by
  have start : Asked s s [] := ⟨rfl, rfl, rfl, rfl, rfl, rfl, rfl, rfl, rfl, fun _ => rfl, slots, wait⟩
  exact start.foldl (List.finRange 48) (List.nodup_finRange 48)

end Probing

/-! ### The probe of the lowest site departs (07, R131, R132) -/

section Departing
variable {s : State}

theorem State.choose_probes (aborts : s.highway.aborts = []) (queues : ∀ c, (s.channel c).queue = []) :
    s.choose = (firstBy (fun x y => earlier x.2 y.2) s.queuedSlots).map fun p => .probe p.1 := by
  have orders : s.orders = [] := by
    simp [State.orders, queues]
  simp only [State.choose, aborts, List.find?_nil, orders, firstBy]

theorem firstBy_head {α : Type} {before : α → α → Bool} {x : α} {l : List α}
    (least : ∀ y ∈ l, before y x = false) : firstBy before (x :: l) = some x := by
  rw [firstBy]
  induction l with
  | nil => rfl
  | cons y l ih =>
    rw [List.forall_mem_cons] at least
    rw [List.foldl_cons, if_neg (by simp [least.1])]
    exact ih least.2

/-- Of QUEUED probes requested in one period the lower slot departs first (07, R131). -/
theorem State.choose_lowest {now : HubTime} {p : Slot} (aborts : s.highway.aborts = [])
    (queues : ∀ c, (s.channel c).queue = []) (first : s.slot 0 = some p) (queued : p.flight = none)
    (orders : ∀ i q, s.slot i = some q → q.queueOrder = now) : s.choose = some (.probe 0) := by
  have list : s.queuedSlots = (0, p.queueOrder) :: ((List.finRange 7).map Fin.succ).filterMap fun i =>
      (s.slot i).bind fun p => if p.flight.isNone then some (i, p.queueOrder) else none := by
    rw [State.queuedSlots, List.finRange_succ, List.filterMap_cons, first]
    simp [queued]
  rw [State.choose_probes aborts queues, list, firstBy_head]
  · rfl
  · intro y among
    obtain ⟨i, -, some⟩ := List.mem_filterMap.mp among
    obtain ⟨q, slot, some⟩ := Option.bind_eq_some_iff.mp some
    have value : y.2 = now := by
      split at some
      · rw [← Option.some.inj some]
        exact orders i q slot
      · simp at some
    rw [value, orders 0 p first]
    exact later_self now

theorem State.choose_nothing (aborts : s.highway.aborts = []) (queues : ∀ c, (s.channel c).queue = [])
    (slots : ∀ i, s.slot i = none) : s.choose = none := by
  have list : s.queuedSlots = [] := by simp [State.queuedSlots, slots]
  rw [State.choose_probes aborts queues, list]
  rfl

theorem State.idleLine_self (idle : s.highway.line = .idle) : s.idleLine = s := by
  obtain ⟨time, sites, meas, zones, channels, ⟨rate, line, aborts, assembler, errors⟩, port⟩ := s
  cases idle
  rfl

end Departing

/-! ### The work cleared (R158, steps 1 to 5) -/

section Clearing
variable {s : State}

theorem State.site_clearWork (n : SiteNo) : s.clearWork.site n =
    { s.site n with body := (s.site n).body.map Enrolled.restart } := by
  simp [State.site, State.clearWork]

theorem State.enrolled_clearWork (n : SiteNo) :
    s.clearWork.enrolled n = (s.enrolled n).map Enrolled.restart := by
  rw [State.enrolled, State.site_clearWork]
  rfl

theorem State.channel_clearWork (c : ChannelNo) : s.clearWork.channel c = (s.channel c).restart := by
  simp [State.channel, State.clearWork]

theorem State.isRetiring_clearWork (n : SiteNo) : s.clearWork.isRetiring n = s.isRetiring n := by
  unfold State.isRetiring
  rw [State.enrolled_clearWork]
  cases s.enrolled n <;> rfl

theorem State.mem_retiringSites {n : SiteNo} : n ∈ s.clearWork.retiringSites ↔ s.isRetiring n = true := by
  simp [State.retiringSites, State.isRetiring_clearWork]

theorem State.all_retiring (r : Zone) : (s.clearWork.retiringSites.all fun n => !r.names n) =
    !(s.isRetiring r.siteA || s.isRetiring r.siteB) := by
  rw [Bool.eq_iff_iff]
  simp only [List.all_eq_true, State.mem_retiringSites, Bool.not_eq_true', Zone.names, Bool.or_eq_false_iff,
    beq_eq_false_iff_ne]
  constructor
  · intro h
    exact ⟨Bool.eq_false_iff.mpr fun a => (h _ a).1 rfl, Bool.eq_false_iff.mpr fun b => (h _ b).2 rfl⟩
  · rintro ⟨a, b⟩ n retiring
    exact ⟨fun same => by simp [same, retiring] at a, fun same => by simp [same, retiring] at b⟩

/-- The part with its work cleared and its RETIRING sites VACANT. -/
def State.cleared (s : State) : State := s.clearWork.vacateRetiring

theorem State.cleared_spec : SameWork s.clearWork s.cleared ∧
    (∀ n, s.isRetiring n = false → s.cleared.site n =
      { s.site n with body := (s.site n).body.map Enrolled.restart }) ∧
    (∀ n, s.isRetiring n = true → (s.cleared.site n).change = true ∧ s.cleared.enrolled n = none) ∧
    ∀ z, s.cleared.zone z = (s.zone z).filter fun r => !(s.isRetiring r.siteA || s.isRetiring r.siteB) := by
  obtain ⟨same, others, among, zones⟩ := State.vacate_foldl s.clearWork.retiringSites s.clearWork fun c => by
    rw [State.channel_clearWork]
    rfl
  refine ⟨same, fun n stays => ?_, fun n retiring => among n (State.mem_retiringSites.mpr retiring),
    fun z => ?_⟩
  · rw [← State.site_clearWork]
    exact others n fun h => by simp [State.mem_retiringSites.mp h] at stays
  · refine (zones z).trans (congrArg (fun f => (s.zone z).filter f) (funext fun r => ?_))
    exact State.all_retiring r

/-- The sites that RESTART leaves enrolled. -/
theorem State.enrolled_cleared (n : SiteNo) :
    (s.cleared.enrolled n).isSome = (s.enrolled n).any fun e => e.phase != .retiring := by
  obtain ⟨-, stays, vacated, -⟩ := State.cleared_spec (s := s)
  cases retiring : s.isRetiring n with
  | true =>
    rw [(vacated n retiring).2]
    unfold State.isRetiring at retiring
    cases enrolled : s.enrolled n <;> simp_all
  | false =>
    rw [State.enrolled, stays n retiring]
    unfold State.isRetiring at retiring
    cases enrolled : s.enrolled n with
    | none =>
      have body : (s.site n).body = none := enrolled
      simp [body]
    | some e =>
      have body : (s.site n).body = some e := enrolled
      simp_all

end Clearing

/-- With every enrolled site having asked, the probe of the lowest departs (08, R158; 07, R139). -/
theorem Asked.arbitrate {s t : State} (asked : Asked s t (List.finRange 48))
    (idle : s.highway.line = .idle) (aborts : s.highway.aborts = []) (queues : ∀ c, (s.channel c).queue = []) :
    (s.enrolledOf (List.finRange 48) = [] ∧ t.arbitrate = t) ∨
    ∃ n rest e, s.enrolledOf (List.finRange 48) = n :: rest ∧ s.enrolled n = some e ∧
      t.arbitrate = { t with
        highway := { t.highway with line := .busy (.probe n e.est.sequence) (s.now + BitVec.ofNat 40
          ((6 * 80000000 + (rateKbit s.highway.rate * 1000 - 1)) / (rateKbit s.highway.rate * 1000))) }
        meas := { t.meas with slots := t.meas.slots.set 0 (some ⟨n, s.now, false, 0,
          some ⟨e.est.sequence, s.now, s.now + BitVec.ofNat 40 (e.config.ceiling + 65536)⟩⟩) }
        sites := t.sites.set n { s.site n with
          body := some ({ e with cadence := some (s.now + e.interval) }.probeSent false) } } := by
  have idle' : t.highway.line = .idle := by rw [asked.highway, idle]
  have aborts' : t.highway.aborts = [] := by rw [asked.highway, aborts]
  have queues' (c : ChannelNo) : (t.channel c).queue = [] := by
    rw [State.channel, asked.channels]
    exact queues c
  have line := State.idleLine_self idle'
  cases all : s.enrolledOf (List.finRange 48) with
  | nil =>
    left
    have none := State.choose_nothing aborts' queues' fun i => by rw [asked.slot, all]; rfl
    have stays := State.arbitrate_nothing none
    rw [line] at stays
    exact ⟨rfl, stays⟩
  | cons n rest =>
    right
    have among : n ∈ s.enrolledOf (List.finRange 48) := all ▸ List.mem_cons_self
    obtain ⟨e, enrolled⟩ := Option.isSome_iff_exists.mp (List.mem_filter.mp among).2
    have first : t.slot 0 = some ⟨n, s.now, false, 0, none⟩ := by rw [asked.slot, all]; rfl
    have chosen := State.choose_lowest (now := s.now) aborts' queues' first rfl fun i q slot => by
      rw [asked.slot] at slot
      obtain ⟨k, -, rfl⟩ := Option.map_eq_some_iff.mp slot
      rfl
    have departs := State.arbitrate_chosen chosen
    rw [line] at departs
    have site : t.site n = (s.site n).reloaded s.now := (asked.site n).trans (if_pos (List.mem_finRange n))
    have own : (s.site n).body = some e := enrolled
    have enrolled' : t.enrolled n = some { e with cadence := some (s.now + e.interval) } := by
      rw [State.enrolled, site, SiteRecord.reloaded, own]
      rfl
    refine ⟨n, rest, e, rfl, enrolled, departs.trans ?_⟩
    have sends := State.transmit_idleLine (s := t) (.probe n e.est.sequence)
    rw [line] at sends
    have now : t.now = s.now := congrArg TimeScale.hub asked.time
    simp only [State.depart, State.departProbe, first, enrolled', Option.map_some, Option.getD_some, sends, now]
    rw [State.modifySite_same (e := { e with cadence := some (s.now + e.interval) }) (by exact enrolled')
      (f := fun x => x.probeSent false) rfl]
    have rate : t.highway.rate = s.highway.rate := by rw [asked.highway]
    have record : ({ t.site n with body := some ({ e with cadence := some (s.now + e.interval) }.probeSent
        false) } : SiteRecord) = { s.site n with
          body := some ({ e with cadence := some (s.now + e.interval) }.probeSent false) } := by
      rw [site]
      rfl
    rw [← record, ← rate, ← now]
    rfl

theorem State.isRetiring_eq_true {s : State} {n : SiteNo} {e : Enrolled} (enrolled : s.enrolled n = some e)
    (retiring : e.phase = .retiring) : s.isRetiring n = true := by
  simp [State.isRetiring, enrolled, retiring]

theorem State.isRetiring_vacant {s : State} {n : SiteNo} (vacant : s.enrolled n = none) :
    s.isRetiring n = false := by
  simp [State.isRetiring, vacant]

/-- Settles O9: the work cleared, the sites that stay having asked, and the first probe departed. -/
theorem restartClearsTheWorkAndKeepsTheRecords : Obligations.RestartClearsTheWorkAndKeepsTheRecords := by
  intro s label taken stays kbit
  let u := s.endTransaction
  let v := u.cleared
  obtain ⟨same, kept, vacated, zones⟩ := State.cleared_spec (s := u)
  have queues (c : ChannelNo) : v.channel c = (s.channel c).restart := by
    rw [State.channel, same.channels]
    exact State.channel_clearWork c
  have asked : Asked v v.restartCadences (List.finRange 48) := State.asked_restartCadences
    (fun i => by
      rw [State.slot, same.meas]
      simp [State.clearWork, Measurement.restart])
    (by rw [same.meas]; rfl)
  obtain ⟨w, hw⟩ : ∃ w, v.restartCadences = w := ⟨_, rfl⟩
  rw [hw] at asked
  have staying : v.enrolledOf (List.finRange 48) = stays :=
    List.filter_congr fun n _ => State.enrolled_cleared (s := u) n
  have now : v.now = s.now := congrArg TimeScale.hub same.time
  let t := w.arbitrate
  have answer : answerRestart u = ⟨.done,
      .restart (s.channels.toList.map fun c => c.queue.length).sum s.heldCount
        ((List.finRange 48).filter s.isRetiring).length
        (s.zones.toList.filter fun o =>
          o.any fun r => s.isRetiring r.siteA || s.isRetiring r.siteB).length, t⟩ := by
    have sites : u.clearWork.retiringSites = (List.finRange 48).filter s.isRetiring :=
      List.filter_congr fun n _ => State.isRetiring_clearWork n
    have count := State.zoneCount_filter (s := u.clearWork) zones
    simp only [Bool.not_not] at count
    rw [answerRestart]
    simp only [sites]
    rw [show t = v.restartCadences.arbitrate by rw [hw]]
    exact congrArg (fun k => Answer.mk .done (.restart _ _ _ k) v.restartCadences.arbitrate) count
  have port : t.port = u.port := by
    rw [State.arbitrate_port, asked.port, same.port]
    rfl
  have rate : v.highway.rate = s.highway.rate := by rw [same.highway]; rfl
  have bits : rateKbit v.highway.rate = kbit := by
    rw [rate]
    simp only [kbit]
    cases s.highway.rate <;> rfl
  have departure := asked.arbitrate (by rw [same.highway]; rfl) (by rw [same.highway]; rfl) fun c => by
    rw [queues]; rfl
  rw [staying, bits, now] at departure
  have live {n : SiteNo} {e : Enrolled} (enrolled : s.enrolled n = some e) (h : e.phase ≠ .retiring) :
      v.site n = { s.site n with body := some e.restart } := by
    have retiring := State.isRetiring_eq_false (s := u) enrolled h
    have body : (s.site n).body = some e := enrolled
    rw [kept n retiring]
    change SiteRecord.mk _ _ ((s.site n).body.map _) = _
    rw [body]
    rfl
  have shape : ∃ line slots sites, t = { w with
      highway := { w.highway with line := line }
      meas := { w.meas with slots := slots }
      sites := sites } := by
    rcases departure with ⟨-, h⟩ | ⟨n, rest, e, -, -, h⟩
    · exact ⟨_, _, _, h⟩
    · exact ⟨_, _, _, h⟩
  have site (n : SiteNo) : t.site n = { v.site n with body := (v.site n).body.map fun e => { e with
      cadence := some (s.now + e.interval)
      est := { e.est with
        sequence := if stays.head? = some n then (e.est.sequence + 1) % 256 else e.est.sequence } } } := by
    have untouched (record : w.site n = (v.site n).reloaded v.now) (h : t = w) (none : stays = []) :
        t.site n = { v.site n with body := (v.site n).body.map fun e => { e with
          cadence := some (s.now + e.interval)
          est := { e.est with
            sequence := if stays.head? = some n then (e.est.sequence + 1) % 256 else e.est.sequence } } } := by
      rw [h, record, none, now]
      rfl
    have record : w.site n = (v.site n).reloaded v.now := (asked.site n).trans (if_pos (List.mem_finRange n))
    rcases departure with ⟨none, h⟩ | ⟨m, rest, e, all, enrolled, h⟩
    · exact untouched record h none
    · rw [all, List.head?_cons]
      have own : (v.site m).body = some e := enrolled
      have departs : t.site n = (w.setSite m { v.site m with
          body := some ({ e with cadence := some (s.now + e.interval) }.probeSent false) }).site n :=
        congrArg (fun x => x.site n) h
      by_cases here : n = m
      · rw [departs, here, State.site_setSite_self, own]
        simp only [Option.map_some, if_true]
        rfl
      · have not : ¬ some m = some n := fun h => here (Option.some.inj h).symm
        rw [departs, State.site_setSite_of_ne _ _ here, record, now]
        simp only [not, if_false]
        rfl
  have stay {n : SiteNo} (among : n ∈ stays) : ∃ e, s.enrolled n = some e ∧ e.phase ≠ .retiring := by
    have some := (List.mem_filter.mp among).2
    rw [Option.any_eq_true] at some
    obtain ⟨e, enrolled, h⟩ := some
    exact ⟨e, enrolled, bne_iff_ne.mp h⟩
  obtain ⟨line, slots, sites, ends⟩ := shape
  have left {n : SiteNo} {e : Enrolled} (among : n ∈ stays) (enrolled : s.enrolled n = some e) :
      v.enrolled n = some e.restart := by
    obtain ⟨x, enrolled', h⟩ := stay among
    obtain rfl := Option.some.inj (enrolled.symm.trans enrolled')
    exact congrArg SiteRecord.body (live enrolled h)
  have highway : t.highway = { s.highway.restart with line := line } := by
    rw [ends, asked.highway, same.highway]
    rfl
  have vacantIn {n : SiteNo} (vacant : v.enrolled n = none) : t.site n = v.site n := by
    have body : (v.site n).body = none := vacant
    rw [site, body, Option.map_none, ← body]
  have settings := asked.settings
  rw [same.meas] at settings
  have zone' (z : ZoneNo) : t.zone z = (s.zone z).filter fun r =>
      !(s.isRetiring r.siteA || s.isRetiring r.siteB) := by
    refine (congrArg (fun x => x.zone z) ends).trans (Eq.trans ?_ (zones z))
    exact congrArg (fun x : Vector (Option Zone) 192 => x[z]) asked.zones
  refine ⟨_, takeCommand_of_port taken answer port 24 label, ?_⟩
  refine ⟨?_, ?_, ?_, fun c => ?_, ?_, ?_, fun hunt => ?_, fun x k bytes collects => ?_, ?_, ?_,
    fun n vacant => ?_, fun n e enrolled retiring => ?_, fun n e enrolled h => ?_, fun none => ?_,
    fun n e head enrolled => ?_, fun i none => ?_, fun i n e at_i enrolled => ?_, ?_, fun z none => ?_,
    fun z r zone => ?_, ?_, ?_, ?_⟩
  · exact (congrArg State.time ends).trans (asked.time.trans same.time)
  · exact (congrArg State.submits ends).trans (asked.submits.trans same.submits)
  · exact (congrArg State.pending ends).trans (asked.pending.trans same.pending)
  · have channels : t.channel c = v.channel c := by
      rw [ends]
      exact congrArg (fun x : Vector Channel 4 => x[c]) asked.channels
    exact channels.trans (queues c)
  · exact congrArg Highway.aborts highway
  · exact (congrArg Highway.rate highway).trans rfl
  · refine (congrArg Highway.assembler highway).trans ?_
    change s.highway.assembler.restart = _
    rw [hunt]
    rfl
  · refine (congrArg Highway.assembler highway).trans ?_
    change s.highway.assembler.restart = _
    rw [collects]
    rfl
  · exact (congrArg Highway.errors highway).trans rfl
  · exact (congrArg (fun x => (x.meas.settleCount, x.meas.staleLimit, x.meas.stepConfirm,
      x.meas.quietGap)) ends).trans settings
  · have stands : u.isRetiring n = false := State.isRetiring_vacant (s := u) vacant
    have body : (s.site n).body = none := vacant
    have record : v.site n = s.site n := by
      have same : (s.site n).body.map Enrolled.restart = (s.site n).body := by simp [body]
      exact (kept n stands).trans
        (congrArg (SiteRecord.mk (s.site n).change (s.site n).zonesRemoved) same)
    have gone : v.enrolled n = none := (congrArg SiteRecord.body record).trans body
    exact (vacantIn gone).trans record
  · have gone := vacated n (State.isRetiring_eq_true (s := u) enrolled retiring)
    have record := vacantIn gone.2
    exact ⟨(congrArg SiteRecord.body record).trans gone.2, (congrArg SiteRecord.change record).trans gone.1⟩
  · have record := site n
    rw [live enrolled h] at record
    exact ⟨(congrArg SiteRecord.change record).trans rfl, (congrArg SiteRecord.zonesRemoved record).trans rfl,
      (congrArg SiteRecord.body record).trans rfl⟩
  · rcases departure with ⟨-, h⟩ | ⟨n, rest, e, all, -, -⟩
    · refine (congrArg (fun x => x.highway.line) h).trans ?_
      rw [asked.highway, same.highway]
      rfl
    · simp [none] at all
  · rcases departure with ⟨none, -⟩ | ⟨m, rest, x, all, enrolled', h⟩
    · simp [none] at head
    · rw [all, List.head?_cons] at head
      obtain rfl := Option.some.inj head
      have same := left (all ▸ List.mem_cons_self) enrolled
      obtain rfl := Option.some.inj (same.symm.trans enrolled')
      exact (congrArg (fun x => x.highway.line) h).trans rfl
  · have held := asked.slot i
    rw [staying, none, Option.map_none] at held
    rcases departure with ⟨-, h⟩ | ⟨m, rest, x, all, -, h⟩
    · exact (congrArg (fun x => x.slot i) h).trans held
    · have later : i ≠ 0 := fun first => by simp [first, all] at none
      exact (congrArg (fun x => x.slot i) h).trans ((State.slot_setSlot_of_ne w _ later).trans held)
  · have held := asked.slot i
    rw [staying, at_i, Option.map_some, now] at held
    rcases departure with ⟨none, -⟩ | ⟨m, rest, x, all, enrolled', h⟩
    · simp [none] at at_i
    · by_cases first : i = 0
      · have head : n = m := by simpa [first, all] using at_i.symm
        have same := left (all ▸ List.mem_cons_self) (head ▸ enrolled)
        obtain rfl := Option.some.inj (same.symm.trans enrolled')
        subst head first
        exact (congrArg (fun x => x.slot 0) h).trans (State.slot_setSlot_self w 0 _)
      · have later : i.val ≠ 0 := fun h => first (Fin.ext h)
        rw [if_neg later]
        exact (congrArg (fun x => x.slot i) h).trans ((State.slot_setSlot_of_ne w _ first).trans held)
  · refine (congrArg (fun x => x.meas.wait) ends).trans (asked.wait.trans ?_)
    rw [staying]
  · refine (zone' z).trans ?_
    rw [none]
    rfl
  · refine (zone' z).trans ?_
    rw [zone]
    cases gone : s.isRetiring r.siteA || s.isRetiring r.siteB <;> simp [Option.filter, gone]
  · change some (Forming.mk _ 0 t.free) = _
    rw [(congrArg State.free ends).trans (asked.free.trans same.free)]
    rfl
  · exact (congrArg Port.stored port).trans rfl
  · rfl

end Sys2Proof.Machine
end

