-- ==== Sys2Proof/Proofs/ZoneEvaluation.lean ====
section
/-! PROOFS. The evaluation pass over the zones: one visit by the outcome of its evaluation, and what the whole
pass leaves included (04, R75 to R82). -/

namespace Sys2Proof.Machine

/-! ### The figures of an evaluation (R76 to R78) -/

/-- The figures of a zone are far from the bounds of the arithmetic (04, R76). -/
theorem Zone.residualOf_eq {z : Zone} {a b : Figures} (ha : |a.o| ≤ 1048576) (hb : |b.o| ≤ 1048576)
    (hg : |z.g| ≤ 1048576) : z.residualOf a b = a.o - b.o - z.g := by
  rw [abs_le] at ha hb hg
  rw [Zone.residualOf, satSub, satSub, sat32_of_fits (x := a.o - b.o) (by omega) (by omega),
    sat32_of_fits (by omega) (by omega)]

theorem zoneBound_eq {r : Int} {a b : Figures} (hr : |r| ≤ 3145728) (ha : a.u < 16777216)
    (hb : b.u < 16777216) : zoneBound r a b = |r| + a.u + b.u + 2 := by
  have pos := abs_nonneg r
  rw [zoneBound, satAdd, satAdd, satAdd, sat32_of_fits (x := |r| + a.u) (by omega) (by omega),
    sat32_of_fits (x := |r| + a.u + b.u) (by omega) (by omega), sat32_of_fits (by omega) (by omega)]

theorem Zone.record_eq (z : Zone) (r : Int) (failed : Bool) : z.record r failed = { z with
    residual := some r
    lead := if r < 0 then some .aLeads else if 0 < r then some .bLeads else z.lead
    flips := if r < 0 ∧ z.lead = some .bLeads ∨ 0 < r ∧ z.lead = some .aLeads
      then min 255 (z.flips + 1) else z.flips
    fails := if failed then min 65535 (z.fails + 1) else z.fails
    failFlag := z.failFlag || failed } := by
  unfold Zone.record leadOf
  rcases lt_trichotomy r 0 with neg | zero | pos
  · have not : ¬ 0 < r := by omega
    rcases lead : z.lead with _ | _ | _ <;> simp [neg, not, satCount]
  · subst zero
    rcases lead : z.lead with _ | _ | _ <;> simp [satCount]
  · have not : ¬ r < 0 := by omega
    rcases lead : z.lead with _ | _ | _ <;> simp [pos, not, satCount]

/-! ### One visit (R75, R79 to R81) -/

section Visit
variable {s : State} {p : ZonePass} {n : ZoneNo} {z : Zone}

theorem ZonePass.visit_stopped (h : p.stopped = true) : p.visit s n = p := if_pos h

theorem ZonePass.visit_vacant (h : p.zones[n] = none) : p.visit s n = p := by
  unfold ZonePass.visit
  rw [h]
  exact ite_self p

theorem ZonePass.visit_apart (h : p.zones[n] = some z)
    (apart : p.included.find? (fun x => x.site == z.siteA) = none ∨
      p.included.find? (fun x => x.site == z.siteB) = none) : p.visit s n = p := by
  unfold ZonePass.visit
  rw [h]
  dsimp only
  split
  · rfl
  · split
    next a b ha hb => simp [ha, hb] at apart
    · rfl

/-- The pass with the record of a zone written (04, R77, R78). -/
def ZonePass.evaluate (p : ZonePass) (n : ZoneNo) (z : Zone) (a b : Candidate) : ZonePass :=
  { p with zones := p.zones.set n (some (z.record (z.residualOf a.figures b.figures)
    (decide ((z.budget : Int) < zoneBound (z.residualOf a.figures b.figures) a.figures b.figures)))) }

theorem ZonePass.visit_evaluated {a b : Candidate} (running : p.stopped = false) (h : p.zones[n] = some z)
    (ha : p.included.find? (fun x => x.site == z.siteA) = some a)
    (hb : p.included.find? (fun x => x.site == z.siteB) = some b) :
    p.visit s n = if (z.budget : Int) < zoneBound (z.residualOf a.figures b.figures) a.figures b.figures
      then (p.evaluate n z a b).fail s z.policy a b else p.evaluate n z a b := by
  unfold ZonePass.visit
  rw [if_neg (Bool.eq_false_iff.mp running), h]
  simp only [ha, hb, decide_eq_true_eq]
  rfl

/-- A visit leaves the included sites, or excludes one of the two sites of a failed zone (04, R80). -/
theorem ZonePass.visit_included (s : State) (p : ZonePass) (n : ZoneNo) :
    (p.visit s n).included = p.included ∧ (p.visit s n).removed = p.removed ∨
    ∃ z a b k, p.zones[n] = some z ∧ a ∈ p.included ∧ a.site = z.siteA ∧ b ∈ p.included ∧
      b.site = z.siteB ∧ (k = a.site ∨ k = b.site) ∧
      (p.visit s n).included = (p.included.filter fun x => x.site != k) ∧
      (p.visit s n).removed = p.removed ++ [k] := by
  cases stopped : p.stopped with
  | true => rw [ZonePass.visit_stopped stopped]; exact .inl ⟨rfl, rfl⟩
  | false =>
    cases zone : p.zones[n] with
    | none => rw [ZonePass.visit_vacant zone]; exact .inl ⟨rfl, rfl⟩
    | some z =>
      cases ha : p.included.find? fun x => x.site == z.siteA with
      | none => rw [ZonePass.visit_apart zone (.inl ha)]; exact .inl ⟨rfl, rfl⟩
      | some a =>
        cases hb : p.included.find? fun x => x.site == z.siteB with
        | none => rw [ZonePass.visit_apart zone (.inr hb)]; exact .inl ⟨rfl, rfl⟩
        | some b =>
          have inA := List.mem_of_find?_eq_some ha
          have inB := List.mem_of_find?_eq_some hb
          have atA : a.site = z.siteA := by simpa using List.find?_some ha
          have atB : b.site = z.siteB := by simpa using List.find?_some hb
          rw [ZonePass.visit_evaluated stopped zone ha hb]
          split
          · unfold ZonePass.fail
            split
            · exact .inl ⟨rfl, rfl⟩
            · exact .inl ⟨rfl, rfl⟩
            · split
              · exact .inl ⟨rfl, rfl⟩
              next k drops =>
                refine .inr ⟨z, a, b, k, rfl, inA, atA, inB, atB, ?_, rfl, rfl⟩
                unfold dropped at drops
                split at drops
                · rw [← Option.some.inj drops]
                  split
                  · exact .inl rfl
                  · exact .inr rfl
                · exact .inr (Option.some.inj drops).symm
                · exact .inl (Option.some.inj drops).symm
                · simp at drops
          · exact .inl ⟨rfl, rfl⟩

end Visit

/-! ### The whole pass (R75, R82) -/

section Pass
variable {s : State}

/-- What a pass keeps of the set it began with, where each zone names two sites. -/
structure ZonePass.Sound (included : List Candidate) (p : ZonePass) : Prop where
  apart : ∀ (z : ZoneNo) r, p.zones[z] = some r → r.siteA ≠ r.siteB
  left : included ≠ [] → p.included ≠ []
  mem : ∀ x, x ∈ p.included ↔ x ∈ included ∧ x.site ∉ p.removed

theorem ZonePass.Sound.visit {included : List Candidate} {p : ZonePass} (h : p.Sound included) (n : ZoneNo) :
    (p.visit s n).Sound included := by
  have apart : ∀ (z : ZoneNo) r, (p.visit s n).zones[z] = some r → r.siteA ≠ r.siteB := by
    intro z r hr
    obtain ⟨q, hq, sa, sb, -⟩ := ZonePass.visit_zones s p n z r hr
    rw [sa, sb]
    exact h.apart z q hq
  rcases p.visit_included s n with ⟨same, removed⟩ | ⟨z, a, b, k, zone, inA, atA, inB, atB, which, kept, removed⟩
  · exact ⟨apart, by rw [same]; exact h.left, by rw [same, removed]; exact h.mem⟩
  · have two : a.site ≠ b.site := by
      rw [atA, atB]
      exact h.apart n z zone
    refine ⟨apart, fun _ => ?_, fun x => ?_⟩
    · rw [kept]
      rcases which with rfl | rfl
      · exact List.ne_nil_of_mem (List.mem_filter.mpr ⟨inB, by simpa using two.symm⟩)
      · exact List.ne_nil_of_mem (List.mem_filter.mpr ⟨inA, by simpa using two⟩)
    · rw [kept, removed, List.mem_filter, h.mem, List.mem_append, List.mem_singleton, not_or, bne_iff_ne,
        and_assoc]

theorem ZonePass.Sound.foldl {included : List Candidate} (ns : List ZoneNo) :
    ∀ {p : ZonePass}, p.Sound included → (ns.foldl (ZonePass.visit s) p).Sound included := by
  induction ns with
  | nil => exact fun h => h
  | cons n ns ih => exact fun h => ih (h.visit n)

theorem State.zonePass_sound (apart : ∀ z r, s.zone z = some r → r.siteA ≠ r.siteB)
    (included : List Candidate) : (s.zonePass included).Sound included :=
  ZonePass.Sound.foldl _ ⟨apart, id, fun x => by simp⟩

/-- A pass with fewer than two sites evaluates no zone (04, R75). -/
theorem State.zonePass_few (apart : ∀ z r, s.zone z = some r → r.siteA ≠ r.siteB) {included : List Candidate}
    (few : included.length < 2) : s.zonePass included = ⟨included, [], 0, s.zones, false⟩ := by
  have skips (n : ZoneNo) : ZonePass.visit s ⟨included, [], 0, s.zones, false⟩ n =
      ⟨included, [], 0, s.zones, false⟩ := by
    cases zone : s.zones[n] with
    | none => exact ZonePass.visit_vacant zone
    | some z =>
      refine ZonePass.visit_apart zone ?_
      by_contra both
      rw [not_or, ← Ne, ← Ne, Option.ne_none_iff_exists', Option.ne_none_iff_exists'] at both
      obtain ⟨⟨a, ha⟩, b, hb⟩ := both
      have atA : a.site = z.siteA := by simpa using List.find?_some ha
      have atB : b.site = z.siteB := by simpa using List.find?_some hb
      have same : a = b := by
        have inA := List.mem_of_find?_eq_some ha
        have inB := List.mem_of_find?_eq_some hb
        match included, few with
        | [], _ => simp at inA
        | [x], _ => rw [List.mem_singleton.mp inA, List.mem_singleton.mp inB]
      exact apart n z zone (atA.symm.trans (same ▸ atB))
  unfold State.zonePass
  induction List.finRange 192 with
  | nil => rfl
  | cons n ns ih => rw [List.foldl_cons, skips, ih]

end Pass

/-- Settles O34: one visit by the outcome of its evaluation, then the pass. -/
theorem zonePassEvaluatesAndActs : Obligations.ZonePassEvaluatesAndActs := by
  refine ⟨fun s p n => ⟨ZonePass.visit_stopped, ZonePass.visit_vacant, fun z zone apart => ?_,
      fun z a b running zone ha hb oa ob g ua ub => ?_⟩, fun s included => rfl,
    fun s included apart => ⟨State.zonePass_few apart, fun some => .inr ?_, ?_⟩⟩
  · refine ZonePass.visit_apart zone (apart.imp ?_ ?_)
    all_goals
      intro none
      simpa using none
  · intro r failed z' q without
    have residual : z.residualOf a.figures b.figures = r := Zone.residualOf_eq oa ob g
    have bound : zoneBound r a.figures b.figures = |r| + a.figures.u + b.figures.u + 2 := by
      refine zoneBound_eq ?_ ua ub
      rw [abs_le] at oa ob g ⊢
      simp only [r]
      omega
    have written : p.evaluate n z a b = q := by
      have record : z.record r (decide failed) = z' := by
        rw [Zone.record_eq]
        simp only [decide_eq_true_eq]
        rfl
      rw [ZonePass.evaluate, residual, bound]
      exact congrArg (fun x => { p with zones := p.zones.set n (some x) }) record
    have visits := ZonePass.visit_evaluated (s := s) running zone ha hb
    rw [residual, bound, written] at visits
    refine ⟨fun fine => visits.trans (if_neg fine), fun fails warn => ?_, fun fails hold => ?_,
      fun fails drops => ?_⟩
    · rw [visits.trans (if_pos fails), warn]
      rfl
    · rw [visits.trans (if_pos fails), hold]
      rfl
    · have acts := visits.trans (if_pos fails)
      rw [drops] at acts
      refine ⟨fun fa fb => ?_, fun fa fb => ?_, fun fa fb => ?_, fun fa fb => ?_⟩
      all_goals
        rw [acts]
        simp only [ZonePass.fail, fa, fb, dropped]
        rfl
  · exact (State.zonePass_sound apart included).left some
  · exact (State.zonePass_sound apart included).mem

end Sys2Proof.Machine
end

