-- ==== Sys2Proof/Proofs/PlanningStages.lean ====
section
/-! PROOFS. The stages of a planning narrow the set of eligible sites: which candidates a plan includes, and
what each other one is excluded for (06, R113 to R118, R123 to R128). -/

namespace Sys2Proof.Machine

/-! ### Working values that a stage narrows -/

/-- A stage keeps sites up to their standby, and removes the others for one of some reasons. -/
structure Working.Narrowed (reason : ExclusionReason → Prop) (w w' : Working) : Prop where
  eligible : ∀ x ∈ w'.eligible, ∃ y ∈ w.eligible, ∃ k, x = { y with standby := k }
  removed : ∃ extra, w'.removed = w.removed ++ extra ∧ ∀ p ∈ extra, reason p.2
  complete : ∀ y ∈ w.eligible, (∃ x ∈ w'.eligible, x.site = y.site) ∨
    ∃ r, reason r ∧ (y.site, r) ∈ w'.removed

namespace Working.Narrowed

variable {reason reason' : ExclusionReason → Prop} {w w' w'' : Working}

theorem refl : Narrowed reason w w where
  eligible x hx := ⟨x, hx, x.standby, rfl⟩
  removed := ⟨[], (List.append_nil _).symm, by simp⟩
  complete y hy := .inl ⟨y, hy, rfl⟩

theorem mono (h : Narrowed reason w w') (le : ∀ r, reason r → reason' r) : Narrowed reason' w w' where
  eligible := h.eligible
  removed := by
    obtain ⟨extra, removed, reasons⟩ := h.removed
    exact ⟨extra, removed, fun p hp => le _ (reasons p hp)⟩
  complete y hy := (h.complete y hy).imp_right fun ⟨r, hr, among⟩ => ⟨r, le r hr, among⟩

theorem kept (h : Narrowed reason w w') {p : SiteNo × ExclusionReason} (among : p ∈ w.removed) :
    p ∈ w'.removed := by
  obtain ⟨extra, removed, -⟩ := h.removed
  rw [removed]
  exact List.mem_append_left _ among

theorem trans (h : Narrowed reason w w') (h' : Narrowed reason w' w'') : Narrowed reason w w'' where
  eligible x hx := by
    obtain ⟨y, hy, k, rfl⟩ := h'.eligible x hx
    obtain ⟨z, hz, l, rfl⟩ := h.eligible y hy
    exact ⟨z, hz, k, rfl⟩
  removed := by
    obtain ⟨extra, removed, reasons⟩ := h.removed
    obtain ⟨extra', removed', reasons'⟩ := h'.removed
    refine ⟨extra ++ extra', by rw [removed', removed, List.append_assoc], fun p hp => ?_⟩
    exact (List.mem_append.mp hp).elim (reasons p) (reasons' p)
  complete y hy := by
    rcases h.complete y hy with ⟨x, hx, site⟩ | ⟨r, hr, among⟩
    · rw [← site]
      exact h'.complete x hx
    · exact .inr ⟨r, hr, h'.kept among⟩

end Working.Narrowed

/-! ### Standby (R115, R116, R118) -/

section Settle
variable {s : State} {c : ChannelNo} {tag : Nat} {air : HubTime} {w : Working}

/-- A site with its standby evaluated at an air time as well (06, R118). -/
def Candidate.settledAt (x : Candidate) (s : State) (c : ChannelNo) (tag : Nat) (air : HubTime) : Candidate :=
  { x with standby := x.standby || s.inStandby c tag air x.site }

theorem State.mem_joined {n : SiteNo} : n ∈ (s.settle c tag air w).1 ↔
    ∃ x ∈ w.eligible, x.standby = false ∧ s.inStandby c tag air x.site = true ∧ x.site = n := by
  simp only [State.settle, List.mem_map, List.mem_filter, Bool.and_eq_true, Bool.not_eq_true']
  exact ⟨fun ⟨x, ⟨hx, no, yes⟩, site⟩ => ⟨x, hx, no, yes, site⟩,
    fun ⟨x, hx, no, yes, site⟩ => ⟨x, ⟨hx, no, yes⟩, site⟩⟩

theorem State.joined_eq_nil : (s.settle c tag air w).1 = [] ↔
    ∀ x ∈ w.eligible, s.inStandby c tag air x.site = true → x.standby = true := by
  rw [List.eq_nil_iff_forall_not_mem]
  constructor
  · intro h x hx yes
    by_contra no
    exact h x.site (State.mem_joined.mpr ⟨x, hx, Bool.eq_false_iff.mpr no, yes, rfl⟩)
  · intro h n joined
    obtain ⟨x, hx, no, yes, -⟩ := State.mem_joined.mp joined
    exact Bool.false_ne_true (no.symm.trans (h x hx yes))

theorem State.settle_eq : (s.settle c tag air w).2 =
    { eligible := (w.eligible.map (Candidate.settledAt · s c tag air)).filter fun x => !x.saturates
      removed := w.removed ++ ((w.eligible.map (Candidate.settledAt · s c tag air)).filter
        Candidate.saturates).map fun x => (x.site, .range) } := by
  have formed : (w.eligible.map fun x => { x with
      standby := x.standby || (s.settle c tag air w).1.contains x.site }) =
      w.eligible.map (Candidate.settledAt · s c tag air) := by
    refine List.map_congr_left fun x hx => ?_
    have same : (x.standby || (s.settle c tag air w).1.contains x.site) =
        (x.standby || s.inStandby c tag air x.site) := by
      cases standby : x.standby with
      | true => rfl
      | false =>
        rw [Bool.false_or, Bool.false_or, Bool.eq_iff_iff, List.contains_iff_mem, State.mem_joined]
        exact ⟨fun ⟨y, _, _, yes, site⟩ => site ▸ yes, fun yes => ⟨x, hx, standby, yes, rfl⟩⟩
    exact congrArg (fun k => { x with standby := k }) same
  rw [← formed]
  rfl

theorem State.mem_settle {y : Candidate} : y ∈ (s.settle c tag air w).2.eligible ↔
    (∃ x ∈ w.eligible, y = x.settledAt s c tag air) ∧ y.saturates = false := by
  rw [State.settle_eq, List.mem_filter, List.mem_map, Bool.not_eq_true']
  simp only [eq_comm]

theorem State.settle_narrowed : Working.Narrowed (· = .range) w (s.settle c tag air w).2 where
  eligible x hx := by
    obtain ⟨⟨y, hy, rfl⟩, -⟩ := State.mem_settle.mp hx
    exact ⟨y, hy, _, rfl⟩
  removed := by
    rw [State.settle_eq]
    refine ⟨_, rfl, fun p hp => ?_⟩
    obtain ⟨x, -, rfl⟩ := List.mem_map.mp hp
    rfl
  complete y hy := by
    cases saturates : (y.settledAt s c tag air).saturates with
    | false => exact .inl ⟨_, State.mem_settle.mpr ⟨⟨y, hy, rfl⟩, saturates⟩, rfl⟩
    | true =>
      refine .inr ⟨.range, rfl, ?_⟩
      rw [State.settle_eq]
      refine List.mem_append_right _ (List.mem_map.mpr ⟨y.settledAt s c tag air, ?_, rfl⟩)
      exact List.mem_filter.mpr ⟨List.mem_map_of_mem hy, saturates⟩

end Settle

/-! ### The air times proposed (R118 to R125) -/

section Stages
variable {s : State} {c : ChannelNo} {tag : Nat} {ready air : HubTime} {w : Working}

theorem State.earliestPasses_narrowed (fuel : Nat) : ∀ (air : HubTime) (w : Working),
    Working.Narrowed (· = .range) w (s.earliestPasses c tag ready fuel air w).2 := by
  induction fuel with
  | zero => exact fun _ _ => .refl
  | succ fuel ih =>
    intro air w
    rw [State.earliestPasses]
    dsimp only
    split
    · exact State.settle_narrowed
    · exact State.settle_narrowed.trans (ih _ _)

theorem State.slipPasses_narrowed (fuel : Nat) : ∀ (proposed : HubTime) (w : Working) {slipped w'},
    s.slipPasses c tag ready air fuel proposed w = some (slipped, w') →
    Working.Narrowed (· = .range) w w' := by
  induction fuel with
  | zero =>
    intro proposed w slipped w' h
    simp [State.slipPasses] at h
  | succ fuel ih =>
    intro proposed w slipped w' h
    rw [State.slipPasses] at h
    dsimp only at h
    split at h
    · cases h
    · split at h
      · obtain ⟨rfl, rfl⟩ := Prod.mk.inj (Option.some.inj h)
        exact State.settle_narrowed
      · exact State.settle_narrowed.trans (ih _ _ h)

/-- The working values with the sites late at an air time removed (06, R123). -/
def Working.dropLate (w : Working) (ready air : HubTime) : Working where
  eligible := w.eligible.filter fun x => !x.late ready air
  removed := w.removed ++ (w.eligible.filter fun x => x.late ready air).map fun x => (x.site, .late)

theorem Working.dropLate_narrowed : Working.Narrowed (· = .late) w (w.dropLate ready air) where
  eligible x hx := ⟨x, (List.mem_filter.mp hx).1, x.standby, rfl⟩
  removed := by
    refine ⟨_, rfl, fun p hp => ?_⟩
    obtain ⟨x, -, rfl⟩ := List.mem_map.mp hp
    rfl
  complete y hy := by
    cases late : y.late ready air with
    | false => exact .inl ⟨y, List.mem_filter.mpr ⟨hy, by simp [late]⟩, rfl⟩
    | true =>
      refine .inr ⟨.late, rfl, List.mem_append_right _ (List.mem_map.mpr ⟨y, ?_, rfl⟩)⟩
      exact List.mem_filter.mpr ⟨hy, late⟩

/-- What lateness at a given air time comes to: none late; the late ones dropped; or a slip (06, R123 to
R125). -/
theorem State.lateness_cases (s : State) (c : ChannelNo) (tag : Nat) (ready air : HubTime) (w : Working) :
    ((∀ x ∈ w.eligible, x.late ready air = false) ∧ s.lateness c tag ready air w = .chosen air 0 w) ∨
    ∃ x xs, (w.eligible.filter fun x => x.late ready air) = x :: xs ∧
      ((((s.channel c).settings.slipLimit = 0 ∨ s.slipPasses c tag ready air passes
            ((s.channel c).settings.grid (latest (x.feasible ready) (xs.map (Candidate.feasible · ready)))) w =
              none) ∧ s.lateness c tag ready air w = .chosen air 0 (w.dropLate ready air)) ∨
        ∃ slipped w', (s.channel c).settings.slipLimit ≠ 0 ∧ s.slipPasses c tag ready air passes
            ((s.channel c).settings.grid (latest (x.feasible ready) (xs.map (Candidate.feasible · ready)))) w =
              some (slipped, w') ∧
          s.lateness c tag ready air w = .chosen slipped (slipped - air).toNat w') := by
  cases late : w.eligible.filter fun x => x.late ready air with
  | nil =>
    refine .inl ⟨fun x hx => ?_, ?_⟩
    · have := List.filter_eq_nil_iff.mp late x hx
      simpa using this
    · simp only [State.lateness, late]
  | cons x xs =>
    refine .inr ⟨x, xs, rfl, ?_⟩
    by_cases off : (s.channel c).settings.slipLimit = 0
    · refine .inl ⟨.inl off, ?_⟩
      simp only [State.lateness, late, off, if_true, Working.dropLate]
    · cases slips : s.slipPasses c tag ready air passes ((s.channel c).settings.grid
          (latest (x.feasible ready) (xs.map (Candidate.feasible · ready)))) w with
      | none =>
        refine .inl ⟨.inr rfl, ?_⟩
        simp only [State.lateness, late, off, if_false, slips, Working.dropLate]
      | some out =>
        refine .inr ⟨out.1, out.2, off, rfl, ?_⟩
        simp only [State.lateness, late, off, if_false, slips]

/-- LATE or RANGE (06, R116, R123). -/
def ExclusionReason.ofAir (r : ExclusionReason) : Prop := r = .late ∨ r = .range

theorem State.lateness_narrowed {chosen : HubTime} {slip : Nat} {w' : Working}
    (h : s.lateness c tag ready air w = .chosen chosen slip w') :
    Working.Narrowed ExclusionReason.ofAir w w' := by
  rcases s.lateness_cases c tag ready air w with ⟨-, h'⟩ | ⟨x, xs, -, ⟨-, h'⟩ | ⟨slipped, w'', -, slips, h'⟩⟩
  · obtain ⟨-, -, rfl⟩ := AirStage.chosen.inj (h'.symm.trans h)
    exact .refl
  · obtain ⟨-, -, rfl⟩ := AirStage.chosen.inj (h'.symm.trans h)
    exact Working.dropLate_narrowed.mono fun _ => .inl
  · obtain ⟨-, -, rfl⟩ := AirStage.chosen.inj (h'.symm.trans h)
    exact (State.slipPasses_narrowed _ _ _ slips).mono fun _ => .inr

/-- The working values that the air-time stages hand on (06, R119 to R125). -/
def AirStage.working (a : AirStage) (w : Working) : Working :=
  match a with
  | .overlap => w
  | .noSite w' => w'
  | .chosen _ _ w' => w'

theorem State.lateness_working : Working.Narrowed ExclusionReason.ofAir w
    ((s.lateness c tag ready air w).working w) := by
  cases h : s.lateness c tag ready air w with
  | overlap => exact .refl
  | noSite w' =>
    rcases s.lateness_cases c tag ready air w with ⟨-, h'⟩ | ⟨x, xs, -, ⟨-, h'⟩ | ⟨slipped, w'', -, -, h'⟩⟩ <;>
      exact nomatch h'.symm.trans h
  | chosen chosen slip w' => exact State.lateness_narrowed h

theorem State.airStage_narrowed (b : Batch) (mode : TimingMode) : Working.Narrowed ExclusionReason.ofAir w
    ((s.airStage c b mode w).working w) := by
  have settles (air : HubTime) : Working.Narrowed ExclusionReason.ofAir w (s.settle c b.tag air w).2 :=
    State.settle_narrowed.mono fun _ => .inr
  have given (ready air : HubTime) : Working.Narrowed ExclusionReason.ofAir w
      ((s.lateness c b.tag ready air (s.settle c b.tag air w).2).working w) := by
    have after := State.lateness_working (s := s) (c := c) (tag := b.tag) (ready := ready) (air := air)
      (w := (s.settle c b.tag air w).2)
    cases h : s.lateness c b.tag ready air (s.settle c b.tag air w).2 with
    | overlap => exact .refl
    | noSite w' => exact (settles air).trans (by rwa [h] at after)
    | chosen chosen slip w' => exact (settles air).trans (by rwa [h] at after)
  cases mode with
  | absolute air =>
    simp only [State.airStage]
    split
    · exact .refl
    · exact given _ _
  | follow => exact given _ _
  | earliest =>
    simp only [State.airStage, State.earliest]
    split <;> exact (settles _).trans ((State.earliestPasses_narrowed _ _ _).mono fun _ => .inr)

end Stages

/-! ### The tests of a candidate (R113, R114) -/

section Tests
variable {s : State} {c : ChannelNo} {ctx : Context} {ns : List SiteNo} {n : SiteNo}

/-- An eligible site passes each test, with its context figures (06, R114). -/
theorem State.testSite_eligible {x : Candidate} (test : s.testSite c ctx n = .inr x) :
    ∃ e f d, s.enrolled n = some e ∧ e.carriers[c].isSome = true ∧ e.phase ≠ .retiring ∧
      e.config.steer ≠ .forceOut ∧ (e.phase = .tracking ∨ e.config.steer = .forceIn) ∧
      ctx.entries[n] = some f ∧ f.d = some d ∧ x = ⟨n, d, f, false⟩ := by
  cases enrolled : s.enrolled n with
  | none => simp [State.testSite, enrolled] at test
  | some e =>
    simp only [State.testSite, enrolled] at test
    by_cases noCarrier : e.carriers[c].isNone = true
    · rw [if_pos noCarrier] at test
      cases test
    rw [if_neg noCarrier] at test
    by_cases retiring : e.phase = .retiring
    · rw [if_pos retiring] at test
      cases test
    rw [if_neg retiring] at test
    by_cases out : e.config.steer = .forceOut
    · rw [if_pos out] at test
      cases test
    rw [if_neg out] at test
    cases entry : ctx.entries[n] with
    | none => simp [entry] at test
    | some f =>
      cases hd : f.d with
      | none => simp [entry, hd] at test
      | some d =>
        simp only [entry, hd] at test
        split at test
        · cases test
        next settling =>
          split at test
          · cases test
          next stale =>
            refine ⟨e, f, d, rfl, ?_, retiring, out, ?_, rfl, hd, (Sum.inr.inj test).symm⟩
            · generalize e.carriers[c] = carrier at noCarrier
              cases carrier with
              | none => exact absurd rfl noCarrier
              | some _ => rfl
            · by_cases forced : e.config.steer = .forceIn
              · exact .inr forced
              · refine .inl ?_
                cases phase : e.phase <;> simp_all

theorem State.testSite_site {x : Candidate} (h : s.testSite c ctx n = .inr x) : x.site = n := by
  obtain ⟨_, _, _, -, -, -, -, -, -, -, rfl⟩ := State.testSite_eligible h
  rfl

theorem State.mem_eligibility {x : Candidate} : x ∈ (s.eligibility c ctx ns).eligible ↔
    x.site ∈ ns ∧ s.testSite c ctx x.site = .inr x := by
  simp only [State.eligibility, List.mem_filterMap, Sum.getRight?_eq_some_iff]
  constructor
  · rintro ⟨n, hn, test⟩
    rw [State.testSite_site test]
    exact ⟨hn, test⟩
  · rintro ⟨hn, test⟩
    exact ⟨x.site, hn, test⟩

theorem State.eligibility_excluded {r : ExclusionReason} (hn : n ∈ ns) (test : s.testSite c ctx n = .inl r) :
    (s.eligibility c ctx ns).removed.find? (fun p => p.1 == n) = some (n, r) := by
  unfold State.eligibility
  dsimp only
  induction ns with
  | nil => simp at hn
  | cons m ns ih =>
    rw [List.filterMap_cons]
    by_cases same : m = n
    · subst same
      simp [test]
    · have rest := ih ((List.mem_cons.mp hn).resolve_left (Ne.symm same))
      cases first : s.testSite c ctx m with
      | inr x => simpa [first] using rest
      | inl r' => simpa [first, same] using rest

end Tests

/-! ### The plan list (R127, R128) -/

section Plan
variable {s : State} {c : ChannelNo} {b : Batch} {mode : TimingMode} {ctx : Context}

theorem ZonePass.foldl_included (s : State) (ns : List ZoneNo) (p : ZonePass) :
    ∀ x ∈ (ns.foldl (ZonePass.visit s) p).included, x ∈ p.included := by
  induction ns generalizing p with
  | nil => exact fun _ h => h
  | cons n ns ih =>
    intro x hx
    have step := ih (p.visit s n) x hx
    rcases p.visit_included s n with ⟨same, -⟩ | ⟨z, a, b, k, -, -, -, -, -, -, kept, -⟩
    · exact same ▸ step
    · rw [kept] at step
      exact (List.mem_filter.mp step).1

theorem State.zonePass_included {included : List Candidate} :
    ∀ x ∈ (s.zonePass included).included, x ∈ included :=
  ZonePass.foldl_included s _ ⟨included, [], 0, s.zones, false⟩

/-- The working values that the stages of a planning end with. -/
def State.stages (s : State) (c : ChannelNo) (b : Batch) (mode : TimingMode) (ctx : Context) : Working :=
  (s.airStage c b mode (s.eligibility c ctx (s.candidates c b.sites))).working
    (s.eligibility c ctx (s.candidates c b.sites))

/-- A planning lists the entries of sites it kept, and the reasons of those it removed (06, R127, R128). -/
theorem State.runPlanning_lists : ∃ entries removed,
    (s.runPlanning c b mode ctx).plan = planList (s.candidates c b.sites) entries removed ∧
    (∀ p ∈ entries, ∃ x ∈ (s.stages c b mode ctx).eligible, x.site = p.1) ∧
    ∃ extra, removed = (s.eligibility c ctx (s.candidates c b.sites)).removed ++ extra := by
  have narrowed := State.airStage_narrowed (s := s) (c := c)
    (w := s.eligibility c ctx (s.candidates c b.sites)) b mode
  obtain ⟨extra, grown, -⟩ := narrowed.removed
  unfold State.stages State.runPlanning
  dsimp only
  cases h : s.airStage c b mode (s.eligibility c ctx (s.candidates c b.sites)) with
  | overlap => exact ⟨[], _, rfl, by simp, [], (List.append_nil _).symm⟩
  | noSite w => exact ⟨[], _, rfl, by simp, extra, by rw [h] at grown; exact grown⟩
  | chosen air slip w =>
    rw [h] at grown
    have grown : w.removed = _ := grown
    have zoned := State.zonePass_included (s := s) (included := w.eligible)
    simp only [State.planResult]
    generalize s.zonePass w.eligible = p at zoned
    have more (zones : List (SiteNo × ExclusionReason)) : ∃ extra, w.removed ++ zones =
        (s.eligibility c ctx (s.candidates c b.sites)).removed ++ extra :=
      ⟨extra ++ zones, by rw [grown, List.append_assoc]⟩
    split
    · exact ⟨[], _, rfl, by simp, more _⟩
    · split
      · exact ⟨[], _, rfl, by simp, more _⟩
      · refine ⟨_, _, rfl, fun p hp => ?_, more _⟩
        obtain ⟨x, hx, rfl⟩ := List.mem_map.mp hp
        exact ⟨x, zoned x hx, rfl⟩

theorem mem_planList {ns : List SiteNo} {entries : List (SiteNo × Included)}
    {removed : List (SiteNo × ExclusionReason)} {p : PlanEntry} (among : p ∈ planList ns entries removed) :
    p.site ∈ ns ∧ ((∃ e, (p.site, e) ∈ entries ∧ p.disp = .included e) ∨
      ∃ r, (p.site, r) ∈ removed ∧ p.disp = .excluded r) := by
  obtain ⟨n, hn, entry⟩ := List.mem_filterMap.mp among
  split at entry
  next q found =>
    have site : q.1 = n := by simpa using List.find?_some found
    rw [← Option.some.inj entry]
    exact ⟨hn, .inl ⟨q.2, by rw [← site]; exact List.mem_of_find?_eq_some found, rfl⟩⟩
  next =>
    obtain ⟨q, found, rfl⟩ := Option.map_eq_some_iff.mp entry
    have site : q.1 = n := by simpa using List.find?_some found
    exact ⟨hn, .inr ⟨q.2, by rw [← site]; exact List.mem_of_find?_eq_some found, rfl⟩⟩

theorem planList_excluded {ns : List SiteNo} {entries : List (SiteNo × Included)}
    {removed : List (SiteNo × ExclusionReason)} {n : SiteNo} {r : ExclusionReason} (hn : n ∈ ns)
    (not : ∀ p ∈ entries, p.1 ≠ n) (first : removed.find? (fun p => p.1 == n) = some (n, r)) :
    ⟨n, .excluded r⟩ ∈ planList ns entries removed := by
  refine List.mem_filterMap.mpr ⟨n, hn, ?_⟩
  have none : entries.find? (fun p => p.1 == n) = .none := by
    rw [List.find?_eq_none]
    simpa using not
  rw [none, first]
  rfl

theorem State.stages_eligible {x : Candidate} (hx : x ∈ (s.stages c b mode ctx).eligible) :
    x.site ∈ s.candidates c b.sites ∧
      ∃ k, s.testSite c ctx x.site = .inr { x with standby := k } := by
  obtain ⟨y, hy, k, rfl⟩ := (State.airStage_narrowed b mode).eligible x hx
  obtain ⟨among, test⟩ := State.mem_eligibility.mp hy
  exact ⟨among, y.standby, test⟩

/-- A candidate that fails a test is listed with the reason of the first it fails (06, R114, R128). -/
theorem State.runPlanning_excludes {n : SiteNo} {r : ExclusionReason} (hn : n ∈ s.candidates c b.sites)
    (test : s.testSite c ctx n = .inl r) : ⟨n, .excluded r⟩ ∈ (s.runPlanning c b mode ctx).plan := by
  obtain ⟨entries, removed, plan, kept, extra, grown⟩ := State.runPlanning_lists (s := s) (c := c) (b := b)
    (mode := mode) (ctx := ctx)
  rw [plan]
  refine planList_excluded hn (fun p hp same => ?_) ?_
  · obtain ⟨x, hx, site⟩ := kept p hp
    obtain ⟨-, k, eligible⟩ := State.stages_eligible hx
    rw [site, same, test] at eligible
    cases eligible
  · rw [grown, List.find?_append, State.eligibility_excluded hn test]
    rfl

theorem State.mem_candidates {n : SiteNo} : n ∈ s.candidates c b.sites ↔ match b.sites with
    | some l => n ∈ l
    | none => s.isMember n c = true := by
  unfold State.candidates
  cases b.sites <;> simp

end Plan

/-- Settles O46: included entries by what the stages kept, the others by their first failed test. -/
theorem plansIncludeOnlyEligibleSites : Obligations.PlansIncludeOnlyEligibleSites := by
  intro s c b mode ctx r candidate
  have among (n : SiteNo) : candidate n ↔ n ∈ s.candidates c b.sites := State.mem_candidates.symm
  have excludes {n : SiteNo} {reason : ExclusionReason} (hn : candidate n)
      (test : s.testSite c ctx n = .inl reason) : ⟨n, .excluded reason⟩ ∈ r.plan :=
    State.runPlanning_excludes ((among n).mp hn) test
  refine ⟨fun p e hp disp => ?_, fun n hn not => ?_, fun n x hn member enrolled => ?_⟩
  · obtain ⟨entries, removed, plan, kept, -⟩ := State.runPlanning_lists (s := s) (c := c) (b := b)
      (mode := mode) (ctx := ctx)
    obtain ⟨hn, ⟨y, hy, -⟩ | ⟨reason, -, excluded⟩⟩ := mem_planList (plan ▸ hp : p ∈ planList _ _ _)
    · obtain ⟨x, hx, site⟩ := kept _ hy
      obtain ⟨-, k, test⟩ := State.stages_eligible hx
      rw [site] at test
      obtain ⟨q, f, d, enrolled, carrier, phase, steer, tracks, entry, hd, -⟩ :=
        State.testSite_eligible test
      exact ⟨(among _).mpr hn, q, f, enrolled, carrier, phase, steer, tracks, entry, by simp [hd]⟩
    · exact nomatch disp.symm.trans excluded
  · refine excludes hn ?_
    cases enrolled : s.enrolled n with
    | none => simp only [State.testSite, enrolled]
    | some x =>
      have carrier : x.carriers[c].isNone = true := by
        simpa [State.isMember, enrolled] using not
      simp only [State.testSite, enrolled, carrier, if_true]
  · have carrier : ¬ x.carriers[c].isNone = true := by
      simpa [State.isMember, enrolled, Option.isSome_iff_ne_none] using member
    refine ⟨fun retiring => excludes hn ?_, fun live out => excludes hn ?_,
      fun live fits none => excludes hn ?_, fun f live fits entry => ⟨fun unsettled => excludes hn ?_,
        fun measured stale free => excludes hn ?_⟩⟩
    all_goals simp only [State.testSite, enrolled, if_neg carrier]
    · rw [if_pos retiring]
    · rw [if_neg live, if_pos out]
    · rw [if_neg live, if_neg fits, none]
    · rw [if_neg live, if_neg fits, entry]
      cases measured : f.d with
      | none => simp only [measured]
      | some d =>
        have settling := unsettled.resolve_left (by simp [measured])
        simp only [measured]
        exact if_pos settling
    · obtain ⟨d, measured⟩ := Option.ne_none_iff_exists'.mp measured
      rw [if_neg live, if_neg fits, entry]
      simp [measured, stale, free]

end Sys2Proof.Machine
end

