-- ==== Sys2Proof/Proofs/AirTimes.lean ====
section
/-! PROOFS. The air time by mode, lateness and slip: what the time chosen leaves, and the bounds of the time
an EARLIEST planning comes to (06, R116 to R125). -/

namespace Sys2Proof.Machine

/-! ### Times within half the range of a base (00, R1) -/

section Window
variable {base : HubTime}

theorem laterOf_window {x y : HubTime} (hx : (x - base).toNat < 2 ^ 39) (hy : (y - base).toNat < 2 ^ 39) :
    (x - base).toNat ≤ (laterOf x y - base).toNat ∧ (y - base).toNat ≤ (laterOf x y - base).toNat := by
  have order := later_window hy hx
  unfold laterOf
  split
  next h => exact ⟨(order.mp h).le, le_rfl⟩
  next h => exact ⟨le_rfl, not_lt.mp (mt order.mpr h)⟩

theorem latest_mem (x : HubTime) (ys : List HubTime) : latest x ys ∈ x :: ys := by
  unfold latest
  induction ys generalizing x with
  | nil => exact List.mem_cons_self
  | cons y ys ih =>
    rw [List.foldl_cons]
    rcases List.mem_cons.mp (ih (laterOf x y)) with h | h
    · rw [h]
      unfold laterOf
      split <;> simp
    · simp [h]

/-- The latest of times within half the range of a base is the farthest from it. -/
theorem latest_window {x : HubTime} {ys : List HubTime} (all : ∀ y ∈ x :: ys, (y - base).toNat < 2 ^ 39) :
    ∀ y ∈ x :: ys, (y - base).toNat ≤ (latest x ys - base).toNat := by
  unfold latest
  induction ys generalizing x with
  | nil => simp
  | cons z ys ih =>
    have hx := all x List.mem_cons_self
    have hz := all z (List.mem_cons_of_mem x List.mem_cons_self)
    obtain ⟨lx, lz⟩ := laterOf_window hx hz
    have first : (laterOf x z - base).toNat < 2 ^ 39 := by
      unfold laterOf
      split
      · exact hz
      · exact hx
    have rest := ih (x := laterOf x z) (by
      rw [List.forall_mem_cons] at all ⊢
      exact ⟨first, (List.forall_mem_cons.mp all.2).2⟩)
    rw [List.forall_mem_cons] at rest
    rw [List.forall_mem_cons, List.forall_mem_cons]
    exact ⟨lx.trans rest.1, lz.trans rest.1, rest.2⟩

/-- The grid ceiling is no earlier, and later by less than a period (06, R121). -/
theorem gridCeiling_window {period origin : Nat} {x : HubTime} (small : period ≤ 2 ^ 32)
    (room : (x - base).toNat + 2 ^ 32 ≤ 2 ^ 39) :
    (x - base).toNat ≤ (gridCeiling period origin x - base).toNat ∧
      (gridCeiling period origin x - base).toNat ≤ (x - base).toNat + 2 ^ 32 := by
  by_cases off : period = 0
  · rw [gridCeiling, if_pos off]
    omega
  have pos : 0 < period := Nat.pos_of_ne_zero off
  obtain ⟨n, hn⟩ : ∃ n, (x - ticks origin).toNat = n := ⟨_, rfl⟩
  have above : n ≤ ceilDiv n period * period := (ceilDiv_le_iff pos _ _).mp le_rfl
  have below : ceilDiv n period * period < n + period := by
    unfold ceilDiv
    have := Nat.div_mul_le_self (n + period - 1) period
    omega
  have at_x : gridCeiling period origin x = x + BitVec.ofNat 40 (ceilDiv n period * period - n) := by
    have split : BitVec.ofNat 40 (ceilDiv n period * period) =
        (x - ticks origin) + BitVec.ofNat 40 (ceilDiv n period * period - n) := by
      have distance : BitVec.ofNat 40 n = x - ticks origin := by
        rw [← hn, BitVec.ofNat_toNat, BitVec.setWidth_eq]
      rw [← distance, ← BitVec.ofNat_add, Nat.add_sub_cancel' above]
    rw [gridCeiling, if_neg off, hn]
    change ticks origin + BitVec.ofNat 40 _ = _
    rw [split]
    bv_omega
  have distance : (gridCeiling period origin x - base).toNat =
      (x - base).toNat + (ceilDiv n period * period - n) := by
    have move : x + BitVec.ofNat 40 (ceilDiv n period * period - n) - base =
        (x - base) + BitVec.ofNat 40 (ceilDiv n period * period - n) := by bv_omega
    rw [at_x, move, BitVec.toNat_add, BitVec.toNat_ofNat, Nat.mod_eq_of_lt (a := _ - n) (by omega),
      Nat.mod_eq_of_lt (by omega)]
  omega

end Window

/-! ### Lateness and slip (R123 to R125) -/

section Lateness
variable {s : State} {c : ChannelNo} {tag : Nat} {ready air : HubTime} {w : Working}

/-- A slip that succeeds keeps within its limit and leaves no site late (06, R124). -/
theorem State.slipPasses_spec (fuel : Nat) : ∀ (proposed : HubTime) (w : Working) {slipped w'},
    s.slipPasses c tag ready air fuel proposed w = some (slipped, w') →
    (slipped - air).toNat ≤ (s.channel c).settings.slipLimit * 10000 ∧
      ∀ x ∈ w'.eligible, x.late ready slipped = false := by
  induction fuel with
  | zero =>
    intro proposed w slipped w' h
    simp [State.slipPasses] at h
  | succ fuel ih =>
    intro proposed w slipped w' h
    rw [State.slipPasses] at h
    dsimp only at h
    split at h
    · cases h
    next within =>
      split at h
      next done =>
        obtain ⟨rfl, rfl⟩ := Prod.mk.inj (Option.some.inj h)
        rw [Bool.and_eq_true, List.isEmpty_iff, List.isEmpty_iff, List.filter_eq_nil_iff] at done
        exact ⟨not_lt.mp within, fun x hx => by simpa using done.2 x hx⟩
      · exact ih _ _ h

theorem add_slip (air slipped : HubTime) : slipped = air + BitVec.ofNat 40 (slipped - air).toNat := by
  rw [BitVec.ofNat_toNat, BitVec.setWidth_eq]
  bv_omega

/-- At the time chosen no site is late, within the slip limit of the given one (06, R123 to R125). -/
theorem State.lateness_spec {chosen : HubTime} {slip : Nat} {w' : Working}
    (h : s.lateness c tag ready air w = .chosen chosen slip w') :
    (∀ x ∈ w'.eligible, x.late ready chosen = false) ∧ chosen = air + BitVec.ofNat 40 slip ∧
    slip ≤ (s.channel c).settings.slipLimit * 10000 ∧
    ((∀ x ∈ w.eligible, x.late ready air = false) → chosen = air ∧ w' = w) ∧
    ∀ n, (n, .late) ∈ w'.removed → (n, .late) ∈ w.removed ∨
      slip = 0 ∧ ∃ x ∈ w.eligible, x.site = n ∧ x.late ready air = true := by
  rcases s.lateness_cases c tag ready air w with
    ⟨none, h'⟩ | ⟨x, xs, late, ⟨-, h'⟩ | ⟨slipped, w'', -, slips, h'⟩⟩
  · obtain ⟨rfl, rfl, rfl⟩ := AirStage.chosen.inj (h'.symm.trans h)
    exact ⟨none, by simp, Nat.zero_le _, fun _ => ⟨rfl, rfl⟩, fun n hn => .inl hn⟩
  all_goals
    have some : x ∈ w.eligible.filter fun x => x.late ready air := late ▸ List.mem_cons_self
    obtain ⟨hx, hlate⟩ := List.mem_filter.mp some
    have notNone (none : ∀ x ∈ w.eligible, x.late ready air = false) : False :=
      Bool.false_ne_true ((none x hx).symm.trans hlate)
  · obtain ⟨rfl, rfl, rfl⟩ := AirStage.chosen.inj (h'.symm.trans h)
    refine ⟨fun y hy => ?_, by simp, Nat.zero_le _, fun none => (notNone none).elim, fun n hn => ?_⟩
    · simpa using (List.mem_filter.mp hy).2
    · refine (List.mem_append.mp hn).imp_right fun dropped => ⟨rfl, ?_⟩
      obtain ⟨y, hy, same⟩ := List.mem_map.mp dropped
      obtain ⟨hy, ylate⟩ := List.mem_filter.mp hy
      exact ⟨y, hy, congrArg Prod.fst same, ylate⟩
  · obtain ⟨rfl, rfl, rfl⟩ := AirStage.chosen.inj (h'.symm.trans h)
    obtain ⟨within, onTime⟩ := State.slipPasses_spec _ _ _ slips
    refine ⟨onTime, add_slip air slipped, within, fun none => (notNone none).elim, fun n hn => .inl ?_⟩
    obtain ⟨extra, removed, reasons⟩ := (State.slipPasses_narrowed _ _ _ slips).removed
    rw [removed] at hn
    refine (List.mem_append.mp hn).resolve_right fun among => ?_
    exact nomatch reasons _ among

theorem State.slipPasses_first {first : HubTime} {w' : Working} (fuel : Nat)
    (within : (first - air).toNat ≤ (s.channel c).settings.slipLimit * 10000)
    (settles : s.settle c tag first w = ([], w')) (onTime : ∀ y ∈ w'.eligible, y.late ready first = false) :
    s.slipPasses c tag ready air (fuel + 1) first w = some (first, w') := by
  have none : w'.eligible.filter (fun y => y.late ready first) = [] :=
    List.filter_eq_nil_iff.mpr fun y hy => by simp [onTime y hy]
  rw [State.slipPasses, if_neg (not_lt.mpr within)]
  simp only [settles, none]
  rfl

end Lateness

/-! ### EARLIEST (R122) -/

section Earliest
variable {s : State} {c : ChannelNo} {tag : Nat} {ready base : HubTime}

/-- A site whose standby the pass does not change. -/
theorem Candidate.settledAt_self {air : HubTime} {w : Working} {x : Candidate} (hx : x ∈ w.eligible)
    (not : x.site ∉ (s.settle c tag air w).1) : x.settledAt s c tag air = x := by
  have same : (x.standby || s.inStandby c tag air x.site) = x.standby := by
    cases standby : x.standby with
    | true => rfl
    | false =>
      rw [Bool.false_or, Bool.eq_false_iff]
      exact fun yes => not (State.mem_joined.mpr ⟨x, hx, standby, yes, rfl⟩)
  exact congrArg (fun k => { x with standby := k }) same

/-- The further passes never propose an earlier time, and cover each site that they keep (06, R122). -/
theorem State.earliestPasses_spec (small : (s.channel c).settings.gridPeriod ≤ 2 ^ 32) (fuel : Nat) :
    ∀ (air : HubTime) (w : Working),
    (air - base).toNat + fuel * 2 ^ 32 ≤ 2 ^ 38 + 60 * 2 ^ 32 → fuel ≤ 50 →
    (∀ x ∈ w.eligible, ∀ k : Bool,
      (({ x with standby := k } : Candidate).feasible ready - base).toNat < 2 ^ 38) →
    (∀ x ∈ w.eligible, (x.feasible ready - base).toNat ≤ (air - base).toNat) →
    (∃ y, air = (s.channel c).settings.grid y) →
    (air - base).toNat ≤ ((s.earliestPasses c tag ready fuel air w).1 - base).toNat ∧
    (∀ x ∈ (s.earliestPasses c tag ready fuel air w).2.eligible, (x.feasible ready - base).toNat ≤
      ((s.earliestPasses c tag ready fuel air w).1 - base).toNat) ∧
    ∃ y, (s.earliestPasses c tag ready fuel air w).1 = (s.channel c).settings.grid y := by
  induction fuel with
  | zero => exact fun air w _ _ _ covers grid => ⟨le_rfl, covers, grid⟩
  | succ fuel ih =>
    intro air w room few near covers grid
    rw [State.earliestPasses]
    dsimp only
    split
    next none =>
      rw [List.isEmpty_iff] at none
      refine ⟨le_rfl, fun x hx => ?_, grid⟩
      obtain ⟨⟨y, hy, rfl⟩, -⟩ := State.mem_settle.mp hx
      rw [Candidate.settledAt_self hy (by rw [none]; exact List.not_mem_nil)]
      exact covers y hy
    · set w' := (s.settle c tag air w).2
      set joined := (s.settle c tag air w).1
      set bounds := (w'.eligible.filter fun x => joined.contains x.site).map (Candidate.feasible · ready)
      have near' : ∀ x ∈ w'.eligible, ∀ k : Bool,
          (({ x with standby := k } : Candidate).feasible ready - base).toNat < 2 ^ 38 := by
        intro x hx k
        obtain ⟨⟨y, hy, rfl⟩, -⟩ := State.mem_settle.mp hx
        exact near y hy k
      have all : ∀ y ∈ air :: bounds, (y - base).toNat < 2 ^ 39 := by
        rw [List.forall_mem_cons]
        refine ⟨by omega, fun y hy => ?_⟩
        obtain ⟨x, hx, rfl⟩ := List.mem_map.mp hy
        have := near' x (List.mem_filter.mp hx).1 x.standby
        exact this.trans (by decide)
      have farthest := latest_window all
      have reach : (latest air bounds - base).toNat ≤ max (air - base).toNat (2 ^ 38) := by
        rcases List.mem_cons.mp (latest_mem air bounds) with h | h
        · rw [h]
          exact le_max_left _ _
        · obtain ⟨x, hx, same⟩ := List.mem_map.mp h
          have := near' x (List.mem_filter.mp hx).1 x.standby
          rw [← same]
          exact this.le.trans (le_max_right _ _)
      obtain ⟨notEarlier, soon⟩ := gridCeiling_window (base := base) (x := latest air bounds)
        (origin := (s.channel c).settings.gridOrigin) small (by omega)
      change _ ≤ ((s.channel c).settings.grid _ - base).toNat at notEarlier
      change ((s.channel c).settings.grid _ - base).toNat ≤ _ at soon
      have first := farthest air List.mem_cons_self
      have next : ∀ x ∈ w'.eligible, (x.feasible ready - base).toNat ≤
          ((s.channel c).settings.grid (latest air bounds) - base).toNat := by
        intro x hx
        obtain ⟨⟨y, hy, rfl⟩, -⟩ := State.mem_settle.mp hx
        by_cases joins : y.site ∈ joined
        · refine (farthest _ (List.mem_cons_of_mem _ (List.mem_map.mpr ⟨_, ?_, rfl⟩))).trans notEarlier
          exact List.mem_filter.mpr ⟨hx, List.contains_iff_mem.mpr joins⟩
        · rw [Candidate.settledAt_self hy joins]
          exact (covers y hy).trans (first.trans notEarlier)
      obtain ⟨later, covers', grid'⟩ := ih ((s.channel c).settings.grid (latest air bounds)) w'
        (by omega) (by omega) near' next ⟨_, rfl⟩
      exact ⟨(first.trans notEarlier).trans later, covers', grid'⟩

/-- The first time an EARLIEST planning proposes once its sites are settled (06, R122). -/
def State.firstEarliest (s : State) (c : ChannelNo) (b : Batch) (ready : HubTime) (w : Working) : HubTime :=
  (s.channel c).settings.grid (latest ready
    ((b.predEnd.map (· + ticks (s.channel c).settings.guardTime)).toList ++
      (s.settle c b.tag ready w).2.eligible.map (Candidate.feasible · ready)))

theorem State.earliest_eq {b : Batch} {w w' : Working} {air : HubTime}
    (comes : s.earliestPasses c b.tag ready passes (s.firstEarliest c b ready w)
      (s.settle c b.tag ready w).2 = (air, w')) :
    s.earliest c b ready w = if w'.eligible = [] then .noSite w' else .chosen air 0 w' := by
  rw [State.firstEarliest] at comes
  simp only [State.earliest, comes, List.isEmpty_iff]

end Earliest

/-- Settles O49: lateness and slip, one settling, then the air time by mode. -/
theorem chosenAirTimeLeavesNoSiteLate : Obligations.ChosenAirTimeLeavesNoSiteLate := by
  refine ⟨fun s c tag ready air chosen w w' slip h => ?_, fun s c tag ready air w => ?_,
    fun s c b w => ?_⟩
  · obtain ⟨onTime, slipped, within, none, lates⟩ := State.lateness_spec h
    refine ⟨onTime, slipped, within, fun x hx => ?_, none, lates⟩
    refine ((State.lateness_narrowed h).complete x hx).imp_right ?_
    rintro ⟨r, rfl | rfl, removed⟩
    · exact .inl removed
    · exact .inr removed
  · intro g
    refine ⟨fun y => ?_, fun x xs first w' limit late hfirst within settles onTime => ?_⟩
    · refine State.mem_settle.trans (and_congr Iff.rfl ?_)
      simp only [Candidate.saturates, decide_eq_false_iff_not, not_lt]
      exact Iff.rfl
    · rcases s.lateness_cases c tag ready air w with ⟨none, -⟩ | ⟨y, ys, late', ⟨fails, -⟩ |
        ⟨slipped, w'', -, slips, h⟩⟩
      · have hx : x ∈ w.eligible.filter fun y => earlier (y.deadline air) ready :=
          late ▸ List.mem_cons_self
        obtain ⟨hx, hlate⟩ := List.mem_filter.mp hx
        exact absurd ((none x hx).symm.trans hlate) Bool.false_ne_true
      all_goals
        obtain ⟨rfl, rfl⟩ := List.cons.inj (late.symm.trans late')
        have slips' : s.slipPasses c tag ready air passes first w = some (first, w') :=
          State.slipPasses_first 49 within settles onTime
        rw [hfirst] at slips'
      · exact nomatch (fails.resolve_left limit).symm.trans slips'
      · obtain ⟨rfl, rfl⟩ := Prod.mk.inj (Option.some.inj (slips.symm.trans slips'))
        rw [hfirst]
        exact h
  · intro g ready clear settled
    refine ⟨fun a p predEnd early => ?_, fun a clears => ?_, fun p predEnd => ?_,
      fun first w' hfirst settles => ?_, fun base air slip w' small hready hpred near h => ?_⟩
    · simp only [State.airStage, predEnd, Option.any_some]
      exact if_pos early
    · have late : (b.predEnd.any fun p => earlier a (p + ticks g.guardTime)) = false := by
        cases predEnd : b.predEnd with
        | none => rfl
        | some p => exact clears p predEnd
      simp only [State.airStage]
      exact if_neg (Bool.eq_false_iff.mp late)
    · simp only [State.airStage, predEnd, Option.getD_some]
      rfl
    · have comes : s.earliestPasses c b.tag ready passes (s.firstEarliest c b ready w) (settled ready) =
          (first, w') := by
        rw [show s.firstEarliest c b ready w = first from hfirst.symm]
        simp only [passes, State.earliestPasses, settles]
        rfl
      have acts := State.earliest_eq comes
      exact ⟨fun none => acts.trans (if_pos none), fun some => acts.trans (if_neg some)⟩
    · obtain ⟨comes, hcomes⟩ : ∃ out, s.earliestPasses c b.tag ready passes (s.firstEarliest c b ready w)
          (settled ready) = out := ⟨_, rfl⟩
      have acts := State.earliest_eq (air := comes.1) (w' := comes.2) hcomes
      have ends : (if comes.2.eligible = [] then AirStage.noSite comes.2 else .chosen comes.1 0 comes.2) =
          .chosen air slip w' := acts.symm.trans h
      split at ends
      · cases ends
      next some =>
      obtain ⟨rfl, rfl, rfl⟩ := AirStage.chosen.inj ends
      let after := (b.predEnd.map clear).toList
      let feasible := (settled ready).eligible.map fun x => x.feasible ready
      have near' : ∀ x ∈ (settled ready).eligible, ∀ k : Bool,
          (({ x with standby := k } : Candidate).feasible ready - base).toNat < 2 ^ 38 := by
        intro x hx k
        obtain ⟨⟨y, hy, rfl⟩, -⟩ := State.mem_settle.mp hx
        exact near y hy k
      have quarter : ∀ y ∈ ready :: (after ++ feasible), (y - base).toNat < 2 ^ 38 := by
        rw [List.forall_mem_cons, List.forall_mem_append]
        refine ⟨hready, fun y hy => ?_, fun y hy => ?_⟩
        · obtain ⟨p, predEnd, rfl⟩ := Option.map_eq_some_iff.mp (Option.mem_toList.mp hy)
          exact hpred p predEnd
        · obtain ⟨x, hx, rfl⟩ := List.mem_map.mp hy
          exact near' x hx x.standby
      have farthest := latest_window fun y hy => (quarter y hy).trans (by decide)
      have reach := quarter _ (latest_mem ready (after ++ feasible))
      obtain ⟨notEarlier, soon⟩ := gridCeiling_window (base := base) (x := latest ready (after ++ feasible))
        (origin := g.gridOrigin) small (by omega)
      have first {y : HubTime} (hy : y ∈ ready :: (after ++ feasible)) :
          (y - base).toNat ≤ (s.firstEarliest c b ready w - base).toNat := (farthest y hy).trans notEarlier
      have bounds := State.earliestPasses_spec (s := s) (c := c) (tag := b.tag) (ready := ready) (base := base)
        small passes (s.firstEarliest c b ready w) (settled ready) ?_ (by decide) near' ?_ ⟨_, rfl⟩
      · rw [hcomes] at bounds
        obtain ⟨after_first, covers, grid⟩ := bounds
        refine ⟨rfl, some, ?_, fun p predEnd => ?_, covers, grid⟩
        · exact (first List.mem_cons_self).trans after_first
        · refine (first (List.mem_cons_of_mem _ (List.mem_append_left _ ?_))).trans after_first
          simp [after, predEnd]
      · have soon : (s.firstEarliest c b ready w - base).toNat ≤ _ := soon
        simp only [passes]
        omega
      · intro x hx
        exact first (List.mem_cons_of_mem _ (List.mem_append_right _ (List.mem_map_of_mem hx)))

end Sys2Proof.Machine
end

