-- ==== Sys2Proof/Proofs/PlanningSums.lean ====
section
/-! PROOFS. The entries of a plan: their sums at the air time chosen, and their pre-key flags by the air times
proposed (06, R115 to R118, R124, R127). -/

namespace Sys2Proof.Machine

/-! ### Standby at an air time (R115) -/

section Standby
variable {s : State} {c : ChannelNo} {tag : Nat} {air : HubTime} {n : SiteNo}

theorem OrderState.live_iff (o : OrderState) : o.live = true ↔
    o = .waiting ∨ o = .sent ∨ o = .receipted ∨ o = .unconfirmed ∨ o = .abortMissed := by
  cases o <;> simp [OrderState.live]

theorem State.mem_keyings {x : HubTime} : x ∈ s.keyings c tag air n ↔
    (∃ q y, s.enrolled n = some q ∧ q.carriers[c] = some y ∧ y.confirmedEnd = some x) ∨
    ∃ b a y, b ∈ (s.channel c).queue ∧ b.tag ≠ tag ∧ b.active = true ∧ b.air = some a ∧
      earlier a air = true ∧ b.entryOf n = some y ∧
      (y.order = .waiting ∨ y.order = .sent ∨ y.order = .receipted ∨ y.order = .unconfirmed ∨
        y.order = .abortMissed) ∧ x = a + BitVec.ofNat 40 b.duration := by
  unfold State.keyings
  rw [List.mem_append, List.mem_filterMap]
  refine or_congr ?_ ⟨?_, ?_⟩
  · rw [Option.mem_toList, Option.bind_eq_some_iff]
    constructor
    · rintro ⟨y, carrier, confirmed⟩
      obtain ⟨q, enrolled, carrier⟩ := Option.bind_eq_some_iff.mp carrier
      exact ⟨q, y, enrolled, carrier, confirmed⟩
    · rintro ⟨q, y, enrolled, carrier, confirmed⟩
      exact ⟨y, Option.bind_eq_some_iff.mpr ⟨q, enrolled, carrier⟩, confirmed⟩
  · rintro ⟨b, hb, keyed⟩
    split at keyed
    next all =>
      simp only [Bool.and_eq_true, bne_iff_ne, Option.any_eq_true, OrderState.live_iff] at all
      obtain ⟨⟨⟨other, active⟩, a, hair, early⟩, y, entry, live⟩ := all
      rw [Batch.endTime, hair] at keyed
      exact ⟨b, a, y, hb, other, active, hair, early, entry, live, (Option.some.inj keyed).symm⟩
    · cases keyed
  · rintro ⟨b, a, y, hb, other, active, hair, early, entry, live, rfl⟩
    refine ⟨b, hb, ?_⟩
    rw [if_pos, Batch.endTime, hair]
    · rfl
    · simp only [Bool.and_eq_true, bne_iff_ne, Option.any_eq_true, OrderState.live_iff]
      exact ⟨⟨⟨other, active⟩, a, hair, early⟩, y, entry, live⟩

/-- Within half the range the latest keying decides standby (06, R115). -/
theorem State.inStandby_latest {base k : HubTime} {q : Enrolled} (hk : k ∈ s.keyings c tag air n)
    (near : (k - base).toNat < 2 ^ 39)
    (most : ∀ x ∈ s.keyings c tag air n, (x - base).toNat ≤ (k - base).toNat)
    (enrolled : s.enrolled n = some q) : s.inStandby c tag air n =
      later air (k + BitVec.ofNat 40 (q.config.idleHold * 1000000)) := by
  cases keyings : s.keyings c tag air n with
  | nil => simp [keyings] at hk
  | cons x xs =>
    rw [keyings] at hk most
    have farthest := latest_window (base := base) fun y hy => (most y hy).trans_lt near
    have same : latest x xs = k := eq_of_distance (base := base)
      (le_antisymm (most _ (latest_mem x xs)) (farthest k hk))
    simp only [State.inStandby, keyings, enrolled, same]
    rfl

end Standby

/-! ### The standby set by the air times proposed (R118) -/

/-- Each eligible site is in the standby set when it was in standby at one of some air times. -/
def Working.Traced (s : State) (c : ChannelNo) (tag : Nat) (airs : List HubTime) (w : Working) : Prop :=
  ∀ x ∈ w.eligible, x.standby = true ↔ ∃ a ∈ airs, s.inStandby c tag a x.site = true

/-- No eligible site has a hold floor above the largest hold (06, R116). -/
def Working.Fits (w : Working) : Prop := ∀ x ∈ w.eligible, x.saturates = false

section Traced
variable {s : State} {c : ChannelNo} {tag : Nat} {airs : List HubTime} {ready air : HubTime} {w : Working}

theorem Working.Traced.settle (h : w.Traced s c tag airs) (air : HubTime) :
    (s.settle c tag air w).2.Traced s c tag (airs ++ [air]) := by
  intro x hx
  obtain ⟨⟨y, hy, rfl⟩, -⟩ := State.mem_settle.mp hx
  simp only [Candidate.settledAt, Bool.or_eq_true, h y hy, List.mem_append, List.mem_singleton]
  constructor
  · rintro (⟨a, ha, yes⟩ | yes)
    · exact ⟨a, .inl ha, yes⟩
    · exact ⟨air, .inr rfl, yes⟩
  · rintro ⟨a, ha | rfl, yes⟩
    · exact .inl ⟨a, ha, yes⟩
    · exact .inr yes

theorem State.settle_fits : (s.settle c tag air w).2.Fits := fun _ hx => (State.mem_settle.mp hx).2

theorem Working.Traced.dropLate (h : w.Traced s c tag airs) : (w.dropLate ready air).Traced s c tag airs :=
  fun x hx => h x (List.mem_filter.mp hx).1

theorem Working.Fits.dropLate (h : w.Fits) : (w.dropLate ready air).Fits :=
  fun x hx => h x (List.mem_filter.mp hx).1

/-- A slip that succeeds has settled the standby set at each time it proposed, within the limit (06, R124). -/
theorem State.slipPasses_traced (fuel : Nat) : ∀ (proposed : HubTime) (w : Working) (airs : List HubTime)
    {slipped w'}, w.Traced s c tag airs →
    s.slipPasses c tag ready air fuel proposed w = some (slipped, w') →
    w'.Traced s c tag (airs ++ s.slipTimes c tag ready fuel proposed w) ∧ w'.Fits ∧
    slipped ∈ s.slipTimes c tag ready fuel proposed w ∧
    ∀ a ∈ s.slipTimes c tag ready fuel proposed w,
      (a - air).toNat ≤ (s.channel c).settings.slipLimit * 10000 := by
  induction fuel with
  | zero =>
    intro proposed w airs slipped w' _ h
    simp [State.slipPasses] at h
  | succ fuel ih =>
    intro proposed w airs slipped w' traced h
    rw [State.slipPasses] at h
    rw [State.slipTimes]
    dsimp only at h ⊢
    split at h
    · cases h
    next within =>
      have within := not_lt.mp within
      split at h
      next done =>
        obtain ⟨rfl, rfl⟩ := Prod.mk.inj (Option.some.inj h)
        rw [if_pos done]
        exact ⟨traced.settle _, State.settle_fits, List.mem_singleton_self _, by simpa using within⟩
      next more =>
        rw [if_neg more]
        obtain ⟨traced', fits, among, all⟩ := ih _ _ _ (traced.settle proposed) h
        rw [List.append_assoc] at traced'
        exact ⟨traced', fits, List.mem_cons_of_mem _ among, List.forall_mem_cons.mpr ⟨within, all⟩⟩

theorem State.earliestPasses_traced (fuel : Nat) : ∀ (air : HubTime) (w : Working) (airs : List HubTime),
    w.Traced s c tag airs → w.Fits →
    (s.earliestPasses c tag ready fuel air w).2.Traced s c tag
      (airs ++ s.earliestTimes c tag ready fuel air w) ∧ (s.earliestPasses c tag ready fuel air w).2.Fits := by
  induction fuel with
  | zero =>
    intro air w airs traced fits
    rw [State.earliestTimes, List.append_nil]
    exact ⟨traced, fits⟩
  | succ fuel ih =>
    intro air w airs traced fits
    rw [State.earliestPasses, State.earliestTimes]
    dsimp only
    split
    next none => exact ⟨traced.settle _, State.settle_fits⟩
    next some =>
      rw [List.append_cons]
      exact ih _ _ _ (traced.settle air) State.settle_fits

/-- The sites that an eligible entry shows out of the standby set. -/
def Working.cold (w : Working) : Finset SiteNo :=
  Finset.univ.filter fun n => ∃ x ∈ w.eligible, x.site = n ∧ x.standby = false

theorem Working.mem_cold {n : SiteNo} : n ∈ w.cold ↔ ∃ x ∈ w.eligible, x.site = n ∧ x.standby = false := by
  simp [Working.cold]

theorem Working.cold_card : w.cold.card ≤ 48 := by
  simpa using Finset.card_le_univ w.cold

/-- A pass in which a site joins leaves fewer out of the standby set (06, R118). -/
theorem State.settle_cold (joins : (s.settle c tag air w).1 ≠ []) :
    (s.settle c tag air w).2.cold.card < w.cold.card := by
  obtain ⟨n, hn⟩ := List.exists_mem_of_ne_nil _ joins
  obtain ⟨x, hx, cold, yes, site⟩ := State.mem_joined.mp hn
  refine Finset.card_lt_card ⟨fun m hm => ?_, fun sub => ?_⟩
  · obtain ⟨y, hy, here, not⟩ := Working.mem_cold.mp hm
    obtain ⟨⟨z, hz, rfl⟩, -⟩ := State.mem_settle.mp hy
    exact Working.mem_cold.mpr ⟨z, hz, here, (Bool.or_eq_false_iff.mp not).1⟩
  · obtain ⟨y, hy, here, not⟩ := Working.mem_cold.mp (sub (Working.mem_cold.mpr ⟨x, hx, site, cold⟩))
    obtain ⟨⟨z, hz, rfl⟩, -⟩ := State.mem_settle.mp hy
    have same : z.site = x.site := here.trans site.symm
    have warm := (Bool.or_eq_false_iff.mp not).2
    rw [same, yes] at warm
    cases warm

/-- The passes suffice: the time they come to is the last they proposed (06, R118, R122). -/
theorem State.earliestPasses_proposed (fuel : Nat) : ∀ (air : HubTime) (w : Working), w.cold.card < fuel →
    (s.earliestPasses c tag ready fuel air w).1 ∈ s.earliestTimes c tag ready fuel air w := by
  induction fuel with
  | zero => exact fun _ _ h => absurd h (Nat.not_lt_zero _)
  | succ fuel ih =>
    intro air w enough
    rw [State.earliestPasses, State.earliestTimes]
    dsimp only
    split
    · exact List.mem_singleton_self _
    next some =>
      have fewer := State.settle_cold (s := s) (c := c) (tag := tag) (air := air) (w := w)
        (by simpa using some)
      exact List.mem_cons_of_mem _ (ih _ _ (by omega))

end Traced

/-! ### What the air-time stages hand on (R119 to R125) -/

section Stages
variable {s : State} {c : ChannelNo} {tag : Nat} {ready air : HubTime} {w : Working}

/-- The air times that settle the standby set for a given air time (06, R118, R124, R125). -/
def State.givenTimes (s : State) (c : ChannelNo) (tag : Nat) (ready air : HubTime) (w : Working) :
    List HubTime :=
  match w.eligible.filter fun x => x.late ready air with
  | [] => [air]
  | x :: xs =>
    let first := (s.channel c).settings.grid
      (latest (x.feasible ready) (xs.map (Candidate.feasible · ready)))
    if (s.channel c).settings.slipLimit ≠ 0 ∧ (s.slipPasses c tag ready air passes first w).isSome
    then air :: s.slipTimes c tag ready passes first w
    else [air]

/-- What a planning whose stages chose an air time has made of its sites. -/
structure Working.Chosen (s : State) (c : ChannelNo) (tag : Nat) (proposed : List HubTime) (air : HubTime)
    (w : Working) : Prop where
  traced : w.Traced s c tag proposed
  fits : w.Fits
  among : air ∈ proposed

/-- Lateness at a given air time, from sites whose standby is settled at it (06, R123 to R125). -/
theorem State.lateness_chosen (traced : w.Traced s c tag [air]) (fits : w.Fits) {chosen : HubTime} {slip : Nat}
    {w' : Working} (h : s.lateness c tag ready air w = .chosen chosen slip w') :
    w'.Chosen s c tag (s.givenTimes c tag ready air w) chosen ∧
    (∀ a ∈ s.givenTimes c tag ready air w,
      (a - (chosen - BitVec.ofNat 40 slip)).toNat ≤ (s.channel c).settings.slipLimit * 10000) ∧
    ((s.channel c).settings.slipLimit = 0 → s.givenTimes c tag ready air w = [chosen]) := by
  obtain ⟨-, from_air, -⟩ := State.lateness_spec h
  have back : chosen - BitVec.ofNat 40 slip = air := by
    rw [from_air]
    exact BitVec.add_sub_cancel _ _
  rw [back]
  have one : ∀ a ∈ [air], (a - air).toNat ≤ (s.channel c).settings.slipLimit * 10000 := by
    intro a ha
    rw [List.mem_singleton.mp ha, BitVec.sub_self]
    exact Nat.zero_le _
  rcases s.lateness_cases c tag ready air w with
    ⟨none, h'⟩ | ⟨x, xs, late, ⟨fails, h'⟩ | ⟨slipped, w'', on, slips, h'⟩⟩
  · obtain ⟨rfl, -, rfl⟩ := AirStage.chosen.inj (h'.symm.trans h)
    have times : s.givenTimes c tag ready air w = [air] := by
      have empty : (w.eligible.filter fun x => x.late ready air) = [] :=
        List.filter_eq_nil_iff.mpr fun x hx => by simp [none x hx]
      simp only [State.givenTimes, empty]
    rw [times]
    exact ⟨⟨traced, fits, List.mem_singleton_self _⟩, one, fun _ => rfl⟩
  · obtain ⟨rfl, -, rfl⟩ := AirStage.chosen.inj (h'.symm.trans h)
    have times : s.givenTimes c tag ready air w = [air] := by
      simp only [State.givenTimes, late]
      refine if_neg fun ⟨on, succeeds⟩ => ?_
      rw [fails.resolve_left on] at succeeds
      cases succeeds
    rw [times]
    exact ⟨⟨traced.dropLate, fits.dropLate, List.mem_singleton_self _⟩, one, fun _ => rfl⟩
  · obtain ⟨rfl, -, rfl⟩ := AirStage.chosen.inj (h'.symm.trans h)
    have times : s.givenTimes c tag ready air w = air :: s.slipTimes c tag ready passes
        ((s.channel c).settings.grid (latest (x.feasible ready) (xs.map (Candidate.feasible · ready)))) w := by
      simp only [State.givenTimes, late]
      exact if_pos ⟨on, by rw [slips]; rfl⟩
    rw [times]
    obtain ⟨traced', fits', among, all⟩ := State.slipPasses_traced _ _ _ _ traced slips
    exact ⟨⟨traced', fits', List.mem_cons_of_mem _ among⟩, List.forall_mem_cons.mpr ⟨one air (by simp), all⟩,
      fun off => absurd off on⟩

/-- An air time chosen, with the standby of the sites left by the times proposed (06, R118 to R125). -/
theorem State.airStage_chosen {b : Batch} {mode : TimingMode} (fresh : ∀ x ∈ w.eligible, x.standby = false)
    {chosen : HubTime} {slip : Nat} {w' : Working} (h : s.airStage c b mode w = .chosen chosen slip w') :
    w'.Chosen s c b.tag (s.proposals c b mode w) chosen ∧
    (mode ≠ .earliest → (∀ a ∈ s.proposals c b mode w,
        (a - (chosen - BitVec.ofNat 40 slip)).toNat ≤ (s.channel c).settings.slipLimit * 10000) ∧
      ((s.channel c).settings.slipLimit = 0 → s.proposals c b mode w = [chosen])) := by
  have settled (air : HubTime) : (s.settle c b.tag air w).2.Traced s c b.tag [air] := by
    have start : w.Traced s c b.tag [] := fun x hx => by simp [fresh x hx]
    exact start.settle air
  have given {ready air : HubTime}
      (h : s.lateness c b.tag ready air (s.settle c b.tag air w).2 = .chosen chosen slip w') :=
    State.lateness_chosen (settled air) State.settle_fits h
  cases mode with
  | absolute air =>
    simp only [State.airStage] at h
    split at h
    · cases h
    · obtain ⟨stands, rest⟩ := given h
      exact ⟨stands, fun _ => rest⟩
  | follow =>
    obtain ⟨stands, rest⟩ := given h
    exact ⟨stands, fun _ => rest⟩
  | earliest =>
    refine ⟨?_, fun not => absurd rfl not⟩
    let w1 := (s.settle c b.tag (s.now + ticks (s.channel c).settings.dispatch) w).2
    let first := s.firstEarliest c b (s.now + ticks (s.channel c).settings.dispatch) w
    obtain ⟨out, comes⟩ : ∃ out, s.earliestPasses c b.tag (s.now + ticks (s.channel c).settings.dispatch)
        passes first w1 = out := ⟨_, rfl⟩
    have ends := (State.earliest_eq (air := out.1) (w' := out.2) comes).symm.trans h
    split at ends
    · cases ends
    · obtain ⟨rfl, -, rfl⟩ := AirStage.chosen.inj ends
      obtain ⟨traced, fits⟩ := State.earliestPasses_traced (s := s) (c := c) (tag := b.tag)
        (ready := s.now + ticks (s.channel c).settings.dispatch) passes first w1 _ (settled _)
        State.settle_fits
      have among := State.earliestPasses_proposed (s := s) (c := c) (tag := b.tag)
        (ready := s.now + ticks (s.channel c).settings.dispatch) passes first w1
        (Working.cold_card.trans_lt (by decide))
      rw [comes] at traced fits among
      exact ⟨traced, fits, List.mem_cons_of_mem _ among⟩

end Stages

/-! ### The plan of an air time (R127) -/

section Plan
variable {s : State} {c : ChannelNo} {b : Batch} {mode : TimingMode} {ctx : Context}

/-- A planning that gives an air time plans the sites its stages and its zones left, one at least. -/
theorem State.runPlanning_planned {air : HubTime} {slip : Nat}
    (h : (s.runPlanning c b mode ctx).air = some (air, slip)) :
    ∃ w included removed, s.airStage c b mode (s.eligibility c ctx (s.candidates c b.sites)) =
        .chosen air slip w ∧ included ≠ [] ∧ (∀ x ∈ included, x ∈ w.eligible) ∧
      (s.runPlanning c b mode ctx).plan = planList (s.candidates c b.sites)
        (included.map fun x => (x.site, x.entry s.now air)) removed := by
  unfold State.runPlanning at h ⊢
  dsimp only at h ⊢
  cases stage : s.airStage c b mode (s.eligibility c ctx (s.candidates c b.sites)) with
  | overlap => rw [stage] at h; cases h
  | noSite w => rw [stage] at h; cases h
  | chosen chosen slip' w =>
    rw [stage] at h
    have zoned := State.zonePass_included (s := s) (included := w.eligible)
    simp only [State.planResult] at h ⊢
    generalize s.zonePass w.eligible = p at h zoned
    by_cases stopped : p.stopped = true
    · rw [if_pos stopped] at h
      cases h
    rw [if_neg stopped] at h ⊢
    by_cases empty : p.included.isEmpty = true
    · rw [if_pos empty] at h
      cases h
    rw [if_neg empty] at h ⊢
    obtain ⟨rfl, rfl⟩ := Prod.mk.inj (Option.some.inj h)
    exact ⟨w, p.included, _, rfl, fun none => empty (by rw [none]; rfl), zoned, rfl⟩

/-- The plan lists an included entry for each candidate that has one. -/
theorem planList_included {ns : List SiteNo} {entries : List (SiteNo × Included)}
    {removed : List (SiteNo × ExclusionReason)} {n : SiteNo} (hn : n ∈ ns) (has : ∃ p ∈ entries, p.1 = n) :
    ∃ e, ⟨n, .included e⟩ ∈ planList ns entries removed := by
  have found : (entries.find? fun p => p.1 == n).isSome = true := by
    simpa [List.find?_isSome] using has
  obtain ⟨q, hq⟩ := Option.isSome_iff_exists.mp found
  exact ⟨q.2, List.mem_filterMap.mpr ⟨n, hn, by rw [hq]⟩⟩

theorem releaseOf_eq (target : FineTime) :
    releaseOf target = BitVec.ofNat 40 ((target - BitVec.ofNat 44 (2 ^ 28) + 1#44 + 15#44).toNat / 16) := by
  rw [BitVec.add_assoc]
  rfl

/-- An eligible site after the air-time stages carries its context figures. -/
theorem State.airStage_figures {air : HubTime} {slip : Nat} {w : Working}
    (h : s.airStage c b mode (s.eligibility c ctx (s.candidates c b.sites)) = .chosen air slip w)
    {x : Candidate} (hx : x ∈ w.eligible) : x.site ∈ s.candidates c b.sites ∧
      ctx.entries[x.site] = some x.figures ∧ x.figures.d = some x.d := by
  have kept : x ∈ (s.stages c b mode ctx).eligible := by
    rw [State.stages, h]
    exact hx
  obtain ⟨hn, k, test⟩ := State.stages_eligible kept
  obtain ⟨_, f, d, -, -, -, -, -, entry, hd, same⟩ := State.testSite_eligible test
  obtain ⟨-, rfl, rfl, -⟩ := Candidate.mk.inj same
  exact ⟨hn, entry, hd⟩

end Plan

/-- Settles O47: an included entry is that of a site the stages left, whose standby the times proposed set. -/
theorem plannedEntriesCarryThePlanningSums : Obligations.PlannedEntriesCarryThePlanningSums := by
  refine ⟨fun s c tag air n => ⟨fun x => State.mem_keyings, fun none => ?_,
    fun base k q hk near most enrolled => State.inStandby_latest hk near most enrolled⟩,
    fun s c b mode ctx air slip planned => ?_⟩
  · simp only [State.inStandby, none]
  obtain ⟨w, included, removed, stage, some, kept, plan⟩ := State.runPlanning_planned planned
  rw [plan]
  have fresh : ∀ x ∈ (s.eligibility c ctx (s.candidates c b.sites)).eligible, x.standby = false := by
    intro x hx
    obtain ⟨_, _, _, -, -, -, -, -, -, -, same⟩ := State.testSite_eligible (State.mem_eligibility.mp hx).2
    rw [same]
  obtain ⟨⟨traced, fits, among⟩, bounded⟩ := State.airStage_chosen fresh stage
  refine ⟨?_, fun ⟨n, _⟩ e hp disp => ?_⟩
  · obtain ⟨x, hx⟩ := List.exists_mem_of_ne_nil _ some
    obtain ⟨hn, -, -⟩ := State.airStage_figures stage (kept x hx)
    obtain ⟨e, he⟩ := planList_included (removed := removed) hn
      (entries := included.map fun x => (x.site, x.entry s.now air)) ⟨_, List.mem_map_of_mem hx, rfl⟩
    exact ⟨_, e, he, rfl⟩
  · obtain ⟨-, ⟨e', he', included'⟩ | ⟨reason, -, excluded⟩⟩ := mem_planList hp
    · obtain ⟨x, hx, pair⟩ := List.mem_map.mp he'
      obtain ⟨site, rfl⟩ := Prod.mk.inj pair
      obtain rfl : x.site = n := site
      obtain rfl := Disposition.included.inj (included'.symm.trans disp)
      have left := kept x hx
      obtain ⟨-, entry, hd⟩ := State.airStage_figures stage left
      have warm := traced x left
      have fit : x.holdFloor ≤ 2 ^ 28 - 1 := by
        exact not_lt.mp (of_decide_eq_false (fits x left))
      refine ⟨x.figures, x.d, entry, hd, fit, rfl, rfl, releaseOf_eq _, rfl, rfl, rfl, rfl, rfl, rfl, rfl, rfl,
        fun standby => warm.mpr ⟨air, among, standby⟩, ⟨warm, fun given => (bounded given).1⟩,
        fun given off => ?_⟩
      have warm' : x.standby = true ↔ s.inStandby c b.tag air x.site = true := by
        rw [warm, (bounded given).2 off]
        simp
      exact Bool.eq_iff_iff.mpr warm'
    · exact nomatch disp.symm.trans excluded

end Sys2Proof.Machine
end

