-- ==== Sys2Proof/Proofs/FrameBytes.lean ====
section
/-! PROOFS. Each reader of a value gives back what its writer spelled, with the bytes behind it: numbers,
masks, lists and spans (09, Value encodings). -/

namespace Sys2Proof.Machine

/-! ### Numbers -/

theorem natBytes_length (n v : Nat) : (natBytes n v).length = n := by
  rw [natBytes_eq, List.length_map, List.length_range]

theorem natBytes_add_mul (n v a : Nat) : natBytes n (v + a * 256 ^ n) = natBytes n v := by
  induction n generalizing a with
  | zero => rfl
  | succ n ih =>
    have split : a * 256 ^ (n + 1) = a * 256 * 256 ^ n := by ring
    rw [natBytes, natBytes, split, ih, Nat.add_mul_div_right _ _ (by positivity)]
    congr 1
    apply BitVec.eq_of_toNat_eq
    simp

theorem bytesNat_cons (b : Byte) (bytes : List Byte) :
    bytesNat (b :: bytes) = b.toNat * 256 ^ bytes.length + bytesNat bytes := by
  have shifted (bytes : List Byte) : ∀ acc : Nat, bytes.foldl (fun acc b => acc * 256 + b.toNat) acc =
      acc * 256 ^ bytes.length + bytesNat bytes := by
    induction bytes with
    | nil => simp [bytesNat]
    | cons b bytes ih =>
      intro acc
      rw [bytesNat, List.foldl_cons, List.foldl_cons, ih, ih, List.length_cons]
      ring
  rw [bytesNat, List.foldl_cons, shifted]
  simp

theorem bytesNat_natBytes (n v : Nat) : bytesNat (natBytes n v) = v % 256 ^ n := by
  induction n with
  | zero => simp [natBytes, bytesNat, Nat.mod_one]
  | succ n ih =>
    rw [natBytes, bytesNat_cons, natBytes_length, ih, BitVec.toNat_ofNat, Nat.mod_pow_succ (b := 256),
      Nat.add_comm, Nat.mul_comm]

/-- A number that fits its bytes reads back. -/
theorem readNat_natBytes (n : Nat) {v : Nat} (fits : v < 2 ^ (8 * n)) (rest : List Byte) :
    readNat n (natBytes n v ++ rest) = some (v, rest) := by
  have size := natBytes_length n v
  rw [readNat, if_neg (by rw [List.length_append]; omega), List.take_left' size, List.drop_left' size,
    bytesNat_natBytes, Nat.mod_eq_of_lt]
  rwa [pow_mul] at fits

theorem readInt_intBytes {v : Int} (fits : -2147483648 ≤ v ∧ v < 2147483648) (rest : List Byte) :
    readInt (intBytes 4 v ++ rest) = some (v, rest) := by
  have small : (v % 256 ^ 4).toNat < 2 ^ (8 * 4) := by omega
  rw [readInt, intBytes, readNat_natBytes 4 small]
  refine congrArg some (Prod.ext ?_ rfl)
  dsimp only
  split <;> omega

theorem readTime_timeBytes (x : HubTime) (rest : List Byte) :
    readTime (timeBytes x ++ rest) = some (x, rest) := by
  rw [readTime, timeBytes, readNat_natBytes 5 x.isLt]
  exact congrArg some (Prod.ext (BitVec.ofNat_toNat 40 x ▸ BitVec.setWidth_eq x) rfl)

theorem readFlag_natBytes (b : Bool) (rest : List Byte) :
    readFlag (natBytes 1 b.toNat ++ rest) = some (b, rest) := by
  rw [readFlag, readNat_natBytes 1 (by cases b <;> decide)]
  cases b <;> rfl

/-! ### Optional and required fields -/

/-- A field reads back with its presence bit when its value does. -/
theorem readField_fieldBytes {α : Type} {read : List Byte → Option (α × List Byte)}
    {write : α → List Byte} {x : Option α}
    (reads : ∀ v, x = some v → ∀ rest, read (write v ++ rest) = some (v, rest)) (rest : List Byte) :
    readField x.isSome read (fieldBytes write x ++ rest) = some (x, rest) := by
  cases x with
  | none => rfl
  | some v =>
    rw [readField, fieldBytes, Option.isSome_some, if_pos rfl, reads v rfl]
    rfl

theorem readField_nat (n : Nat) {x : Option Nat} (fits : fitsNat (8 * n) x = true) (rest : List Byte) :
    readField x.isSome (readNat n) (fieldBytes (natBytes n) x ++ rest) = some (x, rest) :=
  readField_fieldBytes (fun v hv => readNat_natBytes n (by simpa [fitsNat, hv] using fits)) rest

theorem readField_int {x : Option Int} (fits : fitsInt x = true) (rest : List Byte) :
    readField x.isSome readInt (fieldBytes (intBytes 4) x ++ rest) = some (x, rest) :=
  readField_fieldBytes (fun v hv => readInt_intBytes (by simpa [fitsInt, hv] using fits)) rest

theorem readField_time (x : Option HubTime) (rest : List Byte) :
    readField x.isSome readTime (fieldBytes timeBytes x ++ rest) = some (x, rest) :=
  readField_fieldBytes (fun v _ => readTime_timeBytes v) rest

theorem readRequired_nat (n : Nat) {v : Nat} (fits : fitsNat (8 * n) (some v) = true) (rest : List Byte) :
    readRequired true (readNat n) (natBytes n v ++ rest) = some (v, rest) :=
  readNat_natBytes n (by simpa [fitsNat] using fits) rest

theorem readRequired_int {v : Int} (fits : fitsInt (some v) = true) (rest : List Byte) :
    readRequired true readInt (intBytes 4 v ++ rest) = some (v, rest) :=
  readInt_intBytes (by simpa [fitsInt] using fits) rest

/-! ### Lists and spans -/

theorem readItems_flatMap {l : List Nat} (fits : ∀ v ∈ l, v < 256) (rest : List Byte) :
    readItems l.length (l.flatMap (natBytes 1) ++ rest) = some (l, rest) := by
  induction l with
  | nil => rfl
  | cons v l ih =>
    obtain ⟨first, others⟩ := List.forall_mem_cons.mp fits
    rw [List.length_cons, List.flatMap_cons, List.append_assoc, readItems, readNat_natBytes 1 first]
    exact congrArg (· >>= _) (ih others)

theorem readField_list {x : Option (List Nat)} (fits : fitsList x = true) (rest : List Byte) :
    readField x.isSome readList (fieldBytes listBytes x ++ rest) = some (x, rest) := by
  refine readField_fieldBytes (fun l hl rest => ?_) rest
  obtain ⟨short, small⟩ : l.length < 256 ∧ ∀ v ∈ l, v < 256 := by
    simpa [fitsList, hl] using fits
  rw [readList, listBytes, List.append_assoc, readNat_natBytes 1 short]
  exact readItems_flatMap small rest

theorem spanShape_lt (p : Span) : spanShape p < 256 := by
  unfold spanShape
  split <;> split <;> split <;> decide

theorem readSpan_spanBytes {p : Span} (fits : p.wf = true) (rest : List Byte) :
    readSpan (spanBytes p ++ rest) = some (p, rest) := by
  obtain ⟨symbols, payload⟩ : p.symbols < 2 ^ 16 ∧ p.payload.getD 0 < 2 ^ 16 := by
    obtain ⟨symbols, payload⟩ := Bool.and_eq_true_iff.mp fits
    refine ⟨of_decide_eq_true symbols, ?_⟩
    cases tag : p.payload with
    | none => decide
    | some x => exact of_decide_eq_true (by rwa [tag] at payload)
  simp only [readSpan, spanBytes, List.append_assoc, readNat_natBytes 2 symbols,
    readNat_natBytes 1 (spanShape_lt p), readNat_natBytes 2 payload, Option.bind_eq_bind, Option.bind_some]
  obtain ⟨n, rate, levels, tag⟩ := p
  cases rate <;> cases levels <;> cases tag <;> simp [spanShape]

theorem readSpans_flatMap {l : List Span} (fits : l.all Span.wf = true) (rest : List Byte) :
    readSpans l.length (l.flatMap spanBytes ++ rest) = some (l, rest) := by
  induction l with
  | nil => rfl
  | cons p l ih =>
    obtain ⟨first, others⟩ := Bool.and_eq_true_iff.mp fits
    rw [List.length_cons, List.flatMap_cons, List.append_assoc, readSpans, readSpan_spanBytes first]
    exact congrArg (· >>= _) (ih others)

/-! ### Presence masks -/

/-- The number that bits spell, the first most significant. -/
def bitsNat (bits : List Bool) : Nat := bits.foldl (fun acc b => acc * 2 + b.toNat) 0

theorem bitsNat_append (l bits : List Bool) :
    bitsNat (l ++ bits) = bitsNat bits + bitsNat l * 2 ^ bits.length := by
  have shifted (bits : List Bool) : ∀ acc : Nat, bits.foldl (fun acc b => acc * 2 + b.toNat) acc =
      bitsNat bits + acc * 2 ^ bits.length := by
    induction bits with
    | nil => simp [bitsNat]
    | cons b bits ih =>
      intro acc
      rw [bitsNat, List.foldl_cons, List.foldl_cons, ih, ih, List.length_cons]
      ring
  rw [bitsNat, List.foldl_append, shifted]
  rfl

theorem bitsNat_lt (bits : List Bool) : bitsNat bits < 2 ^ bits.length := by
  induction bits using List.reverseRecOn with
  | nil => decide
  | append_singleton bits b ih =>
    rw [bitsNat_append, List.length_append, pow_add]
    have last : bitsNat [b] ≤ 1 := by cases b <;> decide
    simp only [List.length_singleton, pow_one]
    omega

theorem byteBits_bitsNat {bits : List Bool} (eight : bits.length = 8) :
    byteBits (BitVec.ofNat 8 (bitsNat bits)) = bits := by
  match bits, eight with
  | [a, b, c, d, e, f, g, h], _ => revert a b c d e f g h; decide

/-- Whole bytes of a number give back the bits that spell it. -/
theorem flatMap_byteBits (n : Nat) : ∀ {bits : List Bool}, bits.length = 8 * n →
    (natBytes n (bitsNat bits)).flatMap byteBits = bits := by
  induction n with
  | zero =>
    intro bits size
    rw [List.length_eq_zero_iff.mp size]
    rfl
  | succ n ih =>
    intro bits size
    have behind : (bits.drop 8).length = 8 * n := by rw [List.length_drop]; omega
    have first : (bits.take 8).length = 8 := by rw [List.length_take]; omega
    have spelled : bitsNat bits = bitsNat (bits.drop 8) + bitsNat (bits.take 8) * 256 ^ n := by
      rw [← bits.take_append_drop 8, bitsNat_append, bits.take_append_drop, behind, pow_mul]
      rfl
    have small : bitsNat (bits.drop 8) < 256 ^ n := by
      have := bitsNat_lt (bits.drop 8)
      rwa [behind, pow_mul] at this
    rw [natBytes, spelled, natBytes_add_mul, Nat.add_mul_div_right _ _ (by positivity),
      Nat.div_eq_of_lt small, Nat.zero_add, List.flatMap_cons, byteBits_bitsNat first, ih behind,
      List.take_append_drop]

/-- A presence mask reads back as its bits (09, Presence mask). -/
theorem readMask_maskBytes {n : Nat} {bits : List Bool} (fields : bits.length = n) (rest : List Byte) :
    readMask n (maskBytes bits ++ rest) = some (bits, rest) := by
  subst fields
  have room : bits.length ≤ 8 * maskSize bits.length := by unfold maskSize; omega
  have size : (maskBytes bits).length = maskSize bits.length := natBytes_length _ _
  have padded : (maskBytes bits).flatMap byteBits =
      bits ++ List.replicate (8 * maskSize bits.length - bits.length) false :=
    flatMap_byteBits _ (by rw [List.length_append, List.length_replicate]; omega)
  simp only [readMask, List.take_left' size, List.drop_left' size, padded, List.take_left, List.drop_left,
    List.length_append, size]
  simp

end Sys2Proof.Machine
end

