-- ==== Sys2Proof/Proofs/CommandFrames.lean ====
section
/-! PROOFS. The frames: a command body reads back field by field, a frame through its check field, and the
frames to the sites are those of 09 (R149, R141, R142, R161). -/

namespace Sys2Proof.Machine

/-! ### Command bodies -/

/-- A reader whose first part reads goes on with the value read and the bytes left. -/
theorem bind_read {α β : Type} {read : Option (α × List Byte)} {v : α} {rest : List Byte}
    {next : α × List Byte → Option β} {out : Option β} (first : read = some (v, rest))
    (others : next (v, rest) = out) : (read >>= next) = out := by
  rw [first]
  exact others

theorem readWhole_some {α : Type} (v : α) : readWhole (some (v, [])) = some v := rfl

theorem readSingle_natBytes (n : Nat) {v : Nat} (fits : fitsNat (8 * n) (some v) = true) :
    readSingle n (maskBytes [true] ++ natBytes n v) = some v := by
  rw [← List.append_nil (natBytes n v)]
  exact bind_read (readMask_maskBytes rfl _) (congrArg readWhole (readRequired_nat n fits []))

theorem readEmpty_maskBytes : readEmpty (maskBytes []) = some () := by
  decide

theorem readProbeBody_bytes {n k : Nat} (site : fitsNat 8 (some n) = true) (count : fitsNat 8 (some k) = true) :
    readProbeBody (maskBytes [true, true] ++ natBytes 1 n ++ natBytes 1 k) = some (n, k) := by
  rw [← List.append_nil (natBytes 1 k), List.append_assoc]
  exact bind_read (readMask_maskBytes rfl _) <| bind_read (readRequired_nat 1 site _) <|
    bind_read (readRequired_nat 1 count _) <| readWhole_some _

theorem readSiteBody_bytes {n : Nat} {f : SiteFields} (site : fitsNat 8 (some n) = true) (fits : f.wf = true) :
    readSiteBody (siteFieldBytes n f) = some (n, f) := by
  simp only [SiteFields.wf, Bool.and_eq_true] at fits
  obtain ⟨⟨⟨⟨⟨⟨⟨⟨⟨⟨⟨⟨⟨members, steer⟩, share⟩, e⟩, o⟩, m⟩, w⟩, idle⟩, ceiling⟩, fast⟩, slow⟩, gate⟩,
    gain⟩, seed⟩ := fits
  rw [← List.append_nil (siteFieldBytes n f), siteFieldBytes]
  simp only [List.append_assoc]
  exact bind_read (readMask_maskBytes rfl _) <| bind_read (readRequired_nat 1 site _) <|
    bind_read (readField_list members _) <| bind_read (readField_nat 1 steer _) <|
    bind_read (readField_nat 2 share _) <| bind_read (readField_nat 4 e _) <|
    bind_read (readField_int o _) <| bind_read (readField_nat 5 m _) <|
    bind_read (readField_nat 5 w _) <| bind_read (readField_nat 4 idle _) <|
    bind_read (readField_nat 5 ceiling _) <| bind_read (readField_nat 4 fast _) <|
    bind_read (readField_nat 4 slow _) <| bind_read (readField_nat 4 gate _) <|
    bind_read (readField_nat 1 gain _) <| bind_read (readField_nat 4 seed _) <| readWhole_some _

theorem readMeasurementBody_bytes {f : MeasurementFields} (fits : f.wf = true) :
    readMeasurementBody
      (maskBytes [f.settleCount.isSome, f.staleLimit.isSome, f.stepConfirm.isSome, f.quietGap.isSome] ++
        fieldBytes (natBytes 1) f.settleCount ++ fieldBytes (natBytes 1) f.staleLimit ++
        fieldBytes (natBytes 1) f.stepConfirm ++ fieldBytes (natBytes 4) f.quietGap) = some f := by
  simp only [MeasurementFields.wf, Bool.and_eq_true] at fits
  obtain ⟨⟨⟨settle, stale⟩, confirm⟩, quiet⟩ := fits
  rw [← List.append_nil (fieldBytes (natBytes 4) f.quietGap)]
  simp only [List.append_assoc]
  exact bind_read (readMask_maskBytes rfl _) <| bind_read (readField_nat 1 settle _) <|
    bind_read (readField_nat 1 stale _) <| bind_read (readField_nat 1 confirm _) <|
    bind_read (readField_nat 4 quiet _) <| readWhole_some _

theorem readDefineZoneBody_bytes {z : Nat} {f : ZoneDefinition} (zone : fitsNat 8 (some z) = true)
    (fits : f.wf = true) :
    readDefineZoneBody (maskBytes [true, true, true, true, true, true] ++ natBytes 1 z ++ natBytes 1 f.siteA ++
      natBytes 1 f.siteB ++ intBytes 4 f.g ++ natBytes 4 f.budget ++ natBytes 1 f.policy) = some (z, f) := by
  simp only [ZoneDefinition.wf, Bool.and_eq_true] at fits
  obtain ⟨⟨⟨⟨a, b⟩, g⟩, budget⟩, policy⟩ := fits
  rw [← List.append_nil (natBytes 1 f.policy)]
  simp only [List.append_assoc]
  exact bind_read (readMask_maskBytes rfl _) <| bind_read (readRequired_nat 1 zone _) <|
    bind_read (readRequired_nat 1 a _) <| bind_read (readRequired_nat 1 b _) <|
    bind_read (readRequired_int g _) <| bind_read (readRequired_nat 4 budget _) <|
    bind_read (readRequired_nat 1 policy _) <| readWhole_some _

theorem readAmendZoneBody_bytes {z : Nat} {f : ZoneFields} (zone : fitsNat 8 (some z) = true)
    (fits : f.wf = true) :
    readAmendZoneBody
      (maskBytes [true, f.siteA.isSome, f.siteB.isSome, f.g.isSome, f.budget.isSome, f.policy.isSome] ++
        natBytes 1 z ++ fieldBytes (natBytes 1) f.siteA ++ fieldBytes (natBytes 1) f.siteB ++
        fieldBytes (intBytes 4) f.g ++ fieldBytes (natBytes 4) f.budget ++ fieldBytes (natBytes 1) f.policy) =
      some (z, f) := by
  simp only [ZoneFields.wf, Bool.and_eq_true] at fits
  obtain ⟨⟨⟨⟨a, b⟩, g⟩, budget⟩, policy⟩ := fits
  rw [← List.append_nil (fieldBytes (natBytes 1) f.policy)]
  simp only [List.append_assoc]
  exact bind_read (readMask_maskBytes rfl _) <| bind_read (readRequired_nat 1 zone _) <|
    bind_read (readField_nat 1 a _) <| bind_read (readField_nat 1 b _) <| bind_read (readField_int g _) <|
    bind_read (readField_nat 4 budget _) <| bind_read (readField_nat 1 policy _) <| readWhole_some _

theorem readChannelBody_bytes {c : Nat} {f : ChannelFields} (channel : fitsNat 8 (some c) = true)
    (fits : f.wf = true) : readChannelBody (channelFieldBytes c f) = some (c, f) := by
  simp only [ChannelFields.wf, Bool.and_eq_true] at fits
  obtain ⟨⟨⟨⟨⟨⟨⟨⟨p0, p1⟩, guardTime⟩, lead⟩, dispatch⟩, slip⟩, period⟩, origin⟩, notice⟩ := fits
  rw [← List.append_nil (channelFieldBytes c f), channelFieldBytes]
  simp only [List.append_assoc]
  exact bind_read (readMask_maskBytes rfl _) <| bind_read (readRequired_nat 1 channel _) <|
    bind_read (readField_nat 5 p0 _) <| bind_read (readField_nat 5 p1 _) <|
    bind_read (readField_nat 5 guardTime _) <| bind_read (readField_nat 4 lead _) <|
    bind_read (readField_nat 5 dispatch _) <| bind_read (readField_nat 4 slip _) <|
    bind_read (readField_nat 5 period _) <| bind_read (readField_nat 5 origin _) <|
    bind_read (readField_nat 1 notice _) <| readWhole_some _

theorem readTimebaseBody_bytes {f : TimebaseFields} (fits : f.wf = true) :
    readTimebaseBody (maskBytes [f.edgeFilter.isSome, f.lockWindow.isSome, f.holdoverLimit.isSome] ++
      fieldBytes (natBytes 1) f.edgeFilter ++ fieldBytes (natBytes 5) f.lockWindow ++
      fieldBytes (natBytes 4) f.holdoverLimit) = some f := by
  simp only [TimebaseFields.wf, Bool.and_eq_true] at fits
  obtain ⟨⟨filter, window⟩, limit⟩ := fits
  rw [← List.append_nil (fieldBytes (natBytes 4) f.holdoverLimit)]
  simp only [List.append_assoc]
  exact bind_read (readMask_maskBytes rfl _) <| bind_read (readField_nat 1 filter _) <|
    bind_read (readField_nat 5 window _) <| bind_read (readField_nat 4 limit _) <| readWhole_some _

/-- The air time that ABSOLUTE requires is there in a submission that fits (09, SUBMIT body). -/
theorem readSubmitBody_bytes {q : Submission} (fits : q.wf = true) :
    readSubmitBody (submitBytes q) = some q := by
  simp only [Submission.wf, Bool.and_eq_true, decide_eq_true_eq] at fits
  obtain ⟨⟨⟨⟨⟨⟨given, channel⟩, tag⟩, mode⟩, sites⟩, number⟩, spans⟩ := fits
  have given : ¬ (q.mode == 0 && q.air.isNone) = true := by
    cases hm : q.mode <;> cases ha : q.air <;> simp [hm, ha] at given ⊢
  rw [← List.append_nil (submitBytes q), submitBytes]
  simp only [List.append_assoc]
  exact bind_read (readMask_maskBytes rfl _) <| bind_read (readRequired_nat 1 channel _) <|
    bind_read (readRequired_nat 2 tag _) <| bind_read (readRequired_nat 1 mode _) <|
    bind_read (readField_time q.air _) <| bind_read (readField_list sites _) <|
    bind_read (readFlag_natBytes q.notice _) <| bind_read (readNat_natBytes 1 number _) <|
    bind_read (readSpans_flatMap spans _) <| (if_neg given).trans <| readWhole_some _

theorem readCollectBody_tag {tag : Nat} (fits : fitsNat 16 (some tag) = true) :
    readCollectBody (maskBytes [true, false] ++ natBytes 2 tag) = some (.byTag tag) := by
  rw [← List.append_nil (natBytes 2 tag)]
  exact bind_read (readMask_maskBytes rfl _)
    (congrArg (fun p => (readWhole p).map CollectKey.byTag) (readRequired_nat 2 fits []))

theorem readCollectBody_channel {c : Nat} (fits : fitsNat 8 (some c) = true) :
    readCollectBody (maskBytes [false, true] ++ natBytes 1 c) = some (.byChannel c) := by
  rw [← List.append_nil (natBytes 1 c)]
  exact bind_read (readMask_maskBytes rfl _)
    (congrArg (fun p => (readWhole p).map CollectKey.byChannel) (readRequired_nat 1 fits []))

theorem commandBytes_identifier_lt {i : Instr} {identifier : Nat} {label : Byte} {body : List Byte}
    (spelled : commandBytes i = some (identifier, label, body)) : identifier < 256 := by
  unfold commandBytes at spelled
  split at spelled <;> cases spelled <;> decide

/-- The body of a host command reads back under its identifier (09, Command identifiers and fields). -/
theorem readBody_commandBytes {i : Instr} {identifier : Nat} {label : Byte} {body : List Byte}
    (fits : i.wf = true) (spelled : commandBytes i = some (identifier, label, body)) :
    readBody identifier label body = some i := by
  cases i with
  | enrol l n f =>
    obtain ⟨site, fields⟩ := Bool.and_eq_true_iff.mp fits
    cases spelled
    simp only [readBody, readSiteBody_bytes site fields, Option.map_some]
  | amendSite l n f =>
    obtain ⟨site, fields⟩ := Bool.and_eq_true_iff.mp fits
    cases spelled
    simp only [readBody, readSiteBody_bytes site fields, Option.map_some]
  | querySite l n =>
    cases spelled
    simp only [readBody, readSingle_natBytes 1 fits, Option.map_some]
  | retire l n =>
    cases spelled
    simp only [readBody, readSingle_natBytes 1 fits, Option.map_some]
  | probe l n k =>
    obtain ⟨site, count⟩ := Bool.and_eq_true_iff.mp fits
    cases spelled
    simp only [readBody, readProbeBody_bytes site count, Option.map_some]
  | setMeasurement l f =>
    cases spelled
    simp only [readBody, readMeasurementBody_bytes fits, Option.map_some]
  | defineZone l z f =>
    obtain ⟨zone, fields⟩ := Bool.and_eq_true_iff.mp fits
    cases spelled
    simp only [readBody, readDefineZoneBody_bytes zone fields, Option.map_some]
  | amendZone l z f =>
    obtain ⟨zone, fields⟩ := Bool.and_eq_true_iff.mp fits
    cases spelled
    simp only [readBody, readAmendZoneBody_bytes zone fields, Option.map_some]
  | dropZone l z =>
    cases spelled
    simp only [readBody, readSingle_natBytes 1 fits, Option.map_some]
  | queryZone l z =>
    cases spelled
    simp only [readBody, readSingle_natBytes 1 fits, Option.map_some]
  | setChannel l c f =>
    obtain ⟨channel, fields⟩ := Bool.and_eq_true_iff.mp fits
    cases spelled
    simp only [readBody, readChannelBody_bytes channel fields, Option.map_some]
  | submit l q =>
    cases spelled
    simp only [readBody, readSubmitBody_bytes fits, Option.map_some]
  | cancel l t =>
    cases spelled
    simp only [readBody, readSingle_natBytes 2 fits, Option.map_some]
  | flushChannel l c =>
    cases spelled
    simp only [readBody, readSingle_natBytes 1 fits, Option.map_some]
  | queryBatch l t =>
    cases spelled
    simp only [readBody, readSingle_natBytes 2 fits, Option.map_some]
  | collect l key =>
    cases key with
    | byTag t =>
      cases spelled
      simp only [readBody, readCollectBody_tag fits, Option.map_some]
    | byChannel c =>
      cases spelled
      simp only [readBody, readCollectBody_channel fits, Option.map_some]
  | pin l c =>
    cases spelled
    simp only [readBody, readSingle_natBytes 1 fits, Option.map_some]
  | unpin l c =>
    cases spelled
    simp only [readBody, readSingle_natBytes 1 fits, Option.map_some]
  | timeMark l n =>
    cases spelled
    simp only [readBody, readSingle_natBytes 4 fits, Option.map_some]
  | readTime l =>
    cases spelled
    simp only [readBody, readEmpty_maskBytes, Option.map_some]
  | setTimebase l f =>
    cases spelled
    simp only [readBody, readTimebaseBody_bytes fits, Option.map_some]
  | setHighway l r =>
    cases spelled
    simp only [readBody, readSingle_natBytes 2 fits, Option.map_some]
  | readStatus l =>
    cases spelled
    simp only [readBody, readEmpty_maskBytes, Option.map_some]
  | restart l =>
    cases spelled
    simp only [readBody, readEmpty_maskBytes, Option.map_some]
  | _ => cases spelled

/-! ### Frames in their check field -/

theorem withCheck_length (covered : List Byte) : (withCheck covered).length = covered.length + 2 := by
  rw [withCheck, List.length_append, natBytes_length]

theorem checked_withCheck (covered : List Byte) : checked (withCheck covered) = some covered := by
  have stripped : (withCheck covered).dropLast.dropLast = covered := by
    rw [List.dropLast_eq_take, List.dropLast_eq_take, List.take_take]
    refine List.take_left' ?_
    simp only [List.length_take, withCheck_length]
    omega
  have long : 2 ≤ (withCheck covered).length := by
    rw [withCheck_length]
    omega
  simp only [checked, stripped, long, decide_true, Bool.true_and, beq_self_eq_true, if_true]

/-- A command frame reads as its row, whatever follows it in the transaction (08, R149). -/
theorem readCommandFrame_commandFrame {i : Instr} {bytes : List Byte} (fits : i.wf = true)
    (spelled : commandFrame i = some bytes) (more : List Byte) :
    readCommandFrame (bytes ++ more) = .row i := by
  unfold commandFrame at spelled
  cases command : commandBytes i with
  | none => rw [command] at spelled; cases spelled
  | some parts =>
    obtain ⟨identifier, label, body⟩ := parts
    have small := commandBytes_identifier_lt command
    have reads := readBody_commandBytes fits command
    simp only [command] at spelled
    split at spelled
    · next short =>
      cases spelled
      generalize hframe : withCheck (BitVec.ofNat 8 identifier :: label :: body) = frame at short
      have back : checked frame = some (BitVec.ofNat 8 identifier :: label :: body) :=
        hframe ▸ checked_withCheck _
      have size : (BitVec.ofNat 8 frame.length).toNat = frame.length := Nat.mod_eq_of_lt short
      have some : BitVec.ofNat 8 frame.length ≠ 0 := by
        intro none
        rw [none, ← hframe, withCheck_length] at size
        cases size
      have named : (BitVec.ofNat 8 identifier).toNat = identifier := Nat.mod_eq_of_lt small
      rw [List.cons_append, readCommandFrame, if_neg some]
      simp only [size, List.take_left, lt_irrefl, if_false, back, named, reads]
    · cases spelled

/-! ### Frames of the site highway -/

/-- The two bytes of a value join to it. -/
theorem ofNat_append_ofNat (v : BitVec 16) :
    BitVec.ofNat 8 (v.toNat / 256 ^ 1) ++ BitVec.ofNat 8 (v.toNat / 256 ^ 0) = v := by
  apply BitVec.eq_of_toNat_eq
  rw [BitVec.toNat_append, BitVec.toNat_ofNat, BitVec.toNat_ofNat, ← Nat.shiftLeft_add_eq_or_of_lt
    (Nat.mod_lt _ (by decide)), Nat.shiftLeft_eq]
  omega

theorem readInboundFrame_echo {site sq : Byte} {turn : BitVec 16} (known : site.toNat < 48) :
    readInboundFrame (flagByte :: withCheck ([129#8, site, sq] ++ natBytes 2 turn.toNat)) =
      some (.echo site sq turn) := by
  have check := checked_withCheck ([129#8, site, sq] ++ natBytes 2 turn.toNat)
  have joined := ofNat_append_ofNat turn
  simp only [withCheck, natBytes, List.cons_append, List.nil_append] at check ⊢
  rw [readInboundFrame, if_neg (by decide), if_pos (by decide), if_neg (fun size => size rfl), List.drop_one, List.tail_cons, check]
  simp only [if_neg (not_le.mpr known), joined]

theorem readInboundFrame_receipt {site channel : Byte} {tag : BitVec 16} {verdict : Byte} {turn : BitVec 16}
    (known : site.toNat < 48) (valid : verdict.toNat < 3) :
    readInboundFrame (flagByte :: withCheck ([130#8, site, channel] ++ natBytes 2 tag.toNat ++ [verdict] ++
      natBytes 2 turn.toNat)) = some (.receipt site channel tag verdict turn) := by
  have check := checked_withCheck ([130#8, site, channel] ++ natBytes 2 tag.toNat ++ [verdict] ++
    natBytes 2 turn.toNat)
  have tagged := ofNat_append_ofNat tag
  have joined := ofNat_append_ofNat turn
  simp only [withCheck, natBytes, List.cons_append, List.nil_append] at check ⊢
  rw [readInboundFrame, if_neg (by decide), if_neg (by decide), if_pos (by decide), if_neg (fun size => size rfl), List.drop_one,
    List.tail_cons, check]
  simp only [if_neg (not_le.mpr known), if_neg (not_le.mpr valid), tagged, joined]

/-! ### Frames the part sends -/

theorem natBytes_one (v : Nat) : natBytes 1 v = [BitVec.ofNat 8 v] := by
  simp [natBytes]

theorem spanShape_eq (p : Span) : spanShape p =
    (match p.rate with | .zero => 0 | .one => 128) + (match p.levels with | .two => 0 | .four => 64) +
      (if p.payload = none then 0 else 32) := by
  unfold spanShape
  cases p.payload <;> rfl

theorem spanBytes_eq (p : Span) : spanBytes p = natBytes 2 p.symbols ++ [BitVec.ofNat 8
      ((match p.rate with | .zero => 0 | .one => 128) + (match p.levels with | .two => 0 | .four => 64) +
        (if p.payload = none then 0 else 32))] ++
    (match p.payload with | some x => natBytes 2 x | none => [0, 0]) := by
  rw [spanBytes, natBytes_one, spanShape_eq]
  cases p.payload <;> rfl

theorem spanBytes_length (p : Span) : (spanBytes p).length = 5 := by
  simp only [spanBytes, List.length_append, natBytes_length]

/-- The covered bytes of an outbound frame (09, Highway frames). -/
def HighwayFrame.covered : HighwayFrame → List Byte
  | .probe site sequence => [1, BitVec.ofNat 8 site.val, BitVec.ofNat 8 sequence]
  | .abort site channel tag =>
    [2, BitVec.ofNat 8 site.val, BitVec.ofNat 8 channel.val] ++ natBytes 2 tag
  | .order site channel tag hold preKey spans =>
    [3, BitVec.ofNat 8 site.val, BitVec.ofNat 8 channel.val] ++ natBytes 2 tag ++ natBytes 3 hold.ticks ++
      [BitVec.ofNat 8 (hold.fine * 16 + (if preKey then 8 else 0) + spans.length)] ++
      spans.flatMap spanBytes

theorem HighwayFrame.bytes_eq (f : HighwayFrame) :
    f.bytes = flagByte :: (f.covered ++ natBytes 2 (crc16 f.covered).toNat) := by
  have marked (b : Bool) : b.toNat * 8 = if b then 8 else 0 := by cases b <;> rfl
  cases f <;>
    simp only [HighwayFrame.bytes, HighwayFrame.covered, withCheck, natBytes_one, marked, List.cons_append,
      List.nil_append, List.append_assoc] <;> rfl

theorem HighwayFrame.covered_length (f : HighwayFrame) : f.covered.length = match f with
    | .probe _ _ => 3
    | .abort _ _ _ => 5
    | .order _ _ _ _ _ spans => 9 + 5 * spans.length := by
  cases f <;> simp [HighwayFrame.covered, natBytes_length, List.length_flatMap, spanBytes_length]
  omega

/-- Settles O56, byte by byte for the frames sent and reader by reader for those received. -/
theorem framesReadBackAsTheirRows : Obligations.FramesReadBackAsTheirRows := by
  refine ⟨fun f => ?_, fun i bytes more fits spelled => readCommandFrame_commandFrame fits spelled more,
    fun site sq turn bytes known spelled => ?_,
    fun site channel tag verdict turn bytes known valid spelled => ?_⟩
  · intro bytes span covered
    have spelled : bytes = natBytes := funext fun n => funext fun v => (natBytes_eq n v).symm
    have spans : span = spanBytes := by
      funext p
      rw [spanBytes_eq, ← spelled] <;> rfl
    have covers : covered = f.covered := by
      cases f <;> simp only [covered, HighwayFrame.covered, spelled, spans]
    rw [f.bytes_eq, covers, spelled]
    refine ⟨rfl, ?_⟩
    rw [List.length_cons, List.length_append, natBytes_length, f.covered_length]
    cases f
    · rfl
    · rfl
    · simp only
      omega
  · cases spelled
    exact readInboundFrame_echo known
  · cases spelled
    exact readInboundFrame_receipt known valid

end Sys2Proof.Machine
end
